-- ==== Sys2Proof/Word.lean ====
section
/-! DEFINITION. Words, bytes and the plainest arithmetic on them (R4, R5). -/

namespace Sys2Proof

/-- A 64-bit register value (R128). -/
abbrev Word := BitVec 64

/-- The smallest addressable unit (R4). -/
abbrev Byte := BitVec 8

end Sys2Proof
end

