-- ==== Sys2Proof/Config.lean ====
section
/-! DEFINITION. What an implementation fixes and the spec leaves open: constants without a body, so
that no proof can rest on a value of one (notes/assumptions/3.md). -/

namespace Sys2Proof.Config

/-- PKGID.STEP, silicon stepping: no value given (R42). -/
opaque stepping : BitVec 8

/-- ATTKEY, the device attestation public key (R42, R59). -/
opaque attestationKey : BitVec 256

/-- An SLH-DSA-SHA2-128f signature under the device attestation key, 17,088 bytes as a number, little-endian, of
a message given as bytes (R59, R60). The signature scheme is FIPS 205's, not this spec's. -/
opaque signature : List Byte → BitVec 136704

/-- The n-th key drawn from the device's CTR_DRBG: the two 256-bit keys of AES-256-XTS, the data key in the low half, each with
its first byte lowest (R73). No agent can read a key. -/
opaque drawnKey : Nat → BitVec 512

/-- The n-th value the spec leaves open of a 64-bit register. `n` is `State.fresh`, which the step reads and
advances. -/
opaque freeValue : Nat → Word

end Sys2Proof.Config
end

