-- ==== Sys2Proof/Syntax.lean ====
section
/-! DEFINITION. The steps of the device: one constructor of `Instr` per row of spec/opcode_table.json. Cyale
instructions carry their decoded operands (R237–R248). Device steps carry what names the place they act on, and the
facts that come from outside the device (R10, spec/95). -/

namespace Sys2Proof

/-- Register codes (R239). -/
inductive Reg where
  | g (n : BitVec 6)
  | h (n : BitVec 4)
  | q (n : BitVec 4)
  | i (n : BitVec 2)
  deriving DecidableEq, Repr

/-- Control registers (R240). -/
inductive CtlReg where
  | status | seg | tvec | tdeleg | tinfo | taddr | time | wall
  | fmt (k : BitVec 2)
  | scl | vshape | asid | skid
  deriving DecidableEq, Repr

/-- SZ (R241). -/
inductive Size where
  | b | h | w | d
  deriving DecidableEq, Repr

/-- SC, the scopes of R8. -/
inductive Scope where
  | thr | core | clu | die | pkg | sys
  deriving DecidableEq, Repr

/-- SK, units annulled by a skip compare (R241). -/
inductive SkipCount where
  | one | two | three
  deriving DecidableEq, Repr

/-- RM (R188). -/
inductive Rm where
  | rne | rtz | ru | rd | sr
  deriving DecidableEq, Repr

/-- COND of sk and cset (R242). -/
inductive ICond where
  | eq | ne | lt | ge | ltu | geu | bs | bc
  deriving DecidableEq, Repr

/-- COND of fsk and fcset (R242). -/
inductive FCond where
  | eq | ne | lt | ge | un | or
  deriving DecidableEq, Repr

/-- COND of skf (R242). -/
inductive FeCond where
  | full | empty
  deriving DecidableEq, Repr

/-- TY of mma (R248). -/
inductive MmaTy where
  | i8 | f16 | bf16 | nf
  deriving DecidableEq, Repr

/-- TY of pmm (R248). -/
inductive PmmTy where
  | ph16 | ph8
  deriving DecidableEq, Repr

/-- TY of acc.cvt (R248). -/
inductive CvtTy where
  | f16 | bf16 | nf
  deriving DecidableEq, Repr

/-- CVK of ph.cvt (R241). -/
inductive Cvk where
  | fp | pf | wide | narrow
  deriving DecidableEq, Repr

/-- A firmware image as the boot ROM sees it (R40): its 32-byte public key, its security version, the digest of its
body, and whether its SLH-DSA signature verifies under that key. -/
structure FwImage where
  key : BitVec 256
  version : BitVec 32
  digest : BitVec 256
  sigVerifies : Bool
  deriving DecidableEq, Repr

/-- What start-up finds on the hardware (R39): for steps 2 to 5 the failing step and its DETAIL code (step 0 when
none fails), and the device-link ports whose training succeeds. -/
structure StartUp where
  failStep : BitVec 8
  detail : BitVec 8
  linksUp : BitVec 16
  deriving DecidableEq, Repr

/-- One constructor per row of spec/opcode_table.json: the Cyale instructions, then the device steps. -/
inductive Instr where
  -- control transfer and skips (R256–R264)
  | br (imm : BitVec 19)
  | bl (imm : BitVec 19)
  | nestEnd (imm : BitVec 13)
  | bz (ra : BitVec 6) (imm : BitVec 19)
  | bnz (ra : BitVec 6) (imm : BitVec 19)
  | sk (c : ICond) (k : SkipCount) (ra rb : Reg)
  | fsk (c : FCond) (k : SkipCount) (ra rb : Reg)
  | skf (c : FeCond) (k : SkipCount) (ra : Reg)
  | skImm (c : ICond) (k : SkipCount) (ra : BitVec 6) (imm : BitVec 13)
  | jr (ra : Reg)
  | jlr (rd ra : Reg)
  | nest (rd ra : Reg)
  -- memory (R282–R286)
  | ld (sz : Size) (rd ra : BitVec 6) (imm : BitVec 13)
  | ldX (sz : Size) (rd : Reg) (ra : BitVec 6) (imm : BitVec 13)
  | st (sz : Size) (rd ra : BitVec 6) (imm : BitVec 13)
  | ldWf (sz : Size) (rd : Reg) (ra rb : BitVec 6)
  | ldTk (sz : Size) (rd : Reg) (ra rb : BitVec 6)
  | stFl (sz : Size) (rd : Reg) (ra rb : BitVec 6)
  | feWf (rd : Reg) (ra rb : BitVec 6)
  | feTk (rd : Reg) (ra rb : BitVec 6)
  | feFl (rd : Reg) (ra rb : BitVec 6)
  | feq (rd : Reg) (ra : BitVec 6)
  | fence (sc : Scope)
  | sfence (sc : Scope)
  | lfence (sc : Scope)
  -- atomics (R287–R290); d: true for .d
  | amoAdd (d : Bool) (sc : Scope) (rd ra rb : BitVec 6)
  | amoAnd (d : Bool) (sc : Scope) (rd ra rb : BitVec 6)
  | amoOr (d : Bool) (sc : Scope) (rd ra rb : BitVec 6)
  | amoXor (d : Bool) (sc : Scope) (rd ra rb : BitVec 6)
  | amoSwap (d : Bool) (sc : Scope) (rd ra rb : BitVec 6)
  | amoCas (d : Bool) (sc : Scope) (rd ra rb : BitVec 6)
  | amoMin (d : Bool) (sc : Scope) (rd ra rb : BitVec 6)
  | amoMax (d : Bool) (sc : Scope) (rd ra rb : BitVec 6)
  | amoMinu (d : Bool) (sc : Scope) (rd ra rb : BitVec 6)
  | amoMaxu (d : Bool) (sc : Scope) (rd ra rb : BitVec 6)
  | amoFadd (sc : Scope) (rd ra rb : BitVec 6)
  | amoLd (d : Bool) (sc : Scope) (rd ra : BitVec 6)
  -- sync cells (R292–R297)
  | syncInit (rd ra rb : Reg)
  | acq (rd ra : Reg)
  | tryacq (rd ra : Reg)
  | rel (ra : Reg)
  | syncCall (rd ra rb : Reg)
  | arrive (rd ra rb : Reg)
  | arriveWait (rd ra : Reg)
  | syncMode (rd ra rb : Reg)
  | syncPol (rd ra rb : Reg)
  | sbExpect (rd ra rb : Reg)
  | sbWait (rd ra rb : Reg)
  -- rings (R298–R303)
  | ringOpen (rd ra rb : Reg)
  | ringResv (rd ra rb : Reg)
  | ringPub (rd ra rb : Reg)
  | ringWait (rd ra rb : Reg)
  | ringFree (rd ra rb : Reg)
  | ringAdv (ra rb : Reg)
  -- work (R308–R315)
  | spawn (rd ra rb : Reg)
  | join (ra : Reg)
  | go (ra : Reg)
  | msgSend (ra rb : Reg)
  | yield
  | exit (ra rb : Reg)
  -- engine contexts and copy engine (R316–R321)
  | engClaim (rd : Reg)
  | engRel
  | cp1d (rd ra rb : Reg)
  | cp2d (rd ra rb : Reg)
  | cpGather (rd ra rb : Reg)
  | cpScatter (rd ra rb : Reg)
  | cpLink (rd ra : Reg)
  | cpWait (rd ra : Reg)
  -- Mandrel, Parting unit, digests (R322–R328)
  | plBind (rd ra : Reg)
  | plQuery (rd ra rb : Reg)
  | plDetach (rd ra : Reg)
  | plEnd (rd ra : Reg)
  | partPost (rd ra rb : Reg)
  | partQuery (rd ra rb : Reg)
  | dgFold (ra : Reg)
  | dgClose (rd : Reg)
  -- system (R266–R279)
  | eret
  | ctlRd (rd : Reg) (c : CtlReg)
  | ctlWr (c : CtlReg) (ra : Reg)
  | tlbInv (ra rb : Reg)
  | step (rd ra rb : Reg)
  | wpSet (ra rb : Reg)
  | wpClr (ra : Reg)
  | halt
  | ctlRdx (rd : Reg) (c : CtlReg) (rb : Reg)
  | ctlWrx (c : CtlReg) (ra rb : Reg)
  | eretx (rd ra rb : Reg)
  | sys (imm : BitVec 13)
  | brk (imm : BitVec 13)
  -- integer (R252–R255, R259)
  | add (rd ra rb : Reg)
  | sub (rd ra rb : Reg)
  | and (rd ra rb : Reg)
  | or (rd ra rb : Reg)
  | xor (rd ra rb : Reg)
  | shl (rd ra rb : Reg)
  | shr (rd ra rb : Reg)
  | sra (rd ra rb : Reg)
  | mul (rd ra rb : Reg)
  | mulh (rd ra rb : Reg)
  | mulhu (rd ra rb : Reg)
  | min (rd ra rb : Reg)
  | max (rd ra rb : Reg)
  | minu (rd ra rb : Reg)
  | maxu (rd ra rb : Reg)
  | adds (rd ra rb : Reg)
  | div (rd ra rb : Reg)
  | divu (rd ra rb : Reg)
  | rem (rd ra rb : Reg)
  | remu (rd ra rb : Reg)
  | clz (rd ra : Reg)
  | ctz (rd ra : Reg)
  | popc (rd ra : Reg)
  | sxb (rd ra : Reg)
  | sxh (rd ra : Reg)
  | sxw (rd ra : Reg)
  | subs (rd ra rb : Reg)
  | csel (rd ra rb : Reg)
  | addImm (rd ra : BitVec 6) (imm : BitVec 13)
  | addImmX (rd : Reg) (ra : BitVec 6) (imm : BitVec 13)
  | andImm (rd ra : BitVec 6) (imm : BitVec 13)
  | orImm (rd ra : BitVec 6) (imm : BitVec 13)
  | xorImm (rd ra : BitVec 6) (imm : BitVec 13)
  | shlImm (rd ra : BitVec 6) (sh : BitVec 6)
  | shrImm (rd ra : BitVec 6) (sh : BitVec 6)
  | sraImm (rd ra : BitVec 6) (sh : BitVec 6)
  | mulImm (rd ra : BitVec 6) (imm : BitVec 13)
  | cset (c : ICond) (rd : BitVec 6) (ra rb : Reg)
  | fcset (c : FCond) (rd : BitVec 6) (ra rb : Reg)
  | cmp (rd : BitVec 6) (ra rb : Reg)
  | sett (rd : BitVec 6) (imm : BitVec 13)
  | setm (rd : BitVec 6) (imm : BitVec 19)
  | seth (rd : BitVec 6) (imm : BitVec 19)
  -- vector (R343–R345)
  | vadd (rm : Rm) (vd va vb : BitVec 4)
  | vsub (rm : Rm) (vd va vb : BitVec 4)
  | vmul (rm : Rm) (vd va vb : BitVec 4)
  | vfma (rm : Rm) (vd va vb : BitVec 4)
  | vmin (vd va vb : BitVec 4)
  | vmax (vd va vb : BitVec 4)
  | vabs (vd va : BitVec 4)
  | vneg (vd va : BitVec 4)
  | vand (vd va vb : BitVec 4)
  | vor (vd va vb : BitVec 4)
  | vxor (vd va vb : BitVec 4)
  | vshl (vd va : BitVec 4) (rs : BitVec 6)
  | vshr (vd va : BitVec 4) (rs : BitVec 6)
  | vcvt (rm : Rm) (vd va : BitVec 4) (rs : BitVec 6)
  | vcmp (vd va vb : BitVec 4) (rs : BitVec 6)
  | vsel (vd va vb : BitVec 4)
  | vbcast (vd : BitVec 4) (rs : BitVec 6)
  | vld (vd : BitVec 4) (rs : BitVec 6)
  | vst (va : BitVec 4) (rs : BitVec 6)
  | vsum (rm : Rm) (vd va : BitVec 4)
  | vrmax (vd va : BitVec 4)
  | vshuf (vd va vb : BitVec 4)
  | vpack (rm : Rm) (vd va vb : BitVec 4)
  | vunpack (vd va : BitVec 4) (rs : BitVec 6)
  | viota (vd : BitVec 4) (rs : BitVec 6)
  | vmov (vd va : BitVec 4)
  -- special functions (R347)
  | sfRcp (rd ra : Reg)
  | sfSqrt (rd ra : Reg)
  | sfRsqrt (rd ra : Reg)
  | sfExp2 (rd ra : Reg)
  | sfLog2 (rd ra : Reg)
  | sfSinpi (rd ra : Reg)
  | sfCospi (rd ra : Reg)
  -- tiles and matrix (R336–R341)
  | mma (ty : MmaTy) (ka kb : BitVec 2) (ad : BitVec 2) (ta tb : BitVec 3) (rs : BitVec 6)
  | pmm (ty : PmmTy) (ad : BitVec 2) (ta tb : BitVec 3)
  | tld (t : BitVec 3) (rs : BitVec 6)
  | tst (t : BitVec 3) (rs : BitVec 6)
  | tdescWr (t : BitVec 3) (rs : BitVec 6)
  | tdescRd (t : BitVec 3) (rs : BitVec 6)
  | accZero (ad : BitVec 2)
  | accSt (ad : BitVec 2) (rs : BitVec 6)
  | accLd (ad : BitVec 2) (rs : BitVec 6)
  | accCvt (ty : CvtTy) (ka : BitVec 2) (ad : BitVec 2) (t : BitVec 3) (rs : BitVec 6)
  | srSeed (rs : BitVec 6)
  -- phasor and quantise (R348–R352)
  | phCvt (k : Cvk) (vd va : BitVec 4)
  | phMul (vd va vb : BitVec 4)
  | phRed (vd va : BitVec 4) (rs : BitVec 6)
  | phCmp (vd va vb : BitVec 4)
  | phCos (vd va : BitVec 4)
  | phSin (vd va : BitVec 4)
  | qhist (vd va : BitVec 4) (rs : BitVec 6)
  | qclip (vd va : BitVec 4) (rs : BitVec 6)
  | qnt (rm : Rm) (vd va vb : BitVec 4) (rs : BitVec 6)
  | dq (vd va : BitVec 4) (rs : BitVec 6)
  -- dispatch and scheduling (R79–R98)
  | packetReady (fn queue index : Nat)
  | placerChoose (part : Nat)
  | placementAgeLimit (fn queue : Nat)
  | rotationBoundary (core : Nat)
  | serveTurn (core : Nat)
  | taskRetire (task : Nat)
  | idleSlotTakeWork (core slot : Nat)
  | stealRequestArrive (msg : Nat)
  | stealReplyArrive (msg : Nat)
  | stealBackoffExpire (core : Nat)
  | contextMessageArrive (msg : Nat)
  | contextMessageResend (msg : Nat)
  | messageArrive (msg : Nat)
  | messageResend (msg : Nat)
  | preempt (core slot : Nat)
  | contextResume (tid core slot : Nat)
  | chuckEvict (core : Nat)
  | slotBoundary (part : Nat)
  | slotHandover (core slot : Nat)
  | handoverNoTurnTimeout (core slot : Nat)
  | handoverWindowClose (core : Nat)
  | threadStop (tid : Nat)
  -- firmware, power, thermal (R35, R37–R41, R59, R97, R98)
  | powerOn (hw : StartUp)
  | firmwareLoad (img : FwImage) (hw : StartUp)
  | thermalTrip (die tempC : Nat)
  | powerLimitCheck (milliwatts : Nat) (hottestFirst : List Nat)
  | thermalCheck (core : Nat) (tempC : Int)
  | thermalRankingUpdate (part : Nat) (coolestFirst : List Nat)
  | patrolScrub (pa : Nat) (correctable : Bool)
  | auditHeadSign (part : Nat)
  -- PTP (R18, R42)
  | ptpEventMessage (port time : Nat)
  | ptpSourceLost
  | ptpSourceReturn
  | ptpSet (time : Word)
  -- device links (R16, R43, R320)
  | linkFlitCrcFail (port : Nat)
  | linkRetrain (port : Nat) (value : Word)
  | linkTrainingComplete (port : Nat) (up : Bool)
  | cpLinkLineArrive (asid : Nat) (va : Word) (data : List Byte)
  -- host queues and commands (R44–R60)
  | sqDoorbell (fn q : Nat) (value : Word)
  | cqDoorbell (fn q : Nat) (value : Word)
  | queueEnable (fn q : Nat) (value : Word)
  | queueDisable (fn q : Nat) (value : Word)
  | qstatClear (fn q : Nat) (value : Word)
  | sqFetch (fn q : Nat)
  | seqRetry (fn q : Nat)
  | cqPost (cmd : Nat)
  | launch (cmd : Nat)
  | seal (cmd : Nat)
  | deadline (cmd : Nat)
  | harvest (cmd : Nat)
  | copyIn (cmd : Nat)
  | copyOut (cmd : Nat)
  | resetFunction (cmd : Nat)
  | attest (cmd : Nat)
  -- control registers (R42, R61–R72, R84, R113, R208)
  | registerWrite (offset : Nat) (value : Word)
  | eccCounterClear (cls : Nat) (value : Word)
  | partitionConfigure (part : Nat) (value : Word)
  | partitionTeardown (part : Nat) (value : Word)
  | teardownComplete (part : Nat)
  | vfmapEnable (fn : Nat) (value : Word)
  | vfmapDisable (fn : Nat) (value : Word)
  | asidMakeLive (asid : Nat) (value : Word)
  | asidRemove (asid : Nat) (value : Word)
  | s2invAll (value : Word)
  | s2invRange (value : Word)
  | s2invComplete
  | fgownGrant (value : Word)
  | frameZeroComplete (frame : Nat)
  | rturnWrite (core turn : Nat) (value : Word)
  | deadlineReopen (part entry : Nat) (value : Word)
  | mboxWrite (part : Nat) (value : Word)
  -- fabric (R23–R33)
  | routerPacketReceive (msg : Nat) (hdr : BitVec 96)
  | escapeTimeout (msg : Nat)
  | combineArrive (msg : Nat)
  | combineReply (msg : Nat)
  -- home agents, replies, fences, translation (R25, R67, R126, R162, R164, R173–R175, R286)
  | homeAgentAccess (msg : Nat)
  | probeAtBank (msg : Nat)
  | storeAckArrive (msg : Nat)
  | replyFill (msg : Nat)
  | fenceComplete (tid : Nat)
  | fabricResponseTimeout (tid : Nat)
  | boundedWaitExpire (tid : Nat)
  | waitCancelAtHome (msg : Nat)
  | tlbWalkComplete (walk : Nat)
  -- sync cells at their bank (R149–R160)
  | cellAcquireAtBank (msg : Nat)
  | cellReleaseAtBank (msg : Nat)
  | barrierArrivalAtBank (msg : Nat)
  | counterArrivalAtBank (msg : Nat)
  | sbExpectAtBank (msg : Nat)
  | byteBarrierDelivery (msg : Nat)
  | sectionStart (msg : Nat)
  -- traps and debug (R204–R213)
  | trapDeliver (tid : Nat)
  | mailboxPost (part : Nat)
  | engineFault (core unit : Nat)
  | stopBroadcastArrive (core : Nat)
  -- engines (R88, R131–R133, R319–R321, R332)
  | engineInstructionEnd (core unit : Nat)
  | matrixStepEnd (core : Nat)
  | engineSpillComplete (core : Nat)
  | copyCommandStart (core : Nat)
  | copyLineWrite (core : Nat)
  | copyCommandEnd (core : Nat)
  | sfuRequestServe (cluster : Nat)
  -- the Mandrel and the Parting unit (R100–R124)
  | mandrelBind (msg : Nat)
  | pipelineLeave (part pipe : Nat)
  | drainComplete (part pipe : Nat)
  | instanceFail (part inst : Nat)
  | mandrelEventWrite (part pipe : Nat)
  | partingTick (part entry : Nat)
  | partingCutoff (part entry : Nat)
  | checkpointImagesWritten (part entry unit : Nat)
  -- power and host events (R41, R76, R180)
  | powerLoss (imageBeingWritten : Bool)
  | functionResetComplete (fn : Nat)
  | hostPostedWrite
  deriving DecidableEq, Repr

end Sys2Proof
end

