-- ==== Sys2Proof/WellFormed.lean ====
section
/-! DEFINITION. Which terms of `Instr` stand for something the spec allows: destination limits (R239), field
combinations (R244, R248), bit-number immediates (R257), and for device steps the ranges of the things they name
(R12, R16, R44, R62, R63). -/

namespace Sys2Proof

/-- i0–i3 are never a destination (R239), and RD never names them in a word of OP 0x1A–0x1C, where some read it (R306). -/
def Reg.dstOk : Reg → Bool
  | .i _ => false
  | .g _ | .h _ | .q _ => true

/-- The X forms name h0–h15 or q0–q15 (R239, R254, R283). -/
def Reg.xOk : Reg → Bool
  | .h _ | .q _ => true
  | .g _ | .i _ => false

/-- For .bs and .bc the immediate is a bit number 0–63 (R257). -/
def ICond.immOk : ICond → BitVec 13 → Bool
  | .bs, imm | .bc, imm => imm.toNat < 64
  | .eq, _ | .ne, _ | .lt, _ | .ge, _ | .ltu, _ | .geu, _ => true

def coreOk (n : Nat) : Bool := n < 4096
def slotOk (n : Nat) : Bool := n < 16
def partOk (n : Nat) : Bool := n < 16
def fnOk (n : Nat) : Bool := n ≤ 1024
def queueOk (n : Nat) : Bool := n < 64
def asidOk (n : Nat) : Bool := n < 1024
def portOk (n : Nat) : Bool := n < 16

/-- Well-formed instructions and device steps. -/
def Instr.wellFormed : Instr → Bool
  | .powerOn hw => hw.failStep.toNat ∈ [0, 2, 3, 4, 5]
  | .firmwareLoad _ hw => hw.failStep.toNat ∈ [0, 2, 3, 4, 5]
  | .thermalTrip die _ => die < 4
  | .powerLimitCheck _ cs => cs.all (· < 512)
  | .thermalCheck core _ => coreOk core
  | .thermalRankingUpdate part cs => partOk part && cs.all coreOk
  | .patrolScrub pa _ => pa < 2 ^ 52 && pa % 8 = 0
  | .auditHeadSign part => partOk part
  | .ptpEventMessage port _ => portOk port
  | .ptpSourceLost | .ptpSourceReturn | .ptpSet _ => true
  | .linkFlitCrcFail port | .linkRetrain port _ | .linkTrainingComplete port _ => portOk port
  | .cpLinkLineArrive asid _ data => asidOk asid && 0 < data.length && data.length ≤ 64
  | .sqDoorbell fn q _ | .cqDoorbell fn q _ | .queueEnable fn q _ | .queueDisable fn q _ | .qstatClear fn q _
  | .sqFetch fn q | .seqRetry fn q => fnOk fn && queueOk q
  | .cqPost _ | .launch _ | .seal _ | .deadline _ | .harvest _ | .copyIn _ | .copyOut _ | .resetFunction _
  | .attest _ => true
  | .registerWrite off _ => off < 2 ^ 32 + 1025 * 2 ^ 16 && off % 8 = 0
  | .eccCounterClear cls _ => cls < 12
  | .partitionConfigure part _ | .partitionTeardown part _ | .teardownComplete part => partOk part
  | .vfmapEnable fn _ | .vfmapDisable fn _ => fnOk fn && 0 < fn
  | .asidMakeLive asid _ | .asidRemove asid _ => asidOk asid
  | .s2invAll _ | .s2invRange _ | .s2invComplete | .fgownGrant _ => true
  | .frameZeroComplete frame => frame < 2 ^ 40
  | .rturnWrite core turn _ => coreOk core && turn < 32
  | .deadlineReopen part entry _ => partOk part && entry < 4
  | .mboxWrite part _ => partOk part
  | .routerPacketReceive _ _ | .escapeTimeout _ | .combineArrive _ | .combineReply _ | .homeAgentAccess _
  | .probeAtBank _ | .storeAckArrive _ | .replyFill _ | .fenceComplete _ | .fabricResponseTimeout _
  | .boundedWaitExpire _ | .waitCancelAtHome _ | .tlbWalkComplete _ | .cellAcquireAtBank _ | .cellReleaseAtBank _
  | .barrierArrivalAtBank _ | .counterArrivalAtBank _ | .sbExpectAtBank _ | .byteBarrierDelivery _
  | .sectionStart _ => true
  | .packetReady fn queue _ | .placementAgeLimit fn queue => fnOk fn && queueOk queue
  | .placerChoose part => partOk part
  | .rotationBoundary core | .serveTurn core => coreOk core
  | .taskRetire _ => true
  | .idleSlotTakeWork core slot => coreOk core && slotOk slot
  | .stealRequestArrive _ | .stealReplyArrive _ => true
  | .stealBackoffExpire core => coreOk core
  | .contextMessageArrive _ | .contextMessageResend _ | .messageArrive _ | .messageResend _ => true
  | .preempt core slot | .contextResume _ core slot => coreOk core && slotOk slot
  | .chuckEvict core => coreOk core
  | .slotBoundary part => partOk part
  | .slotHandover core slot | .handoverNoTurnTimeout core slot => coreOk core && slotOk slot
  | .handoverWindowClose core => coreOk core
  | .threadStop _ | .trapDeliver _ => true
  | .mailboxPost part => partOk part
  | .engineFault core unit | .engineInstructionEnd core unit => coreOk core && unit < 2
  | .stopBroadcastArrive core | .matrixStepEnd core | .engineSpillComplete core | .copyCommandStart core
  | .copyLineWrite core | .copyCommandEnd core => coreOk core
  | .sfuRequestServe cluster => cluster < 512
  | .mandrelBind _ => true
  | .pipelineLeave part pipe | .drainComplete part pipe | .mandrelEventWrite part pipe => partOk part && pipe < 256
  | .instanceFail part _ => partOk part
  | .partingTick part entry | .partingCutoff part entry | .checkpointImagesWritten part entry _ =>
    partOk part && entry < 4
  | .br _ | .bl _ | .nestEnd _ | .bz _ _ | .bnz _ _ | .sk _ _ _ _ | .fsk _ _ _ _ | .skf _ _ _ => true
  | .skImm c _ _ imm => c.immOk imm
  | .jr _ => true
  | .jlr rd _ | .nest rd _ => rd.dstOk
  | .ld _ _ _ _ => true
  | .ldX _ rd _ _ => rd.xOk
  | .st _ _ _ _ => true
  | .ldWf _ rd _ _ | .ldTk _ rd _ _ => rd.dstOk
  | .stFl _ _ _ _ => true
  | .feWf rd _ _ | .feTk rd _ _ | .feFl rd _ _ | .feq rd _ => rd.dstOk
  | .fence _ | .sfence _ | .lfence _ => true
  | .amoAdd _ _ _ _ _ | .amoAnd _ _ _ _ _ | .amoOr _ _ _ _ _ | .amoXor _ _ _ _ _ | .amoSwap _ _ _ _ _
  | .amoCas _ _ _ _ _ | .amoMin _ _ _ _ _ | .amoMax _ _ _ _ _ | .amoMinu _ _ _ _ _ | .amoMaxu _ _ _ _ _
  | .amoFadd _ _ _ _ | .amoLd _ _ _ _ => true
  | .syncInit rd _ _ | .syncCall rd _ _ | .arrive rd _ _ | .syncMode rd _ _ | .syncPol rd _ _ | .sbExpect rd _ _
  | .sbWait rd _ _ => rd.dstOk
  | .acq rd _ | .tryacq rd _ | .arriveWait rd _ => rd.dstOk
  | .rel _ => true
  | .ringOpen rd _ _ | .ringResv rd _ _ | .ringWait rd _ _ | .ringFree rd _ _ => rd.dstOk
  | .ringPub _ _ _ | .ringAdv _ _ => true
  | .spawn rd _ _ => rd.dstOk
  | .join _ | .go _ | .msgSend _ _ | .yield | .exit _ _ => true
  | .engClaim rd => rd.dstOk
  | .engRel => true
  | .cp1d rd _ _ | .cp2d rd _ _ | .cpGather rd _ _ | .cpScatter rd _ _ | .cpLink rd _ => rd.dstOk
  | .cpWait rd _ => rd.dstOk
  | .plBind rd _ | .plDetach rd _ | .plEnd rd _ => rd.dstOk
  | .plQuery rd _ _ | .partPost rd _ _ | .partQuery rd _ _ => rd.dstOk
  | .dgFold _ => true
  | .dgClose rd => rd.dstOk
  | .eret | .halt => true
  | .ctlRd rd _ | .ctlRdx rd _ _ => rd.dstOk
  | .ctlWr _ _ | .tlbInv _ _ | .wpSet _ _ | .wpClr _ | .ctlWrx _ _ _ => true
  | .step rd _ _ | .eretx rd _ _ => rd.dstOk
  | .sys _ | .brk _ => true
  | .add rd _ _ | .sub rd _ _ | .and rd _ _ | .or rd _ _ | .xor rd _ _ | .shl rd _ _ | .shr rd _ _ | .sra rd _ _
  | .mul rd _ _ | .mulh rd _ _ | .mulhu rd _ _ | .min rd _ _ | .max rd _ _ | .minu rd _ _ | .maxu rd _ _
  | .adds rd _ _ | .div rd _ _ | .divu rd _ _ | .rem rd _ _ | .remu rd _ _ | .subs rd _ _ | .csel rd _ _ => rd.dstOk
  | .clz rd _ | .ctz rd _ | .popc rd _ | .sxb rd _ | .sxh rd _ | .sxw rd _ => rd.dstOk
  | .addImm _ _ _ => true
  | .addImmX rd _ _ => rd.xOk
  | .andImm _ _ _ | .orImm _ _ _ | .xorImm _ _ _ | .shlImm _ _ _ | .shrImm _ _ _ | .sraImm _ _ _
  | .mulImm _ _ _ => true
  | .cset _ _ _ _ | .fcset _ _ _ _ | .cmp _ _ _ | .sett _ _ | .setm _ _ | .seth _ _ => true
  | .vadd _ _ _ _ | .vsub _ _ _ _ | .vmul _ _ _ _ | .vfma _ _ _ _ | .vmin _ _ _ | .vmax _ _ _ | .vabs _ _
  | .vneg _ _ | .vand _ _ _ | .vor _ _ _ | .vxor _ _ _ | .vshl _ _ _ | .vshr _ _ _ | .vcvt _ _ _ _
  | .vcmp _ _ _ _ | .vsel _ _ _ | .vbcast _ _ | .vld _ _ | .vst _ _ | .vsum _ _ _ | .vrmax _ _ | .vshuf _ _ _
  | .vpack _ _ _ _ | .vunpack _ _ _ | .viota _ _ | .vmov _ _ => true
  | .sfRcp rd _ | .sfSqrt rd _ | .sfRsqrt rd _ | .sfExp2 rd _ | .sfLog2 rd _ | .sfSinpi rd _ | .sfCospi rd _ =>
    rd.dstOk
  | .mma ty ka kb _ _ _ rs => ty = .nf || (ka = 0 && kb = 0 && rs = 0)
  | .pmm _ _ _ _ | .tld _ _ | .tst _ _ | .tdescWr _ _ | .tdescRd _ _ | .accZero _ | .accSt _ _ | .accLd _ _ => true
  | .accCvt ty ka _ _ rs => ty = .nf || (ka = 0 && rs = 0)
  | .srSeed _ => true
  | .phCvt _ _ _ | .phMul _ _ _ | .phRed _ _ _ | .phCmp _ _ _ | .phCos _ _ | .phSin _ _ | .qhist _ _ _
  | .qclip _ _ _ | .qnt _ _ _ _ _ | .dq _ _ _ => true
  | .powerLoss _ => true
  | .functionResetComplete fn => fnOk fn && 0 < fn
  | .hostPostedWrite => true

end Sys2Proof
end

