-- ==== Sys2Proof/Decode.lean ====
section
/-! DEFINITION. The decoder and the encoder, both from the format maps and the OP and FN maps of
spec/12_formats_and_opcode_map.md (R237–R249). The decoder of a word reads bits [30:0]; bit 31 is the L bit of the
doubleword (R237), judged in `decodeUnit`. -/

/-- Bits [lo+len−1:lo] of an instruction word (R5). -/
def BitVec.field (w : BitVec 32) (lo len : Nat) : BitVec len := w.extractLsb' lo len

namespace Sys2Proof

/-- `x` when the condition holds: a field that must be zero is (R249). -/
def guarded (c : Prop) [Decidable c] (x : Option Instr) : Option Instr := if c then x else none

/-- Register code of R239. -/
def Reg.code : Reg → BitVec 7
  | .g n => 0#1 ++ n
  | .h n => 0b100#3 ++ n
  | .q n => 0b101#3 ++ n
  | .i n => 0b11000#5 ++ n

/-- The register of a code; 0x64–0x7F are illegal (R239). -/
def Reg.ofCode (c : BitVec 7) : Option Reg :=
  if c.extractLsb' 6 1 = 0 then some (.g (c.extractLsb' 0 6))
  else if c.extractLsb' 4 3 = 0b100 then some (.h (c.extractLsb' 0 4))
  else if c.extractLsb' 4 3 = 0b101 then some (.q (c.extractLsb' 0 4))
  else if c.extractLsb' 2 5 = 0b11000 then some (.i (c.extractLsb' 0 2))
  else none

/-- The 6-bit RD field of the X forms, code − 0x40 (R239). -/
def Reg.xcode : Reg → BitVec 6
  | .h n => 0b00#2 ++ n
  | .q n => 0b01#2 ++ n
  | .g _ | .i _ => 0x3F

/-- The register of an X-form field (R239, R254, R283). -/
def Reg.ofXcode (c : BitVec 6) : Option Reg :=
  if c.extractLsb' 4 2 = 0b00 then some (.h (c.extractLsb' 0 4))
  else if c.extractLsb' 4 2 = 0b01 then some (.q (c.extractLsb' 0 4))
  else none

/-- A destination register code: any but i0–i3 (R239). -/
def Reg.ofDstCode (c : BitVec 7) : Option Reg :=
  (Reg.ofCode c).bind fun r => if r.dstOk then some r else none

/-- Control-register codes (R240). -/
def CtlReg.code : CtlReg → BitVec 7
  | .status => 0 | .seg => 1 | .tvec => 2 | .tdeleg => 3 | .tinfo => 4 | .taddr => 5 | .time => 6 | .wall => 7
  | .fmt k => 0b00010#5 ++ k
  | .scl => 12 | .vshape => 13 | .asid => 14 | .skid => 15

/-- Control-register codes (R240); 16 and above are illegal. -/
def CtlReg.ofCode (c : BitVec 7) : Option CtlReg :=
  match c.toNat with
  | 0 => some .status | 1 => some .seg | 2 => some .tvec | 3 => some .tdeleg | 4 => some .tinfo | 5 => some .taddr
  | 6 => some .time | 7 => some .wall | 8 => some (.fmt 0) | 9 => some (.fmt 1) | 10 => some (.fmt 2)
  | 11 => some (.fmt 3) | 12 => some .scl | 13 => some .vshape | 14 => some .asid | 15 => some .skid
  | _ => none

/-- SZ (R241). -/
def Size.code : Size → BitVec 2
  | .b => 0
  | .h => 1
  | .w => 2
  | .d => 3

/-- SZ (R241). -/
def Size.ofCode (c : BitVec 2) : Option Size :=
  match c.toNat with
  | 0 => some .b
  | 1 => some .h
  | 2 => some .w
  | 3 => some .d
  | _ => none

/-- SC (R8); 6 and 7 are illegal. -/
def Scope.code : Scope → BitVec 3
  | .thr => 0
  | .core => 1
  | .clu => 2
  | .die => 3
  | .pkg => 4
  | .sys => 5

/-- SC (R8); 6 and 7 are illegal. -/
def Scope.ofCode (c : BitVec 3) : Option Scope :=
  match c.toNat with
  | 0 => some .thr
  | 1 => some .core
  | 2 => some .clu
  | 3 => some .die
  | 4 => some .pkg
  | 5 => some .sys
  | _ => none

/-- SK (R241); 0 is illegal. -/
def SkipCount.code : SkipCount → BitVec 2
  | .one => 1
  | .two => 2
  | .three => 3

/-- SK (R241); 0 is illegal. -/
def SkipCount.ofCode (c : BitVec 2) : Option SkipCount :=
  match c.toNat with
  | 1 => some .one
  | 2 => some .two
  | 3 => some .three
  | _ => none

/-- RM (R188); 5 to 7 are illegal. -/
def Rm.code : Rm → BitVec 3
  | .rne => 0
  | .rtz => 1
  | .ru => 2
  | .rd => 3
  | .sr => 4

/-- RM (R188); 5 to 7 are illegal. -/
def Rm.ofCode (c : BitVec 3) : Option Rm :=
  match c.toNat with
  | 0 => some .rne
  | 1 => some .rtz
  | 2 => some .ru
  | 3 => some .rd
  | 4 => some .sr
  | _ => none

/-- COND of sk and cset (R242). -/
def ICond.code : ICond → BitVec 3
  | .eq => 0
  | .ne => 1
  | .lt => 2
  | .ge => 3
  | .ltu => 4
  | .geu => 5
  | .bs => 6
  | .bc => 7

/-- COND of sk and cset (R242). -/
def ICond.ofCode (c : BitVec 3) : Option ICond :=
  match c.toNat with
  | 0 => some .eq
  | 1 => some .ne
  | 2 => some .lt
  | 3 => some .ge
  | 4 => some .ltu
  | 5 => some .geu
  | 6 => some .bs
  | 7 => some .bc
  | _ => none

/-- COND of fsk and fcset (R242). -/
def FCond.code : FCond → BitVec 3
  | .eq => 0
  | .ne => 1
  | .lt => 2
  | .ge => 3
  | .un => 4
  | .or => 5

/-- COND of fsk and fcset (R242). -/
def FCond.ofCode (c : BitVec 3) : Option FCond :=
  match c.toNat with
  | 0 => some .eq
  | 1 => some .ne
  | 2 => some .lt
  | 3 => some .ge
  | 4 => some .un
  | 5 => some .or
  | _ => none

/-- COND of skf (R242). -/
def FeCond.code : FeCond → BitVec 3
  | .full => 0
  | .empty => 1

/-- COND of skf (R242). -/
def FeCond.ofCode (c : BitVec 3) : Option FeCond :=
  match c.toNat with
  | 0 => some .full
  | 1 => some .empty
  | _ => none

/-- TY of mma (R241, R248). -/
def MmaTy.code : MmaTy → BitVec 3
  | .i8 => 0
  | .f16 => 1
  | .bf16 => 2
  | .nf => 3

/-- TY of mma (R241, R248). -/
def MmaTy.ofCode (c : BitVec 3) : Option MmaTy :=
  match c.toNat with
  | 0 => some .i8
  | 1 => some .f16
  | 2 => some .bf16
  | 3 => some .nf
  | _ => none

/-- TY of pmm (R241, R248). -/
def PmmTy.code : PmmTy → BitVec 3
  | .ph16 => 4
  | .ph8 => 5

/-- TY of pmm (R241, R248). -/
def PmmTy.ofCode (c : BitVec 3) : Option PmmTy :=
  match c.toNat with
  | 4 => some .ph16
  | 5 => some .ph8
  | _ => none

/-- TY of acc.cvt (R241, R248). -/
def CvtTy.code : CvtTy → BitVec 3
  | .f16 => 1
  | .bf16 => 2
  | .nf => 3

/-- TY of acc.cvt (R241, R248). -/
def CvtTy.ofCode (c : BitVec 3) : Option CvtTy :=
  match c.toNat with
  | 1 => some .f16
  | 2 => some .bf16
  | 3 => some .nf
  | _ => none

/-- CVK (R241). -/
def Cvk.code : Cvk → BitVec 3
  | .fp => 0
  | .pf => 1
  | .wide => 2
  | .narrow => 3

/-- CVK (R241). -/
def Cvk.ofCode (c : BitVec 3) : Option Cvk :=
  match c.toNat with
  | 0 => some .fp
  | 1 => some .pf
  | 2 => some .wide
  | 3 => some .narrow
  | _ => none

/-- The register code at bits [lo+6:lo]. -/
def wordReg (w : BitVec 32) (lo : Nat) : Option Reg := Reg.ofCode (w.field lo 7)

/-- The destination register code at bits [lo+6:lo]. -/
def wordDst (w : BitVec 32) (lo : Nat) : Option Reg := Reg.ofDstCode (w.field lo 7)

/-- OP 0x07 (R248). -/
def decodeOp07 (w : BitVec 32) : Option Instr :=
  match (w.field 0 4).toNat with
  | 0 => guarded (w.field 18 7 = 0 ∧ w.field 4 7 = 0) ((wordReg w 11).bind fun ra => some (.jr ra))
  | 1 => guarded (w.field 4 7 = 0) ((wordDst w 18).bind fun rd => (wordReg w 11).bind fun ra => some (.jlr rd ra))
  | 2 => guarded (w.field 4 7 = 0) ((wordDst w 18).bind fun rd => (wordReg w 11).bind fun ra => some (.nest rd ra))
  | _ => none

/-- OP 0x18 (R248). -/
def decodeOp18 (w : BitVec 32) : Option Instr :=
  match (w.field 0 4).toNat with
  | 0 => (wordDst w 18).bind fun rd => (wordReg w 11).bind fun ra => (wordReg w 4).bind fun rb => some (.syncInit rd ra rb)
  | 1 => guarded (w.field 4 7 = 0) ((wordDst w 18).bind fun rd => (wordReg w 11).bind fun ra => some (.acq rd ra))
  | 2 => guarded (w.field 4 7 = 0) ((wordDst w 18).bind fun rd => (wordReg w 11).bind fun ra => some (.tryacq rd ra))
  | 3 => guarded (w.field 18 7 = 0 ∧ w.field 4 7 = 0) ((wordReg w 11).bind fun ra => some (.rel ra))
  | 4 => (wordDst w 18).bind fun rd => (wordReg w 11).bind fun ra => (wordReg w 4).bind fun rb => some (.syncCall rd ra rb)
  | 5 => (wordDst w 18).bind fun rd => (wordReg w 11).bind fun ra => (wordReg w 4).bind fun rb => some (.arrive rd ra rb)
  | 6 => guarded (w.field 4 7 = 0) ((wordDst w 18).bind fun rd => (wordReg w 11).bind fun ra => some (.arriveWait rd ra))
  | 7 => (wordDst w 18).bind fun rd => (wordReg w 11).bind fun ra => (wordReg w 4).bind fun rb => some (.syncMode rd ra rb)
  | 8 => (wordDst w 18).bind fun rd => (wordReg w 11).bind fun ra => (wordReg w 4).bind fun rb => some (.syncPol rd ra rb)
  | 9 => (wordDst w 18).bind fun rd => (wordReg w 11).bind fun ra => (wordReg w 4).bind fun rb => some (.sbExpect rd ra rb)
  | 10 => (wordDst w 18).bind fun rd => (wordReg w 11).bind fun ra => (wordReg w 4).bind fun rb => some (.sbWait rd ra rb)
  | _ => none

/-- OP 0x19 (R248). -/
def decodeOp19 (w : BitVec 32) : Option Instr :=
  match (w.field 0 4).toNat with
  | 0 => (wordDst w 18).bind fun rd => (wordReg w 11).bind fun ra => (wordReg w 4).bind fun rb => some (.ringOpen rd ra rb)
  | 1 => (wordDst w 18).bind fun rd => (wordReg w 11).bind fun ra => (wordReg w 4).bind fun rb => some (.ringResv rd ra rb)
  | 2 => (wordReg w 18).bind fun rd => (wordReg w 11).bind fun ra => (wordReg w 4).bind fun rb => some (.ringPub rd ra rb)
  | 3 => (wordDst w 18).bind fun rd => (wordReg w 11).bind fun ra => (wordReg w 4).bind fun rb => some (.ringWait rd ra rb)
  | 4 => (wordDst w 18).bind fun rd => (wordReg w 11).bind fun ra => (wordReg w 4).bind fun rb => some (.ringFree rd ra rb)
  | 5 => guarded (w.field 18 7 = 0) ((wordReg w 11).bind fun ra => (wordReg w 4).bind fun rb => some (.ringAdv ra rb))
  | _ => none

/-- OP 0x1A (R248). -/
def decodeOp1A (w : BitVec 32) : Option Instr :=
  match (w.field 0 4).toNat with
  | 0 => (wordDst w 18).bind fun rd => (wordReg w 11).bind fun ra => (wordReg w 4).bind fun rb => some (.spawn rd ra rb)
  | 1 => guarded (w.field 18 7 = 0 ∧ w.field 4 7 = 0) ((wordReg w 11).bind fun ra => some (.join ra))
  | 2 => guarded (w.field 18 7 = 0 ∧ w.field 4 7 = 0) ((wordReg w 11).bind fun ra => some (.go ra))
  | 3 => guarded (w.field 18 7 = 0) ((wordReg w 11).bind fun ra => (wordReg w 4).bind fun rb => some (.msgSend ra rb))
  | 4 => guarded (w.field 18 7 = 0 ∧ w.field 11 7 = 0 ∧ w.field 4 7 = 0) (some (.yield))
  | 5 => guarded (w.field 18 7 = 0) ((wordReg w 11).bind fun ra => (wordReg w 4).bind fun rb => some (.exit ra rb))
  | _ => none

/-- OP 0x1B (R248). -/
def decodeOp1B (w : BitVec 32) : Option Instr :=
  match (w.field 0 4).toNat with
  | 0 => guarded (w.field 11 7 = 0 ∧ w.field 4 7 = 0) ((wordDst w 18).bind fun rd => some (.engClaim rd))
  | 1 => guarded (w.field 18 7 = 0 ∧ w.field 11 7 = 0 ∧ w.field 4 7 = 0) (some (.engRel))
  | 2 => (wordDst w 18).bind fun rd => (wordReg w 11).bind fun ra => (wordReg w 4).bind fun rb => some (.cp1d rd ra rb)
  | 3 => (wordDst w 18).bind fun rd => (wordReg w 11).bind fun ra => (wordReg w 4).bind fun rb => some (.cp2d rd ra rb)
  | 4 => (wordDst w 18).bind fun rd => (wordReg w 11).bind fun ra => (wordReg w 4).bind fun rb => some (.cpGather rd ra rb)
  | 5 => (wordDst w 18).bind fun rd => (wordReg w 11).bind fun ra => (wordReg w 4).bind fun rb => some (.cpScatter rd ra rb)
  | 6 => guarded (w.field 4 7 = 0) ((wordDst w 18).bind fun rd => (wordReg w 11).bind fun ra => some (.cpLink rd ra))
  | 7 => guarded (w.field 4 7 = 0) ((wordDst w 18).bind fun rd => (wordReg w 11).bind fun ra => some (.cpWait rd ra))
  | _ => none

/-- OP 0x1C (R248). -/
def decodeOp1C (w : BitVec 32) : Option Instr :=
  match (w.field 0 4).toNat with
  | 0 => guarded (w.field 4 7 = 0) ((wordDst w 18).bind fun rd => (wordReg w 11).bind fun ra => some (.plBind rd ra))
  | 1 => (wordDst w 18).bind fun rd => (wordReg w 11).bind fun ra => (wordReg w 4).bind fun rb => some (.plQuery rd ra rb)
  | 2 => guarded (w.field 4 7 = 0) ((wordDst w 18).bind fun rd => (wordReg w 11).bind fun ra => some (.plDetach rd ra))
  | 3 => guarded (w.field 4 7 = 0) ((wordDst w 18).bind fun rd => (wordReg w 11).bind fun ra => some (.plEnd rd ra))
  | 4 => (wordDst w 18).bind fun rd => (wordReg w 11).bind fun ra => (wordReg w 4).bind fun rb => some (.partPost rd ra rb)
  | 5 => (wordDst w 18).bind fun rd => (wordReg w 11).bind fun ra => (wordReg w 4).bind fun rb => some (.partQuery rd ra rb)
  | 6 => guarded (w.field 18 7 = 0 ∧ w.field 4 7 = 0) ((wordReg w 11).bind fun ra => some (.dgFold ra))
  | 7 => guarded (w.field 11 7 = 0 ∧ w.field 4 7 = 0) ((wordDst w 18).bind fun rd => some (.dgClose rd))
  | _ => none

/-- OP 0x1D (R248). -/
def decodeOp1D (w : BitVec 32) : Option Instr :=
  match (w.field 0 4).toNat with
  | 0 => guarded (w.field 18 7 = 0 ∧ w.field 11 7 = 0 ∧ w.field 4 7 = 0) (some (.eret))
  | 1 => guarded (w.field 4 7 = 0) ((wordDst w 18).bind fun rd => (CtlReg.ofCode (w.field 11 7)).bind fun c => some (.ctlRd rd c))
  | 2 => guarded (w.field 4 7 = 0) ((CtlReg.ofCode (w.field 18 7)).bind fun c => (wordReg w 11).bind fun ra => some (.ctlWr c ra))
  | 3 => guarded (w.field 18 7 = 0) ((wordReg w 11).bind fun ra => (wordReg w 4).bind fun rb => some (.tlbInv ra rb))
  | 4 => (wordDst w 18).bind fun rd => (wordReg w 11).bind fun ra => (wordReg w 4).bind fun rb => some (.step rd ra rb)
  | 5 => guarded (w.field 18 7 = 0) ((wordReg w 11).bind fun ra => (wordReg w 4).bind fun rb => some (.wpSet ra rb))
  | 6 => guarded (w.field 18 7 = 0 ∧ w.field 4 7 = 0) ((wordReg w 11).bind fun ra => some (.wpClr ra))
  | 7 => guarded (w.field 18 7 = 0 ∧ w.field 11 7 = 0 ∧ w.field 4 7 = 0) (some (.halt))
  | 8 => (wordDst w 18).bind fun rd => (CtlReg.ofCode (w.field 11 7)).bind fun c => (wordReg w 4).bind fun rb => some (.ctlRdx rd c rb)
  | 9 => (CtlReg.ofCode (w.field 18 7)).bind fun c => (wordReg w 11).bind fun ra => (wordReg w 4).bind fun rb => some (.ctlWrx c ra rb)
  | 10 => (wordDst w 18).bind fun rd => (wordReg w 11).bind fun ra => (wordReg w 4).bind fun rb => some (.eretx rd ra rb)
  | _ => none

/-- OP 0x20 (R248). -/
def decodeOp20 (w : BitVec 32) : Option Instr :=
  match (w.field 0 4).toNat with
  | 0 => (wordDst w 18).bind fun rd => (wordReg w 11).bind fun ra => (wordReg w 4).bind fun rb => some (.add rd ra rb)
  | 1 => (wordDst w 18).bind fun rd => (wordReg w 11).bind fun ra => (wordReg w 4).bind fun rb => some (.sub rd ra rb)
  | 2 => (wordDst w 18).bind fun rd => (wordReg w 11).bind fun ra => (wordReg w 4).bind fun rb => some (.and rd ra rb)
  | 3 => (wordDst w 18).bind fun rd => (wordReg w 11).bind fun ra => (wordReg w 4).bind fun rb => some (.or rd ra rb)
  | 4 => (wordDst w 18).bind fun rd => (wordReg w 11).bind fun ra => (wordReg w 4).bind fun rb => some (.xor rd ra rb)
  | 5 => (wordDst w 18).bind fun rd => (wordReg w 11).bind fun ra => (wordReg w 4).bind fun rb => some (.shl rd ra rb)
  | 6 => (wordDst w 18).bind fun rd => (wordReg w 11).bind fun ra => (wordReg w 4).bind fun rb => some (.shr rd ra rb)
  | 7 => (wordDst w 18).bind fun rd => (wordReg w 11).bind fun ra => (wordReg w 4).bind fun rb => some (.sra rd ra rb)
  | 8 => (wordDst w 18).bind fun rd => (wordReg w 11).bind fun ra => (wordReg w 4).bind fun rb => some (.mul rd ra rb)
  | 9 => (wordDst w 18).bind fun rd => (wordReg w 11).bind fun ra => (wordReg w 4).bind fun rb => some (.mulh rd ra rb)
  | 10 => (wordDst w 18).bind fun rd => (wordReg w 11).bind fun ra => (wordReg w 4).bind fun rb => some (.mulhu rd ra rb)
  | 11 => (wordDst w 18).bind fun rd => (wordReg w 11).bind fun ra => (wordReg w 4).bind fun rb => some (.min rd ra rb)
  | 12 => (wordDst w 18).bind fun rd => (wordReg w 11).bind fun ra => (wordReg w 4).bind fun rb => some (.max rd ra rb)
  | 13 => (wordDst w 18).bind fun rd => (wordReg w 11).bind fun ra => (wordReg w 4).bind fun rb => some (.minu rd ra rb)
  | 14 => (wordDst w 18).bind fun rd => (wordReg w 11).bind fun ra => (wordReg w 4).bind fun rb => some (.maxu rd ra rb)
  | 15 => (wordDst w 18).bind fun rd => (wordReg w 11).bind fun ra => (wordReg w 4).bind fun rb => some (.adds rd ra rb)
  | _ => none

/-- OP 0x21 (R248). -/
def decodeOp21 (w : BitVec 32) : Option Instr :=
  match (w.field 0 4).toNat with
  | 0 => (wordDst w 18).bind fun rd => (wordReg w 11).bind fun ra => (wordReg w 4).bind fun rb => some (.div rd ra rb)
  | 1 => (wordDst w 18).bind fun rd => (wordReg w 11).bind fun ra => (wordReg w 4).bind fun rb => some (.divu rd ra rb)
  | 2 => (wordDst w 18).bind fun rd => (wordReg w 11).bind fun ra => (wordReg w 4).bind fun rb => some (.rem rd ra rb)
  | 3 => (wordDst w 18).bind fun rd => (wordReg w 11).bind fun ra => (wordReg w 4).bind fun rb => some (.remu rd ra rb)
  | 4 => guarded (w.field 4 7 = 0) ((wordDst w 18).bind fun rd => (wordReg w 11).bind fun ra => some (.clz rd ra))
  | 5 => guarded (w.field 4 7 = 0) ((wordDst w 18).bind fun rd => (wordReg w 11).bind fun ra => some (.ctz rd ra))
  | 6 => guarded (w.field 4 7 = 0) ((wordDst w 18).bind fun rd => (wordReg w 11).bind fun ra => some (.popc rd ra))
  | 7 => guarded (w.field 4 7 = 0) ((wordDst w 18).bind fun rd => (wordReg w 11).bind fun ra => some (.sxb rd ra))
  | 8 => guarded (w.field 4 7 = 0) ((wordDst w 18).bind fun rd => (wordReg w 11).bind fun ra => some (.sxh rd ra))
  | 9 => guarded (w.field 4 7 = 0) ((wordDst w 18).bind fun rd => (wordReg w 11).bind fun ra => some (.sxw rd ra))
  | 10 => (wordDst w 18).bind fun rd => (wordReg w 11).bind fun ra => (wordReg w 4).bind fun rb => some (.subs rd ra rb)
  | 11 => (wordDst w 18).bind fun rd => (wordReg w 11).bind fun ra => (wordReg w 4).bind fun rb => some (.csel rd ra rb)
  | _ => none

/-- OP 0x32 (R248). -/
def decodeOp32 (w : BitVec 32) : Option Instr :=
  match (w.field 0 4).toNat with
  | 0 => guarded (w.field 4 7 = 0) ((wordDst w 18).bind fun rd => (wordReg w 11).bind fun ra => some (.sfRcp rd ra))
  | 1 => guarded (w.field 4 7 = 0) ((wordDst w 18).bind fun rd => (wordReg w 11).bind fun ra => some (.sfSqrt rd ra))
  | 2 => guarded (w.field 4 7 = 0) ((wordDst w 18).bind fun rd => (wordReg w 11).bind fun ra => some (.sfRsqrt rd ra))
  | 3 => guarded (w.field 4 7 = 0) ((wordDst w 18).bind fun rd => (wordReg w 11).bind fun ra => some (.sfExp2 rd ra))
  | 4 => guarded (w.field 4 7 = 0) ((wordDst w 18).bind fun rd => (wordReg w 11).bind fun ra => some (.sfLog2 rd ra))
  | 5 => guarded (w.field 4 7 = 0) ((wordDst w 18).bind fun rd => (wordReg w 11).bind fun ra => some (.sfSinpi rd ra))
  | 6 => guarded (w.field 4 7 = 0) ((wordDst w 18).bind fun rd => (wordReg w 11).bind fun ra => some (.sfCospi rd ra))
  | _ => none

/-- OP 0x30 (R248). -/
def decodeOp30 (w : BitVec 32) : Option Instr :=
  match (w.field 0 4).toNat with
  | 0 => guarded (w.field 7 6 = 0) ((Rm.ofCode (w.field 4 3)).bind fun rm => some (.vadd rm (w.field 21 4) (w.field 17 4) (w.field 13 4)))
  | 1 => guarded (w.field 7 6 = 0) ((Rm.ofCode (w.field 4 3)).bind fun rm => some (.vsub rm (w.field 21 4) (w.field 17 4) (w.field 13 4)))
  | 2 => guarded (w.field 7 6 = 0) ((Rm.ofCode (w.field 4 3)).bind fun rm => some (.vmul rm (w.field 21 4) (w.field 17 4) (w.field 13 4)))
  | 3 => guarded (w.field 7 6 = 0) ((Rm.ofCode (w.field 4 3)).bind fun rm => some (.vfma rm (w.field 21 4) (w.field 17 4) (w.field 13 4)))
  | 4 => guarded (w.field 7 6 = 0 ∧ w.field 4 3 = 0) (some (.vmin (w.field 21 4) (w.field 17 4) (w.field 13 4)))
  | 5 => guarded (w.field 7 6 = 0 ∧ w.field 4 3 = 0) (some (.vmax (w.field 21 4) (w.field 17 4) (w.field 13 4)))
  | 6 => guarded (w.field 13 4 = 0 ∧ w.field 7 6 = 0 ∧ w.field 4 3 = 0) (some (.vabs (w.field 21 4) (w.field 17 4)))
  | 7 => guarded (w.field 13 4 = 0 ∧ w.field 7 6 = 0 ∧ w.field 4 3 = 0) (some (.vneg (w.field 21 4) (w.field 17 4)))
  | 8 => guarded (w.field 7 6 = 0 ∧ w.field 4 3 = 0) (some (.vand (w.field 21 4) (w.field 17 4) (w.field 13 4)))
  | 9 => guarded (w.field 7 6 = 0 ∧ w.field 4 3 = 0) (some (.vor (w.field 21 4) (w.field 17 4) (w.field 13 4)))
  | 10 => guarded (w.field 7 6 = 0 ∧ w.field 4 3 = 0) (some (.vxor (w.field 21 4) (w.field 17 4) (w.field 13 4)))
  | 11 => guarded (w.field 13 4 = 0 ∧ w.field 4 3 = 0) (some (.vshl (w.field 21 4) (w.field 17 4) (w.field 7 6)))
  | 12 => guarded (w.field 13 4 = 0 ∧ w.field 4 3 = 0) (some (.vshr (w.field 21 4) (w.field 17 4) (w.field 7 6)))
  | 13 => guarded (w.field 13 4 = 0) ((Rm.ofCode (w.field 4 3)).bind fun rm => some (.vcvt rm (w.field 21 4) (w.field 17 4) (w.field 7 6)))
  | 14 => guarded (w.field 4 3 = 0) (some (.vcmp (w.field 21 4) (w.field 17 4) (w.field 13 4) (w.field 7 6)))
  | 15 => guarded (w.field 7 6 = 0 ∧ w.field 4 3 = 0) (some (.vsel (w.field 21 4) (w.field 17 4) (w.field 13 4)))
  | _ => none

/-- OP 0x31 (R248). -/
def decodeOp31 (w : BitVec 32) : Option Instr :=
  match (w.field 0 4).toNat with
  | 0 => guarded (w.field 17 4 = 0 ∧ w.field 13 4 = 0 ∧ w.field 4 3 = 0) (some (.vbcast (w.field 21 4) (w.field 7 6)))
  | 1 => guarded (w.field 17 4 = 0 ∧ w.field 13 4 = 0 ∧ w.field 4 3 = 0) (some (.vld (w.field 21 4) (w.field 7 6)))
  | 2 => guarded (w.field 21 4 = 0 ∧ w.field 13 4 = 0 ∧ w.field 4 3 = 0) (some (.vst (w.field 17 4) (w.field 7 6)))
  | 3 => guarded (w.field 13 4 = 0 ∧ w.field 7 6 = 0) ((Rm.ofCode (w.field 4 3)).bind fun rm => some (.vsum rm (w.field 21 4) (w.field 17 4)))
  | 4 => guarded (w.field 13 4 = 0 ∧ w.field 7 6 = 0 ∧ w.field 4 3 = 0) (some (.vrmax (w.field 21 4) (w.field 17 4)))
  | 5 => guarded (w.field 7 6 = 0 ∧ w.field 4 3 = 0) (some (.vshuf (w.field 21 4) (w.field 17 4) (w.field 13 4)))
  | 6 => guarded (w.field 7 6 = 0) ((Rm.ofCode (w.field 4 3)).bind fun rm => some (.vpack rm (w.field 21 4) (w.field 17 4) (w.field 13 4)))
  | 7 => guarded (w.field 13 4 = 0 ∧ w.field 4 3 = 0) (some (.vunpack (w.field 21 4) (w.field 17 4) (w.field 7 6)))
  | 8 => guarded (w.field 17 4 = 0 ∧ w.field 13 4 = 0 ∧ w.field 4 3 = 0) (some (.viota (w.field 21 4) (w.field 7 6)))
  | 9 => guarded (w.field 13 4 = 0 ∧ w.field 7 6 = 0 ∧ w.field 4 3 = 0) (some (.vmov (w.field 21 4) (w.field 17 4)))
  | _ => none

/-- OP 0x34 (R248). -/
def decodeOp34 (w : BitVec 32) : Option Instr :=
  match (w.field 0 4).toNat with
  | 0 => guarded (w.field 13 4 = 0 ∧ w.field 7 6 = 0) ((Cvk.ofCode (w.field 4 3)).bind fun k => some (.phCvt k (w.field 21 4) (w.field 17 4)))
  | 1 => guarded (w.field 7 6 = 0 ∧ w.field 4 3 = 0) (some (.phMul (w.field 21 4) (w.field 17 4) (w.field 13 4)))
  | 2 => guarded (w.field 13 4 = 0 ∧ w.field 4 3 = 0) (some (.phRed (w.field 21 4) (w.field 17 4) (w.field 7 6)))
  | 3 => guarded (w.field 7 6 = 0 ∧ w.field 4 3 = 0) (some (.phCmp (w.field 21 4) (w.field 17 4) (w.field 13 4)))
  | 4 => guarded (w.field 13 4 = 0 ∧ w.field 7 6 = 0 ∧ w.field 4 3 = 0) (some (.phCos (w.field 21 4) (w.field 17 4)))
  | 5 => guarded (w.field 13 4 = 0 ∧ w.field 7 6 = 0 ∧ w.field 4 3 = 0) (some (.phSin (w.field 21 4) (w.field 17 4)))
  | _ => none

/-- OP 0x35 (R248). -/
def decodeOp35 (w : BitVec 32) : Option Instr :=
  match (w.field 0 4).toNat with
  | 0 => guarded (w.field 13 4 = 0 ∧ w.field 4 3 = 0) (some (.qhist (w.field 21 4) (w.field 17 4) (w.field 7 6)))
  | 1 => guarded (w.field 13 4 = 0 ∧ w.field 4 3 = 0) (some (.qclip (w.field 21 4) (w.field 17 4) (w.field 7 6)))
  | 2 => (Rm.ofCode (w.field 4 3)).bind fun rm => some (.qnt rm (w.field 21 4) (w.field 17 4) (w.field 13 4) (w.field 7 6))
  | 3 => guarded (w.field 13 4 = 0 ∧ w.field 4 3 = 0) (some (.dq (w.field 21 4) (w.field 17 4) (w.field 7 6)))
  | _ => none

/-- OP 0x05, the skip compares in register form (R243). -/
def decodeOp05 (w : BitVec 32) : Option Instr :=
  guarded (w.field 4 2 = 0) <| (SkipCount.ofCode (w.field 20 2)).bind fun k => (wordReg w 13).bind fun ra =>
  match (w.field 0 4).toNat with
  | 0 => (ICond.ofCode (w.field 22 3)).bind fun c => (wordReg w 6).bind fun rb => some (.sk c k ra rb)
  | 1 => (FCond.ofCode (w.field 22 3)).bind fun c => (wordReg w 6).bind fun rb => some (.fsk c k ra rb)
  | 2 => guarded (w.field 6 7 = 0) ((FeCond.ofCode (w.field 22 3)).bind fun c => some (.skf c k ra))
  | _ => none

/-- OP 0x06, sk in immediate form (R243, R257). -/
def decodeOp06 (w : BitVec 32) : Option Instr :=
  guarded (w.field 19 1 = 0) <| (ICond.ofCode (w.field 22 3)).bind fun c =>
  (SkipCount.ofCode (w.field 20 2)).bind fun k =>
  guarded (c.immOk (w.field 0 13) = true) (some (.skImm c k (w.field 13 6) (w.field 0 13)))

/-- OP 0x14, the synchronising accesses (R244). -/
def decodeOp14 (w : BitVec 32) : Option Instr :=
  (Size.ofCode (w.field 4 2)).bind fun sz =>
  match (w.field 0 2).toNat, (w.field 2 2).toNat with
  | 0, 1 => (wordDst w 18).bind fun rd => some (.ldWf sz rd (w.field 12 6) (w.field 6 6))
  | 0, 2 => (wordDst w 18).bind fun rd => some (.ldTk sz rd (w.field 12 6) (w.field 6 6))
  | 1, 3 => (wordReg w 18).bind fun rd => some (.stFl sz rd (w.field 12 6) (w.field 6 6))
  | 2, 1 => guarded (sz = .d) ((wordDst w 18).bind fun rd => some (.feWf rd (w.field 12 6) (w.field 6 6)))
  | 2, 2 => guarded (sz = .d) ((wordDst w 18).bind fun rd => some (.feTk rd (w.field 12 6) (w.field 6 6)))
  | 2, 3 => guarded (sz = .d) ((wordDst w 18).bind fun rd => some (.feFl rd (w.field 12 6) (w.field 6 6)))
  | 3, 0 => guarded (sz = .d ∧ w.field 6 6 = 0) ((wordDst w 18).bind fun rd => some (.feq rd (w.field 12 6)))
  | _, _ => none

/-- OP 0x15, the fences (R244). -/
def decodeOp15 (w : BitVec 32) : Option Instr :=
  guarded (w.field 7 18 = 0) <| (Scope.ofCode (w.field 0 3)).bind fun sc =>
  match (w.field 3 4).toNat with
  | 0 => some (.fence sc)
  | 1 => some (.sfence sc)
  | 2 => some (.lfence sc)
  | _ => none

/-- OP 0x16 and 0x17, the atomics (R244, R248). -/
def decodeAmo (d : Bool) (w : BitVec 32) : Option Instr :=
  (Scope.ofCode (w.field 0 3)).bind fun sc =>
  let rd := w.field 19 6
  let ra := w.field 13 6
  let rb := w.field 7 6
  match (w.field 3 4).toNat with
  | 0 => some (.amoAdd d sc rd ra rb)
  | 1 => some (.amoAnd d sc rd ra rb)
  | 2 => some (.amoOr d sc rd ra rb)
  | 3 => some (.amoXor d sc rd ra rb)
  | 4 => some (.amoSwap d sc rd ra rb)
  | 5 => some (.amoCas d sc rd ra rb)
  | 6 => some (.amoMin d sc rd ra rb)
  | 7 => some (.amoMax d sc rd ra rb)
  | 8 => some (.amoMinu d sc rd ra rb)
  | 9 => some (.amoMaxu d sc rd ra rb)
  | 10 => guarded (d = false) (some (.amoFadd sc rd ra rb))
  | 11 => guarded (rb = 0) (some (.amoLd d sc rd ra))
  | _ => none

/-- OP 0x2B, compare and set (R245). -/
def decodeOp2B (w : BitVec 32) : Option Instr :=
  (wordReg w 12).bind fun ra => (wordReg w 5).bind fun rb =>
  match (w.field 0 2).toNat with
  | 0 => (ICond.ofCode (w.field 2 3)).bind fun c => some (.cset c (w.field 19 6) ra rb)
  | 1 => (FCond.ofCode (w.field 2 3)).bind fun c => some (.fcset c (w.field 19 6) ra rb)
  | 2 => guarded (w.field 2 3 = 0) (some (.cmp (w.field 19 6) ra rb))
  | _ => none

/-- OP 0x33, tile, matrix and accumulator (R246, R248). -/
def decodeOp33 (w : BitVec 32) : Option Instr :=
  let ty := w.field 22 3
  let ka := w.field 20 2
  let kb := w.field 18 2
  let ad := w.field 16 2
  let ta := w.field 13 3
  let tb := w.field 10 3
  let rs := w.field 4 6
  match (w.field 0 4).toNat with
  | 0 => (MmaTy.ofCode ty).bind fun t =>
      guarded (t = .nf ∨ (ka = 0 ∧ kb = 0 ∧ rs = 0)) (some (.mma t ka kb ad ta tb rs))
  | 1 => guarded (ka = 0 ∧ kb = 0 ∧ rs = 0) ((PmmTy.ofCode ty).bind fun t => some (.pmm t ad ta tb))
  | 2 => guarded (ty = 0 ∧ ka = 0 ∧ kb = 0 ∧ ad = 0 ∧ tb = 0) (some (.tld ta rs))
  | 3 => guarded (ty = 0 ∧ ka = 0 ∧ kb = 0 ∧ ad = 0 ∧ tb = 0) (some (.tst ta rs))
  | 4 => guarded (ty = 0 ∧ ka = 0 ∧ kb = 0 ∧ ad = 0 ∧ tb = 0) (some (.tdescWr ta rs))
  | 5 => guarded (ty = 0 ∧ ka = 0 ∧ kb = 0 ∧ ad = 0 ∧ tb = 0) (some (.tdescRd ta rs))
  | 6 => guarded (ty = 0 ∧ ka = 0 ∧ kb = 0 ∧ ta = 0 ∧ tb = 0 ∧ rs = 0) (some (.accZero ad))
  | 7 => guarded (ty = 0 ∧ ka = 0 ∧ kb = 0 ∧ ta = 0 ∧ tb = 0) (some (.accSt ad rs))
  | 8 => guarded (ty = 0 ∧ ka = 0 ∧ kb = 0 ∧ ta = 0 ∧ tb = 0) (some (.accLd ad rs))
  | 9 => guarded (kb = 0 ∧ tb = 0) <| (CvtTy.ofCode ty).bind fun t =>
      guarded (t = .nf ∨ (ka = 0 ∧ rs = 0)) (some (.accCvt t ka ad ta rs))
  | 10 => guarded (ty = 0 ∧ ka = 0 ∧ kb = 0 ∧ ad = 0 ∧ ta = 0 ∧ tb = 0) (some (.srSeed rs))
  | _ => none

/-- The instruction of a word, from bits [30:0] (R247, R248); `none` is an illegal word (R249). -/
def decodeWord (w : BitVec 32) : Option Instr :=
  match (w.field 25 6).toNat with
  | 0x01 => guarded (w.field 19 3 = 0) <| match (w.field 22 3).toNat with
      | 0 => some (.br (w.field 0 19))
      | 1 => some (.bl (w.field 0 19))
      | _ => none
  | 0x02 => guarded (w.field 13 12 = 0) (some (.nestEnd (w.field 0 13)))
  | 0x03 => some (.bz (w.field 19 6) (w.field 0 19))
  | 0x04 => some (.bnz (w.field 19 6) (w.field 0 19))
  | 0x05 => decodeOp05 w
  | 0x06 => decodeOp06 w
  | 0x07 => decodeOp07 w
  | 0x08 | 0x09 | 0x0A | 0x0B => (Size.ofCode (w.field 25 2)).bind fun sz =>
      some (.ld sz (w.field 19 6) (w.field 13 6) (w.field 0 13))
  | 0x0C | 0x0D | 0x0E | 0x0F => (Size.ofCode (w.field 25 2)).bind fun sz =>
      (Reg.ofXcode (w.field 19 6)).bind fun rd => some (.ldX sz rd (w.field 13 6) (w.field 0 13))
  | 0x10 | 0x11 | 0x12 | 0x13 => (Size.ofCode (w.field 25 2)).bind fun sz =>
      some (.st sz (w.field 19 6) (w.field 13 6) (w.field 0 13))
  | 0x14 => decodeOp14 w
  | 0x15 => decodeOp15 w
  | 0x16 => decodeAmo false w
  | 0x17 => decodeAmo true w
  | 0x18 => decodeOp18 w
  | 0x19 => decodeOp19 w
  | 0x1A => decodeOp1A w
  | 0x1B => decodeOp1B w
  | 0x1C => decodeOp1C w
  | 0x1D => decodeOp1D w
  | 0x1E => guarded (w.field 13 12 = 0) (some (.sys (w.field 0 13)))
  | 0x1F => guarded (w.field 13 12 = 0) (some (.brk (w.field 0 13)))
  | 0x20 => decodeOp20 w
  | 0x21 => decodeOp21 w
  | 0x22 => some (.addImm (w.field 19 6) (w.field 13 6) (w.field 0 13))
  | 0x23 => (Reg.ofXcode (w.field 19 6)).bind fun rd => some (.addImmX rd (w.field 13 6) (w.field 0 13))
  | 0x24 => some (.andImm (w.field 19 6) (w.field 13 6) (w.field 0 13))
  | 0x25 => some (.orImm (w.field 19 6) (w.field 13 6) (w.field 0 13))
  | 0x26 => some (.xorImm (w.field 19 6) (w.field 13 6) (w.field 0 13))
  | 0x27 => guarded (w.field 6 7 = 0) (some (.shlImm (w.field 19 6) (w.field 13 6) (w.field 0 6)))
  | 0x28 => guarded (w.field 6 7 = 0) (some (.shrImm (w.field 19 6) (w.field 13 6) (w.field 0 6)))
  | 0x29 => guarded (w.field 6 7 = 0) (some (.sraImm (w.field 19 6) (w.field 13 6) (w.field 0 6)))
  | 0x2A => some (.mulImm (w.field 19 6) (w.field 13 6) (w.field 0 13))
  | 0x2B => decodeOp2B w
  | 0x2C => guarded (w.field 13 6 = 0) (some (.sett (w.field 19 6) (w.field 0 13)))
  | 0x2D => some (.setm (w.field 19 6) (w.field 0 19))
  | 0x2E => some (.seth (w.field 19 6) (w.field 0 19))
  | 0x30 => decodeOp30 w
  | 0x31 => decodeOp31 w
  | 0x32 => decodeOp32 w
  | 0x33 => decodeOp33 w
  | 0x34 => decodeOp34 w
  | 0x35 => decodeOp35 w
  | _ => none

/-! ### The encoder -/

/-- Format FR (R245). -/
def fr (l : BitVec 1) (op : BitVec 6) (rd ra rb : BitVec 7) (fn : BitVec 4) : BitVec 32 := l ++ op ++ rd ++ ra ++ rb ++ fn
/-- Format FI (R245); FM has the same fields below its OP (R244). -/
def fi (l : BitVec 1) (op : BitVec 6) (rd ra : BitVec 6) (imm : BitVec 13) : BitVec 32 := l ++ op ++ rd ++ ra ++ imm
/-- Formats FU and FJ (R243, R245). -/
def fu (l : BitVec 1) (op : BitVec 6) (r : BitVec 6) (imm : BitVec 19) : BitVec 32 := l ++ op ++ r ++ imm
/-- Format FS (R243). -/
def fs (l : BitVec 1) (c : BitVec 3) (k : BitVec 2) (ra rb : BitVec 7) (fn : BitVec 4) : BitVec 32 :=
  l ++ 0x05#6 ++ c ++ k ++ ra ++ rb ++ 0#2 ++ fn
/-- Format FW (R244). -/
def fw (l : BitVec 1) (rd : BitVec 7) (ra rb : BitVec 6) (sz sy fn : BitVec 2) : BitVec 32 :=
  l ++ 0x14#6 ++ rd ++ ra ++ rb ++ sz ++ sy ++ fn
/-- Format FA (R244). -/
def fa (l : BitVec 1) (d : Bool) (rd ra rb : BitVec 6) (fn : BitVec 4) (sc : BitVec 3) : BitVec 32 :=
  l ++ 0b01011#5 ++ BitVec.ofBool d ++ rd ++ ra ++ rb ++ fn ++ sc
/-- Format FX (R244). -/
def fx (l : BitVec 1) (fn : BitVec 4) (sc : BitVec 3) : BitVec 32 := l ++ 0x15#6 ++ 0#18 ++ fn ++ sc
/-- Format FC (R245). -/
def fc (l : BitVec 1) (rd : BitVec 6) (ra rb : BitVec 7) (c : BitVec 3) (fn : BitVec 2) : BitVec 32 :=
  l ++ 0x2B#6 ++ rd ++ ra ++ rb ++ c ++ fn
/-- Format FV (R246). -/
def fv (l : BitVec 1) (op : BitVec 6) (vd va vb : BitVec 4) (rs : BitVec 6) (rm : BitVec 3) (fn : BitVec 4) : BitVec 32 :=
  l ++ op ++ vd ++ va ++ vb ++ rs ++ rm ++ fn
/-- Format FT (R246). -/
def ft (l : BitVec 1) (ty : BitVec 3) (ka kb ad : BitVec 2) (ta tb : BitVec 3) (rs : BitVec 6) (fn : BitVec 4) : BitVec 32 :=
  l ++ 0x33#6 ++ ty ++ ka ++ kb ++ ad ++ ta ++ tb ++ rs ++ fn

/-- The word of an instruction with L bit `l`; a device step has none. -/
def encodeWord (l : BitVec 1) : Instr → Option (BitVec 32)
  | .br imm => some (fu l 0x01 0 imm)
  | .bl imm => some (fu l 0x01 8 imm)
  | .nestEnd imm => some (fi l 0x02 0 0 imm)
  | .bz ra imm => some (fu l 0x03 ra imm)
  | .bnz ra imm => some (fu l 0x04 ra imm)
  | .sk c k ra rb => some (fs l c.code k.code ra.code rb.code 0)
  | .fsk c k ra rb => some (fs l c.code k.code ra.code rb.code 1)
  | .skf c k ra => some (fs l c.code k.code ra.code 0 2)
  | .skImm c k ra imm => some (l ++ 0x06#6 ++ c.code ++ k.code ++ 0#1 ++ ra ++ imm)
  | .ld sz rd ra imm => some (fi l (0b0010#4 ++ sz.code) rd ra imm)
  | .ldX sz rd ra imm => some (fi l (0b0011#4 ++ sz.code) rd.xcode ra imm)
  | .st sz rd ra imm => some (fi l (0b0100#4 ++ sz.code) rd ra imm)
  | .ldWf sz rd ra rb => some (fw l rd.code ra rb sz.code 1 0)
  | .ldTk sz rd ra rb => some (fw l rd.code ra rb sz.code 2 0)
  | .stFl sz rd ra rb => some (fw l rd.code ra rb sz.code 3 1)
  | .feWf rd ra rb => some (fw l rd.code ra rb 3 1 2)
  | .feTk rd ra rb => some (fw l rd.code ra rb 3 2 2)
  | .feFl rd ra rb => some (fw l rd.code ra rb 3 3 2)
  | .feq rd ra => some (fw l rd.code ra 0 3 0 3)
  | .fence sc => some (fx l 0 sc.code)
  | .sfence sc => some (fx l 1 sc.code)
  | .lfence sc => some (fx l 2 sc.code)
  | .amoAdd d sc rd ra rb => some (fa l d rd ra rb 0 sc.code)
  | .amoAnd d sc rd ra rb => some (fa l d rd ra rb 1 sc.code)
  | .amoOr d sc rd ra rb => some (fa l d rd ra rb 2 sc.code)
  | .amoXor d sc rd ra rb => some (fa l d rd ra rb 3 sc.code)
  | .amoSwap d sc rd ra rb => some (fa l d rd ra rb 4 sc.code)
  | .amoCas d sc rd ra rb => some (fa l d rd ra rb 5 sc.code)
  | .amoMin d sc rd ra rb => some (fa l d rd ra rb 6 sc.code)
  | .amoMax d sc rd ra rb => some (fa l d rd ra rb 7 sc.code)
  | .amoMinu d sc rd ra rb => some (fa l d rd ra rb 8 sc.code)
  | .amoMaxu d sc rd ra rb => some (fa l d rd ra rb 9 sc.code)
  | .amoFadd sc rd ra rb => some (fa l false rd ra rb 10 sc.code)
  | .amoLd d sc rd ra => some (fa l d rd ra 0 11 sc.code)
  | .jr ra => some (fr l 0x07 0 ra.code 0 0)
  | .jlr rd ra => some (fr l 0x07 rd.code ra.code 0 1)
  | .nest rd ra => some (fr l 0x07 rd.code ra.code 0 2)
  | .syncInit rd ra rb => some (fr l 0x18 rd.code ra.code rb.code 0)
  | .acq rd ra => some (fr l 0x18 rd.code ra.code 0 1)
  | .tryacq rd ra => some (fr l 0x18 rd.code ra.code 0 2)
  | .rel ra => some (fr l 0x18 0 ra.code 0 3)
  | .syncCall rd ra rb => some (fr l 0x18 rd.code ra.code rb.code 4)
  | .arrive rd ra rb => some (fr l 0x18 rd.code ra.code rb.code 5)
  | .arriveWait rd ra => some (fr l 0x18 rd.code ra.code 0 6)
  | .syncMode rd ra rb => some (fr l 0x18 rd.code ra.code rb.code 7)
  | .syncPol rd ra rb => some (fr l 0x18 rd.code ra.code rb.code 8)
  | .sbExpect rd ra rb => some (fr l 0x18 rd.code ra.code rb.code 9)
  | .sbWait rd ra rb => some (fr l 0x18 rd.code ra.code rb.code 10)
  | .ringOpen rd ra rb => some (fr l 0x19 rd.code ra.code rb.code 0)
  | .ringResv rd ra rb => some (fr l 0x19 rd.code ra.code rb.code 1)
  | .ringPub rd ra rb => some (fr l 0x19 rd.code ra.code rb.code 2)
  | .ringWait rd ra rb => some (fr l 0x19 rd.code ra.code rb.code 3)
  | .ringFree rd ra rb => some (fr l 0x19 rd.code ra.code rb.code 4)
  | .ringAdv ra rb => some (fr l 0x19 0 ra.code rb.code 5)
  | .spawn rd ra rb => some (fr l 0x1A rd.code ra.code rb.code 0)
  | .join ra => some (fr l 0x1A 0 ra.code 0 1)
  | .go ra => some (fr l 0x1A 0 ra.code 0 2)
  | .msgSend ra rb => some (fr l 0x1A 0 ra.code rb.code 3)
  | .yield => some (fr l 0x1A 0 0 0 4)
  | .exit ra rb => some (fr l 0x1A 0 ra.code rb.code 5)
  | .engClaim rd => some (fr l 0x1B rd.code 0 0 0)
  | .engRel => some (fr l 0x1B 0 0 0 1)
  | .cp1d rd ra rb => some (fr l 0x1B rd.code ra.code rb.code 2)
  | .cp2d rd ra rb => some (fr l 0x1B rd.code ra.code rb.code 3)
  | .cpGather rd ra rb => some (fr l 0x1B rd.code ra.code rb.code 4)
  | .cpScatter rd ra rb => some (fr l 0x1B rd.code ra.code rb.code 5)
  | .cpLink rd ra => some (fr l 0x1B rd.code ra.code 0 6)
  | .cpWait rd ra => some (fr l 0x1B rd.code ra.code 0 7)
  | .plBind rd ra => some (fr l 0x1C rd.code ra.code 0 0)
  | .plQuery rd ra rb => some (fr l 0x1C rd.code ra.code rb.code 1)
  | .plDetach rd ra => some (fr l 0x1C rd.code ra.code 0 2)
  | .plEnd rd ra => some (fr l 0x1C rd.code ra.code 0 3)
  | .partPost rd ra rb => some (fr l 0x1C rd.code ra.code rb.code 4)
  | .partQuery rd ra rb => some (fr l 0x1C rd.code ra.code rb.code 5)
  | .dgFold ra => some (fr l 0x1C 0 ra.code 0 6)
  | .dgClose rd => some (fr l 0x1C rd.code 0 0 7)
  | .eret => some (fr l 0x1D 0 0 0 0)
  | .ctlRd rd c => some (fr l 0x1D rd.code c.code 0 1)
  | .ctlWr c ra => some (fr l 0x1D c.code ra.code 0 2)
  | .tlbInv ra rb => some (fr l 0x1D 0 ra.code rb.code 3)
  | .step rd ra rb => some (fr l 0x1D rd.code ra.code rb.code 4)
  | .wpSet ra rb => some (fr l 0x1D 0 ra.code rb.code 5)
  | .wpClr ra => some (fr l 0x1D 0 ra.code 0 6)
  | .halt => some (fr l 0x1D 0 0 0 7)
  | .ctlRdx rd c rb => some (fr l 0x1D rd.code c.code rb.code 8)
  | .ctlWrx c ra rb => some (fr l 0x1D c.code ra.code rb.code 9)
  | .eretx rd ra rb => some (fr l 0x1D rd.code ra.code rb.code 10)
  | .add rd ra rb => some (fr l 0x20 rd.code ra.code rb.code 0)
  | .sub rd ra rb => some (fr l 0x20 rd.code ra.code rb.code 1)
  | .and rd ra rb => some (fr l 0x20 rd.code ra.code rb.code 2)
  | .or rd ra rb => some (fr l 0x20 rd.code ra.code rb.code 3)
  | .xor rd ra rb => some (fr l 0x20 rd.code ra.code rb.code 4)
  | .shl rd ra rb => some (fr l 0x20 rd.code ra.code rb.code 5)
  | .shr rd ra rb => some (fr l 0x20 rd.code ra.code rb.code 6)
  | .sra rd ra rb => some (fr l 0x20 rd.code ra.code rb.code 7)
  | .mul rd ra rb => some (fr l 0x20 rd.code ra.code rb.code 8)
  | .mulh rd ra rb => some (fr l 0x20 rd.code ra.code rb.code 9)
  | .mulhu rd ra rb => some (fr l 0x20 rd.code ra.code rb.code 10)
  | .min rd ra rb => some (fr l 0x20 rd.code ra.code rb.code 11)
  | .max rd ra rb => some (fr l 0x20 rd.code ra.code rb.code 12)
  | .minu rd ra rb => some (fr l 0x20 rd.code ra.code rb.code 13)
  | .maxu rd ra rb => some (fr l 0x20 rd.code ra.code rb.code 14)
  | .adds rd ra rb => some (fr l 0x20 rd.code ra.code rb.code 15)
  | .div rd ra rb => some (fr l 0x21 rd.code ra.code rb.code 0)
  | .divu rd ra rb => some (fr l 0x21 rd.code ra.code rb.code 1)
  | .rem rd ra rb => some (fr l 0x21 rd.code ra.code rb.code 2)
  | .remu rd ra rb => some (fr l 0x21 rd.code ra.code rb.code 3)
  | .clz rd ra => some (fr l 0x21 rd.code ra.code 0 4)
  | .ctz rd ra => some (fr l 0x21 rd.code ra.code 0 5)
  | .popc rd ra => some (fr l 0x21 rd.code ra.code 0 6)
  | .sxb rd ra => some (fr l 0x21 rd.code ra.code 0 7)
  | .sxh rd ra => some (fr l 0x21 rd.code ra.code 0 8)
  | .sxw rd ra => some (fr l 0x21 rd.code ra.code 0 9)
  | .subs rd ra rb => some (fr l 0x21 rd.code ra.code rb.code 10)
  | .csel rd ra rb => some (fr l 0x21 rd.code ra.code rb.code 11)
  | .sfRcp rd ra => some (fr l 0x32 rd.code ra.code 0 0)
  | .sfSqrt rd ra => some (fr l 0x32 rd.code ra.code 0 1)
  | .sfRsqrt rd ra => some (fr l 0x32 rd.code ra.code 0 2)
  | .sfExp2 rd ra => some (fr l 0x32 rd.code ra.code 0 3)
  | .sfLog2 rd ra => some (fr l 0x32 rd.code ra.code 0 4)
  | .sfSinpi rd ra => some (fr l 0x32 rd.code ra.code 0 5)
  | .sfCospi rd ra => some (fr l 0x32 rd.code ra.code 0 6)
  | .vadd rm vd va vb => some (fv l 0x30 vd va vb 0 rm.code 0)
  | .vsub rm vd va vb => some (fv l 0x30 vd va vb 0 rm.code 1)
  | .vmul rm vd va vb => some (fv l 0x30 vd va vb 0 rm.code 2)
  | .vfma rm vd va vb => some (fv l 0x30 vd va vb 0 rm.code 3)
  | .vmin vd va vb => some (fv l 0x30 vd va vb 0 0 4)
  | .vmax vd va vb => some (fv l 0x30 vd va vb 0 0 5)
  | .vabs vd va => some (fv l 0x30 vd va 0 0 0 6)
  | .vneg vd va => some (fv l 0x30 vd va 0 0 0 7)
  | .vand vd va vb => some (fv l 0x30 vd va vb 0 0 8)
  | .vor vd va vb => some (fv l 0x30 vd va vb 0 0 9)
  | .vxor vd va vb => some (fv l 0x30 vd va vb 0 0 10)
  | .vshl vd va rs => some (fv l 0x30 vd va 0 rs 0 11)
  | .vshr vd va rs => some (fv l 0x30 vd va 0 rs 0 12)
  | .vcvt rm vd va rs => some (fv l 0x30 vd va 0 rs rm.code 13)
  | .vcmp vd va vb rs => some (fv l 0x30 vd va vb rs 0 14)
  | .vsel vd va vb => some (fv l 0x30 vd va vb 0 0 15)
  | .vbcast vd rs => some (fv l 0x31 vd 0 0 rs 0 0)
  | .vld vd rs => some (fv l 0x31 vd 0 0 rs 0 1)
  | .vst va rs => some (fv l 0x31 0 va 0 rs 0 2)
  | .vsum rm vd va => some (fv l 0x31 vd va 0 0 rm.code 3)
  | .vrmax vd va => some (fv l 0x31 vd va 0 0 0 4)
  | .vshuf vd va vb => some (fv l 0x31 vd va vb 0 0 5)
  | .vpack rm vd va vb => some (fv l 0x31 vd va vb 0 rm.code 6)
  | .vunpack vd va rs => some (fv l 0x31 vd va 0 rs 0 7)
  | .viota vd rs => some (fv l 0x31 vd 0 0 rs 0 8)
  | .vmov vd va => some (fv l 0x31 vd va 0 0 0 9)
  | .phCvt k vd va => some (fv l 0x34 vd va 0 0 k.code 0)
  | .phMul vd va vb => some (fv l 0x34 vd va vb 0 0 1)
  | .phRed vd va rs => some (fv l 0x34 vd va 0 rs 0 2)
  | .phCmp vd va vb => some (fv l 0x34 vd va vb 0 0 3)
  | .phCos vd va => some (fv l 0x34 vd va 0 0 0 4)
  | .phSin vd va => some (fv l 0x34 vd va 0 0 0 5)
  | .qhist vd va rs => some (fv l 0x35 vd va 0 rs 0 0)
  | .qclip vd va rs => some (fv l 0x35 vd va 0 rs 0 1)
  | .qnt rm vd va vb rs => some (fv l 0x35 vd va vb rs rm.code 2)
  | .dq vd va rs => some (fv l 0x35 vd va 0 rs 0 3)
  | .sys imm => some (fi l 0x1E 0 0 imm)
  | .brk imm => some (fi l 0x1F 0 0 imm)
  | .addImm rd ra imm => some (fi l 0x22 rd ra imm)
  | .addImmX rd ra imm => some (fi l 0x23 rd.xcode ra imm)
  | .andImm rd ra imm => some (fi l 0x24 rd ra imm)
  | .orImm rd ra imm => some (fi l 0x25 rd ra imm)
  | .xorImm rd ra imm => some (fi l 0x26 rd ra imm)
  | .shlImm rd ra sh => some (fi l 0x27 rd ra (0#7 ++ sh))
  | .shrImm rd ra sh => some (fi l 0x28 rd ra (0#7 ++ sh))
  | .sraImm rd ra sh => some (fi l 0x29 rd ra (0#7 ++ sh))
  | .mulImm rd ra imm => some (fi l 0x2A rd ra imm)
  | .cset c rd ra rb => some (fc l rd ra.code rb.code c.code 0)
  | .fcset c rd ra rb => some (fc l rd ra.code rb.code c.code 1)
  | .cmp rd ra rb => some (fc l rd ra.code rb.code 0 2)
  | .sett rd imm => some (fi l 0x2C rd 0 imm)
  | .setm rd imm => some (fu l 0x2D rd imm)
  | .seth rd imm => some (fu l 0x2E rd imm)
  | .mma ty ka kb ad ta tb rs => some (ft l ty.code ka kb ad ta tb rs 0)
  | .pmm ty ad ta tb => some (ft l ty.code 0 0 ad ta tb 0 1)
  | .tld t rs => some (ft l 0 0 0 0 t 0 rs 2)
  | .tst t rs => some (ft l 0 0 0 0 t 0 rs 3)
  | .tdescWr t rs => some (ft l 0 0 0 0 t 0 rs 4)
  | .tdescRd t rs => some (ft l 0 0 0 0 t 0 rs 5)
  | .accZero ad => some (ft l 0 0 0 ad 0 0 0 6)
  | .accSt ad rs => some (ft l 0 0 0 ad 0 0 rs 7)
  | .accLd ad rs => some (ft l 0 0 0 ad 0 0 rs 8)
  | .accCvt ty ka ad t rs => some (ft l ty.code ka 0 ad t 0 rs 9)
  | .srSeed rs => some (ft l 0 0 0 0 0 0 rs 10)
  | .powerOn _ | .firmwareLoad _ _ | .thermalTrip _ _ | .powerLimitCheck _ _ | .thermalCheck _ _
  | .thermalRankingUpdate _ _ | .patrolScrub _ _ | .auditHeadSign _ | .ptpEventMessage _ _ | .ptpSourceLost
  | .ptpSourceReturn | .ptpSet _ | .linkFlitCrcFail _ | .linkRetrain _ _ | .linkTrainingComplete _ _
  | .cpLinkLineArrive _ _ _ | .sqDoorbell _ _ _ | .cqDoorbell _ _ _ | .queueEnable _ _ _ | .queueDisable _ _ _
  | .qstatClear _ _ _ | .sqFetch _ _ | .seqRetry _ _ | .cqPost _ | .launch _ | .seal _ | .deadline _
  | .harvest _ | .copyIn _ | .copyOut _ | .resetFunction _ | .attest _ | .registerWrite _ _
  | .eccCounterClear _ _ | .partitionConfigure _ _ | .partitionTeardown _ _ | .teardownComplete _
  | .vfmapEnable _ _ | .vfmapDisable _ _ | .asidMakeLive _ _ | .asidRemove _ _ | .s2invAll _ | .s2invRange _
  | .s2invComplete | .fgownGrant _ | .frameZeroComplete _ | .rturnWrite _ _ _ | .deadlineReopen _ _ _
  | .mboxWrite _ _ | .routerPacketReceive _ _ | .escapeTimeout _ | .combineArrive _ | .combineReply _
  | .homeAgentAccess _ | .probeAtBank _ | .storeAckArrive _ | .replyFill _ | .fenceComplete _
  | .fabricResponseTimeout _ | .boundedWaitExpire _ | .waitCancelAtHome _ | .tlbWalkComplete _
  | .cellAcquireAtBank _ | .cellReleaseAtBank _ | .barrierArrivalAtBank _ | .counterArrivalAtBank _
  | .sbExpectAtBank _ | .byteBarrierDelivery _ | .sectionStart _ | .packetReady _ _ _ | .placerChoose _
  | .placementAgeLimit _ _ | .rotationBoundary _ | .serveTurn _ | .taskRetire _ | .idleSlotTakeWork _ _
  | .stealRequestArrive _ | .stealReplyArrive _ | .stealBackoffExpire _ | .contextMessageArrive _
  | .contextMessageResend _ | .messageArrive _ | .messageResend _ | .preempt _ _ | .contextResume _ _ _
  | .chuckEvict _ | .slotBoundary _ | .slotHandover _ _ | .handoverNoTurnTimeout _ _ | .handoverWindowClose _
  | .threadStop _ | .trapDeliver _ | .mailboxPost _ | .engineFault _ _ | .stopBroadcastArrive _
  | .engineInstructionEnd _ _ | .matrixStepEnd _ | .engineSpillComplete _ | .copyCommandStart _
  | .copyLineWrite _ | .copyCommandEnd _ | .sfuRequestServe _ | .mandrelBind _ | .pipelineLeave _ _
  | .drainComplete _ _ | .instanceFail _ _ | .mandrelEventWrite _ _ | .partingTick _ _ | .partingCutoff _ _
  | .checkpointImagesWritten _ _ _ | .powerLoss _ | .functionResetComplete _ | .hostPostedWrite => none

/-! ### Operands named, and the doubleword -/

/-- Registers an instruction reads as operands (R127, R238). -/
def Instr.sources : Instr → List Reg
  | .bz ra _ | .bnz ra _ | .skImm _ _ ra _ | .ld _ _ ra _ | .ldX _ _ ra _ | .feq _ ra | .amoLd _ _ _ ra
  | .addImm _ ra _ | .addImmX _ ra _ | .andImm _ ra _ | .orImm _ ra _ | .xorImm _ ra _ | .shlImm _ ra _
  | .shrImm _ ra _ | .sraImm _ ra _ | .mulImm _ ra _ => [.g ra]
  | .sk _ _ ra rb | .fsk _ _ ra rb | .syncInit _ ra rb | .arrive _ ra rb | .syncMode _ ra rb | .syncPol _ ra rb
  | .sbExpect _ ra rb | .ringOpen _ ra rb | .ringAdv ra rb | .msgSend ra rb | .exit ra rb | .plQuery _ ra rb
  | .partPost _ ra rb | .partQuery _ ra rb | .tlbInv ra rb | .step _ ra rb | .wpSet ra rb | .ctlWrx _ ra rb
  | .eretx _ ra rb | .add _ ra rb | .sub _ ra rb | .and _ ra rb | .or _ ra rb | .xor _ ra rb | .shl _ ra rb
  | .shr _ ra rb | .sra _ ra rb | .mul _ ra rb | .mulh _ ra rb | .mulhu _ ra rb | .min _ ra rb | .max _ ra rb
  | .minu _ ra rb | .maxu _ ra rb | .adds _ ra rb | .div _ ra rb | .divu _ ra rb | .rem _ ra rb | .remu _ ra rb
  | .subs _ ra rb | .cset _ _ ra rb | .fcset _ _ ra rb | .cmp _ ra rb => [ra, rb]
  | .jr ra | .jlr _ ra | .nest _ ra | .tryacq _ ra | .rel ra | .join ra | .go ra | .cpWait _ ra | .plBind _ ra
  | .plDetach _ ra | .plEnd _ ra | .dgFold ra | .ctlWr _ ra | .wpClr ra | .clz _ ra | .ctz _ ra | .popc _ ra
  | .sxb _ ra | .sxh _ ra | .sxw _ ra | .sfRcp _ ra | .sfSqrt _ ra | .sfRsqrt _ ra | .sfExp2 _ ra | .sfLog2 _ ra
  | .sfSinpi _ ra | .sfCospi _ ra => [ra]
  | .st _ rd ra _ => [.g ra, .g rd]
  | .ldWf _ _ ra rb | .ldTk _ _ ra rb | .feWf _ ra rb | .feTk _ ra rb | .feFl _ ra rb | .amoAdd _ _ _ ra rb
  | .amoAnd _ _ _ ra rb | .amoOr _ _ _ ra rb | .amoXor _ _ _ ra rb | .amoSwap _ _ _ ra rb | .amoMin _ _ _ ra rb
  | .amoMax _ _ _ ra rb | .amoMinu _ _ _ ra rb | .amoMaxu _ _ _ ra rb | .amoFadd _ _ ra rb => [.g ra, .g rb]
  | .stFl _ rd ra rb => [.g ra, .g rb, rd]
  | .amoCas _ _ rd ra rb => [.g ra, .g rb, .g rd]
  | .acq rd ra | .arriveWait rd ra | .cpLink rd ra => [ra, rd]
  | .syncCall rd ra rb | .sbWait rd ra rb | .ringResv rd ra rb | .ringPub rd ra rb | .ringWait rd ra rb
  | .ringFree rd ra rb | .spawn rd ra rb | .cp1d rd ra rb | .cp2d rd ra rb | .cpGather rd ra rb
  | .cpScatter rd ra rb | .csel rd ra rb => [ra, rb, rd]
  | .ctlRdx _ _ rb => [rb]
  | .setm rd _ | .seth rd _ => [.g rd]
  | .vshl _ _ rs | .vshr _ _ rs | .vcvt _ _ _ rs | .vcmp _ _ _ rs | .vbcast _ rs | .vld _ rs | .vst _ rs
  | .vunpack _ _ rs | .viota _ rs | .mma _ _ _ _ _ _ rs | .tld _ rs | .tst _ rs | .tdescWr _ rs | .accSt _ rs
  | .accLd _ rs | .accCvt _ _ _ _ rs | .srSeed rs | .phRed _ _ rs | .qhist _ _ rs | .qclip _ _ rs
  | .qnt _ _ _ _ rs | .dq _ _ rs => [.g rs]
  | .powerOn _ | .firmwareLoad _ _ | .thermalTrip _ _ | .powerLimitCheck _ _ | .thermalCheck _ _
  | .thermalRankingUpdate _ _ | .patrolScrub _ _ | .auditHeadSign _ | .ptpEventMessage _ _ | .ptpSourceLost
  | .ptpSourceReturn | .ptpSet _ | .linkFlitCrcFail _ | .linkRetrain _ _ | .linkTrainingComplete _ _
  | .cpLinkLineArrive _ _ _ | .sqDoorbell _ _ _ | .cqDoorbell _ _ _ | .queueEnable _ _ _ | .queueDisable _ _ _
  | .qstatClear _ _ _ | .sqFetch _ _ | .seqRetry _ _ | .cqPost _ | .launch _ | .seal _ | .deadline _
  | .harvest _ | .copyIn _ | .copyOut _ | .resetFunction _ | .attest _ | .registerWrite _ _
  | .eccCounterClear _ _ | .partitionConfigure _ _ | .partitionTeardown _ _ | .teardownComplete _
  | .vfmapEnable _ _ | .vfmapDisable _ _ | .asidMakeLive _ _ | .asidRemove _ _ | .s2invAll _ | .s2invRange _
  | .s2invComplete | .fgownGrant _ | .frameZeroComplete _ | .rturnWrite _ _ _ | .deadlineReopen _ _ _
  | .mboxWrite _ _ | .routerPacketReceive _ _ | .escapeTimeout _ | .combineArrive _ | .combineReply _
  | .homeAgentAccess _ | .probeAtBank _ | .storeAckArrive _ | .replyFill _ | .fenceComplete _
  | .fabricResponseTimeout _ | .boundedWaitExpire _ | .waitCancelAtHome _ | .tlbWalkComplete _
  | .cellAcquireAtBank _ | .cellReleaseAtBank _ | .barrierArrivalAtBank _ | .counterArrivalAtBank _
  | .sbExpectAtBank _ | .byteBarrierDelivery _ | .sectionStart _ | .packetReady _ _ _ | .placerChoose _
  | .placementAgeLimit _ _ | .rotationBoundary _ | .serveTurn _ | .taskRetire _ | .idleSlotTakeWork _ _
  | .stealRequestArrive _ | .stealReplyArrive _ | .stealBackoffExpire _ | .contextMessageArrive _
  | .contextMessageResend _ | .messageArrive _ | .messageResend _ | .preempt _ _ | .contextResume _ _ _
  | .chuckEvict _ | .slotBoundary _ | .slotHandover _ _ | .handoverNoTurnTimeout _ _ | .handoverWindowClose _
  | .threadStop _ | .trapDeliver _ | .mailboxPost _ | .engineFault _ _ | .stopBroadcastArrive _
  | .engineInstructionEnd _ _ | .matrixStepEnd _ | .engineSpillComplete _ | .copyCommandStart _
  | .copyLineWrite _ | .copyCommandEnd _ | .sfuRequestServe _ | .mandrelBind _ | .pipelineLeave _ _
  | .drainComplete _ _ | .instanceFail _ _ | .mandrelEventWrite _ _ | .partingTick _ _ | .partingCutoff _ _
  | .checkpointImagesWritten _ _ _ | .br _ | .bl _ | .nestEnd _ | .skf _ _ _ | .fence _ | .sfence _ | .lfence _
  | .yield | .engClaim _ | .engRel | .dgClose _ | .eret | .ctlRd _ _ | .halt | .sys _ | .brk _ | .sett _ _
  | .vadd _ _ _ _ | .vsub _ _ _ _ | .vmul _ _ _ _ | .vfma _ _ _ _ | .vmin _ _ _ | .vmax _ _ _ | .vabs _ _
  | .vneg _ _ | .vand _ _ _ | .vor _ _ _ | .vxor _ _ _ | .vsel _ _ _ | .vsum _ _ _ | .vrmax _ _ | .vshuf _ _ _
  | .vpack _ _ _ _ | .vmov _ _ | .pmm _ _ _ _ | .tdescRd _ _ | .accZero _ | .phCvt _ _ _ | .phMul _ _ _
  | .phCmp _ _ _ | .phCos _ _ | .phSin _ _ | .powerLoss _ | .functionResetComplete _ | .hostPostedWrite => []

/-- Registers an instruction writes, implicit ones included (R238). -/
def Instr.dests : Instr → List Reg
  | .bl _ => [.g 62]
  | .jlr rd _ | .ldX _ rd _ _ | .ldWf _ rd _ _ | .ldTk _ rd _ _ | .feWf rd _ _ | .feTk rd _ _ | .feFl rd _ _
  | .feq rd _ | .syncInit rd _ _ | .acq rd _ | .tryacq rd _ | .syncCall rd _ _ | .arrive rd _ _
  | .arriveWait rd _ | .syncMode rd _ _ | .syncPol rd _ _ | .sbExpect rd _ _ | .sbWait rd _ _ | .ringOpen rd _ _
  | .ringResv rd _ _ | .ringWait rd _ _ | .ringFree rd _ _ | .engClaim rd | .cpWait rd _ | .plBind rd _
  | .plQuery rd _ _ | .plDetach rd _ | .plEnd rd _ | .partPost rd _ _ | .partQuery rd _ _ | .dgClose rd
  | .ctlRd rd _ | .step rd _ _ | .ctlRdx rd _ _ | .eretx rd _ _ | .add rd _ _ | .sub rd _ _ | .and rd _ _
  | .or rd _ _ | .xor rd _ _ | .shl rd _ _ | .shr rd _ _ | .sra rd _ _ | .mul rd _ _ | .mulh rd _ _
  | .mulhu rd _ _ | .min rd _ _ | .max rd _ _ | .minu rd _ _ | .maxu rd _ _ | .adds rd _ _ | .div rd _ _
  | .divu rd _ _ | .rem rd _ _ | .remu rd _ _ | .clz rd _ | .ctz rd _ | .popc rd _ | .sxb rd _ | .sxh rd _
  | .sxw rd _ | .subs rd _ _ | .csel rd _ _ | .addImmX rd _ _ | .sfRcp rd _ | .sfSqrt rd _ | .sfRsqrt rd _
  | .sfExp2 rd _ | .sfLog2 rd _ | .sfSinpi rd _ | .sfCospi rd _ => [rd]
  | .nest rd _ => [rd, .i 0, .i 1, .i 2, .i 3]
  | .ld _ rd _ _ | .amoAdd _ _ rd _ _ | .amoAnd _ _ rd _ _ | .amoOr _ _ rd _ _ | .amoXor _ _ rd _ _
  | .amoSwap _ _ rd _ _ | .amoCas _ _ rd _ _ | .amoMin _ _ rd _ _ | .amoMax _ _ rd _ _ | .amoMinu _ _ rd _ _
  | .amoMaxu _ _ rd _ _ | .amoFadd _ rd _ _ | .amoLd _ _ rd _ | .addImm rd _ _ | .andImm rd _ _ | .orImm rd _ _
  | .xorImm rd _ _ | .shlImm rd _ _ | .shrImm rd _ _ | .sraImm rd _ _ | .mulImm rd _ _ | .cset _ rd _ _
  | .fcset _ rd _ _ | .cmp rd _ _ | .sett rd _ | .setm rd _ | .seth rd _ => [.g rd]
  | .tdescRd _ rs => [.g rs]
  | .powerOn _ | .firmwareLoad _ _ | .thermalTrip _ _ | .powerLimitCheck _ _ | .thermalCheck _ _
  | .thermalRankingUpdate _ _ | .patrolScrub _ _ | .auditHeadSign _ | .ptpEventMessage _ _ | .ptpSourceLost
  | .ptpSourceReturn | .ptpSet _ | .linkFlitCrcFail _ | .linkRetrain _ _ | .linkTrainingComplete _ _
  | .cpLinkLineArrive _ _ _ | .sqDoorbell _ _ _ | .cqDoorbell _ _ _ | .queueEnable _ _ _ | .queueDisable _ _ _
  | .qstatClear _ _ _ | .sqFetch _ _ | .seqRetry _ _ | .cqPost _ | .launch _ | .seal _ | .deadline _
  | .harvest _ | .copyIn _ | .copyOut _ | .resetFunction _ | .attest _ | .registerWrite _ _
  | .eccCounterClear _ _ | .partitionConfigure _ _ | .partitionTeardown _ _ | .teardownComplete _
  | .vfmapEnable _ _ | .vfmapDisable _ _ | .asidMakeLive _ _ | .asidRemove _ _ | .s2invAll _ | .s2invRange _
  | .s2invComplete | .fgownGrant _ | .frameZeroComplete _ | .rturnWrite _ _ _ | .deadlineReopen _ _ _
  | .mboxWrite _ _ | .routerPacketReceive _ _ | .escapeTimeout _ | .combineArrive _ | .combineReply _
  | .homeAgentAccess _ | .probeAtBank _ | .storeAckArrive _ | .replyFill _ | .fenceComplete _
  | .fabricResponseTimeout _ | .boundedWaitExpire _ | .waitCancelAtHome _ | .tlbWalkComplete _
  | .cellAcquireAtBank _ | .cellReleaseAtBank _ | .barrierArrivalAtBank _ | .counterArrivalAtBank _
  | .sbExpectAtBank _ | .byteBarrierDelivery _ | .sectionStart _ | .packetReady _ _ _ | .placerChoose _
  | .placementAgeLimit _ _ | .rotationBoundary _ | .serveTurn _ | .taskRetire _ | .idleSlotTakeWork _ _
  | .stealRequestArrive _ | .stealReplyArrive _ | .stealBackoffExpire _ | .contextMessageArrive _
  | .contextMessageResend _ | .messageArrive _ | .messageResend _ | .preempt _ _ | .contextResume _ _ _
  | .chuckEvict _ | .slotBoundary _ | .slotHandover _ _ | .handoverNoTurnTimeout _ _ | .handoverWindowClose _
  | .threadStop _ | .trapDeliver _ | .mailboxPost _ | .engineFault _ _ | .stopBroadcastArrive _
  | .engineInstructionEnd _ _ | .matrixStepEnd _ | .engineSpillComplete _ | .copyCommandStart _
  | .copyLineWrite _ | .copyCommandEnd _ | .sfuRequestServe _ | .mandrelBind _ | .pipelineLeave _ _
  | .drainComplete _ _ | .instanceFail _ _ | .mandrelEventWrite _ _ | .partingTick _ _ | .partingCutoff _ _
  | .checkpointImagesWritten _ _ _ | .br _ | .nestEnd _ | .bz _ _ | .bnz _ _ | .sk _ _ _ _ | .fsk _ _ _ _
  | .skf _ _ _ | .skImm _ _ _ _ | .jr _ | .st _ _ _ _ | .stFl _ _ _ _ | .fence _ | .sfence _ | .lfence _
  | .rel _ | .ringPub _ _ _ | .ringAdv _ _ | .spawn _ _ _ | .join _ | .go _ | .msgSend _ _ | .yield | .exit _ _
  | .engRel | .cp1d _ _ _ | .cp2d _ _ _ | .cpGather _ _ _ | .cpScatter _ _ _ | .cpLink _ _ | .dgFold _ | .eret
  | .ctlWr _ _ | .tlbInv _ _ | .wpSet _ _ | .wpClr _ | .halt | .ctlWrx _ _ _ | .sys _ | .brk _ | .vadd _ _ _ _
  | .vsub _ _ _ _ | .vmul _ _ _ _ | .vfma _ _ _ _ | .vmin _ _ _ | .vmax _ _ _ | .vabs _ _ | .vneg _ _
  | .vand _ _ _ | .vor _ _ _ | .vxor _ _ _ | .vshl _ _ _ | .vshr _ _ _ | .vcvt _ _ _ _ | .vcmp _ _ _ _
  | .vsel _ _ _ | .vbcast _ _ | .vld _ _ | .vst _ _ | .vsum _ _ _ | .vrmax _ _ | .vshuf _ _ _ | .vpack _ _ _ _
  | .vunpack _ _ _ | .viota _ _ | .vmov _ _ | .mma _ _ _ _ _ _ _ | .pmm _ _ _ _ | .tld _ _ | .tst _ _
  | .tdescWr _ _ | .accZero _ | .accSt _ _ | .accLd _ _ | .accCvt _ _ _ _ _ | .srSeed _ | .phCvt _ _ _
  | .phMul _ _ _ | .phRed _ _ _ | .phCmp _ _ _ | .phCos _ _ | .phSin _ _ | .qhist _ _ _ | .qclip _ _ _
  | .qnt _ _ _ _ _ | .dq _ _ _ | .powerLoss _ | .functionResetComplete _ | .hostPostedWrite => []

/-- C class: OP 0x01–0x1F (R237). -/
def isCClass (w : BitVec 32) : Bool := (w.field 25 6).toNat < 0x20

/-- May stand only as a lone instruction (R238). -/
def loneOnly (w : BitVec 32) : Bool :=
  let op := (w.field 25 6).toNat
  let fn := (w.field 0 4).toNat
  (op = 0x1A && (fn = 0 || fn = 1 || fn = 2 || fn = 4 || fn = 5)) || op = 0x1E || op = 0x1F ||
    (op = 0x1D && (fn = 0 || fn = 7 || fn = 10))

/-- An issue unit, or the word (0 or 1) that an illegal-instruction trap names (R238, R249). -/
inductive IssueUnit where
  | lone (i : Instr)
  | pair (c a : Instr)
  | illegal (word : Bool)
  deriving DecidableEq, Repr

/-- No two words of a pair may write the same register other than g0, nor both name g60 as a source (R238). -/
def pairClash (c a : Instr) : Bool :=
  c.dests.any (fun r => r ≠ .g 0 && a.dests.contains r) || (c.sources.contains (.g 60) && a.sources.contains (.g 60))

/-- The issue unit that starts at word 0 (`second = false`) or word 1 of a doubleword (R237, R238, R249, R250). -/
def decodeUnit (dw : Word) (second : Bool) : IssueUnit :=
  let w0 : BitVec 32 := dw.extractLsb' 0 32
  let w1 : BitVec 32 := dw.extractLsb' 32 32
  if second then
    if w0.field 31 1 = 0 ∨ w1.field 31 1 = 1 then .illegal true
    else match decodeWord w1 with
      | some i => .lone i
      | none => .illegal true
  else if w0.field 31 1 = 1 then
    match decodeWord w0 with
    | some i => .lone i
    | none => .illegal false
  else match decodeWord w0, decodeWord w1 with
    | none, _ => .illegal false
    | some c, d1 =>
      if ¬ isCClass w0 ∨ loneOnly w0 then .illegal false
      else if w1.field 31 1 = 1 ∨ isCClass w1 then .illegal true
      else match d1 with
        | none => .illegal true
        | some a => if pairClash c a then .illegal false else .pair c a

/-- The instruction of a row of spec/opcode_table.json with bits `w` (bit 31 is L of word 0 and is not an operand). -/
def decodeTableWord (nbits w : Nat) : Option Instr :=
  if nbits ≤ 32 then decodeWord (BitVec.ofNat 32 w) else none

end Sys2Proof
end

