-- ==== Sys2Proof/Machine/State.lean ====
section
/-! DEFINITION. The state of the device as plain data: everything spec/ gives the machine, and the model's own
bookkeeping of what is in flight and of what moves next (notes/assumptions/1.md). An `SMap` that does not list a key
holds the reset value of that key's type. -/

namespace Sys2Proof.Machine

/-- A map with Nat keys in ascending order. -/
abbrev SMap (α : Type) := List (Nat × α)

/-- Why the machine stops with nothing more to do. -/
inductive Fault where
  /-- Raised by `step` when the package is off or boot-failed (R38, R39, R41) and no event is due. Safe: the device
  does nothing then. -/
  | poweredOff
  deriving DecidableEq, Repr

/-- Why the model gives an instruction no meaning. -/
inductive Refusal where
  /-- Raised by `exec` for an instruction whose meaning is not written. Safe: nothing is claimed of it. -/
  | notModelled (mnemonic : String)
  deriving DecidableEq, Repr

/-- The part numbers of R1. -/
inductive Part where
  | hx1024d | hx4096p | hx4096m
  deriving DecidableEq, Repr

/-- Whether the package runs (R38, R39, R41). -/
inductive Power where
  | off | running | bootFailed | recovery
  deriving DecidableEq, Repr

/-- Privilege levels (R9). -/
inductive Level where
  | u | s | f
  deriving DecidableEq, Repr

/-! ### Traps and registers of a thread -/

/-- What a trap records (R205, R206). -/
structure TrapRec where
  code : BitVec 8
  taddr : Word
  tinfo : Word
  orig : BitVec 2
  eng : BitVec 2
  lost : Bool
  deriving DecidableEq, Repr

/-- Why a register is empty: a pending fill (R126), armed for a message (R314), its request, of that number, was refused and
the refusal is not yet reported (R281), or it was reported (notes/assumptions/11.md). -/
inductive EmptyWhy where
  | fill | armed | dead
  | failed (t : TrapRec) (num : Nat)
  deriving DecidableEq, Repr

/-- Where a thread context is (R90, R93, R95, R121, R310). -/
inductive Place where
  | slot (core slot : Nat)
  | chuck (core slot : Nat)
  | save (core slot : Nat)
  | deque (core : Nat)
  | inbound (core : Nat)
  | setAside (core : Nat)
  | transit (core slot : Nat)
  | ckpt (core slot : Nat)
  deriving DecidableEq, Repr

/-- Atomic functions (R288). -/
inductive AmoFn where
  | add | and | or | xor | swap | cas | min | max | minu | maxu | fadd | ld
  deriving DecidableEq, Repr

/-- What is asked of a home agent or another unit (R164, R294, R302, R308–R315, R322–R326, R347). -/
inductive HomeOp where
  | load (size : Nat)
  | loadSync (size : Nat) (take : Bool)
  | store (size : Nat) (v : Word)
  | storeFill (size : Nat) (v : Word)
  | fe (sy : BitVec 2)
  | feq
  | amo (f : AmoFn) (size : Nat) (b e : Word)
  | claim (join : Bool)
  | scopeRead
  | cellInit (cfg : Word)
  | acq | tryacq | rel
  | call (arg : Word)
  | arrive (add : Word)
  | arriveWait
  | mode (w : Word)
  | pol (w : Word)
  | expect (b : Word)
  | sbWait (p : Word)
  | deliver (bytes : Nat)
  | depaWait (fn queue index : Nat)
  | ringOpen (w : Word)
  | ringResv (n : Word) | ringPub (i n : Word) | ringWait (n : Word) | ringFree (n : Word)
  | ringAdv (n : Word)
  | fold
  | joinInc (entry sp : Word) | joinDec | joinWait
  | probe (bank : Nat)
  | cancel (target : Nat)
  | context (ctx : Nat)
  | stealReq (task : Nat)
  | stealRep (ctx : Option Nat)
  | message (reg : Nat) (v : Word) (core slot : Nat)
  | sfu (fn : Nat) (x : BitVec 32)
  | bind (recVa : Word) (lines : Option (List Nat))
  | none
  deriving DecidableEq, Repr

/-- What a reply carries (R126, R173, R281). -/
inductive Reply where
  | value (v : Word)
  | ack
  | line (data : List Byte)
  | chunk (r c : Word) (e0 e1 e2 e3 : Nat)
  | error (t : TrapRec)
  deriving DecidableEq, Repr

/-- Where a message is: a grid router, a switch of the combining network, combined into another there (R31), its
destination, its home agent's wait list, the destination's refusal (to be resent), dropped by a router (R23), or on its
way back as a reply. -/
inductive Loc where
  | grid (x y : Nat)
  | switch (die stage index : Nat)
  | merged
  | home
  | waiting
  | refused
  | lost
  | back (r : Reply)
  deriving DecidableEq, Repr

/-- A place of the fabric: a grid router, or a switch of a combining network (R24, R30). -/
inductive Way where
  | router (x y : Nat)
  | switch (die stage index : Nat)
  deriving DecidableEq, Repr

/-- A flit buffer that a packet holds: the router, its input port (R24), and whether it is one of the escape network's
(R26). -/
structure Flit where
  x : Nat
  y : Nat
  port : Nat
  esc : Bool
  deriving DecidableEq, Repr

/-- The hit mark of a watchpoint: what the hit reports, with code 0x15 under TRAP and 0x16 under STOP (R212), the number of
the hit, the watched cluster, and the cycle H on the core of the hitting thread (R213). -/
structure Mark where
  trap : TrapRec
  num : Nat
  cluster : Nat
  at_ : Nat
  deriving DecidableEq, Repr

/-- When a request or a wait began: PTP time, the cycle of its core, and the cycles that its thread's timeouts had been held
until then (R25, R214). -/
structure Start where
  wall : Nat
  cycle : Nat
  held : Nat
  deriving DecidableEq, Repr

/-- A request, reply or context message in flight. `part`, `asid`, `fn`, `lvl`, `core`, `slot` are the source's. -/
structure Msg where
  id : Nat
  op : HomeOp
  tid : Nat
  part : Nat
  asid : Nat
  fn : Nat
  lvl : Level
  core : Nat
  slot : Nat
  va : Word
  pa : Nat
  scope : Nat
  counted : Bool
  dst : Option Reg
  loc : Loc
  esc : Bool
  /-- The arrival link at the router it stands at (R24), and PTP time of that arrival (R29). -/
  port : Nat
  since : Nat
  ticket : Option Nat
  limit : Option Nat
  /-- The hit mark of a watchpoint (R212). -/
  hit : Option Mark
  /-- The thread's count of issued instructions when it issued this one (R213). -/
  issued : Nat
  aux : Word
  /-- Where a reply stands on its way back; none once it is at its requester (R30). -/
  ret : Option Way
  /-- The switches the request went through, the last first, then the router at which it left the grid (R30). -/
  path : List Way
  /-- The flit buffers the packet holds, the header's first (R26); the buffers that its header has taken, the last first, in
  whose steps the other flits follow; and the flits that have entered the network (R21). -/
  held : List Flit
  track : List Flit
  entered : Nat
  born : Start
  /-- The stage-2 leaf it writes through, whose D its performance sets (R74). -/
  leaf : Option Nat
  /-- The order of a store's performance among those of the package (R164, R166). -/
  perf : Nat
  deriving DecidableEq, Repr

/-- Fence forms (R174). -/
inductive FenceForm where
  | fence | sfence | lfence
  deriving DecidableEq, Repr

/-- What a thread does once the fence it waits in is complete (R289, R293, R301, R311, R314, R322). -/
inductive After where
  | done
  | send (m : Msg) (parks : Bool)
  | exitWait (join val : Word)
  | leave (core : Nat)
  deriving DecidableEq, Repr

/-- How a request that was held in M1 is sent (R166): an ordinary load, which the data cache may serve; a store; a st.fl; a
request whose instruction parks from WB under a bounded-wait limit; one whose register is filled later; an atomic of a
scope; the claim of a nest.end with its target. -/
inductive Send where
  | load | store | fill
  | sync (lim : Word)
  | plain
  | amo (scope : Nat)
  | nest (target : Word)
  deriving DecidableEq, Repr

/-- A register or TCM access on its way through the pipeline: issued in cycle `issued`, seen by R129 or R169. -/
inductive Delayed where
  | hVal (issued fn idx : Nat) (v : Word)
  | hEmpty (issued fn idx tid : Nat)
  /-- A checked store, atomic or change of a full/empty bit of the own TCM, which meets its word in stage WB (R169, R171,
  R290). -/
  | wb (issued : Nat) (m : Msg)
  deriving DecidableEq, Repr

/-- Why a thread does not issue (R127, R166, R174, R269, R279, R307, R317, R319). `held` is an access of `n` bytes that waits
in M1 behind an earlier one (R166); `scope` a release-side instruction that reads its cell's scope first (R293); `nestReply`
a nest.end that waits for the claim of its nest, and `nestEnd` one that waits for its own (R264); `inval` a tlb.inv, with
the requests and the accesses of TCM pipelines that it waits for (R274); `joined` a woken join that has not resumed (R310);
`start` a thread that waits for its first rotation boundary (R82). -/
inductive Park where
  | none
  | reg (code : Nat)
  | held (m : Msg) (n : Nat) (how : Send)
  | scope (read : Nat) (m : Msg) (parks : Bool) (lim : Word)
  | nestEnd (claim : Nat) (target : Word)
  | walk (walk : Nat)
  | fence (form : FenceForm) (scope : Nat) (after : After)
  | reply (msg : Nat)
  | nestReply
  | trapped
  | stopped
  | sys
  | halted
  | engine
  | drain
  | tags (mask : Nat)
  | copies (join val : Word)
  | spawnFills
  | stepping (target : Nat)
  | inval (msgs : List Nat) (tcm : List (Nat × Delayed))
  | chain
  | joined
  | start
  deriving DecidableEq, Repr

/-- An active loop nest (R262–R264): the record, N, the extents, the current iteration and the chunk's last. -/
structure Nest where
  pa : Nat
  va : Word
  total : Word
  e0 : Nat
  e1 : Nat
  e2 : Nat
  e3 : Nat
  n : Word
  last : Word
  /-- The stage-2 leaf of the record's page (R74). -/
  leaf : Option Nat
  /-- The claim of a nest.end that was saved before its reply found no iteration left, or brought a chunk that has not been
  entered (R264). -/
  ended : Bool
  fresh : Bool
  deriving DecidableEq, Repr

/-- What the unit last issued did that a trap of it while it is still parked takes back (R204, R238, R281): its A word's
registers as they stood before, the skip count before, the value taken from the link of g60, whether g61 was written, and
the number of the engine instruction that entered a queue. -/
structure Undo where
  regs : List (Reg × Word × Option EmptyWhy)
  skip : BitVec 2
  link : Option Word
  pushed : Bool
  entry : Option Nat
  deriving DecidableEq, Repr

/-- A stop that has reached a thread which has not frozen yet (R213): whether the thread made the hitting access, ctl.taddr and
ctl.tinfo (R206), the cycle H on its core, and the count of issues that INSTR counts from. -/
structure Due where
  hit : Bool
  taddr : Word
  tinfo : Word
  at_ : Nat
  base : Nat
  deriving DecidableEq, Repr

/-- The engine claim of a thread (R131): bound to context k, spilled to record r, or waiting for a context. -/
inductive Claim where
  | bound (k : Nat)
  | spilled (r : Nat)
  deriving DecidableEq, Repr

/-- One thread context (R128, R205, R240, R268). `regs` and `empt` are keyed by the register code of R239. -/
structure Ctx where
  place : Place
  task : Nat
  queue : Option Nat
  lvl : Level
  fn : Nat
  part : Nat
  asid : BitVec 10
  pc : Word
  /-- The unit last issued, for a trap taken after it left IS (R204). -/
  ipc : Word
  iword : BitVec 32
  iwpos : Bool
  regs : SMap Word
  empt : SMap EmptyWhy
  trapf : BitVec 17
  skip : BitVec 2
  seg : Word
  tvec : Word
  tdeleg : Word
  tinfo : Word
  taddr : Word
  timeAcc : Nat
  seatedAt : Nat
  fmt0 : BitVec 16
  fmt1 : BitVec 16
  fmt2 : BitVec 16
  fmt3 : BitVec 16
  scl : Word
  vshape : Word
  skid : Word
  park : Park
  /-- The special-function request of word 1 of a pair, which the thread waits for beside what word 0 waits for (R238,
  R347). -/
  also : Option Nat
  /-- Remaining bounded-wait limit, in cycles of ctl.time, and ctl.time at which it was last measured (R286). -/
  limit : Option Nat
  limitFrom : Nat
  /-- When the fence or the parked request it waits in began (R25). -/
  waitFrom : Start
  /-- Cycles that the thread's timeouts have been held, and the cycle since which they are held (R214). -/
  heldCycles : Nat
  heldAt : Option Nat
  sub : SMap Nat
  touched : BitVec 128
  errAcks : List TrapRec
  /-- Requests of the parent that were outstanding when spawn started this child (R308). -/
  after : List Nat
  pend0 : Option TrapRec
  pend1 : Option TrapRec
  pend2 : Option TrapRec
  pend3 : Option TrapRec
  walkFault : Option TrapRec
  /-- An uncorrectable error in the context: 1 in the register file, 2 in its Chuck entry (R36, R206). -/
  regErr : Option Nat
  nest : Option Nest
  chain : List Word
  claim : Option Claim
  scopeMem : List (Nat × Nat)
  root : Bool
  /-- The record of the save area that holds the context, and the core cycle in which it entered the Chuck (R94, R95). -/
  record : Option Nat
  chuckAt : Nat
  vcore : Nat
  /-- The slot of a folded thread on its former core, by which the chain still connects it (R96, R130). -/
  lane : Option Nat
  sha : BitVec 256
  folded : Nat
  lastIssue : Nat
  stop : Bool
  frozen : Bool
  /-- Stops that have reached the thread, which freezes when it would next issue, oldest first (R212, R213). -/
  freezeDue : List Due
  /-- Hits of the thread of which one of the mark and the broadcast has come and the other has not (R213, R359). -/
  told : List Nat
  /-- Instructions issued (R213). -/
  issued : Nat
  undo : Undo
  /-- Issues left of a step, and the reply that completes it (R215, R276). -/
  stepLeft : Option Nat
  stepper : Option Nat
  /-- The sync.call message whose delegated section this context runs (R155). -/
  caller : Option Nat
  deriving DecidableEq, Repr

/-! ### Cores and clusters -/

/-- One turn of the rotation table, RTURNk (R84). -/
structure Turn where
  tslot : Nat
  ten : Bool
  ov : Bool
  qown : Option Nat
  deriving DecidableEq, Repr

/-- One tenant's h0–h15 bank of a core (R71, R129). -/
structure HBank where
  vals : SMap Word
  empt : SMap EmptyWhy
  deriving DecidableEq, Repr

/-- Engine registers, for the empties of R332. -/
inductive EReg where
  | v (n : Nat) | t (n : Nat) | a (n : Nat) | td (n : Nat) | gen
  deriving DecidableEq, Repr

/-- A copy tag (R318, R321). -/
inductive Tag where
  | busy
  | ended (status : Word)
  deriving DecidableEq, Repr

/-- One engine context (R131, R189). -/
structure Eng where
  owner : Option Nat
  v : SMap (BitVec 8192)
  t : SMap (BitVec 16384)
  a : SMap (BitVec 32768)
  td : SMap Word
  gen : BitVec 32
  /-- Engine registers written since the claim (R117). -/
  dirty : List EReg
  tags : SMap Tag
  /-- The spill record that receives this context, the thread that then takes it, and the spilled record it restores
  (R131). -/
  spillTo : Option Nat
  next : Option Nat
  deriving DecidableEq, Repr

/-- A queued matrix or vector instruction with what it read in stage OP (R132, R332), in issue order by `seq`, and the
steps it has made. -/
structure QEntry where
  seq : Nat
  instr : Instr
  ctx : Nat
  tid : Nat
  slot : Nat
  part : Nat
  fn : Nat
  asid : BitVec 10
  pc : Word
  word : BitVec 32
  rs : Word
  vshape : Word
  fmts : List (BitVec 16)
  steps : Nat
  /-- Instructions that its thread had issued, which INSTR of a hit counts from (R213). -/
  issued : Nat
  deriving DecidableEq, Repr

/-- The copy commands of R319. -/
inductive CopyKind where
  | d1 | d2 | gather | scatter | link
  deriving DecidableEq, Repr

/-- The copy record of R318 as read at the start. -/
structure CopyRec where
  src : Word
  dst : Word
  len : Nat
  cnt : Nat
  sstr : Word
  dstr : Word
  idx : List Word
  dpkg : Nat
  dasid : Nat
  deriving DecidableEq, Repr

/-- A queued copy command (R318–R321). -/
structure CopyCmd where
  kind : CopyKind
  ctx : Nat
  tid : Nat
  tag : Nat
  recVa : Word
  cell : Option Word
  record : Option CopyRec
  row : Nat
  off : Nat
  stat : Option Word
  port : Option Nat
  deriving DecidableEq, Repr

/-- A data-cache line (R138), and for each byte the order of the newest performance it holds (R166). -/
structure CacheLine where
  pa : Nat
  data : List Byte
  vers : List Nat
  deriving DecidableEq, Repr

/-- A TLB entry: a combined translation of one page (R68, R69). `pages` is its size in 4 KiB pages. -/
structure TlbEntry where
  asid : Nat
  vpage : Nat
  ipage : Nat
  ppage : Nat
  pages : Nat
  /-- Permissions and leaf levels of stage 1 and of stage 2 (R67). -/
  w1 : Bool
  x1 : Bool
  us1 : Bool
  w2 : Bool
  x2 : Bool
  lev1 : Nat
  lev2 : Nat
  /-- Whether the entry holds D set, and where the stage-2 leaf lies (R74). -/
  dset : Bool
  leafPa : Nat
  deriving DecidableEq, Repr

/-- A task's deque on a core (R89): tids, oldest first. -/
structure Deque where
  chip : List Nat
  spill : List Nat
  deriving DecidableEq, Repr

/-- A delegate slot (R153): the task that registered and the control registers recorded. -/
structure Delegate where
  task : Nat
  part : Nat
  fn : Nat
  lvl : Level
  asid : BitVec 10
  seg : Word
  fmt0 : BitVec 16
  fmt1 : BitVec 16
  fmt2 : BitVec 16
  fmt3 : BitVec 16
  scl : Word
  cells : List Nat
  deriving DecidableEq, Repr

/-- A slot handover in progress (R71): the functions, the core cycle of the boundary, the slots that have handed over, and
those whose outgoing thread has stopped and waits for room in the Chuck. -/
structure Handover where
  outFn : Nat
  inFn : Nat
  at_ : Nat
  done : List Nat
  stopped : List Nat
  deriving DecidableEq, Repr

/-- One core (R84–R95, R125–R132, R138). -/
structure Core where
  cycle : Nat
  turns : List Turn
  turnWrites : List (Nat × Word)
  rterr : Bool
  /-- Local queues as (function, queue, weight), in index order (R85). -/
  localQ : List (Nat × Nat × Nat)
  disabled : List Nat
  disableNext : List Nat
  enableNext : List Nat
  /-- Slots whose displaced thread is to leave as a context message, and the core it leaves for (R98). -/
  displaced : SMap Nat
  /-- Slots reserved to tasks, by function × 16 + slot (R71, R82), TCM footprints as (task, first 4 KiB page, pages) (R81). -/
  reserved : SMap Nat
  tcm : List (Nat × Nat × Nat)
  hb : SMap HBank
  delayed : List Delayed
  eng0 : Eng
  eng1 : Eng
  /-- Spill records of engine contexts in use (R94, R131). -/
  spills : SMap Eng
  mq : List QEntry
  vq : List QEntry
  cq : List CopyCmd
  /-- The context that took the last matrix step (R88). -/
  lastStep : Nat
  /-- Core cycle in which each slot last issued, for Since (R86). -/
  slotIssue : SMap Nat
  chuck : List Nat
  deques : SMap Deque
  /-- Inbound contexts, oldest first, and those of them that are in the save area (R93). -/
  inbound : List Nat
  inboundSpill : List Nat
  msgBuf : List Nat
  lastVictim : Option Nat
  /-- The record after the newest of a function's deque spill buffer, by function (R89). -/
  spillNext : SMap Nat
  stealBusy : Bool
  emptyReplies : Nat
  stealWaitFrom : Option Nat
  dcache : List CacheLine
  tlb : List TlbEntry
  handover : Option Handover
  /-- Whether the core's matrix unit has a step in flight. -/
  stepping : Option Nat
  /-- step with n = 0 releases the core's frozen threads at the next rotation boundary (R215). -/
  release : Bool
  delegates : SMap Delegate
  sections : List Nat
  /-- Dirty TCM lines and scratchpad regions (R117) as (task, line) and (task, region). -/
  dirtyTcm : List (Nat × Nat)
  dirtySp : List (Nat × Nat)
  /-- PTP time, in ps, at which committed checkpoint writes finish (R119). -/
  busyPs : Nat
  deriving DecidableEq, Repr

/-- A page walk in progress (R68): for a private-window page the intermediate address that stage 2 starts from
(R139), and the threads that wait for it with the cores whose TLBs receive it. -/
structure Walk where
  id : Nat
  asid : Nat
  va : Word
  ia : Option Nat
  tids : List (Nat × Nat)
  deriving DecidableEq, Repr

/-- An armed watchpoint (R212, R277). -/
structure Watch where
  pa : Nat
  va : Word
  asid : Nat
  fn : Nat
  lvl : Level
  part : Nat
  ld : Bool
  st : Bool
  at_ : Bool
  stopAct : Bool
  deriving DecidableEq, Repr

/-- A stop broadcast on its way to a core (R212, R213): the number of the hit, the address of wp.set and the one that the
hitting access used, the hitting thread with its count of issues up to the hitting instruction, and, at H, the core's cycle
and the counts of issues of its threads. -/
structure StopCast where
  num : Nat
  core : Nat
  va : Word
  hitVa : Word
  tinfo : Word
  tid : Nat
  issued : Nat
  at_ : Nat
  counts : SMap Nat
  deriving DecidableEq, Repr

/-- One cluster (R37, R68, R134, R212). -/
structure Cluster where
  mhz : Nat
  walks : List Walk
  wps : SMap Watch
  stops : List StopCast
  deriving DecidableEq, Repr

/-- A wait-buffer entry of a combining switch (R31). -/
structure WaitBuf where
  die : Nat
  stage : Nat
  index : Nat
  first : Nat
  second : Nat
  addend : Word
  deriving DecidableEq, Repr

/-! ### Work -/

/-- A work packet (R54). -/
structure Packet where
  done : Word
  depa : Word
  sclp : Word
  fmtp : Word
  argp : Word
  entry : Word
  budget : Nat
  crews : Nat
  cores : Nat
  threads : Nat
  weight : Nat
  job : Bool
  deriving DecidableEq, Repr

/-- State of a queued packet (R79, R80, R121). -/
inductive PktState where
  | waiting
  | ready (since : Nat)
  | resumable (since : Nat)
  | placed (task : Nat)
  | retired
  deriving DecidableEq, Repr

/-- A packet in a task queue. `inst` is the Mandrel instance it was built for (R106). -/
structure QPkt where
  pkt : Packet
  asid : Nat
  st : PktState
  inst : Option Nat
  fmts : Option Word
  task : Option Nat
  depaAsked : Bool
  deriving DecidableEq, Repr

/-- One task queue (R79, R80): packets in order, the c of ChooseWRR, and whether the age limit blocks it. -/
structure TaskQueue where
  pkts : List QPkt
  wrr : Int
  inQ : Bool
  aged : Bool
  deriving DecidableEq, Repr

/-- A placed task (R78, R82, R83): the cores of each crew, and what its retirement needs. -/
structure Task where
  pkt : Packet
  fn : Nat
  queue : Nat
  index : Nat
  part : Nat
  asid : Nat
  crews : List (List Nat)
  inst : Option Nat
  exitVal : Word
  tcmPages : Nat
  mig : Bool
  hreg : Bool
  pbase : Nat
  since : Nat
  iters : List Nat
  ckptd : Bool
  deriving DecidableEq, Repr

/-! ### Host functions -/

/-- A queue pair (R44–R47). -/
structure QPair where
  sqbase : Word
  cqbase : Word
  sqlog : Nat
  cqlog : Nat
  ien : Bool
  en : Bool
  expseq : BitVec 16
  sqhead : Nat
  sqtail : Nat
  cqhead : Nat
  cqtail : Nat
  phase : Bool
  seqerr : Bool
  /-- The queue has stopped, until EN goes from 0 to 1 (R47). -/
  stopped : Bool
  dberr : Bool
  cfgerr : Bool
  /-- Completion slots the host has not released (R46); reads of a record whose tag did not match, and PTP time of the
  last (R47). -/
  cqused : Nat
  retries : Nat
  mismatch : Bool
  readAt : Nat
  deriving DecidableEq, Repr

/-- A PCIe function (R44). -/
structure Fn where
  queues : SMap QPair
  /-- The MSI-X table and pending-bit array, BAR0 offsets 0x8000–0xFFFF, as written. -/
  msixTable : SMap Word
  ready : Bool
  key : Nat
  deriving DecidableEq, Repr

/-- Progress of a host command (R49, R50). -/
inductive CmdState where
  | pending
  | running
  | finished (status : BitVec 8) (addr res0 res1 : Word)
  deriving DecidableEq, Repr

/-- An accepted command (R48). -/
structure Cmd where
  id : Nat
  fn : Nat
  q : Nat
  record : BitVec 512
  st : CmdState
  deriving DecidableEq, Repr

/-! ### Partitions -/

/-- A mailbox message waiting to be written (R208). -/
structure Mail where
  dw0 : Word
  pc : Word
  taddr : Word
  tinfo : Word
  time : Word
  x5 : Word
  x6 : Word
  x7 : Word
  deriving DecidableEq, Repr

/-- A unit of a deadline (R116, R120). -/
inductive UnitState where
  | run | ran | saving | saved | discarded
  deriving DecidableEq, Repr

/-- One decision unit: a queue's tasks, or a shared instance (R116, R122). -/
structure DUnit where
  fn : Nat
  queue : Nat
  shared : Option Nat
  tasks : List Nat
  st : UnitState
  /-- A shared unit saved in cursor form (R122). -/
  cursorForm : Bool
  decided : Nat
  deriving DecidableEq, Repr

/-- The part of a checkpoint image that holds one task's memory, engine contexts and lists on one core (R121): TCM lines by
offset in the footprint and scratchpad regions by offset in the segment, each with its empty doublewords; the deque and
the inbound contexts. Its layout in the checkpoint area is not given. -/
structure Image where
  task : Nat
  fn : Nat
  core : Nat
  tcm : List (Nat × List Byte × List Nat)
  sp : List (Nat × List Byte × List Nat)
  engines : List Eng
  deque : Deque
  inbound : List Nat
  /-- Its place and length in the checkpoint area of its core (R115). -/
  off : Nat
  bytes : Nat
  valid : Bool
  deriving DecidableEq, Repr

/-- A deadline entry, PDLB and PDLT (R113). -/
structure Deadline where
  v : Bool
  vacant : Bool
  origin : Bool
  base : Nat
  len : Nat
  time : Nat
  units : List DUnit
  cmd : Option Nat
  lastTick : Option Nat
  cut : Bool
  deriving DecidableEq, Repr

/-- A report of part.query (R326). -/
structure Report where
  origin : Bool
  entry : Nat
  out : Nat
  decided : Nat
  deriving DecidableEq, Repr

/-- One stage entry of a binding record (R100). -/
structure Stage where
  codedg : BitVec 256
  pardg : BitVec 256
  entry : Word
  parp : Word
  fmt : Word
  crews : Nat
  cores : Nat
  threads : Nat
  stateful : Bool
  rgeo : Word
  rdesc : Word
  deriving DecidableEq, Repr

/-- State of a pipeline (R110, R323). `ending`: pl.end took effect; the Mandrel makes the pipeline leave and answers the
message (R356). -/
inductive PipeState where
  | bound
  | draining (stop : Word)
  | ending (msg : Nat)
  deriving DecidableEq, Repr

/-- A live pipeline (R104, R107, R111): its chain of instances by depth, its own cursor and its reader's. -/
structure Pipe where
  seq : Nat
  fn : Nat
  asid : Nat
  src : Nat
  gen : BitVec 32
  nstg : Nat
  depth : Nat
  chain : List Nat
  /-- The cursor this pipeline added: ring and number. -/
  ownRing : Nat
  ownCur : Nat
  readRing : Nat
  readRingVa : Word
  readCur : Nat
  queue : Nat
  st : PipeState
  event : Word
  held : List Word
  ovf : Bool
  weight : Nat
  deriving DecidableEq, Repr

/-- State of an instance (R109); GONE instances are removed. `over`: its task has ended, and the Mandrel has yet to make it
FAILED with this event. -/
inductive InstState where
  | live | held | failed
  | over (kind : Nat)
  deriving DecidableEq, Repr

/-- A stage instance (R103, R106, R109). -/
structure Inst where
  st : InstState
  stage : Stage
  depth : Nat
  input : Option Nat
  src : Nat
  gen : BitVec 32
  asid : Nat
  unshared : Bool
  inRing : Nat
  inCur : Nat
  outRing : Nat
  owner : Nat
  fn : Nat
  queue : Nat
  task : Option Nat
  qidx : Nat
  cursorForm : Bool
  deriving DecidableEq, Repr

/-- A sealed region with its measurement (R57). -/
structure Seal where
  base : Word
  len : Word
  sha : BitVec 256
  frames : List Nat
  deriving DecidableEq, Repr

/-- One partition (R58, R63, R70, R97, R112–R114, R208). -/
structure Partition where
  en : Bool
  pcerr : Bool
  st : Nat
  base : Nat
  len : Nat
  audlog : Nat
  /-- BASE, LEN and AUDLOG as written while STATE is 2: the partition that is torn down keeps its own until it is empty (R63,
  R77). -/
  rewritten : Option (Nat × Nat × Nat)
  audbase : Word
  /-- The frames of the audit log as they were when STATE became 1: the first byte and the bytes (R58). -/
  audAt : Nat
  audLen : Nat
  epoch : Word
  slcnt : Nat
  slots : SMap Word
  /-- The slot-table position last reached (R71). -/
  slotNow : Option Nat
  /-- PTP time until which its cores stay idle: the end of the slot whose function has been reset (R76). -/
  idleTill : Nat
  thot : Nat
  rank : SMap (BitVec 16)
  share : Bool
  ptcfg : Word
  dls : SMap Deadline
  reports : SMap Report
  mboxV : Bool
  mboxLog : Nat
  mboxBase : Nat
  mboxIdx : Nat
  mail : List Mail
  seals : List Seal
  audN : Nat
  audH : BitVec 256
  audSigned : Nat
  audHeads : Nat
  audPeriodFrom : Nat
  key : Nat
  bindSeq : Nat
  pipes : SMap Pipe
  insts : SMap Inst
  /-- Task queues chosen since the last placement without placing (R80). -/
  tried : List Nat
  deriving DecidableEq, Repr

/-! ### The package -/

/-- A device-link port (R16, R43): STATE and the consecutive CRC failures of the flit being sent. -/
structure Link where
  st : Nat
  fails : Nat
  deriving DecidableEq, Repr

/-- The owner of frames (R72). -/
inductive Owner where
  | pm
  | part (p : Nat)
  | fn (f : Nat)
  deriving DecidableEq, Repr

/-- A grant of frames [base, base+len), newest first in State (R72). -/
structure Grant where
  base : Nat
  len : Nat
  owner : Owner
  deriving DecidableEq, Repr

/-- An S2INV in progress (R69): the messages and the accesses of TCM pipelines, with their cores, that step 3 waits for. -/
structure Inval where
  asid : Nat
  msgs : List Nat
  tcm : List (Nat × Delayed)
  deriving DecidableEq, Repr

/-- Whether the unit being issued has taken effect (R127, R204). -/
inductive IssueRes where
  | done | parked | trapped
  deriving DecidableEq, Repr

/-- The unit being issued (R125): its thread, the unit's address, the word's address, NextUnit, the word, whether it
is word 1 of its doubleword, and, for word 1 of a pair only, the thread's registers as stage OP found them (R238). -/
structure Issue where
  tid : Nat
  pc : Word
  w : Word
  next : Word
  word : BitVec 32
  wpos : Bool
  snap : Option (Ctx × HBank)
  res : IssueRes
  /-- The stage-2 leaf that its access writes through (R74). -/
  leaf : Option Nat
  deriving DecidableEq, Repr

/-- The device. -/
structure State where
  -- package and firmware (R1, R15, R38–R43)
  part : Part
  farSz : BitVec 2
  farUneq : Bool
  power : Power
  bootStep : BitVec 8
  bootDetail : BitVec 8
  image : FwImage
  fuseKey : BitVec 256
  fuseMin : BitVec 32
  tripped : Bool
  /-- Power was lost while an image was being written (R41). -/
  updateLost : Bool
  ecc : SMap Word
  /-- Words with an uncorrectable error, and words with an error that a read corrects (R35, R36). -/
  ue : List Nat
  soft : List Nat
  /-- Errors that a read corrects in the other arrays, as the class of the array and what was hit (R34, R35). -/
  softIn : List (Nat × Nat)
  -- time (R18)
  wall : Nat
  slew : Int
  hold : Bool
  /-- The latest temperature of each core in °C (R98). -/
  temps : SMap Int
  ptpcfg : BitVec 5
  -- fabric and links (R16, R24, R25, R29, R31, R42, R43)
  esct : Nat
  rtolog : Nat
  audsig : Nat
  selfpkg : BitVec 8
  links : SMap Link
  lrt : SMap Word
  avSeq : Nat
  avLog : List (BitVec 256)
  feSeq : Nat
  feLog : List (BitVec 256)
  waitBufs : List WaitBuf
  /-- For each grid link, the virtual network it served last (R27), and PTP time from which an escape flit may use it
  (R29). -/
  served : SMap Nat
  escFrom : SMap Nat
  -- host (R44–R53, R180)
  fns : SMap Fn
  cmds : List Cmd
  nextCmd : Nat
  msix : List (Nat × Nat)
  /-- Stores to host memory on their way, oldest first: address, bytes, value. -/
  hostOut : List (Nat × Nat × Nat)
  -- partitions, tenants, ownership (R62–R77, R94, R115)
  parts : SMap Partition
  vfmap : SMap Word
  asids : SMap Word
  inval : Option Inval
  fgbase : Word
  fglen : Word
  fgown : Word
  save : SMap Word
  ckoff : SMap Word
  images : List Image
  grants : List Grant
  zeroing : List Nat
  sealed : List Nat
  resetting : List Nat
  /-- The partitions that a resetting function leaves: more than one, where it is reset again before the first reset has
  ended (R76). -/
  leaving : SMap (List Nat)
  /-- The number of the last key drawn, 0 standing for no key, and the partition manager's key (R73). -/
  keyCount : Nat
  pmKey : Nat
  -- cores, threads, work
  cores : SMap Core
  clusters : SMap Cluster
  ctxs : SMap Ctx
  nextTid : Nat
  tasks : SMap Task
  nextTask : Nat
  queues : SMap TaskQueue
  -- memory (R4, R135, R136, R143)
  mem : List Host.Cell
  empt : List Nat
  marks : List Nat
  -- messages and bank-side lists
  flights : List Msg
  nextMsg : Nat
  /-- Stores performed so far (R164). -/
  perfs : Nat
  /-- Cancelled tickets of a lock (R150), section tickets forwarded, arrival cycles of a counter's window (R145). -/
  cancelled : SMap (List Nat)
  arrivals : SMap (List Nat)
  /-- Locks with a deferred pin, and the mode pinned (R151, R296). -/
  pins : SMap Nat
  /-- The thread that holds a lock, or that owns a byte barrier (R144, R150). -/
  holders : SMap Nat
  -- the model's own fields (notes/assumptions/1.md, 4.md)
  pick : Option Nat
  iss : Issue
  agenda : List (Nat × Instr)
  focus : Nat
  fresh : Nat
  deriving DecidableEq, Repr

/-! ### Reset values -/

/-- RTURNk after reset: turn k < 16 reserved to slot k (R84). -/
def Turn.reset (k : Nat) : Turn := ⟨if k < 16 then k else 0, k < 16, false, none⟩

/-- A free engine context, zeroed (R131). -/
def Eng.reset : Eng := ⟨none, [], [], [], [], 0, [], [], none, none⟩

/-- An empty h bank: zero and full (R71, R128). -/
def HBank.reset : HBank := ⟨[], []⟩

/-- A core after start-up (R39, R84). -/
def Core.reset : Core where
  cycle := 0
  turns := (List.range 32).map Turn.reset
  turnWrites := []
  rterr := false
  localQ := []
  disabled := []
  disableNext := []
  enableNext := []
  displaced := []
  reserved := []
  tcm := []
  hb := []
  delayed := []
  eng0 := Eng.reset
  eng1 := Eng.reset
  spills := []
  mq := []
  vq := []
  cq := []
  lastStep := 0
  slotIssue := []
  chuck := []
  deques := []
  inbound := []
  inboundSpill := []
  msgBuf := []
  lastVictim := none
  spillNext := []
  stealBusy := false
  emptyReplies := 0
  stealWaitFrom := none
  dcache := []
  tlb := []
  handover := none
  stepping := none
  release := false
  delegates := []
  sections := []
  dirtyTcm := []
  dirtySp := []
  busyPs := 0

/-- A cluster after start-up: 2.0 GHz (R7, R37), no watchpoint armed. -/
def Cluster.reset : Cluster := ⟨2000, [], [], []⟩

/-- A task queue with nothing in it. -/
def TaskQueue.reset : TaskQueue := ⟨[], 0, false, false⟩

/-- A queue pair after reset (R44). The completion phase is set when EN is (R45). -/
def QPair.reset : QPair := ⟨0, 0, 0, 0, false, false, 0, 0, 0, 0, 0, false, false, false, false, false, 0, 0, false, 0⟩

/-- A function after reset: the physical function is ready after start-up (R39), a virtual one when it is assigned
(R65). -/
def Fn.reset (f : Nat) : Fn := ⟨[], [], f = 0, 0⟩

/-- A free deadline entry (R113). -/
def Deadline.reset : Deadline := ⟨false, false, false, 0, 0, 0, [], none, none, false⟩

/-- A partition after reset (R63, R97, R112, R114). -/
def Partition.reset : Partition where
  en := false
  pcerr := false
  st := 0
  base := 0
  len := 0
  audlog := 0x0A
  rewritten := Option.none
  audbase := 0
  audAt := 0
  audLen := 0
  epoch := 0
  slcnt := 0
  slots := []
  slotNow := none
  idleTill := 0
  thot := 95
  rank := []
  share := true
  ptcfg := 0x0000_0014_0080_01F4
  dls := []
  reports := []
  mboxV := false
  mboxLog := 0
  mboxBase := 0
  mboxIdx := 0
  mail := []
  seals := []
  audN := 0
  audH := 0
  audSigned := 0
  audHeads := 0
  audPeriodFrom := 0
  key := 0
  bindSeq := 1
  pipes := []
  insts := []
  tried := []

/-- A cleared thread context in a place: every register zero and full (R71, R82). -/
def Ctx.cleared (place : Place) : Ctx where
  place := place
  task := 0
  queue := none
  lvl := .u
  fn := 0
  part := 0
  asid := 0
  pc := 0
  ipc := 0
  iword := 0
  iwpos := false
  regs := []
  empt := []
  trapf := 0
  skip := 0
  seg := 0
  tvec := 0
  tdeleg := 0
  tinfo := 0
  taddr := 0
  timeAcc := 0
  seatedAt := 0
  fmt0 := 0
  fmt1 := 0
  fmt2 := 0
  fmt3 := 0
  scl := 0
  vshape := 0
  skid := 0
  park := .none
  also := Option.none
  limit := none
  limitFrom := 0
  waitFrom := ⟨0, 0, 0⟩
  heldCycles := 0
  heldAt := Option.none
  sub := []
  touched := 0
  errAcks := []
  after := []
  pend0 := none
  pend1 := none
  pend2 := none
  pend3 := none
  walkFault := none
  regErr := Option.none
  nest := none
  chain := []
  claim := none
  scopeMem := []
  root := false
  record := Option.none
  chuckAt := 0
  vcore := 0
  lane := Option.none
  sha := 0x6a09e667bb67ae853c6ef372a54ff53a510e527f9b05688c1f83d9ab5be0cd19
  folded := 0
  lastIssue := 0
  stop := false
  frozen := false
  freezeDue := []
  told := []
  issued := 0
  undo := ⟨[], 0, Option.none, false, Option.none⟩
  stepLeft := none
  stepper := none
  caller := none

/-- No unit is being issued. -/
def Issue.none : Issue := ⟨0, 0, 0, 0, 0, false, Option.none, .done, Option.none⟩

/-- The device right after start-up (R39): every memory zero and full, every register at its reset value, the
physical function ready, nothing placed (notes/assumptions/2.md). -/
def State.reset : State where
  part := .hx4096p
  farSz := 3
  farUneq := false
  power := .running
  bootStep := 0
  bootDetail := 0
  image := ⟨0, 0, 0, true⟩
  fuseKey := 0x66687aadf862bd776c8fc18b8e9f8e20089714856ee233b3902a591d0d5f2925
  fuseMin := 0
  tripped := false
  updateLost := false
  ecc := []
  ue := []
  soft := []
  softIn := []
  wall := 0
  slew := 0
  hold := false
  temps := []
  ptpcfg := 0x10
  esct := 0x07D0
  rtolog := 0x15
  audsig := 100
  selfpkg := 0
  links := []
  lrt := []
  avSeq := 1
  avLog := []
  feSeq := 1
  feLog := []
  waitBufs := []
  served := []
  escFrom := []
  fns := []
  cmds := []
  nextCmd := 0
  msix := []
  hostOut := []
  parts := []
  vfmap := []
  asids := []
  inval := Option.none
  fgbase := 0
  fglen := 0
  fgown := 0
  save := []
  ckoff := []
  images := []
  grants := []
  zeroing := []
  sealed := []
  resetting := []
  leaving := []
  keyCount := 1
  pmKey := 1
  cores := []
  clusters := []
  ctxs := []
  nextTid := 1
  tasks := []
  nextTask := 1
  queues := []
  mem := []
  empt := []
  marks := []
  flights := []
  nextMsg := 1
  perfs := 0
  cancelled := []
  arrivals := []
  pins := []
  holders := []
  pick := Option.none
  iss := Issue.none
  agenda := []
  focus := 0
  fresh := 0

end Sys2Proof.Machine
end

