-- ==== Sys2Proof/Machine/Ops.lean ====
section
/-! DEFINITION. Named operations over the state: maps, the package's geometry, memory, ownership, messages, registers,
and taking a trap (R204–R208) with the return from one (R270). -/

namespace Sys2Proof.Machine

/-! ### Maps and fields -/

/-- The value listed at key `k`. -/
def SMap.look {α : Type} : SMap α → Nat → Option α
  | [], _ => none
  | (k', v) :: m, k => if k' = k then some v else SMap.look m k

/-- Insert or replace, keeping ascending keys. -/
def SMap.put {α : Type} : SMap α → Nat → α → SMap α
  | [], k, v => [(k, v)]
  | (k', v') :: m, k, v =>
    if k < k' then (k, v) :: (k', v') :: m
    else if k = k' then (k, v) :: m
    else (k', v') :: SMap.put m k v

/-- Remove key `k`. -/
def SMap.del {α : Type} (m : SMap α) (k : Nat) : SMap α := m.filter fun e => e.1 ≠ k

/-- Insert into an ascending list without repeats. -/
def insertNat : List Nat → Nat → List Nat
  | [], n => [n]
  | m :: l, n => if n < m then n :: m :: l else if n = m then m :: l else m :: insertNat l n

/-- Bits [lo+len−1:lo] as a number. -/
def fld {n : Nat} (x : BitVec n) (lo len : Nat) : Nat := (x.toNat >>> lo) % 2 ^ len

/-- Bit `i`. -/
def bit {n : Nat} (x : BitVec n) (i : Nat) : Bool := x.getLsbD i

/-- A 64-bit word from a number. -/
def word (n : Nat) : Word := BitVec.ofNat 64 n

/-- A word as a signed integer. -/
def sint (x : Word) : Int := x.toInt

/-- `x` with bits [lo+len−1:lo] replaced by `v`. -/
def withFld (x : Word) (lo len v : Nat) : Word :=
  word (x.toNat - (fld x lo len) * 2 ^ lo + (v % 2 ^ len) * 2 ^ lo)

def b2n (b : Bool) : Nat := if b then 1 else 0

/-! ### Reading and changing parts of the state -/

def State.core (s : State) (d : Nat) : Core := (s.cores.look d).getD Core.reset
def State.setCore (s : State) (d : Nat) (c : Core) : State := { s with cores := s.cores.put d c }
def State.modCore (s : State) (d : Nat) (f : Core → Core) : State := s.setCore d (f (s.core d))
def State.cluster (s : State) (k : Nat) : Cluster := (s.clusters.look k).getD Cluster.reset
def State.modCluster (s : State) (k : Nat) (f : Cluster → Cluster) : State :=
  { s with clusters := s.clusters.put k (f (s.cluster k)) }
def State.partition (s : State) (p : Nat) : Partition := (s.parts.look p).getD Partition.reset
def State.modPart (s : State) (p : Nat) (f : Partition → Partition) : State :=
  { s with parts := s.parts.put p (f (s.partition p)) }
def State.function (s : State) (f : Nat) : Fn := (s.fns.look f).getD (Fn.reset f)
def State.modFn (s : State) (f : Nat) (g : Fn → Fn) : State := { s with fns := s.fns.put f (g (s.function f)) }
def State.qpair (s : State) (f q : Nat) : QPair := ((s.function f).queues.look q).getD QPair.reset
def State.setQpair (s : State) (f q : Nat) (x : QPair) : State :=
  s.modFn f fun g => { g with queues := g.queues.put q x }
def queueKey (f q : Nat) : Nat := f * 64 + q
def State.tqueue (s : State) (f q : Nat) : TaskQueue := (s.queues.look (queueKey f q)).getD TaskQueue.reset
def State.modTqueue (s : State) (f q : Nat) (g : TaskQueue → TaskQueue) : State :=
  { s with queues := s.queues.put (queueKey f q) (g (s.tqueue f q)) }
def State.ctx (s : State) (t : Nat) : Ctx := (s.ctxs.look t).getD (Ctx.cleared (.transit 0 0))
def State.setCtx (s : State) (t : Nat) (c : Ctx) : State := { s with ctxs := s.ctxs.put t c }
def State.modCtx (s : State) (t : Nat) (f : Ctx → Ctx) : State := s.setCtx t (f (s.ctx t))
def State.link (s : State) (k : Nat) : Link := (s.links.look k).getD ⟨0, 0⟩
def State.setLink (s : State) (k : Nat) (l : Link) : State := { s with links := s.links.put k l }
def State.msg (s : State) (m : Nat) : Option Msg := s.flights.find? fun x => x.id = m
def State.dropMsg (s : State) (m : Nat) : State := { s with flights := s.flights.filter fun x => x.id ≠ m }
def State.setMsg (s : State) (m : Msg) : State :=
  { s with flights := s.flights.map fun x => if x.id = m.id then m else x }
def State.vector (s : State) (fn v : Nat) : State := { s with msix := s.msix ++ [(fn, v)] }
def State.setRes (s : State) (r : IssueRes) : State := { s with iss := { s.iss with res := r } }

/-- The core that holds a context, or that it last stood on. -/
def Place.core : Place → Nat
  | .slot c _ | .chuck c _ | .save c _ | .deque c | .inbound c | .setAside c | .transit c _ | .ckpt c _ => c

/-- The slot a context holds or was saved from. -/
def Place.slotNo : Place → Nat
  | .slot _ k | .chuck _ k | .save _ k | .transit _ k | .ckpt _ k => k
  | .deque _ | .inbound _ | .setAside _ => 0

def Ctx.core (c : Ctx) : Nat := c.place.core
def Ctx.slotNo (c : Ctx) : Nat := c.place.slotNo

/-- Whether a context is in a slot. -/
def Place.resident : Place → Bool
  | .slot _ _ => true
  | .chuck _ _ | .save _ _ | .deque _ | .inbound _ | .setAside _ | .transit _ _ | .ckpt _ _ => false

/-- The key of a slot reserved to a task of a function. -/
def slotKey (fn k : Nat) : Nat := fn * 16 + k

/-- The thread in slot `k` of core `d`. -/
def State.inSlot (s : State) (d k : Nat) : Option Nat :=
  (s.ctxs.find? fun e => e.2.place = .slot d k).map (·.1)

/-- The cycle in which the unit being issued was issued: `cycle` is the one the core serves next (R86). -/
def Core.issueCycle (c : Core) : Nat := c.cycle - 1

/-- ctl.time: cycles while resident (R99). -/
def State.ctlTime (s : State) (t : Nat) : Nat :=
  let c := s.ctx t
  if c.place.resident then c.timeAcc + ((s.core c.core).cycle - c.seatedAt) else c.timeAcc

/-! ### Geometry (R12, R62, R134) -/

/-- Cores of the part (R1). -/
def Part.cores : Part → Nat
  | .hx1024d => 1024
  | .hx4096p | .hx4096m => 4096

/-- Device-link ports of the part (R1, R16). -/
def Part.ports : Part → Nat
  | .hx1024d => 4
  | .hx4096p | .hx4096m => 16

/-- Grid side of the part (R62). -/
def Part.side : Part → Nat
  | .hx1024d => 32
  | .hx4096p | .hx4096m => 64

/-- One round of HilbertToXY, at scale 2^k (R62). -/
def hilbertRound (k : Nat) (a : Nat × Nat × Nat) : Nat × Nat × Nat :=
  let sc := 2 ^ k
  let (x, y, t) := a
  let rx := (t / 2) % 2
  let ry := (t + rx) % 2
  let p := if ry = 0 then (if rx = 1 then (sc - 1 - y, sc - 1 - x) else (y, x)) else (x, y)
  (p.1 + sc * rx, p.2 + sc * ry, t / 4)

/-- HilbertToXY for a grid of side 2^levels (R62). -/
def hilbertXY (levels d : Nat) : Nat × Nat :=
  let r := (List.range levels).foldl (fun a k => hilbertRound k a) (0, 0, d)
  (r.1, r.2.1)

/-- The inverse of `hilbertXY`: from the top scale down. -/
def xyHilbert (levels x y : Nat) : Nat :=
  ((List.range levels).foldr (fun k (a : Nat × Nat × Nat) =>
    let sc := 2 ^ k
    let (x, y, d) := a
    let rx := if x / sc % 2 = 1 then 1 else 0
    let ry := if y / sc % 2 = 1 then 1 else 0
    let q := if rx = 1 then (if ry = 1 then 2 else 3) else ry
    let x' := x % sc
    let y' := y % sc
    let p := if ry = 0 then (if rx = 1 then (sc - 1 - y', sc - 1 - x') else (y', x')) else (x', y')
    (p.1, p.2, d + sc * sc * q)) (x, y, 0)).2.2

def Part.levels : Part → Nat
  | .hx1024d => 5
  | .hx4096p | .hx4096m => 6

/-- Package coordinates of core `d` (R62). -/
def State.coreXY (s : State) (d : Nat) : Nat × Nat := hilbertXY s.part.levels d
/-- The core at package coordinates (R62). -/
def State.coreAt (s : State) (x y : Nat) : Nat := xyHilbert s.part.levels x y
/-- The die of package coordinates (R12). -/
def dieOf (xy : Nat × Nat) : Nat := xy.1 / 32 + 2 * (xy.2 / 32)
def State.coreDie (s : State) (d : Nat) : Nat := dieOf (s.coreXY d)
/-- The core of die and local coordinates (R12). -/
def State.coreOfDie (s : State) (die x y : Nat) : Nat := s.coreAt (32 * (die % 2) + x) (32 * (die / 2) + y)
/-- The cluster of a core, numbered die × 128 + cluster within the die (R134). -/
def State.clusterOf (s : State) (d : Nat) : Nat :=
  let (x, y) := s.coreXY d
  dieOf (x, y) * 128 + (y % 32 / 4) * 16 + x % 32 / 2
/-- The core's number within its cluster (R134). -/
def State.coreInCluster (s : State) (d : Nat) : Nat :=
  let (x, y) := s.coreXY d
  (y % 4) * 2 + x % 2
/-- Core `k` of a cluster (R134). -/
def State.clusterCore (s : State) (cl k : Nat) : Nat :=
  let c := cl % 128
  s.coreOfDie (cl / 128) ((c % 16) * 2 + k % 2) ((c / 16) * 4 + k / 2)

/-! ### Physical addresses (R13–R15, R136) -/

/-- What a physical address names. -/
inductive Target where
  | vault (core off : Nat)
  | far (off : Nat)
  | sram (die off : Nat)
  | scratch (cluster off : Nat)
  | tcm (core off : Nat)
  | control (off : Nat)
  | host (off : Nat)
  deriving DecidableEq, Repr

/-- The code of the fitted far tier: none on an HX-1024-D, 1 TiB on an HX-4096-M, and on an HX-4096-P what the
integrator fitted, disabled where its ports are unequal (R1, R3, R15). -/
def State.farCode (s : State) : Nat :=
  match s.part with
  | .hx1024d => 0
  | .hx4096m => 3
  | .hx4096p => if s.farUneq then 0 else s.farSz.toNat

/-- Fitted far-tier bytes (R3, R15). -/
def State.farSize (s : State) : Nat :=
  match s.farCode with
  | 1 => 2 ^ 38
  | 2 => 2 ^ 39
  | 3 => 2 ^ 40
  | _ => 0

def Part.dies : Part → Nat
  | .hx1024d => 1
  | .hx4096p | .hx4096m => 4

/-- The target of a physical address, or none when R136 refuses its layout. -/
def State.target (s : State) (pa : Nat) : Option Target :=
  let v := pa % 2 ^ 48
  match pa / 2 ^ 48 with
  | 1 =>
    if v / 2 ^ 39 ≠ 0 ∨ v % 2 ^ 27 ≥ 0x600_0000 ∨ v / 2 ^ 37 ≥ s.part.dies then none
    else some (.vault (s.coreOfDie (v / 2 ^ 37) (v / 2 ^ 27 % 32) (v / 2 ^ 32 % 32)) (v % 2 ^ 27))
  | 2 => if v / 2 ^ 40 ≠ 0 ∨ v ≥ s.farSize then none else some (.far v)
  | 3 => if v / 2 ^ 32 ≠ 0 ∨ v / 2 ^ 30 ≥ s.part.dies then none else some (.sram (v / 2 ^ 30) (v % 2 ^ 30))
  | 4 => if v / 2 ^ 30 ≠ 0 ∨ v / 2 ^ 28 ≥ s.part.dies then none else some (.scratch (v / 2 ^ 21) (v % 2 ^ 21))
  | 5 =>
    if v / 2 ^ 39 ≠ 0 ∨ v % 2 ^ 27 ≥ 0x4_0000 ∨ v / 2 ^ 37 ≥ s.part.dies then none
    else some (.tcm (s.coreOfDie (v / 2 ^ 37) (v / 2 ^ 27 % 32) (v / 2 ^ 32 % 32)) (v % 2 ^ 27))
  | 6 => if v / 2 ^ 32 ≠ 0 then none else some (.control v)
  | 8 => some (.host v)
  | _ => none

/-- Physical address of an offset in core `d`'s unit of vault (code 1) or TCM alias (code 5) space (R136). -/
def State.corePa (s : State) (code d off : Nat) : Nat :=
  let (x, y) := s.coreXY d
  code * 2 ^ 48 + dieOf (x, y) * 2 ^ 37 + (y % 32) * 2 ^ 32 + (x % 32) * 2 ^ 27 + off

def sramPa (die off : Nat) : Nat := 3 * 2 ^ 48 + die * 2 ^ 30 + off

/-- Memories that have full/empty bits (R135). -/
def Target.hasFe : Target → Bool
  | .vault _ _ | .far _ | .sram _ _ | .scratch _ _ | .tcm _ _ => true
  | .control _ | .host _ => false

/-- Destination scope of a target from a core (R172). -/
def State.destScope (s : State) (core : Nat) : Target → Nat
  | .tcm c _ =>
    if c = core then 1 else if s.clusterOf c = s.clusterOf core then 2
    else if s.coreDie c = s.coreDie core then 3 else 4
  | .scratch cl _ => if cl = s.clusterOf core then 2 else if cl / 128 = s.coreDie core then 3 else 4
  | .vault c _ => if s.coreDie c = s.coreDie core then 3 else 4
  | .sram die _ => if die = s.coreDie core then 3 else 4
  | .far _ => 4
  | .control _ => 4
  | .host _ => 5

/-! ### Memory -/

/-- What an address that memory does not list reads as: start-up zeroes every memory (R39). -/
def unlisted : Byte := 0

/-- The byte listed at an address, or the value of an unlisted one. -/
def readCell : List Host.Cell → Nat → Byte
  | [], _ => unlisted
  | (a', b) :: m, a => if a' = a then b else if a < a' then unlisted else readCell m a

/-- Write one byte, keeping the canonical form: ascending addresses, none holding the unlisted value. -/
def writeCell : List Host.Cell → Nat → Byte → List Host.Cell
  | [], a, b => if b = unlisted then [] else [(a, b)]
  | (a', b') :: m, a, b =>
    if a < a' then (if b = unlisted then (a', b') :: m else (a, b) :: (a', b') :: m)
    else if a = a' then (if b = unlisted then m else (a, b) :: m)
    else (a', b') :: writeCell m a b

/-- The canonical form of memory, above a bound. -/
def cellsWf : Option Nat → List Host.Cell → Bool
  | _, [] => true
  | lo, (a, b) :: m => (match lo with | none => true | some l => l < a) && b ≠ unlisted && cellsWf (some a) m

/-- The canonical form: addresses strictly rising, no entry equal to what an unlisted address reads as. -/
def Memory.wf (m : List Host.Cell) : Bool := cellsWf none m

/-- Read `n` bytes little-endian as a number (R4). -/
def readN (m : List Host.Cell) (pa : Nat) : Nat → Nat
  | 0 => 0
  | n + 1 => (readCell m pa).toNat + 256 * readN m (pa + 1) n

/-- Write the low `n` bytes of a number little-endian (R4). -/
def writeN (m : List Host.Cell) (pa : Nat) : Nat → Nat → List Host.Cell
  | 0, _ => m
  | n + 1, v => writeN (writeCell m pa (BitVec.ofNat 8 v)) (pa + 1) n (v / 256)

def State.byte (s : State) (pa : Nat) : Byte := readCell s.mem pa
def State.rd (s : State) (pa n : Nat) : Nat := readN s.mem pa n
def State.rd64 (s : State) (pa : Nat) : Word := word (readN s.mem pa 8)
def State.wr (s : State) (pa n v : Nat) : State := { s with mem := writeN s.mem pa n v }
def State.wr64 (s : State) (pa : Nat) (v : Word) : State := s.wr pa 8 v.toNat
/-- `n` bytes from `pa`, in ascending order. -/
def State.rdBytes (s : State) (pa n : Nat) : List Byte := (List.range n).map fun k => s.byte (pa + k)
/-- Write bytes in ascending order. -/
def State.wrBytes (s : State) (pa : Nat) (bs : List Byte) : State :=
  { s with mem := (bs.foldl (fun a b => (a.1 + 1, writeCell a.2 a.1 b)) (pa, s.mem)).2 }

/-- The naturally aligned doubleword of an address. -/
def dwOf (pa : Nat) : Nat := pa - pa % 8
def State.isFull (s : State) (pa : Nat) : Bool := ¬ s.empt.contains (dwOf pa)
def State.setFull (s : State) (pa : Nat) : State := { s with empt := s.empt.filter fun a => a ≠ dwOf pa }
def State.setEmpty (s : State) (pa : Nat) : State := { s with empt := insertNat s.empt (dwOf pa) }

/-- Zero [pa, pa+n), mark it full and clear its markers; no data cache keeps what it held (R72). -/
def State.zeroRange (s : State) (pa n : Nat) : State :=
  let out (a : Nat) : Bool := a < pa || pa + n ≤ a
  { s with mem := s.mem.filter (fun c => out c.1), empt := s.empt.filter out, marks := s.marks.filter out,
           ue := s.ue.filter out, soft := s.soft.filter out,
           cores := s.cores.map fun e => (e.1, { e.2 with dcache := e.2.dcache.filter fun l => out l.pa }) }

/-- The word holds an uncorrectable error (R36). -/
def State.bad (s : State) (pa n : Nat) : Bool := s.ue.any fun a => dwOf pa ≤ a && a < pa + n

/-- A write of a whole doubleword replaces its check bits (R36). -/
def State.mendEcc (s : State) (pa n : Nat) : State :=
  let kept (a : Nat) : Bool := ¬ (pa ≤ a && a + 8 ≤ pa + n)
  { s with ue := s.ue.filter kept, soft := s.soft.filter kept }

/-- A doubleword that the write replaces only in part, and so reads first, holds an uncorrectable error (R36). -/
def State.badPartly (s : State) (pa n : Nat) : Bool :=
  s.ue.any fun a => dwOf pa ≤ a && a < pa + n && ¬ (pa ≤ a && a + 8 ≤ pa + n)

/-! ### Partitions, shares, ownership (R63, R64, R70, R72) -/

/-- The partition that holds core `d`, active or tearing down. -/
def State.partOf (s : State) (d : Nat) : Option Nat :=
  (List.range 16).find? fun p =>
    let x := s.partition p
    x.st ≠ 0 && x.base ≤ d && d < x.base + x.len

/-- A slot-table entry of a function in its partition (R70). -/
def State.shareOf (s : State) (p fn : Nat) : Option Word :=
  let x := s.partition p
  ((List.range x.slcnt).map fun j => (x.slots.look j).getD 0).find? fun e => fld e 52 11 = fn

def vfmapEn (w : Word) : Bool := bit w 63
def vfmapPart (w : Word) : Nat := fld w 0 4
def State.fnPart (s : State) (f : Nat) : Option Nat :=
  match s.vfmap.look f with
  | some w => if vfmapEn w then some (vfmapPart w) else none
  | none => none

/-- The owner of a frame: the newest grant that covers it, the partition manager without one (R72). -/
def State.owner (s : State) (pa : Nat) : Owner :=
  ((s.grants.find? fun g => g.base ≤ pa && pa < g.base + g.len).map (·.owner)).getD .pm

/-- Who makes an access, for the checks of R64, R70, R72 and R75. -/
structure Accessor where
  fn : Nat
  part : Nat
  lvl : Level
  deriving DecidableEq, Repr

/-- Whether the accessor owns a frame (R72). Level F is checked as level S (notes/assumptions/12.md). -/
def State.owns (s : State) (a : Accessor) (pa : Nat) : Bool :=
  match s.owner pa with
  | .pm => a.fn = 0 && a.lvl = .u
  | .part p => a.fn ≠ 0 && p = a.part || a.lvl ≠ .u && p = a.part
  | .fn f => if a.lvl = .u then f = a.fn else vfmapPart ((s.vfmap.look f).getD 0) = a.part

/-- The KIND of access violation of an access, 0 for none (R61, R64, R70, R72, R75). -/
def State.violation (s : State) (a : Accessor) (pa n : Nat) : Nat :=
  match s.target pa with
  | some (.vault _ _) | some (.far _) | some (.sram _ _) =>
    if s.owns a pa && s.owns a (pa + n - 1) then 0 else 1
  | some (.control _) => 3
  | some (.scratch cl off) =>
    let seg := s.clusterCore cl (off / 0x4_0000)
    if s.partOf seg ≠ some a.part then 4
    else if a.lvl ≠ .u then 0
    else match s.shareOf a.part a.fn with
      | none => 4
      | some e =>
        let o := off % 0x4_0000
        if fld e 14 6 * 4096 ≤ o && o + n ≤ (fld e 14 6 + fld e 8 6 + 1) * 4096 then 0 else 4
  | some (.tcm c off) =>
    if s.partOf c ≠ some a.part then 2
    else if a.lvl ≠ .u then 0
    else match s.shareOf a.part a.fn with
      | none => 5
      | some e => if fld e 26 6 * 4096 ≤ off && off + n ≤ (fld e 26 6 + fld e 20 6 + 1) * 4096 then 0 else 5
  | some (.host _) | none => 0

/-! ### Logs (R24, R75) -/

/-- Keep the newest 4,096 records (R24, R75). -/
def newest (l : List (BitVec 256)) (r : BitVec 256) : List (BitVec 256) :=
  let l' := l ++ [r]
  l'.drop (l'.length - 4096)

/-- Append an access-violation record and raise vector 64 of the physical function (R75). -/
def State.logViolation (s : State) (pa x y part asid slot fn kind : Nat) : State :=
  let r : BitVec 256 := BitVec.ofNat 32 s.avSeq ++ BitVec.ofNat 64 s.wall ++ BitVec.ofNat 52 pa ++ BitVec.ofNat 6 x ++
    BitVec.ofNat 6 y ++ BitVec.ofNat 4 part ++ BitVec.ofNat 10 asid ++ BitVec.ofNat 4 slot ++ BitVec.ofNat 11 fn ++
    BitVec.ofNat 4 kind ++ 0#63
  { s with avSeq := (s.avSeq + 1) % 2 ^ 32, avLog := newest s.avLog r }.vector 0 64

/-- Append a fabric-error record and raise the fabric-error vector (R23, R24). -/
def State.logFabric (s : State) (hdr : BitVec 96) (x y port kind : Nat) : State :=
  let r : BitVec 256 := BitVec.ofNat 32 s.feSeq ++ BitVec.ofNat 64 s.wall ++ hdr ++ BitVec.ofNat 6 x ++
    BitVec.ofNat 6 y ++ BitVec.ofNat 4 port ++ BitVec.ofNat 4 kind ++ 0#44
  { s with feSeq := (s.feSeq + 1) % 2 ^ 32, feLog := newest s.feLog r }.vector 0 65

/-- Count an error of an array class, saturating (R35, R42). `upper` for corrected ones. -/
def State.countEcc (s : State) (cls : Nat) (corrected : Bool) : State :=
  let w := (s.ecc.look cls).getD 0
  let lo := if corrected then 32 else 0
  { s with ecc := s.ecc.put cls (withFld w lo 32 (min (fld w lo 32 + 1) (2 ^ 32 - 1))) }

/-- What an array holds is read: an error that ECC corrects is corrected, silently, and counted in the class of the array (R35).
A register file and a Chuck entry are named by their thread, a data cache's line by core × 2^52 + address, a network buffer by
its message, an engine queue by core × 2^40 + its entry's number, and a transfer of the bonded DRAM, which its CRC has retried,
by its line (notes/assumptions/146.md). -/
def State.corrects (s : State) (cls key : Nat) : State :=
  if s.softIn.contains (cls, key) then { s with softIn := s.softIn.filter fun e => e ≠ (cls, key) }.countEcc cls true else s

/-! ### Slots of a trap record -/

def TrapRec.make (code : Nat) (taddr tinfo : Word) (orig : Nat) : TrapRec :=
  ⟨BitVec.ofNat 8 code, taddr, tinfo, BitVec.ofNat 2 orig, 0, false⟩

/-! ### Messages -/

/-- CRC-16 of R22: polynomial x^16+x^12+x^5+1, initial value 0xFFFF, over the 80 bits from bit 79 down. -/
def crc16 (x : BitVec 80) : BitVec 16 :=
  (List.range 80).foldl (fun (c : BitVec 16) k =>
    let top := c.getLsbD 15 ^^ x.getLsbD (79 - k)
    let c' := c <<< 1
    if top then c' ^^^ 0x1021 else c') 0xFFFF

/-- Bits of payload of a packet. The spec gives no packet's payload: it is the model's choice, what the operation names
beside the header and the address (notes/assumptions/117.md). -/
def Msg.payload (m : Msg) : Nat :=
  match m.loc with
  | .back (.line _) => 512
  | .back (.chunk _ _ _ _ _ _) => 256
  | .back _ => 64
  | .grid _ _ | .switch _ _ _ | .merged | .home | .waiting | .refused | .lost =>
    match m.op with
    | .store n _ | .storeFill n _ => 8 * n
    | .amo _ n _ _ => 16 * n
    | .joinInc _ _ => 128
    | .context _ | .stealRep _ => 15 * 256 + 108
    | .load _ | .loadSync _ _ | .fe _ | .feq | .claim _ | .scopeRead | .cellInit _ | .acq | .tryacq | .rel | .call _
    | .arrive _ | .arriveWait | .mode _ | .pol _ | .expect _ | .sbWait _ | .deliver _ | .depaWait _ _ _ | .ringOpen _
    | .ringResv _ | .ringPub _ _ | .ringWait _ | .ringFree _ | .ringAdv _ | .fold | .joinDec | .joinWait | .probe _
    | .cancel _ | .stealReq _ | .message _ _ _ _ | .sfu _ _ | .bind _ _ | .none => 64

/-- The payload of a packet as a number of `payload` bits (notes/assumptions/117.md). -/
def Msg.content (m : Msg) : Nat :=
  let pair (lo hi : Word) : Nat := lo.toNat + hi.toNat * 2 ^ 64
  match m.loc with
  | .back (.line data) => data.foldr (fun b a => b.toNat + 256 * a) 0
  | .back (.chunk r c e0 e1 e2 e3) => pair r c + (pair (word (e0 + e1 * 2 ^ 32)) (word (e2 + e3 * 2 ^ 32))) * 2 ^ 128
  | .back (.value v) => v.toNat
  | .back (.error t) => t.taddr.toNat
  | .back .ack => 0
  | .grid _ _ | .switch _ _ _ | .merged | .home | .waiting | .refused | .lost =>
    match m.op with
    | .store _ v | .storeFill _ v => v.toNat
    | .amo _ n b e => b.toNat % 2 ^ (8 * n) + e.toNat % 2 ^ (8 * n) * 2 ^ (8 * n)
    | .joinInc e sp => pair e sp
    | .cellInit w | .call w | .arrive w | .mode w | .pol w | .expect w | .sbWait w | .ringOpen w | .ringResv w | .ringPub _ w
    | .ringWait w | .ringFree w | .ringAdv w | .message _ w _ _ | .bind w _ => w.toNat
    | .deliver n | .stealReq n | .cancel n | .context n => n
    | .sfu _ x => x.toNat
    | .load _ | .loadSync _ _ | .fe _ | .feq | .claim _ | .scopeRead | .acq | .tryacq | .rel | .arriveWait
    | .depaWait _ _ _ | .fold | .joinDec | .joinWait | .probe _ | .stealRep _ | .none => 0

/-- LEN: the flits after the header flit, which itself takes the header, the address and 108 bits of payload (R21,
R22). -/
def Msg.len (m : Msg) : Nat := (m.payload - 108 + 255) / 256

/-- CLASS of a message (R22). -/
def Msg.cls (m : Msg) : Nat :=
  match m.loc with
  | .back .ack => 2
  | .back _ => 1
  | .grid _ _ | .switch _ _ _ | .merged | .home | .waiting | .refused | .lost =>
    match m.op with
    | .context _ | .stealReq _ | .stealRep _ => 3
    | .cellInit _ | .acq | .tryacq | .rel | .call _ | .arrive _ | .arriveWait | .mode _ | .pol _ | .expect _
    | .sbWait _ | .deliver _ | .depaWait _ _ _ | .cancel _ => 4
    | .load _ | .loadSync _ _ | .store _ _ | .storeFill _ _ | .fe _ | .feq | .amo _ _ _ _ | .claim _ | .scopeRead
    | .ringOpen _ | .ringResv _ | .ringPub _ _ | .ringWait _ | .ringFree _ | .ringAdv _ | .fold | .joinInc _ _ | .joinDec
    | .joinWait | .probe _ | .message _ _ _ _ | .sfu _ _ | .bind _ _ | .none => 0

/-- Coordinates of the router that a physical address is routed to from (x, y): the owning core, core 0 of the scratchpad's
cluster, or the nearest core of the die of the shared SRAM or of the far-tier port (R14, R15, R22). That the packets to a
cluster's scratchpad go to its core 0, that far-tier port p is on die p / 4, and that a request leaves the grid at the nearest
core of that die, the spec does not say (DESIGN CHOICE, notes/assumptions/149.md). -/
def State.routeTo (s : State) (xy : Nat × Nat) (pa : Nat) : Nat × Nat :=
  let near (die : Nat) : Nat × Nat :=
    let bx := 32 * (die % 2)
    let by' := 32 * (die / 2)
    (max bx (min (bx + 31) xy.1), max by' (min (by' + 31) xy.2))
  match s.target pa with
  | some (.vault c _) | some (.tcm c _) => s.coreXY c
  | some (.scratch cl _) => s.coreXY (s.clusterCore cl 0)
  | some (.far off) => near (off / 256 % 16 / 4)
  | some (.sram die _) => near die
  | some (.control _) | some (.host _) | none => xy

/-- The router a packet is on its way to: a reply's is its requester's (R22, R30). -/
def State.goal (s : State) (m : Msg) (xy : Nat × Nat) : Nat × Nat :=
  match m.loc with
  | .back _ => s.coreXY m.core
  | .grid _ _ | .switch _ _ _ | .merged | .home | .waiting | .refused | .lost => s.routeTo xy m.pa

/-- The packet header of a message at a router (R22), a reply's with the home as its source; TAG is the message number,
PKOP is not given and is 0. -/
def State.header (s : State) (m : Msg) : BitVec 96 :=
  let own := s.coreXY m.core
  let (dst, src) := match m.loc with
    | .back _ => (own, s.routeTo own m.pa)
    | .grid _ _ | .switch _ _ _ | .merged | .home | .waiting | .refused | .lost => (s.routeTo own m.pa, own)
  let low : BitVec 80 := BitVec.ofNat 6 dst.1 ++ BitVec.ofNat 6 dst.2 ++ BitVec.ofNat 6 src.1 ++ BitVec.ofNat 6 src.2 ++
    BitVec.ofNat 4 m.part ++ BitVec.ofNat 10 m.asid ++ BitVec.ofNat 4 m.slot ++ BitVec.ofNat 3 m.cls ++
    BitVec.ofBool m.esc ++ BitVec.ofNat 4 m.len ++ BitVec.ofNat 14 m.id ++ 0#16
  crc16 low ++ low

/-- Where a request starts: at its home when the path has no router or switch, in the combining network for the own
die's SRAM, otherwise at the source's router (R13, R14, R137). -/
def State.startLoc (s : State) (core pa : Nat) : Loc :=
  match s.target pa with
  | some (.sram die _) =>
    if die = s.coreDie core then .switch die 0 (s.clusterOf core % 64)
    else let (x, y) := s.coreXY core; .grid x y
  | some (.vault c _) => if c = core then .home else let (x, y) := s.coreXY core; .grid x y
  | some (.scratch cl _) => if cl = s.clusterOf core then .home else let (x, y) := s.coreXY core; .grid x y
  | some (.tcm c _) => if c = core then .home else let (x, y) := s.coreXY core; .grid x y
  | some (.far _) => let (x, y) := s.coreXY core; .grid x y
  | some (.control _) | some (.host _) | none => .home

/-- The input at which a request stands where it starts: 4 at the source's router (R24); a switch of stage 0 has the ports of
two clusters (R30). -/
def State.startPort (s : State) (core pa : Nat) : Nat :=
  match s.startLoc core pa with
  | .switch _ _ _ => s.clusterOf core / 64 % 2
  | .grid _ _ | .merged | .home | .waiting | .refused | .lost | .back _ => 4

/-- Whether an operation may write memory through its translation (R74). -/
def HomeOp.writesLeaf : HomeOp → Bool
  | .store _ _ | .storeFill _ _ | .fe _ | .amo _ _ _ _ | .claim _ | .cellInit _ | .acq | .tryacq | .rel | .call _ | .arrive _
  | .arriveWait | .mode _ | .pol _ | .expect _ | .sbWait _ | .deliver _ | .ringOpen _ | .ringResv _ | .ringPub _ _
  | .ringWait _ | .ringFree _ | .ringAdv _ | .joinInc _ _ | .joinDec => true
  | .load _ | .loadSync _ _ | .feq | .scopeRead | .depaWait _ _ _ | .fold | .joinWait | .probe _ | .cancel _ | .context _
  | .stealReq _ | .stealRep _ | .message _ _ _ _ | .sfu _ _ | .bind _ _ | .none => false

/-- A wait of thread `t` begins now (R25, R214). -/
def State.startOf (s : State) (t : Nat) : Start := ⟨s.wall, (s.core (s.ctx t).core).cycle, (s.ctx t).heldCycles⟩

/-- A message is sent now (R25, R214). -/
def State.sentAt (s : State) (m : Msg) : Start := ⟨s.wall, (s.core m.core).cycle, (s.ctx m.tid).heldCycles⟩

/-- A request of thread `t` for `pa`, not yet numbered. -/
def State.request (s : State) (t : Nat) (op : HomeOp) (va : Word) (pa : Nat) (dst : Option Reg) : Msg :=
  let c := s.ctx t
  { id := 0, op := op, tid := t, part := c.part, asid := c.asid.toNat, fn := c.fn, lvl := c.lvl, core := c.core,
    slot := c.slotNo, va := va, pa := pa,
    scope := ((s.target pa).map (s.destScope c.core)).getD 4, counted := false, dst := dst,
    loc := s.startLoc c.core pa, esc := false, port := s.startPort c.core pa, since := s.wall, ticket := none, limit := none, hit := none,
    issued := c.issued, aux := 0, ret := none, path := [], held := [], track := [], entered := 0,
    born := s.startOf t,
    leaf := if op.writesLeaf then s.iss.leaf else none, perf := 0 }

/-- The first flit of a packet: the header, the physical address in bits 147:96, and the start of the payload (R21). -/
def State.firstFlit (s : State) (m : Msg) : BitVec 256 := BitVec.ofNat 108 m.content ++ BitVec.ofNat 52 m.pa ++ s.header m

/-- The number of a message that is posted: the next one, unless it took its number before, when it was held back. -/
def State.numberOf (s : State) (m : Msg) : Nat := if m.id = 0 then s.nextMsg else m.id

/-- Put a message in flight. -/
def State.post (s : State) (m : Msg) : State :=
  { s with
    flights := s.flights ++ [{ m with id := s.numberOf m, born := s.sentAt m }],
    nextMsg := if m.id = 0 then s.nextMsg + 1 else s.nextMsg }

/-- A message that is held back takes its number at once: among the accesses of its thread it stands where it was issued. -/
def State.numbered (s : State) (m : Msg) (go : Msg → State → State) : State :=
  go { m with id := s.numberOf m } { s with nextMsg := if m.id = 0 then s.nextMsg + 1 else s.nextMsg }

/-- The request that a parked instruction has not sent yet. -/
def Park.unsent : Park → Option Msg
  | .held m _ _ | .scope _ m _ _ | .fence _ _ (.send m _) => some m
  | _ => Option.none

/-- The requests that parked instructions have not sent yet. -/
def State.unsent (s : State) : List Msg := s.ctxs.filterMap fun e => e.2.park.unsent

/-- The request becomes its reply, which starts back on the request's path (R30). -/
def Msg.reply (m : Msg) (r : Reply) : Msg := 
  { m with loc := .back r, ret := m.path.head?, held := [], track := [], entered := 0, esc := false }

/-- The reply of a request leaves its home agent, back along the request's path (R30). -/
def State.answer (s : State) (m : Msg) (r : Reply) : State := s.setMsg { m.reply r with since := s.wall }

/-- The request has become its reply. -/
def Msg.answered (m : Msg) : Bool :=
  match m.loc with
  | .back _ => true
  | .grid _ _ | .switch _ _ _ | .merged | .home | .waiting | .refused | .lost => false

/-- A reply that has come back to its requester (R30). -/
def Msg.arrived (m : Msg) : Bool := m.ret.isNone

def Ctx.subCount (c : Ctx) (k : Nat) : Nat := (c.sub.look k).getD 0
/-- Count an unacknowledged store at scope k (R173). -/
def State.countStore (s : State) (t k : Nat) : State :=
  s.modCtx t fun c => { c with sub := c.sub.put k (c.subCount k + 1) }
/-- The acknowledgement arrived (R173). -/
def State.uncountStore (s : State) (t k : Nat) : State :=
  s.modCtx t fun c => { c with sub := c.sub.put k (c.subCount k - 1) }

/-- Send a message, counted as an unacknowledged store of its thread at its scope (R173). -/
def State.postCounted (s : State) (m : Msg) : State :=
  (s.countStore m.tid m.scope).post { m with counted := true }

/-! ### Registers -/

/-- The h bank of a function on a core (R71, R129). -/
def Core.bank (c : Core) (fn : Nat) : HBank := (c.hb.look fn).getD HBank.reset
def Core.setBank (c : Core) (fn : Nat) (b : HBank) : Core := { c with hb := c.hb.put fn b }

/-- A register written now: full, with the value (R127). -/
def State.fillReg (s : State) (t : Nat) (r : Reg) (v : Word) : State :=
  match r with
  | .g 0 => s
  | .h n => s.modCore (s.ctx t).core fun c =>
      let b := c.bank (s.ctx t).fn
      c.setBank (s.ctx t).fn ⟨b.vals.put n.toNat v, b.empt.del n.toNat⟩
  | .g _ | .q _ | .i _ => s.modCtx t fun c =>
      { c with regs := c.regs.put r.code.toNat v, empt := c.empt.del r.code.toNat }

/-- Mark a register empty (R126). g0 is always full (R127). -/
def State.emptyReg (s : State) (t : Nat) (r : Reg) (why : EmptyWhy) : State :=
  match r with
  | .g 0 => s
  | .h n => s.modCore (s.ctx t).core fun c =>
      let b := c.bank (s.ctx t).fn
      c.setBank (s.ctx t).fn ⟨b.vals, b.empt.put n.toNat why⟩
  | .g _ | .q _ | .i _ => s.modCtx t fun c => { c with empt := c.empt.put r.code.toNat why }

/-- A register's value and emptiness as they now stand (R127). -/
def State.peek (s : State) (t : Nat) (r : Reg) : Word :=
  match r with
  | .g 0 => 0
  | .h n => (((s.core (s.ctx t).core).bank (s.ctx t).fn).vals.look n.toNat).getD 0
  | .g _ | .q _ | .i _ => ((s.ctx t).regs.look r.code.toNat).getD 0

def State.whyEmpty (s : State) (t : Nat) (r : Reg) : Option EmptyWhy :=
  match r with
  | .g 0 => none
  | .h n => ((s.core (s.ctx t).core).bank (s.ctx t).fn).empt.look n.toNat
  | .g _ | .q _ | .i _ => (s.ctx t).empt.look r.code.toNat

/-! ### The chain (R130) -/

/-- The slot number by which the chain connects a thread: its own, or a folded thread's on its former core (R96). -/
def Ctx.laneNo (c : Ctx) : Nat := c.lane.getD c.slotNo

/-- The thread of the same task with virtual core number `vc` in the thread's slot (R130). -/
def State.partner (s : State) (t vc : Nat) : Option Nat :=
  let c := s.ctx t
  (s.ctxs.find? fun e => e.2.task = c.task && c.task ≠ 0 && e.2.vcore = vc && e.2.place.resident &&
    e.2.laneNo = c.laneNo && e.1 ≠ t).map (·.1)

/-- Cores of the thread's crew: CORES of its packet (R78). -/
def State.crewCores (s : State) (t : Nat) : Nat :=
  match s.tasks.look (s.ctx t).task with
  | some k => k.pkt.cores
  | none => 1

/-- The thread's core number in its crew (R82, R96). -/
def Ctx.crewCore (c : Ctx) : Nat := c.vcore % 8

def State.lastOfCrew (s : State) (t : Nat) : Bool := s.crewCores t ≤ (s.ctx t).crewCore + 1

/-! ### Taking a trap (R204–R208) -/

/-- Trap fields of ctl.status (R205): [16:9] TCAUSE, [8:7] TORIG, [6] TWORD, [5] INTRAP, [4:3] TSKIP, [2:1] TENG,
[0] TLOST. -/
def trapFields (t : TrapRec) (tword intrap : Bool) (tskip : BitVec 2) : BitVec 17 :=
  t.code ++ t.orig ++ BitVec.ofBool tword ++ BitVec.ofBool intrap ++ tskip ++ t.eng ++ BitVec.ofBool t.lost

def Ctx.intrap (c : Ctx) : Bool := c.trapf.getLsbD 5
def Ctx.tskip (c : Ctx) : BitVec 2 := c.trapf.extractLsb' 3 2

/-- Whether the kind may go to ctl.tvec for this source (R206, R207). -/
def delegable (t : TrapRec) : Bool :=
  match t.code.toNat with
  | 0x05 | 0x06 => ¬ bit t.tinfo 0
  | 0x08 => fld t.tinfo 52 4 = 0
  | 0x10 | 0x16 => false
  | n => 1 ≤ n && n ≤ 0x15

/-- The message of a trap (R208). -/
def State.trapMail (s : State) (_tid : Nat) (c : Ctx) : Mail :=
  { dw0 := word ((c.trapf.toNat <<< 47) + (c.core <<< 32) + (c.slotNo <<< 28) + (c.asid.toNat <<< 16) + c.fn % 2 ^ 11),
    pc := c.pc, taddr := c.taddr, tinfo := c.tinfo, time := word s.wall, x5 := 0, x6 := 0, x7 := 0 }

/-- Hand a message to the partition's mailbox, to be written in order (R208). -/
def State.mailTo (s : State) (p : Nat) (m : Mail) : State := s.modPart p fun x => { x with mail := x.mail ++ [m] }

/-- Take a trap in thread `t`, whose PC already holds the address R204 states: delegated to ctl.tvec, handed to the
supervisor's mailbox with the thread parked, or, at levels S and F, stopping the thread (R205–R208). -/
def State.takeTrap (s : State) (t : Nat) (r : TrapRec) (tword : Bool) : State :=
  let c := s.ctx t
  let delegated := ¬ c.intrap ∧
    (c.lvl = .f ∨ (delegable r = true ∧ bit c.tdeleg r.code.toNat = true))
  if delegated then
    s.setCtx t { c with trapf := trapFields r tword true c.skip, taddr := r.taddr, tinfo := r.tinfo, skip := 0,
                        pc := c.tvec, tvec := c.pc, park := .none }
  else
    let c' := { c with trapf := trapFields r tword c.intrap c.skip, taddr := r.taddr, tinfo := r.tinfo }
    if c.lvl = .u then
      (s.setCtx t { c' with park := .trapped }).mailTo c.part (s.trapMail t c')
    else (s.setCtx t { c' with park := .stopped }).vector 0 64

/-- Return from a delegated handler: exchange PC with ctl.tvec, restore the skip count, clear INTRAP (R207, R270).
`pc` is the address of the eret. -/
def State.returnFromTrap (s : State) (t : Nat) (pc : Word) : State :=
  s.modCtx t fun c => { c with pc := c.tvec, tvec := pc &&& ~~~3#64, skip := c.tskip, trapf := c.trapf &&& ~~~0x20#17 }

/-- A trap of origin 0 of the unit being issued: no effect, PC at the unit (R204). -/
def State.raise (s : State) (code : Nat) (taddr tinfo : Word) : State :=
  (((s.modCtx s.iss.tid fun c => { c with pc := s.iss.pc }).takeTrap s.iss.tid (TrapRec.make code taddr tinfo 0)
    s.iss.wpos).setRes .trapped)

/-- The illegal-instruction trap of the unit being issued (R206). -/
def State.illegal (s : State) : State := s.raise 0x01 s.iss.pc (word s.iss.word.toNat)

/-- The privilege fault of the unit being issued (R9, R206). -/
def State.privilege (s : State) : State := s.raise 0x02 s.iss.pc (word s.iss.word.toNat)

/-- Position of the unit at an address within its doubleword (R205). -/
def wordPos (pc : Word) : Bool := bit pc 2

/-- Record a trap of origin 0 (late), 1, 2 or 3 for the thread's next issue; a second of one origin is lost (R204). A
halted thread leaves its halt on origin 2 or 3 (R279). -/
def State.pendTrap (s : State) (t : Nat) (r : TrapRec) : State :=
  s.modCtx t fun c =>
    let add (old : Option TrapRec) : Option TrapRec :=
      match old with
      | none => some r
      | some o => some { o with lost := true }
    let wake := if c.park = .halted then Park.none else c.park
    match r.orig.toNat with
    | 0 => { c with pend0 := add c.pend0 }
    | 1 => { c with pend1 := add c.pend1 }
    | 2 => { c with pend2 := add c.pend2, park := wake }
    | _ => { c with pend3 := add c.pend3, park := wake }

/-- The pending trap that the thread's next issue takes first (R204). -/
def Ctx.pending (c : Ctx) : Option TrapRec := ((c.pend0.or c.pend1).or c.pend2).or c.pend3

/-- Drop the pending trap that was taken. -/
def Ctx.dropPending (c : Ctx) : Ctx :=
  if c.pend0.isSome then { c with pend0 := none }
  else if c.pend1.isSome then { c with pend1 := none }
  else if c.pend2.isSome then { c with pend2 := none } else { c with pend3 := none }

/-- Registers whose refusal has been reported await nothing (R281). -/
def buried (told : TrapRec → Nat → Bool) (e : SMap EmptyWhy) : SMap EmptyWhy :=
  e.map fun x => match x.2 with
    | .failed t n => if told t n then (x.1, .dead) else x
    | .fill | .armed | .dead => x

/-- The reported refusals of a thread leave its registers, and its function's h registers, awaiting nothing (R281). -/
def State.buryAll (s : State) (t : Nat) (told : TrapRec → Nat → Bool) : State :=
  (s.modCtx t fun c => { c with empt := buried told c.empt }).modCore (s.ctx t).core fun k =>
    let b := k.bank (s.ctx t).fn
    k.setBank (s.ctx t).fn ⟨b.vals, buried told b.empt⟩

/-! ### Data cache (R138) -/

def lineOf (pa : Nat) : Nat := pa - pa % 64

/-- Remove a line from a core's data cache. -/
def State.uncache (s : State) (core pa : Nat) : State :=
  s.modCore core fun c => { c with dcache := c.dcache.filter fun l => l.pa ≠ lineOf pa }

/-- Whether a physical line lies in a core's own vault. -/
def State.ownVault (s : State) (core pa : Nat) : Bool :=
  match s.target pa with
  | some (.vault c _) => c = core
  | _ => false

/-- Invalidate every line not of the core's own vault (R138). -/
def State.invalidateCache (s : State) (core : Nat) : State :=
  s.modCore core fun c => { c with dcache := c.dcache.filter fun l => s.ownVault core l.pa }

/-- Fill a line: 128 sets of 4 ways, least recently used first (R138). -/
def State.cacheLine (s : State) (core pa : Nat) : State :=
  let l := lineOf pa
  s.modCore core fun c =>
    let rest := c.dcache.filter fun x => x.pa ≠ l
    let set := rest.filter fun x => x.pa / 64 % 128 = l / 64 % 128
    let rest' := if set.length < 4 then rest else rest.filter fun x => some x ≠ set.head?
    { c with dcache := rest' ++ [⟨l, s.rdBytes l 64, List.replicate 64 s.perfs⟩] }

/-- The value an ordinary load reads from the cache. -/
def Core.cached (c : Core) (pa n : Nat) : Option Nat :=
  (c.dcache.find? fun l => l.pa = lineOf pa).map fun l =>
    ((l.data.drop (pa % 64)).take n).foldr (fun b a => b.toNat + 256 * a) 0

/-- Set the D bit of a stage-2 leaf, as an atomic OR on the entry in memory, wherever a cache holds its line (R74). -/
def State.setD (s : State) (leaf : Option Nat) : State :=
  match leaf with
  | none => s
  | some a =>
    if bit (s.rd64 a) 7 then s
    else
      let s1 := s.wr64 a (s.rd64 a ||| 0x80)
      match s.target a with
      | some (.vault c _) => s1.uncache c a
      | _ => s1

/-- Another agent's write to a vault line invalidates it in the cache of the core above (R138). -/
def State.vaultWritten (s : State) (writer : Option Nat) (pa : Nat) : State :=
  match s.target pa with
  | some (.vault c _) => if writer = some c then s else s.uncache c pa
  | _ => s

/-- One byte of a line takes a store's value unless it holds a later performance's (R166). -/
def CacheLine.store (l : CacheLine) (k perf : Nat) (b : Byte) : CacheLine :=
  if (l.vers.getD k 0) < perf then { l with data := l.data.set k b, vers := l.vers.set k perf } else l

/-- Update a cached line with a store of the core's own thread, which was performed as number `perf`: a byte already
written by a later performance stays (R138, R166, R170). -/
def Core.storeCached (c : Core) (pa n v perf : Nat) : Core :=
  { c with dcache := c.dcache.map fun l =>
      if l.pa = lineOf pa then
        (List.range n).foldl (fun l k => l.store (pa % 64 + k) perf (BitVec.ofNat 8 (v / 256 ^ k))) l
      else l }

/-! ### Readiness of a thread (R86, R127) -/

/-- One of the requests, or of the accesses of TCM pipelines, has not been performed (R69, R274). -/
def State.passing (s : State) (ms : List Nat) (ds : List (Nat × Delayed)) : Bool :=
  (s.flights.any fun x => ms.contains x.id && (match x.loc with
      | .back _ | .lost => false
      | .grid _ _ | .switch _ _ _ | .merged | .home | .waiting | .refused => true)) ||
    (s.unsent.any fun x => ms.contains x.id) || ds.any fun e => (s.core e.1).delayed.contains e.2

/-- The thread waits on something that has not yet come. One held in M1 goes on from there, without an issue (R125,
R166). -/
def State.blocked (s : State) (t : Nat) : Bool :=
  let c := s.ctx t
  c.also.isSome || match c.park with
  | .none | .joined => false
  | .reg code =>
    match Reg.ofCode (BitVec.ofNat 7 code) with
    | some (.g 60) => c.chain.isEmpty || (s.partner t (c.vcore - 1)).isNone
    | some r => match s.whyEmpty t r with
      | some .fill | some .armed | some .dead => true
      | some (.failed _ _) | none => false
    | none => false
  | .chain => match s.partner t (c.vcore + 1) with
    | some p => (s.ctx p).chain.length ≥ 2
    | none => true
  | .inval ms ds => s.passing ms ds
  | .nestReply => s.flights.any fun m => m.tid = t && (match m.op with
      | .claim _ => true
      | _ => false)
  | .walk w => s.clusters.any fun e => e.2.walks.any fun x => x.id = w
  | .engine =>
    let core := s.core c.core
    core.eng0.next = some t || core.eng1.next = some t || (core.eng0.next.isSome && core.eng1.next.isSome)
  | .drain =>
    let core := s.core c.core
    core.mq.any (fun e => e.tid = t) || core.vq.any (fun e => e.tid = t) || core.cq.any fun x => x.tid = t
  | .tags mask => (s.core c.core).cq.any fun x => x.tid = t && mask.testBit x.tag
  | .spawnFills =>
    let full := ((s.core c.core).deques.look c.task).bind fun q => if q.chip.length < 16 then none else q.chip.head?
    s.flights.any fun m => (m.tid = t && m.dst.isSome) || full = some m.tid
  | .start | .held _ _ _ | .scope _ _ _ _ | .nestEnd _ _ | .copies _ _ | .fence _ _ _ | .reply _ | .trapped | .stopped | .sys | .halted | .stepping _ => true

/-- A pending trap unparks nothing but is taken at the next issue (R204). Ready: has an instruction to issue and is
neither parked, halted, frozen, stopped nor thermally disabled (R86). -/
def State.ready (s : State) (t : Nat) : Bool :=
  let c := s.ctx t
  c.place.resident && ¬ s.blocked t && ¬ (c.frozen && c.stepLeft.isNone) &&
    ¬ (s.core c.core).disabled.contains c.slotNo

/-! ### Free values -/

/-- Take the next free value of the spec's open ones (notes/assumptions/4.md). -/
def State.free (s : State) : Word × State := (Config.freeValue s.fresh, { s with fresh := s.fresh + 1 })

end Sys2Proof.Machine
end

