-- ==== Sys2Proof/Machine/Operands.lean ====
section
/-! DEFINITION. Operands of the unit being issued: stage OP (R125, R127, R130, R238) and the writes of stage WB
(R126, R127, R129, R130). -/

namespace Sys2Proof.Machine

/-! ### Stage OP -/

/-- The thread context whose registers the unit reads: for word 1 of a pair as they stood before the pair (R238). -/
def State.opCtx (s : State) : Ctx :=
  match s.iss.snap with
  | some p => p.1
  | none => s.ctx s.iss.tid

/-- The h bank that the unit reads (R71, R129). -/
def State.opBank (s : State) : HBank :=
  match s.iss.snap with
  | some p => p.2
  | none => (s.core (s.ctx s.iss.tid).core).bank (s.ctx s.iss.tid).fn

/-- Src(f): the value of a register as stage OP reads it (R127, R130, R251). -/
def State.src (s : State) (r : Reg) : Word :=
  match r with
  | .g n =>
    if n = 0 then 0
    else if n = 60 then s.opCtx.chain.headD 0
    else (s.opCtx.regs.look r.code.toNat).getD 0
  | .h n => (s.opBank.vals.look n.toNat).getD 0
  | .q _ | .i _ => (s.opCtx.regs.look r.code.toNat).getD 0

/-- Whether stage OP finds a register empty, and why (R126, R127). g0 is always full. -/
def State.srcEmpty (s : State) (r : Reg) : Option EmptyWhy :=
  match r with
  | .g n => if n = 0 then none else s.opCtx.empt.look r.code.toNat
  | .h n => s.opBank.empt.look n.toNat
  | .q _ | .i _ => s.opCtx.empt.look r.code.toNat

/-- Why the unit does not issue. -/
inductive OpStop where
  /-- The thread parks and the unit issues again (R127). -/
  | park (p : Park)
  /-- Chain end: an access fault with cause 3 (R130, R206). -/
  | chainEnd
  /-- The request of that number was refused; its trap is taken by the first reader of a register it was to fill (R281). -/
  | report (t : TrapRec) (num : Nat)
  deriving DecidableEq, Repr

/-- What stage OP finds at a source register; a read of g60 parks while the link is empty or the partner slot holds no
thread of the task (R127, R130). -/
def State.srcStop (s : State) (r : Reg) : Option OpStop :=
  if r = .g 60 then
    if s.opCtx.crewCore = 0 then some .chainEnd
    else if s.opCtx.chain.isEmpty || (s.partner s.iss.tid (s.opCtx.vcore - 1)).isNone then some (.park (.reg 60)) else none
  else match s.srcEmpty r with
    | none => none
    | some (.failed t n) => some (.report t n)
    | some .fill | some .armed | some .dead => some (.park (.reg r.code.toNat))

/-- What stage OP finds at a destination register: a pending fill, of a load or of a message, parks the writer (R127, R314),
and so does a full link or an absent partner for g61 (R130). -/
def State.dstStop (s : State) (r : Reg) : Option OpStop :=
  if r = .g 61 ∧ s.lastOfCrew s.iss.tid = true then some .chainEnd
  else if r = .g 61 ∧ (match s.partner s.iss.tid (s.opCtx.vcore + 1) with
      | some p => decide (2 ≤ (s.ctx p).chain.length)
      | none => true) = true then some (.park .chain)
  else if s.srcEmpty r = some .fill ∨ s.srcEmpty r = some .armed then some (.park (.reg r.code.toNat)) else none

/-- The first thing that keeps the unit from issuing. -/
def State.opStop (s : State) (srcs dsts : List Reg) : Option OpStop :=
  (srcs.findSome? s.srcStop).or (dsts.findSome? s.dstStop)

/-- The thread parks with no effect of the unit: PC still names it (R127). -/
def State.parkIssue (s : State) (p : Park) : State :=
  (s.modCtx s.iss.tid fun c => { c with park := p, pc := s.iss.pc }).setRes .parked

/-- Take the stop. No spec rule gives ctl.taddr at a chain end: it is a free value (notes/assumptions/4.md). -/
def State.takeStop (s : State) : OpStop → State
  | .park p => s.parkIssue p
  | .chainEnd => let (v, s') := s.free; s'.raise 0x03 v 3
  | .report t n =>
    (((s.modCtx s.iss.tid fun c => { c with pc := s.iss.pc, errAcks := c.errAcks.erase t }).buryAll s.iss.tid
      fun _ k => k = n).takeTrap s.iss.tid { t with orig := 1 } (wordPos s.iss.pc)).setRes .trapped

/-- The unit leaves the pipeline: PC moves to NextUnit. Word 1 of a pair leaves PC to word 0 (R238, R251). -/
def State.advance (s : State) : State :=
  if s.iss.snap.isSome then s.setRes .done
  else (s.modCtx s.iss.tid fun c => { c with pc := s.iss.next, park := .none }).setRes .done

/-- A read of g60 takes the oldest value of the link, one for every field that names it; a trap of the unit while it is still
parked puts it back (R130, R204, R238). -/
def State.takeLink (s : State) (srcs : List Reg) : State :=
  if srcs.contains (.g 60) && s.iss.res = .done then
    s.modCtx s.iss.tid fun c => { c with chain := c.chain.tail, undo := { c.undo with link := c.chain.head? } }
  else s

/-- Stage OP of a unit with these register sources and destinations, then its effect. -/
def State.operands (s : State) (srcs dsts : List Reg) (effect : State → State) : State :=
  match s.opStop srcs dsts with
  | some st => s.takeStop st
  | none => (effect s.advance).takeLink srcs

/-! ### Stage WB -/

/-- Append a value to the link out of the thread's core (R130). -/
def State.pushLink (s : State) (t : Nat) (v : Word) : State :=
  match s.partner t ((s.ctx t).vcore + 1) with
  | some p => s.modCtx p fun c => { c with chain := c.chain ++ [v] }
  | none => s

/-- Dst(f, v): a register result of thread `t`. h registers are seen by later issues as R129 states; g61 also appends
to the link (R130, notes/assumptions/13.md). -/
def State.writeReg (s : State) (t : Nat) (r : Reg) (v : Word) : State :=
  match r with
  | .h n => s.modCore (s.ctx t).core fun c => { c with delayed := c.delayed ++ [.hVal c.issueCycle (s.ctx t).fn n.toNat v] }
  | .g n => if n = 61 then (s.fillReg t r v).pushLink t v else s.fillReg t r v
  | .q _ | .i _ => s.fillReg t r v

/-- Dst(f, v) of the unit being issued (R251). -/
def State.dst (s : State) (r : Reg) (v : Word) : State := s.writeReg s.iss.tid r v

/-- WB empties a destination for a pending fill (R126, R129). -/
def State.pend (s : State) (r : Reg) : State :=
  match r with
  | .h n =>
    let t := s.iss.tid
    s.modCore (s.ctx t).core fun c => { c with delayed := c.delayed ++ [.hEmpty c.issueCycle (s.ctx t).fn n.toNat t] }
  | .g _ | .q _ | .i _ => s.emptyReg s.iss.tid r .fill

/-- Whether a delayed write is thread `t`'s emptying of register h`n` of a function. -/
def Delayed.empties (t fn n : Nat) : Delayed → Bool
  | .hEmpty _ f i o => f = fn && i = n && o = t
  | .hVal _ _ _ _ | .wb _ _ => false

/-- A reply's value fills a register emptied for it (R126). An h register is that of the requester's core and function,
wherever the thread now is; another thread's emptying that is still to come stays (R129). -/
def State.deliver (s : State) (t core fn : Nat) (r : Reg) (v : Word) : State :=
  match r with
  | .h n => s.modCore core fun c =>
      let b := c.bank fn
      { c.setBank fn ⟨b.vals.put n.toNat v, b.empt.del n.toNat⟩ with
        delayed := c.delayed.filter fun d => ¬ d.empties t fn n.toNat }
  | .g n => if n = 61 then (s.fillReg t r v).pushLink t v else s.fillReg t r v
  | .q _ | .i _ => s.fillReg t r v

/-- The refused access number `num` leaves its register empty with the trap for the first reader (R281). -/
def State.deliverError (s : State) (t core fn : Nat) (r : Reg) (e : TrapRec) (num : Nat) : State :=
  match r with
  | .h n => s.modCore core fun c =>
      let b := c.bank fn
      { c.setBank fn ⟨b.vals, b.empt.put n.toNat (.failed e num)⟩ with
        delayed := c.delayed.filter fun d => ¬ d.empties t fn n.toNat }
  | .g _ | .q _ | .i _ => s.emptyReg t r (.failed e num)

/-- The register writes and TCM accesses that a later issue now sees: h writes of 6 cycles ago (R129), TCM accesses of 2
cycles ago (R169). -/
def Delayed.due (cycle : Nat) : Delayed → Bool
  | .hVal i _ _ _ | .hEmpty i _ _ _ => i + 6 ≤ cycle
  | .wb i _ => i + 2 ≤ cycle

/-! ### Shapes of instructions -/

/-- An instruction that only computes a register from registers. -/
def State.compute (s : State) (rd : Reg) (srcs : List Reg) (v : Word) : State :=
  s.operands srcs [rd] fun s' => s'.dst rd v

/-- Signed and unsigned extension of an immediate. -/
def sext {n : Nat} (x : BitVec n) : Word := x.signExtend 64
def zext {n : Nat} (x : BitVec n) : Word := x.setWidth 64

/-- In a register field the X form names h0–h15 or q0–q15; in the g forms every register is a g register. -/
def g (n : BitVec 6) : Reg := .g n

end Sys2Proof.Machine
end

