-- ==== Sys2Proof/Machine/Flags.lean ====
section
/-! DEFINITION. Conditions of the compares (R256) and ctl.status (R205, R268). -/

namespace Sys2Proof.Machine

/-- The integer column of R256. -/
def icond (c : ICond) (a b : Word) : Bool :=
  match c with
  | .eq => a = b
  | .ne => a ≠ b
  | .lt => a.slt b
  | .ge => ¬ a.slt b
  | .ltu => a.ult b
  | .geu => ¬ a.ult b
  | .bs => bit a (fld b 0 6)
  | .bc => ¬ bit a (fld b 0 6)

/-- The low half of a register as FP32 is a NaN. -/
def f32IsNaN (x : BitVec 32) : Bool := fld x 23 8 = 255 && fld x 0 23 ≠ 0

/-- A number that orders the FP32 values that are not NaN, with −0 equal to +0. -/
def f32Order (x : BitVec 32) : Int := if bit x 31 then -(fld x 0 31 : Int) else fld x 0 31

/-- The FP32 column of R256. -/
def fcond (c : FCond) (x y : BitVec 32) : Bool :=
  let un := f32IsNaN x || f32IsNaN y
  match c with
  | .eq => ¬ un && f32Order x = f32Order y
  | .ne => un || f32Order x ≠ f32Order y
  | .lt => ¬ un && f32Order x < f32Order y
  | .ge => ¬ un && f32Order x ≥ f32Order y
  | .un => un
  | .or => ¬ un

/-- The FP32 operand of a register: its low half (R256). -/
def lo32 (x : Word) : BitVec 32 := x.setWidth 32

def skipValue : SkipCount → BitVec 2
  | .one => 1
  | .two => 2
  | .three => 3

/-- The full/empty bit that skf tests; for g60 and g61 the link (R257). -/
def State.skfFull (s : State) (r : Reg) : Bool :=
  if r = .g 60 then (s.srcStop r).isNone
  else if r = .g 61 then
    s.lastOfCrew s.iss.tid || (match s.partner s.iss.tid (s.opCtx.vcore + 1) with
      | some p => decide (2 ≤ (s.ctx p).chain.length)
      | none => false)
  else (s.srcEmpty r).isNone

/-- The LVL field. -/
def Level.code : Level → BitVec 2
  | .u => 0
  | .s => 1
  | .f => 2

/-- ctl.status (R268): the trap fields, CORE, SLOT, PART, FUNC, SKIP, LVL. -/
def Ctx.status (c : Ctx) : Word :=
  c.trapf ++ 0#3 ++ BitVec.ofNat 12 c.core ++ BitVec.ofNat 4 c.slotNo ++ BitVec.ofNat 4 c.part ++
    BitVec.ofNat 11 c.fn ++ 0#9 ++ c.skip ++ c.lvl.code

end Sys2Proof.Machine
end

