-- ==== Sys2Proof/Machine/Float.lean ====
section
/-! DEFINITION. Number formats: IEEE formats and BF16 (R186–R189), integers from them (R185), narrow formats and block
scales (R190–R196), all over exact values. -/

namespace Sys2Proof.Machine

/-- A value before or after rounding: NaN, an infinity, or (−1)^neg × m × 2^e, with signed zeros. -/
inductive Num where
  | nan
  | inf (neg : Bool)
  | fin (neg : Bool) (m : Nat) (e : Int)
  deriving DecidableEq, Repr

/-- An IEEE format: precision p, the exponent of its smallest subnormal, its largest exponent, and its widths. -/
structure IFmt where
  p : Nat
  qmin : Int
  emax : Int
  expBits : Nat
  deriving DecidableEq, Repr

/-- FP32, FP16 and BF16 (R186). -/
def IFmt.f32 : IFmt := ⟨24, -149, 127, 8⟩
def IFmt.f16 : IFmt := ⟨11, -24, 15, 5⟩
def IFmt.bf16 : IFmt := ⟨8, -133, 127, 8⟩

/-- Bits of a magnitude; 0 for 0. -/
def bitLen (m : Nat) : Nat := if m = 0 then 0 else m.log2 + 1

/-- 2^k for k ≥ 0. -/
def pow2 (k : Int) : Nat := 2 ^ k.toNat

/-- The value a bit pattern of a format stands for (R186, R187). -/
def IFmt.decode (f : IFmt) (x : Nat) : Num :=
  let fb := f.p - 1
  let frac := x % 2 ^ fb
  let ex := x / 2 ^ fb % 2 ^ f.expBits
  let neg := x / 2 ^ (fb + f.expBits) % 2 = 1
  if ex = 2 ^ f.expBits - 1 then (if frac = 0 then .inf neg else .nan)
  else if ex = 0 then .fin neg frac f.qmin
  else .fin neg (2 ^ fb + frac) (f.qmin + (ex - 1 : Nat))

/-- The bit pattern of a value that the format holds exactly; NaN is canonical (R187). -/
def IFmt.encode (f : IFmt) (x : Num) : Nat :=
  let fb := f.p - 1
  let top (neg : Bool) : Nat := if neg then 2 ^ (fb + f.expBits) else 0
  match x with
  | .nan => (2 ^ f.expBits - 1) * 2 ^ fb + 2 ^ (fb - 1)
  | .inf neg => top neg + (2 ^ f.expBits - 1) * 2 ^ fb
  | .fin neg m e =>
    if m = 0 then top neg
    else
      let l := bitLen m
      let te := e + (l : Int) - 1
      if te < f.qmin + fb then top neg + (if e ≥ f.qmin then m * pow2 (e - f.qmin) else m / pow2 (f.qmin - e))
      else
        let sig := if l ≤ f.p then m * 2 ^ (f.p - l) else m / 2 ^ (l - f.p)
        top neg + ((te - f.qmin - fb + 1).toNat) * 2 ^ fb + (sig - 2 ^ fb)

/-- Whether a magnitude is rounded away from zero: `lo` is the kept part, `rem` of `den` the rest (R188, R189). `sr` is
the generator's state. -/
def roundsUp (rm : Rm) (sr : Nat) (neg : Bool) (lo rem den : Nat) : Bool :=
  match rm with
  | .rne => 2 * rem > den || (2 * rem = den && lo % 2 = 1)
  | .rtz => false
  | .ru => rem ≠ 0 && ¬ neg
  | .rd => rem ≠ 0 && neg
  | .sr => rem * 2 ^ 32 > sr * den

/-- The largest finite value of a format as a multiple of 2^(emax − p + 1). -/
def IFmt.maxSig (f : IFmt) : Nat := 2 ^ f.p - 1
def IFmt.maxExp (f : IFmt) : Int := f.emax - (f.p : Int) + 1

/-- The result of an overflow (R187). -/
def IFmt.overflow (f : IFmt) (rm : Rm) (neg up : Bool) : Num :=
  let big : Num := .fin neg f.maxSig f.maxExp
  match rm with
  | .rne => .inf neg
  | .rtz => big
  | .ru => if neg then big else .inf neg
  | .rd => if neg then .inf neg else big
  | .sr => if up then .inf neg else big

/-- Round a value to a format (R187–R189). -/
def IFmt.round (f : IFmt) (rm : Rm) (sr : Nat) (x : Num) : Num :=
  match x with
  | .nan => .nan
  | .inf neg => .inf neg
  | .fin neg m e =>
    if m = 0 then .fin neg 0 f.qmin
    else
      let te := e + (bitLen m : Int) - 1
      if te > f.emax then
        -- beyond the largest binade: SR compares against the spacing of the largest binade (R189)
        let up : Bool := -- (|x| − max) × 2^32 > s × spacing, scaled by a common power of two
          let d := min e f.maxExp
          (m * pow2 (e - d) - f.maxSig * pow2 (f.maxExp - d)) * 2 ^ 32 > sr * pow2 (f.maxExp - d)
        f.overflow rm neg up
      else
        let q := max (te - (f.p : Int) + 1) f.qmin
        if e ≥ q then .fin neg (m * pow2 (e - q)) q
        else
          let den := pow2 (q - e)
          let lo := m / den
          let up := roundsUp rm sr neg lo (m % den) den
          let r := if up then lo + 1 else lo
          if q + (bitLen r : Int) - 1 > f.emax then f.overflow rm neg up else .fin neg r q

/-- Negation. -/
def Num.neg : Num → Num
  | .nan => .nan
  | .inf n => .inf (!n)
  | .fin n m e => .fin (!n) m e

def Num.isNeg : Num → Bool
  | .nan => false
  | .inf n => n
  | .fin n _ _ => n

/-- Signed mantissa. -/
def signed (neg : Bool) (m : Nat) : Int := if neg then -(m : Int) else m

/-- The exact sum; an exact zero of operands with different signs is −0 under RD and +0 otherwise (IEEE 754, R187). -/
def Num.add (rm : Rm) (a b : Num) : Num :=
  match a, b with
  | .nan, _ => .nan
  | _, .nan => .nan
  | .inf n, .inf k => if n = k then .inf n else .nan
  | .inf n, .fin _ _ _ => .inf n
  | .fin _ _ _, .inf n => .inf n
  | .fin na ma ea, .fin nb mb eb =>
    let e := min ea eb
    let s := signed na (ma * pow2 (ea - e)) + signed nb (mb * pow2 (eb - e))
    if s = 0 then .fin (if na = nb then na else rm = .rd) 0 e
    else .fin (s < 0) s.natAbs e

/-- The exact product. -/
def Num.mul (a b : Num) : Num :=
  match a, b with
  | .nan, _ => .nan
  | _, .nan => .nan
  | .inf n, .inf k => .inf (n != k)
  | .inf n, .fin k m _ => if m = 0 then .nan else .inf (n != k)
  | .fin k m _, .inf n => if m = 0 then .nan else .inf (n != k)
  | .fin na ma ea, .fin nb mb eb => .fin (na != nb) (ma * mb) (ea + eb)

/-- Multiply by 2^k. -/
def Num.scale (a : Num) (k : Int) : Num :=
  match a with
  | .nan => .nan
  | .inf n => .inf n
  | .fin n m e => .fin n m (e + k)

def Num.isNan : Num → Bool
  | .nan => true
  | .inf _ | .fin _ _ _ => false

def Num.isZero : Num → Bool
  | .fin _ m _ => m = 0
  | .nan | .inf _ => false

/-- Order of two values that are not NaN; −0 equals +0. -/
def Num.le (a b : Num) : Bool :=
  match a, b with
  | .nan, _ => false
  | _, .nan => false
  | .inf n, .inf k => n || !k
  | .inf n, .fin _ _ _ => n
  | .fin _ _ _, .inf k => !k
  | .fin na ma ea, .fin nb mb eb =>
    let e := min ea eb
    signed na (ma * pow2 (ea - e)) ≤ signed nb (mb * pow2 (eb - e))

/-- The FP32 value of a pattern, and back under a mode. -/
def f32 (x : BitVec 32) : Num := IFmt.f32.decode x.toNat
def f32Of (rm : Rm) (sr : Nat) (x : Num) : BitVec 32 := BitVec.ofNat 32 (IFmt.f32.encode (IFmt.f32.round rm sr x))

/-- FP32 sum under RNE (R288). -/
def f32Add (a b : BitVec 32) : BitVec 32 := f32Of .rne 0 ((f32 a).add .rne (f32 b))

/-- A value rounded to an integer under a mode, saturating to a range; NaN gives 0 (R185). -/
def Num.toInt (x : Num) (rm : Rm) (sr : Nat) (lo hi : Int) : Int :=
  match x with
  | .nan => 0
  | .inf neg => if neg then lo else hi
  | .fin neg m e =>
    let r :=
      if e ≥ 0 then m * pow2 e
      else
        let den := pow2 (-e)
        let q := m / den
        if roundsUp rm sr neg q (m % den) den then q + 1 else q
    max lo (min hi (signed neg r))

/-- An integer as an exact value. -/
def Num.ofInt (x : Int) : Num := .fin (x < 0) x.natAbs 0

/-- Step(s) of the stochastic-rounding generator (R189). -/
def srStep (s : BitVec 32) : BitVec 32 :=
  if s = 0 then 1
  else (s <<< 1) ||| (BitVec.ofBool (bit s 31 ^^ bit s 21 ^^ bit s 1 ^^ bit s 0)).setWidth 32

/-! ### Narrow formats (R190–R195) -/

/-- A decoded format record. -/
structure NFmt where
  s : Nat
  e : Nat
  m : Nat
  special : Nat
  sat : Bool
  bias : Int
  deriving DecidableEq, Repr

/-- The inner loop of DecodeForm: subtract widths while k reaches them (R191). -/
def formLoop (add : Nat) : Nat → Nat → Nat → Nat × Nat
  | 0, k, w => (k, w)
  | fuel + 1, k, w => if k ≥ w + add then formLoop add fuel (k - (w + add)) (w + 1) else (k, w)

/-- DecodeForm with the record's bias; none for an ill-formed record (R190, R191). -/
def NFmt.ofRecord (r : BitVec 16) : Option NFmt :=
  let f := fld r 0 8
  let bias := (r.extractLsb' 8 8).toInt
  if f ≥ 182 then none
  else if f < 140 then
    let cls := f / 35
    let (k, w) := formLoop 0 8 (f % 35) 2
    let (sp, sat) := match cls with
      | 0 => (0, true)
      | 1 => (1, false)
      | 2 => (1, true)
      | _ => (2, true)
    some ⟨1, k, w - 1 - k, sp, sat, bias⟩
  else
    let (k, w) := formLoop 1 8 (f - 140) 2
    some ⟨0, k, w - k, 0, true, bias⟩

/-- W, the element width (R191). -/
def NFmt.width (f : NFmt) : Nat := f.s + f.e + f.m

/-- Bits of an element's container (R195). -/
def NFmt.container (f : NFmt) : Nat := if f.width ≤ 4 then 4 else 8

/-- A decoded element: a value, or the reserved code (R192, R194). -/
inductive Elem where
  | val (x : Num)
  | reserved
  deriving DecidableEq, Repr

/-- The value of a code (R191, R192). -/
def NFmt.decode (f : NFmt) (code : Nat) : Elem :=
  let c := code % 2 ^ f.width
  if f.s = 1 && c = 2 ^ (f.width - 1) then
    match f.special with
    | 0 => .val (.fin false 0 0)
    | 1 => .val .nan
    | _ => .reserved
  else
    let neg := f.s = 1 && c / 2 ^ (f.width - 1) = 1
    let m := c % 2 ^ f.m
    let ex := c / 2 ^ f.m % 2 ^ f.e
    if ex = 0 then .val (.fin (neg && m ≠ 0) m (1 - f.bias - f.m))
    else .val (.fin neg (2 ^ f.m + m) (ex - f.bias - f.m))

/-- The exponent of the format's smallest step. -/
def NFmt.qmin (f : NFmt) : Int := 1 - f.bias - f.m

/-- The code of the largest finite magnitude: every exponent and mantissa bit set. -/
def NFmt.maxCode (f : NFmt) : Nat := 2 ^ (f.e + f.m) - 1

/-- The largest finite value as m × 2^e. -/
def NFmt.fmax (f : NFmt) : Nat × Int :=
  if f.e = 0 then (2 ^ f.m - 1, f.qmin)
  else (2 ^ (f.m + 1) - 1, (2 ^ f.e - 1 : Nat) - f.bias - f.m)

/-- The NaN code, or code 0 where the format has none (R193). -/
def NFmt.nanCode (f : NFmt) : Nat := if f.special = 1 then 2 ^ (f.width - 1) else 0

/-- Encode a value into a narrow format (R193). -/
def NFmt.encode (f : NFmt) (rm : Rm) (sr : Nat) (x : Num) : Nat :=
  match x with
  | .nan | .inf _ => f.nanCode
  | .fin neg m e =>
    if m = 0 then 0
    else if f.s = 0 && neg then 0
    else
      let te := e + (bitLen m : Int) - 1
      let q := if f.e = 0 then f.qmin else max (te - f.m) f.qmin
      let r :=
        if e ≥ q then m * pow2 (e - q)
        else
          let den := pow2 (q - e)
          let lo := m / den
          if roundsUp rm sr neg lo (m % den) den then lo + 1 else lo
      let sign := if neg then 2 ^ (f.width - 1) else 0
      let (xm, xe) := f.fmax
      let d := min q xe
      if r = 0 then 0
      else if r * pow2 (q - d) > xm * pow2 (xe - d) then
        (if f.sat then sign + f.maxCode else f.nanCode)
      else
        -- r × 2^q lies on the format's grid
        let te' := q + (bitLen r : Int) - 1
        if f.e = 0 ∨ te' < f.qmin + f.m then sign + r * pow2 (q - f.qmin)
        else
          let l := bitLen r
          let sig := if l ≤ f.m + 1 then r * 2 ^ (f.m + 1 - l) else r / 2 ^ (l - (f.m + 1))
          sign + ((te' - f.qmin - f.m + 1).toNat) * 2 ^ f.m + (sig - 2 ^ f.m)

/-- Element `k` of packed containers (R195). -/
def NFmt.element {n : Nat} (f : NFmt) (x : BitVec n) (k : Nat) : Nat := fld x (k * f.container) f.width

/-- The exponent of a block scale code; none for a NaN block (R196). -/
def scaleExp (c : Nat) : Option Int := if c = 255 then none else some (c - 127 : Int)

end Sys2Proof.Machine
end

