-- ==== Sys2Proof/Machine/Translate.lean ====
section
/-! DEFINITION. Address translation (R66–R68, R139) and the checks of an address at the instruction (R136, R165, R280). -/

namespace Sys2Proof.Machine

/-- Access kinds of a translation (R206, R280). -/
inductive Kind where
  | read | write | fetch
  deriving DecidableEq, Repr

/-- A translation or permission fault: code and ctl.tinfo. -/
structure Flt where
  code : Nat
  tinfo : Nat
  deriving DecidableEq, Repr

/-- A translation fault of stage 1 or 2 at a level (R206). -/
def Flt.stage1 (level : Nat) : Flt := ⟨0x05, (level - 1) * 2⟩
def Flt.stage2 (level ia : Nat) : Flt := ⟨0x05, 1 + (level - 1) * 2 + ia / 4096 * 4096⟩
/-- The ASID is not live (R66). -/
def Flt.notLive : Flt := ⟨0x05, 9⟩

/-- The ASID table's entry (R66). -/
def State.asidEntry (s : State) (a : Nat) : Word := (s.asids.look a).getD 0
def State.asidLive (s : State) (a : Nat) : Bool := bit (s.asidEntry a) 63

/-- Tables lie only in vault, far-tier or shared-SRAM space (R67). -/
def State.tableOk (s : State) (pa : Nat) : Bool :=
  match s.target pa with
  | some (.vault _ _) | some (.far _) | some (.sram _ _) => true
  | _ => false

/-- Pages of a leaf at a level (R67). -/
def leafPages (level : Nat) : Nat := if level = 2 then 2 ^ 18 else if level = 3 then 2 ^ 9 else 1

/-- What a walk of one stage ends at: the output address of the page, its level and size in 4 KiB pages, its entry and
where the entry for the page lies. -/
structure Leaf where
  out : Nat
  level : Nat
  pages : Nat
  entry : Word
  entryPa : Nat
  deriving DecidableEq, Repr

/-- Reserved bits of a table entry (R67): bit 7 at stage 1, bit 4 at stage 2. -/
def entryReserved (stage : Nat) (e : Word) : Bool :=
  (e &&& (if stage = 1 then 0xFF70_0000_0000_0FE0#64 else 0xFF70_0000_0000_0F70#64)) ≠ 0

def entryAddr (e : Word) : Nat := fld e 12 40 * 4096

/-- The table index of an address at a level (R67). -/
def levelIndex (a level : Nat) : Nat := a >>> (48 - 9 * level) % 512

/-- Whether sixteen aligned level-4 entries form one 64 KiB page (R67). The D bit is left out of the comparison: hardware
sets it entry by entry (notes/assumptions/14.md). -/
def State.contGroup (s : State) (table idx : Nat) : Bool :=
  let b := idx - idx % 16
  let e0 := s.rd64 (table + 8 * b) &&& ~~~0x80#64
  bit e0 55 && (List.range 16).all fun k =>
    s.rd64 (table + 8 * (b + k)) &&& ~~~0x80#64 = e0 + word (k * 4096)

/-- Walk one stage from `table`, with `fuel` levels left. `place` takes a table pointer to the physical address of the
table, or to the fault of that pointer. A leaf at level 1, for which no page size is given, raises a translation fault, and
X, W and US of a non-leaf entry restrict nothing: both are the model's choice (notes/assumptions/118.md). -/
def State.walkStage (s : State) (stage a : Nat) (flt : Nat → Flt) (place : Nat → Nat → Except Flt Nat) :
    Nat → Nat → Except Flt Leaf
  | 0, _ => .error (flt 4)
  | fuel + 1, table =>
    let level := 4 - fuel
    match place level table with
    | .error f => .error f
    | .ok t =>
      let idx := levelIndex a level
      let e := s.rd64 (t + 8 * idx)
      if ¬ bit e 0 ∨ entryReserved stage e then .error (flt level)
      else if bit e 1 then
        let pages := leafPages level
        if level = 1 ∨ entryAddr e % (pages * 4096) ≠ 0 then .error (flt level)
        else .ok ⟨entryAddr e, level, if level = 4 && s.contGroup t idx then 16 else pages, e, t + 8 * idx⟩
      else if level = 4 then .error (flt level)
      else s.walkStage stage a flt place fuel (entryAddr e)

/-- Stage 2 of an intermediate address (R67): the walk uses its bits 47:12, and bits 51:48 of one that a stage-1 entry
names raise no fault, which is the model's choice (notes/assumptions/119.md). -/
def State.walk2 (s : State) (asid ia : Nat) : Except Flt Leaf :=
  s.walkStage 2 ia (fun l => Flt.stage2 l ia)
    (fun l t => if s.tableOk t then .ok t else .error (Flt.stage2 l ia)) 4 (entryAddr (s.asidEntry asid))

/-- Ranges overlap. -/
def overlap (a n b m : Nat) : Bool := a < b + m && b < a + n

/-- The physical address of an intermediate address (R67). -/
def Leaf.pa (l : Leaf) (ia : Nat) : Nat :=
  if l.level = 4 then l.out + ia % 4096 else l.out + ia % (l.pages * 4096)

/-- A stage-1 table pointer: an intermediate address whose frame must lie in table memory (R67). -/
def State.placeTable (s : State) (asid level t : Nat) : Except Flt Nat :=
  match s.walk2 asid t with
  | .error f => .error f
  | .ok l => if s.tableOk (l.pa t) then .ok (l.pa t) else .error (Flt.stage1 level)

/-- Stage 1 of a virtual address: its leaf, or none for the identity (R67). The root's doubleword at IA 0x0 is read as a table is:
where stage 2 takes its frame outside vault, far-tier and shared-SRAM space it is not read, and the access raises a stage-1
translation fault at level 1. The rule asks this of table pointers and is silent on that doubleword (DESIGN CHOICE,
notes/assumptions/151.md). -/
def State.walk1 (s : State) (asid va : Nat) : Except Flt (Option Leaf) :=
  match s.placeTable asid 1 0 with
  | .error f => .error f
  | .ok rootPa =>
    let root := s.rd64 rootPa
    if root = 0 then (if va / 2 ^ 48 ≠ 0 then .error (Flt.stage1 1) else .ok none)
    else if fld root 48 16 ≠ 0 ∨ fld root 0 12 ≠ 0 then .error (Flt.stage1 1)
    else match s.walkStage 1 va Flt.stage1 (s.placeTable asid) 4 (entryAddr root) with
      | .error f => .error f
      | .ok l => .ok (some l)

/-- Bits [63:48] equal bit 47 (R67). -/
def canonical (va : Nat) : Bool := va / 2 ^ 47 = 0 || va / 2 ^ 47 = 2 ^ 17 - 1

/-- The combined translation of the page of `va` whose intermediate address is `ia`, through stage-1 leaf `l1` (none: the
identity or the private window, of `limit` pages) and stage-2 leaf `l2` (R68). -/
def combine (asid va ia limit : Nat) (l1 : Option Leaf) (l2 : Leaf) : TlbEntry :=
  let vp := va / 4096
  let ip := ia / 4096
  let p := min ((l1.map (·.pages)).getD limit) l2.pages
  let p := if vp % p = ip % p then p else 1
  let o := ip % p
  { asid := asid, vpage := vp - o, ipage := ip - o, ppage := l2.pa ia / 4096 - o, pages := p,
    w1 := (l1.map fun l => bit l.entry 2).getD true, x1 := (l1.map fun l => bit l.entry 3).getD true,
    us1 := (l1.map fun l => bit l.entry 4).getD true, w2 := bit l2.entry 2, x2 := bit l2.entry 3,
    lev1 := (l1.map (·.level)).getD 1, lev2 := l2.level, dset := bit l2.entry 7 && (p = 1 || l2.level ≠ 4),
    leafPa := if l2.level = 4 then l2.entryPa - 8 * o else l2.entryPa }

/-- The combined translation of a page; `ia` is given for the private window (R67, R139). Both stages are walked before
any permission is checked, so a translation fault of stage 2 comes before a permission fault of stage 1, which is the
model's choice (notes/assumptions/120.md). -/
def State.walk (s : State) (asid va : Nat) (ia : Option Nat) : Except Flt TlbEntry :=
  if ¬ s.asidLive asid then .error Flt.notLive
  else match ia with
    | some i => match s.walk2 asid i with
      | .error f => .error f
      | .ok l2 => .ok (combine asid va i 4096 none l2)
    | none =>
      if ¬ canonical va then .error (Flt.stage1 1)
      else match s.walk1 asid va with
        | .error f => .error f
        | .ok l1 =>
          let i := match l1 with | some l => l.pa va | none => va
          match s.walk2 asid i with
          | .error f => .error f
          | .ok l2 => .ok (combine asid va i (2 ^ 18) l1 l2)

/-- The permission fault of an access through an entry, if any: the stage that finds it first (R67, R206). -/
def TlbEntry.refuses (e : TlbEntry) (va : Nat) (k : Kind) (lvl : Level) : Option Flt :=
  let a := match k with | .read => 0 | .write => 16 | .fetch => 32
  let bad1 := (lvl = .u && ¬ e.us1) || (k = .write && ¬ e.w1) || (k = .fetch && ¬ e.x1)
  let bad2 := (k = .write && ¬ e.w2) || (k = .fetch && ¬ e.x2)
  if bad1 then some ⟨0x06, (e.lev1 - 1) * 2 + a⟩
  else if bad2 then some ⟨0x06, 1 + (e.lev2 - 1) * 2 + a + (e.ipage + (va / 4096 - e.vpage)) * 4096⟩
  else none

/-- Whether an entry holds the translation of a page. -/
def TlbEntry.holds (e : TlbEntry) (asid va : Nat) (ia : Option Nat) : Bool :=
  e.asid = asid && e.vpage ≤ va / 4096 && va / 4096 < e.vpage + e.pages &&
    (match ia with | none => true | some i => e.ipage + (va / 4096 - e.vpage) = i / 4096)

def TlbEntry.pa (e : TlbEntry) (va : Nat) : Nat := (e.ppage + (va / 4096 - e.vpage)) * 4096 + va % 4096

/-- Where the stage-2 leaf of a page lies. -/
def TlbEntry.leaf (e : TlbEntry) (va : Nat) : Nat :=
  if e.lev2 = 4 then e.leafPa + 8 * (va / 4096 - e.vpage) else e.leafPa

/-- The result of a translation: the physical address and the stage-2 leaf of its page (R74). -/
inductive Xl where
  | ok (pa : Nat) (leaf : Option Nat)
  | fault (f : Flt)
  | hole
  | miss (ia : Option Nat)
  deriving DecidableEq, Repr

/-- The offset of an address in the private window (R139). -/
def windowOff (va : Word) : Option Nat := if va.toNat / 2 ^ 24 = 0xFF_FFFF_0000 then some (va.toNat % 2 ^ 24) else none

/-- Translate a page through the core's TLB. A finished walk that faulted answers the thread that waited for it. -/
def State.viaTlb (s : State) (t : Nat) (va : Word) (ia : Option Nat) (k : Kind) : Xl :=
  let c := s.ctx t
  let asid := c.asid.toNat
  if ¬ s.asidLive asid then .fault Flt.notLive
  else match (s.core c.core).tlb.find? fun e => e.holds asid va.toNat ia with
    | some e => match e.refuses va.toNat k c.lvl with
      | some f => .fault f
      | none => .ok (e.pa va.toNat) (some (e.leaf va.toNat))
    | none => match c.walkFault with
      | some f => if f.taddr.toNat / 4096 = va.toNat / 4096 then .fault ⟨f.code.toNat, f.tinfo.toNat⟩ else .miss ia
      | none => .miss ia

/-- Translate(va, kind) (R67, R139, R280). -/
def State.translate (s : State) (t : Nat) (va : Word) (k : Kind) : Xl :=
  let c := s.ctx t
  match windowOff va with
  | some w =>
    if w < fld c.seg 20 7 * 4096 then .ok (s.corePa 5 c.core (fld c.seg 8 6 * 4096 + w)) none
    else if 0x4_0000 ≤ w then s.viaTlb t va (some (fld c.seg 40 24 * 2 ^ 24 + w)) k
    else .hole
  | none => s.viaTlb t va none k

/-- An entry stands for one stage-2 leaf, the one at `a`. -/
def TlbEntry.ofLeaf (e : TlbEntry) (a : Nat) : Bool := e.leafPa = a && (e.pages = 1 || e.lev2 ≠ 4)

/-- As a write of core `core` through a stage-2 leaf is performed, its D bit is set in memory and in the core's TLB entry of the
leaf, unless that holds D set already (R74). -/
def State.dirty (s : State) (core : Nat) (leaf : Option Nat) : State :=
  match leaf with
  | none => s
  | some a =>
    if (s.core core).tlb.any fun e => e.dset && e.ofLeaf a then s
    else (s.setD leaf).modCore core fun c => { c with tlb := c.tlb.map fun e => if e.ofLeaf a then { e with dset := true } else e }

/-- The leaf of the unit's access: a writing request made for it sets D when it is performed (R74). -/
def State.withLeaf (s : State) (leaf : Option Nat) : State := { s with iss := { s.iss with leaf := leaf } }

/-- Park the thread of the unit on a walk, a new one or one in progress for its page; with sixteen in progress it tries
again (R68). -/
def State.startWalk (s : State) (va : Word) (ia : Option Nat) : State :=
  let t := s.iss.tid
  let c := s.ctx t
  let cl := s.clusterOf c.core
  let x := s.cluster cl
  let page := va.toNat / 4096
  match x.walks.find? fun w => w.asid = c.asid.toNat && w.va.toNat / 4096 = page && w.ia.map (· / 4096) = ia.map (· / 4096) with
  | some w =>
    (s.modCluster cl fun x => { x with walks := x.walks.map fun v =>
      if v.id = w.id then { v with tids := v.tids ++ [(t, c.core)] } else v }).parkIssue (.walk w.id)
  | none =>
    if 16 ≤ x.walks.length then s.parkIssue .none
    else
      let w : Walk := ⟨s.nextMsg, c.asid.toNat, va, ia, [(t, c.core)]⟩
      ({ s with nextMsg := s.nextMsg + 1 }.modCluster cl fun x => { x with walks := x.walks ++ [w] }).parkIssue (.walk w.id)

/-- The newest 64 entries of a TLB (R68). -/
def tlbAdd (tlb : List TlbEntry) (e : TlbEntry) : List TlbEntry :=
  let l := tlb ++ [e]
  l.drop (l.length - 64)

/-- TLB_WALK_COMPLETE: the walk's translation enters the TLB of every core that asked, or its fault waits for the
threads; they issue again (R68). -/
def State.walkDone (s : State) (id : Nat) : State :=
  match s.clusters.findSome? fun e => (e.2.walks.find? fun w => w.id = id).map fun w => (e.1, w) with
  | none => s
  | some (cl, w) =>
    let s' := s.modCluster cl fun x => { x with walks := x.walks.filter fun v => v.id ≠ id }
    let free (s : State) (t : Nat) (f : Option TrapRec) : State :=
      s.modCtx t fun c => { c with walkFault := f, park := if c.park = .walk id then .none else c.park }
    match s.walk w.asid w.va.toNat w.ia with
    | .ok e => w.tids.foldl (fun s x => free (s.modCore x.2 fun c => { c with tlb := tlbAdd c.tlb e }) x.1 none) s'
    | .error f => w.tids.foldl (fun s x => free s x.1 (some (TrapRec.make f.code w.va (word f.tinfo) 0))) s'

/-- Raise the fault of a translation at the unit (R206, R280). -/
def State.raiseFlt (s : State) (va : Word) (f : Flt) : State :=
  (s.modCtx s.iss.tid fun c => { c with walkFault := none }).raise f.code va (word f.tinfo)

/-- An address of the unit is checked and translated; then `effect` has the physical address and its target: alignment,
translation, layout, and full/empty bits where they are needed (R136, R165, R280). -/
def State.reach (s : State) (va : Word) (size : Nat) (k : Kind) (sync : Bool)
    (effect : Nat → Target → State → State) : State :=
  if va.toNat % size ≠ 0 then s.raise 0x04 va (word size)
  else match s.translate s.iss.tid va k with
    | .fault f => s.raiseFlt va f
    | .hole => s.raise 0x03 va 6
    | .miss ia => s.startWalk va ia
    | .ok pa leaf => match s.target pa with
      | none => s.raise 0x03 va 1
      | some tg =>
        if sync ∧ ¬ tg.hasFe then s.raise 0x03 va 2
        else (effect pa tg (s.withLeaf leaf)).withLeaf none

end Sys2Proof.Machine
end

