-- ==== Sys2Proof/Machine/Stops.lean ====
section
/-! DEFINITION. Stops of watchpoints: the broadcast, freezing, ctl.skid, the debug-stop messages, and steps (R212–R215,
R359). -/

namespace Sys2Proof.Machine

/-! ### Limits of a frozen thread (R214, R215) -/

/-- Measure the remaining bounded-wait limits of a thread, and hold them and its fence timeouts from now (R25, R214,
R286). -/
def State.holdLimits (s : State) (t : Nat) : State :=
  let now := s.ctlTime t
  let s1 := s.modCtx t fun c => { c with limit := c.limit.map (· - (now - c.limitFrom)), limitFrom := max now c.limitFrom,
                                         heldAt := some (c.heldAt.getD (s.core c.core).cycle) }
  { s1 with flights := s1.flights.map fun m =>
      if m.tid = t ∧ m.limit.isSome then { m with limit := m.limit.map (· - (now - m.aux.toNat)), aux := word (max now m.aux.toNat) } else m }

/-- Cycles of the hold in progress. -/
def Ctx.heldFor (c : Ctx) (cycle : Nat) : Nat := cycle - c.heldAt.getD cycle

/-- Limits and fence timeouts count again from now (R214, R215). -/
def State.resumeLimits (s : State) (t : Nat) : State :=
  let now := s.ctlTime t
  let s1 := s.modCtx t fun c => { c with limitFrom := now, heldCycles := c.heldCycles + c.heldFor (s.core c.core).cycle,
                                         heldAt := none }
  { s1 with flights := s1.flights.map fun m =>
      if m.tid = t ∧ m.limit.isSome then { m with aux := word now } else m }

/-- A step ends: the thread is frozen as before, its limits are held, and the step is answered (R215). -/
def State.endStep (s : State) (t : Nat) : State :=
  let c := s.ctx t
  let s1 := (s.setCtx t { c with stepLeft := none, stepper := none }).holdLimits t
  match c.stepper.bind s1.msg with
  | some m => s1.answer m (.value 0)
  | none => s1

/-! ### Freezing (R213) -/

/-- A thread that issues nothing until a step names it or its cluster is released (R214). -/
def Ctx.stays (c : Ctx) : Bool := c.frozen && c.stepLeft.isNone

/-- The trap fields of a hitting thread's debug stop, with the address it used (R212, R359). -/
def Ctx.hitFields (c : Ctx) (taddr tinfo : Word) : Ctx :=
  { c with taddr := taddr, tinfo := tinfo,
           trapf := trapFields (TrapRec.make 0x16 taddr tinfo 1) (wordPos c.pc) c.intrap c.skip }

/-- The fields of a thread that only the broadcast freezes (R206, R212). -/
def Ctx.castFields (c : Ctx) (taddr tinfo : Word) : Ctx :=
  { c with taddr := taddr, tinfo := tinfo, trapf := 0x16#8 ++ c.trapf.setWidth 9 }

/-- ctl.skid of a thread that a stop freezes now (R213). -/
def State.skidOf (s : State) (t : Nat) (d : Due) : Word :=
  let c := s.ctx t
  word (min ((s.core c.core).cycle - d.at_) (2 ^ 32 - 1) * 2 ^ 32 + b2n d.hit * 2 ^ 16 + min (c.issued - d.base) 0xFFFF)

/-- Freeze a thread for the stops that have reached it: ctl.skid and the trap fields by the thread's own hit, or else the oldest
stop, and one debug-stop message for each hit (R212, R213, R359). A thread that a stop has frozen before keeps its ctl.skid,
and one that is being stepped ends its step (R215, R359). -/
def State.freeze (s : State) (t : Nat) : State :=
  let c := s.ctx t
  match (c.freezeDue.find? (·.hit)).or c.freezeDue.head? with
  | none => s
  | some d =>
    let s1 :=
      if ¬ c.frozen then (s.setCtx t { c with frozen := true, skid := s.skidOf t d }).holdLimits t
      else if c.stepLeft.isSome then s.endStep t else s
    let c1 := s1.ctx t
    let c2 := if d.hit then c1.hitFields d.taddr d.tinfo else if c.frozen then c1 else c1.castFields d.taddr d.tinfo
    (c.freezeDue.filter (·.hit)).foldl (fun (s : State) h => s.mailTo c.part (s.trapMail t (c1.hitFields h.taddr h.tinfo)))
      (s1.setCtx t { c2 with freezeDue := [] })

/-- A stop reaches a thread, which freezes at once, or when it would next issue; the broadcast does nothing to a thread that
stays frozen (R213). -/
def State.stopThread (s : State) (t : Nat) (d : Due) (now : Bool) : State :=
  let c := s.ctx t
  if c.stays && ¬ d.hit then s
  else
    let s1 := s.setCtx t { c with freezeDue := c.freezeDue ++ [d] }
    if now || c.stays then s1.freeze t else s1

/-- Hit `num` reaches its thread by its mark or by the broadcast: the first of the two is the stop (R213, R359). -/
def State.hitThread (s : State) (t num : Nat) (other : Bool) (d : Due) (now : Bool) : State :=
  if (s.ctx t).told.contains num then s.modCtx t fun c => { c with told := c.told.filter (· ≠ num) }
  else (if other then s.modCtx t fun c => { c with told := c.told ++ [num] } else s).stopThread t d now

/-- The broadcast of a hit is still on its way to the thread's core. -/
def State.castComes (s : State) (t : Nat) (k : Mark) : Bool :=
  (s.cluster k.cluster).stops.any fun x => x.num = k.num && x.core = (s.ctx t).core

/-- A hit mark comes to its thread: under TRAP a trap for its next issue, under STOP a stop, which freezes it at once where it
waits for the marked reply (R212, R213). `issued` is its count of issues up to the hitting instruction. -/
def State.markTo (s : State) (t issued : Nat) (mark : Option Mark) (waiting : Bool) : State :=
  match mark with
  | none => s
  | some k =>
    if k.trap.code = 0x16 then
      s.hitThread t k.num (s.castComes t k) ⟨true, k.trap.taddr, k.trap.tinfo, k.at_, issued⟩ waiting
    else s.pendTrap t k.trap

/-- STOP_BROADCAST_ARRIVE: the oldest stop broadcast on its way to a core reaches its threads; a thread that is Ready freezes when
it would next issue, another at once (R213). The hitting thread among them has the address it used, the others that of wp.set
(R206, R212). -/
def State.stopArrive (s : State) (core : Nat) : State :=
  let cl := s.clusterOf core
  match (s.cluster cl).stops.find? fun x => x.core = core with
  | none => s
  | some x =>
    let s1 := s.modCluster cl fun k => { k with stops := k.stops.erase x }
    (s1.ctxs.filter fun e => e.2.place.resident && e.2.core = core).foldl
      (fun s e =>
        let now : Bool := ¬ s.ready e.1
        if e.1 = x.tid then s.hitThread e.1 x.num true ⟨true, x.hitVa, x.tinfo, x.at_, x.issued⟩ now
        else s.stopThread e.1 ⟨false, x.va, x.tinfo, x.at_, (x.counts.look e.1).getD e.2.issued⟩ now) s1

/-! ### The comparators (R212) -/

/-- The cluster whose home agents guard an address. -/
def State.watchCluster (s : State) (pa : Nat) : Option Nat :=
  match s.target pa with
  | some (.scratch cl _) => some cl
  | some (.tcm c _) => some (s.clusterOf c)
  | _ => none

/-- The LD, ST and AT classes of an operation (R212). The operations on a join word read it, and the counting ones write it too
(notes/assumptions/138.md). -/
def HomeOp.watchClass : HomeOp → Bool × Bool × Bool
  | .load _ | .feq | .joinWait => (true, false, false)
  | .loadSync _ take => (true, take, false)
  | .fe sy => (sy = 1, sy ≠ 1, false)
  | .store _ _ | .storeFill _ _ => (false, true, false)
  | .joinInc _ _ | .joinDec => (true, true, false)
  | .amo _ _ _ _ | .ringOpen _ | .ringResv _ | .ringPub _ _ | .ringWait _ | .ringFree _ | .ringAdv _ =>
    (false, false, true)
  | _ => (false, false, false)

/-- A stop broadcast leaves for the eight cores of the cluster: each takes its cycle H and the counts of issues of its threads
with it (R212, R213). -/
def State.broadcast (s : State) (cl num : Nat) (w : Watch) (va tinfo : Word) (t issued : Nat) : State :=
  let cast (d : Nat) : StopCast :=
    ⟨num, d, w.va, va, tinfo, t, issued, (s.core d).cycle,
     (s.ctxs.filter fun e => e.2.place.resident && e.2.core = d).map fun e => (e.1, e.2.issued)⟩
  s.modCluster cl fun x => { x with stops := x.stops ++ (List.range 8).map fun k => cast (s.clusterCore cl k) }

/-- Compare a performed access of `n` bytes with the watchpoints of its cluster: the hit mark (R212). -/
def State.watch (s : State) (pa n : Nat) (cls : Bool × Bool × Bool) (va : Word) (t core slot issued : Nat) :
    State × Option Mark :=
  match s.watchCluster pa with
  | none => (s, none)
  | some cl =>
    let hits := (s.cluster cl).wps.filter fun e =>
      let w := e.2
      decide (dwOf pa ≤ w.pa) && decide (w.pa < pa + n) &&
        ((cls.1 && w.ld) || (cls.2.1 && w.st) || (cls.2.2 && w.at_))
    match hits with
    | [] => (s, none)
    | (k, w) :: _ =>
      let c := if cls.1 && w.ld then 0 else if cls.2.1 && w.st then 1 else 2
      let tinfo := word (k + 4 * c + 16 * core + 2 ^ 16 * slot)
      let mark (stop : Bool) (num : Nat) : Mark :=
        ⟨TrapRec.make (if stop then 0x16 else 0x15) va tinfo 1, num, cl, (s.core core).cycle⟩
      match hits.find? fun e => e.2.stopAct with
      | some (_, w') =>
        ({ s with nextMsg := s.nextMsg + 1 }.broadcast cl s.nextMsg w' va tinfo t issued, some (mark true s.nextMsg))
      | none => (s, some (mark false 0))

end Sys2Proof.Machine
end

