-- ==== Sys2Proof/Machine/Home.lean ====
section
/-! DEFINITION. Home agents: the checks of an access and its indivisible performance at a doubleword (R36, R57, R75,
R135, R146, R164, R171, R212, R288), word waits, and the accesses that complete in a core's own pipeline (R169). -/

namespace Sys2Proof.Machine

/-! ### Cells as far as an access meets them (R142–R146) -/

/-- The 32-byte record that holds an address. -/
def recordOf (pa : Nat) : Nat := pa - pa % 32

/-- Whether the record is a cell: its marker is set (R143). -/
def State.isCell (s : State) (pa : Nat) : Bool := s.marks.contains (recordOf pa)

/-- KIND of a cell (R143). -/
def State.cellKind (s : State) (b : Nat) : Nat := fld (s.rd64 b) 62 2

/-- Operations that wait on a cell's own list. -/
def HomeOp.isCell : HomeOp → Bool
  | .cellInit _ | .acq | .tryacq | .rel | .call _ | .arrive _ | .arriveWait | .mode _ | .pol _ | .expect _ | .sbWait _
  | .deliver _ | .depaWait _ _ _ | .scopeRead => true
  | _ => false

/-- Operations on a ring. -/
def HomeOp.isRing : HomeOp → Bool
  | .ringOpen _ | .ringResv _ | .ringPub _ _ | .ringWait _ | .ringFree _ | .ringAdv _ => true
  | _ => false

/-- Requests parked at a cell: waiters, and sections queued or running (R146). -/
def State.cellWaiters (s : State) (b : Nat) : List Msg :=
  s.flights.filter fun m => m.loc = .waiting && m.op.isCell && m.pa = b

/-- The virtual address of a physical byte near the one an access names, in the same page. -/
def Msg.vaOf (m : Msg) (pa : Nat) : Word := m.va + word pa - word m.pa

/-- A cell is quiescent: not held, no waiter, no section, no arrival in its open phase (R146). -/
def State.quiescent (s : State) (b : Nat) : Bool :=
  (s.cellWaiters b).isEmpty && (match s.cellKind b with
    | 0 => ¬ bit (s.rd64 (b + 16)) 63
    | 2 => ¬ bit (s.rd64 (b + 16)) 63
    | _ => fld (s.rd64 (b + 8)) 32 16 = 0)

/-- An access to a quiescent cell leaves the record ordinary memory: INIT reads 0 (R146). -/
def State.unmark (s : State) (pa : Nat) : State :=
  let b := recordOf pa
  if s.isCell pa then
    { s.wr64 b (s.rd64 b &&& ~~~0x0080_0000_0000_0000#64) with marks := s.marks.filter fun x => x ≠ b }
  else s

/-! ### Checks at the destination -/

def Msg.accessor (m : Msg) : Accessor := ⟨m.fn, m.part, m.lvl⟩

def frameOf (pa : Nat) : Nat := pa / 4096

/-- What an access of `n` bytes does, for the checks: whether it writes or takes (R57), and whether it reads (R36) or
is a synchronising access, store or atomic for R146. -/
structure Touch where
  n : Nat
  writes : Bool
  reads : Bool
  sync : Bool
  deriving DecidableEq, Repr

/-- The record of an access violation, and the trap that reports it (R75, R206). -/
def State.violate (s : State) (m : Msg) (kind : Nat) : State × TrapRec :=
  let (x, y) := s.coreXY m.core
  (s.logViolation m.pa x y m.part m.asid m.slot 0 kind,
   TrapRec.make 0x07 m.va (word (kind + s.avSeq * 2 ^ 32)) 0)

/-- The array class of a memory, for the error counters (R35, R42). -/
def State.eccClass (s : State) (pa : Nat) : Nat :=
  match s.target pa with
  | some (.tcm _ _) => 1
  | some (.scratch _ _) => 3
  | some (.sram _ _) => 4
  | some (.vault _ _) => 8
  | some (.far _) => 10
  | some (.control _) | some (.host _) | none => 11

/-- Whether [pa, pa+n) meets a partition's audit log, which only dg.close's append and a log head's signing write (R58,
R59). -/
def State.inAudit (s : State) (pa n : Nat) : Bool :=
  s.parts.any fun e => e.2.audLen ≠ 0 && e.2.audAt < pa + n && pa < e.2.audAt + e.2.audLen

/-- Whether a write to [pa, pa+n) is refused: a frame is sealed, or of an audit log (R57, R58). -/
def State.sealedAt (s : State) (pa n : Nat) : Bool :=
  s.sealed.contains (frameOf pa) || s.sealed.contains (frameOf (pa + n - 1)) || s.inAudit pa n

/-- A read corrects the soft errors of the words it meets, silently, and counts each in the class of its array; a transfer of the
bonded DRAM that its CRC has retried is counted too (R34, R35). -/
def State.readSoft (s : State) (pa n : Nat) : State :=
  (s.soft.filter fun a => dwOf pa ≤ a && a < pa + n).foldl
    (fun s a => { s with soft := s.soft.filter fun x => x ≠ a }.countEcc (s.eccClass pa) true) (s.corrects 9 (pa - pa % 64))

/-- The destination's checks but for ownership (R36, R57, R58, R146): the trap of a refused access. A word that the access
reads, or replaces in part, is read first (R36). -/
def State.rawRefusal (s : State) (m : Msg) (x : Touch) : State × Option TrapRec :=
  if x.writes && s.sealedAt m.pa x.n then (s, some (TrapRec.make 0x03 m.va 5 0))
  else if (x.reads && s.bad m.pa x.n) || (x.writes && s.badPartly m.pa x.n) then
    (s.countEcc (s.eccClass m.pa) false, some (TrapRec.make 0x08 m.va (word (dwOf m.pa)) 0))
  else if x.sync && s.isCell m.pa && ¬ s.quiescent (recordOf m.pa) then
    (s, some (TrapRec.make 0x0D (m.vaOf (recordOf m.pa)) 4 0))
  else (if x.reads || x.n % 8 ≠ 0 then s.readSoft m.pa x.n else s, none)

/-- Operations on a join word (R308, R310, R311). -/
def HomeOp.isJoin : HomeOp → Bool
  | .joinInc _ _ | .joinDec | .joinWait => true
  | _ => false

/-- How a word operation touches memory. -/
def HomeOp.touch : HomeOp → Option Touch
  | .load n => some ⟨n, false, true, false⟩
  | .loadSync n take => some ⟨n, take, true, true⟩
  | .store n _ => some ⟨n, true, false, true⟩
  | .storeFill n _ => some ⟨n, true, false, true⟩
  | .fe sy => some ⟨8, sy ≠ 1, false, true⟩
  | .feq => some ⟨8, false, false, false⟩
  | .amo _ n _ _ => some ⟨n, true, true, true⟩
  | .claim _ => some ⟨32, true, true, true⟩
  | _ => Option.none

/-- The bytes that an access of a word or of a join word names (R166). -/
def HomeOp.span (o : HomeOp) : Option Nat := if o.isJoin then some 8 else o.touch.map (·.n)

/-! ### Performing an operation -/

/-- A store was performed: its acknowledgement leaves, unless it was acknowledged early (R173). -/
def State.answerStore (s : State) (m : Msg) : State := if m.counted then s.answer m .ack else s.dropMsg m.id

/-- The new value of an atomic of `n` bytes (R288). -/
def amoNew (f : AmoFn) (n : Nat) (m b e : Nat) : Nat :=
  let w := 8 * n
  let si (x : Nat) : Int := if x ≥ 2 ^ (w - 1) then (x : Int) - 2 ^ w else x
  match f with
  | .add => (m + b) % 2 ^ w
  | .and => m &&& b
  | .or => m ||| b
  | .xor => m ^^^ b
  | .swap => b
  | .cas => if m = e then b else m
  | .min => if si b < si m then b else m
  | .max => if si m < si b then b else m
  | .minu => min m b
  | .maxu => max m b
  | .fadd => (f32Add (BitVec.ofNat 32 m) (BitVec.ofNat 32 b)).toNat
  | .ld => m

/-- Any write that leaves a join word at 0 wakes every context set aside on it (R310). -/
def State.joinWake (s : State) (pa n : Nat) : State :=
  { s with flights := s.flights.map fun m =>
      if m.loc = .waiting ∧ m.op = .joinWait ∧ pa < m.pa + 8 ∧ m.pa < pa + n ∧ s.rd64 m.pa = 0 then
        m.reply (.value 0)
      else m }

/-- Claim(rec, join) (R262): r, c and the extents; the record is updated. -/
def State.claim (s : State) (pa : Nat) (join : Bool) : State × Nat × Nat × Nat × Nat × Nat × Nat :=
  let cl0 := s.rd (pa + 12) 4
  let cl := if join then (cl0 + 1) % 2 ^ 32 else cl0
  let r := s.rd pa 8
  let d := 2 * max 1 cl
  let c := if r = 0 then 0 else min r (max (max 1 (s.rd (pa + 8) 4)) ((r + d - 1) / d))
  let cl' := if c = 0 then cl - 1 else cl
  let e (k : Nat) : Nat := max 1 (s.rd (pa + 16 + 4 * k) 4)
  (((s.wr pa 8 (r - c)).wr (pa + 12) 4 cl').joinWake pa 16, r, c, e 0, e 1, e 2, e 3)

/-- Write bytes at a home agent: data, check bits, the cell marker and the vault's own cache line (R36, R138, R146). -/
def State.homeWrite (s : State) (writer : Option Nat) (pa n v : Nat) : State :=
  ((((s.unmark pa).wr pa n v).mendEcc pa n).vaultWritten writer pa).joinWake pa n

/-- A claimant leaves its nest: CLAIM is decremented, unless it is 0 or its frame is sealed (R57, R262, R265). -/
def State.unclaim (s : State) (pa : Nat) : State :=
  if s.sealedAt (pa + 12) 4 then s else s.homeWrite none (pa + 12) 4 (s.rd (pa + 12) 4 - 1)

/-- Write `n` lines from a line's address on, each at its home agent (R4). -/
def State.homeLines (s : State) (pa n v : Nat) : State :=
  (List.range n).foldl (fun (s : State) k => s.homeWrite none (pa + 64 * k) 64 (v / 2 ^ (512 * k) % 2 ^ 512)) s

/-- A frame of [pa, pa+n) is still being zeroed (R72). -/
def State.zeroingAt (s : State) (pa n : Nat) : Bool :=
  s.zeroing.contains (frameOf pa) || s.zeroing.contains (frameOf (pa + n - 1))

/-! ### Stage-2 leaves (R67, R72, R74) -/

/-- A valid stage-2 leaf: where its entry lies, and the physical range that it maps. -/
structure Leaf2 where
  entryPa : Nat
  base : Nat
  bytes : Nat
  deriving DecidableEq, Repr

/-- Every valid leaf below a table; `fuel` levels are left. -/
def State.leaves (s : State) : Nat → Nat → List Leaf2
  | 0, _ => []
  | fuel + 1, t =>
    if ¬ s.tableOk t then []
    else ((List.range 512).map fun i =>
      let e := s.rd64 (t + 8 * i)
      let level := 4 - fuel
      if ¬ bit e 0 ∨ entryReserved 2 e then []
      else if bit e 1 then
        (if level = 1 ∨ entryAddr e % (leafPages level * 4096) ≠ 0 then [] else [⟨t + 8 * i, entryAddr e, leafPages level * 4096⟩])
      else s.leaves fuel (entryAddr e)).flatten

/-- Every valid stage-2 leaf of every live ASID that maps part of a physical range (R74). -/
def State.leavesOf (s : State) (pa n : Nat) : List Leaf2 :=
  ((s.asids.filter fun (e : Nat × Word) => bit e.2 63).map fun (e : Nat × Word) => s.leaves 4 (entryAddr e.2)).flatten.filter
    fun l => overlap l.base l.bytes pa n

/-- Clear the D bit of a leaf, and remove every cached copy of it (R74). -/
def State.clearD (s : State) (l : Leaf2) : State :=
  let s1 := if bit (s.rd64 l.entryPa) 7 then s.homeWrite none l.entryPa 8 (s.rd64 l.entryPa &&& ~~~0x80#64).toNat else s
  { s1 with cores := s1.cores.map fun (e : Nat × Core) =>
      (e.1, { e.2 with tlb := e.2.tlb.map fun x => if overlap (x.ppage * 4096) (x.pages * 4096) l.base l.bytes then { x with dset := false } else x }) }

/-- A frame of a grant has been zeroed: it is zero and full, its D bits are clear, and accesses to it go on (R72). -/
def State.frameZero (s : State) (f : Nat) : State :=
  if s.zeroing.contains f then
    let s1 := (s.zeroRange (f * 4096) 4096).joinWake (f * 4096) 4096
    (s1.leavesOf (f * 4096) 4096).foldl State.clearD { s1 with zeroing := s1.zeroing.filter (· ≠ f) }
  else s

/-- A write waits until every frame it reaches has been zeroed (R72). -/
def State.zeroAll (s : State) (pa n : Nat) : State :=
  (List.range ((pa + n - 1) / 4096 - pa / 4096 + 1)).foldl (fun (s : State) k => s.frameZero (pa / 4096 + k)) s

/-- An access waits until the frames it reaches have been zeroed (R72). -/
def State.zeroFirst (s : State) (pa n : Nat) : State :=
  if s.zeroingAt pa n then (s.frameZero (frameOf pa)).frameZero (frameOf (pa + n - 1)) else s

/-- The destination's checks before an access is performed, once its frame is zeroed (R36, R57, R72, R75, R146): the trap of a refused one. -/
def State.refusal (s : State) (m : Msg) (x : Touch) : State × Option TrapRec :=
  let k := s.violation m.accessor m.pa x.n
  if k ≠ 0 then let (s', t) := s.violate m k; (s', some t) else (s.zeroFirst m.pa x.n).rawRefusal m x

/-- Operations on memory whose address was translated: on words, cells, rings, join words and digest lines. -/
def HomeOp.translated (o : HomeOp) : Bool := o.span.isSome || o.isCell || o.isRing || o = .fold

/-- Whether a synchronising operation may be performed on a word that is full or empty (R171, R285). -/
def HomeOp.admits (o : HomeOp) (full : Bool) : Bool :=
  match o with
  | .loadSync _ _ => full
  | .storeFill _ _ => ¬ full
  | .fe sy => if sy = 3 then ¬ full else full
  | _ => true

/-- Host memory's outbound queue is written in order (R180). -/
def State.drainHost (s : State) : State :=
  (s.hostOut.foldl (fun s e => s.wr e.1 e.2.1 e.2.2) s |> fun s => { s with hostOut := [] })

/-- Dirty state of a write by thread `t` (R117): the TCM line, charged to the task whose footprint holds it, or the
region of the scratchpad segment, charged to the thread's task. -/
def State.noteDirty (s : State) (t pa n : Nat) : State :=
  let add (k : Nat) (l : List (Nat × Nat)) (x : Nat) : List (Nat × Nat) :=
    if k = 0 || l.contains (k, x) then l else l ++ [(k, x)]
  if n = 0 then s
  else match s.target pa with
    | some (.tcm c off) =>
      let k := match (s.core c).tcm.find? fun e => e.2.1 * 4096 ≤ off && off < (e.2.1 + e.2.2) * 4096 with
        | some e => e.1
        | none => (s.ctx t).task
      s.modCore c fun x => { x with dirtyTcm := add k x.dirtyTcm (off / 64) }
    | some (.scratch cl off) =>
      s.modCore (s.clusterCore cl (off / 0x4_0000)) fun x =>
        { x with dirtySp := add (s.ctx t).task x.dirtySp (off % 0x4_0000 / 4096) }
    | _ => s

/-- Every operation but the ordinary load and store bypasses the data cache, where its line does not stay (R138). -/
def State.dropLine (s : State) (m : Msg) : State :=
  match m.op with
  | .load _ | .store _ _ => s
  | _ => match s.target m.pa with
    | some (.vault _ _) | some (.far _) => s.uncache m.core m.pa
    | _ => s

/-- Carry out a word operation whose checks passed and whose full/empty bit admits it (R164, R171, R285, R288). -/
def State.carryOut (s : State) (m : Msg) : State :=
  let host := match s.target m.pa with
    | some (.host _) => true
    | _ => false
  match m.op with
  | .load n =>
    let s := if host then s.drainHost else s
    let cached := match s.target m.pa with
      | some (.vault _ _) | some (.far _) => true
      | _ => false
    let s1 := if cached then s.cacheLine m.core m.pa else s
    s1.answer m (.value (word (s.rd m.pa n)))
  | .loadSync n take =>
    let v := word (s.rd m.pa n)
    let s1 := s.unmark m.pa
    (if take then s1.setEmpty m.pa else s1).answer m (.value v)
  | .store n v =>
    if host then { s with hostOut := s.hostOut ++ [(m.pa, n, v.toNat)] }.answerStore m
    else ({ (s.homeWrite (some m.core) m.pa n v.toNat).noteDirty m.tid m.pa n with perfs := s.perfs + 1 }).answerStore
      { m with perf := s.perfs + 1 }
  | .storeFill n v => (((s.homeWrite (some m.core) m.pa n v.toNat).noteDirty m.tid m.pa n).setFull m.pa).answerStore m
  | .fe sy =>
    let s1 := s.unmark m.pa
    (if sy = 2 then s1.setEmpty m.pa else if sy = 3 then s1.setFull m.pa else s1).answer m (.value 0)
  | .feq => s.answer m (.value (if s.isFull m.pa then 1 else 0))
  | .amo f n b e =>
    let old := s.rd m.pa n
    let new := amoNew f n old (b.toNat % 2 ^ (8 * n)) (e.toNat % 2 ^ (8 * n))
    let s1 := if f = .ld then s.unmark m.pa else (s.homeWrite (some m.core) m.pa n new).noteDirty m.tid m.pa n
    s1.answer m (.value (word old))
  | .claim join =>
    let (s1, r, c, e0, e1, e2, e3) := (s.unmark m.pa).claim m.pa join
    -- a thread that has been discarded is no claimant (R265)
    let s2 := if c ≠ 0 ∧ (s1.ctxs.look m.tid).isNone then s1.unclaim m.pa else s1
    s2.answer m (.chunk (word r) (word c) e0 e1 e2 e3)
  | _ => s

/-- A request joins its object's wait list, in order of arrival (R149, R171): the list is the order of `flights`. -/
def State.queueUp (s : State) (m : Msg) : State :=
  { s with flights := (s.flights.filter fun x => x.id ≠ m.id) ++ [{ m with loc := .waiting }] }

/-- One arrival of a word operation at its home agent: refused, parked on the wait list, or performed and compared with
the watchpoints. -/
def State.performWord (s : State) (m : Msg) (x : Touch) : State :=
  match s.refusal m x with
  | (s1, some t) => s1.answer m (.error t)
  | (s1, none) =>
    if ¬ m.op.admits (s1.isFull m.pa) then s1.queueUp m
    else
      let (s2, hit) := (s1.dirty m.core m.leaf).watch m.pa x.n m.op.watchClass m.va m.tid m.core m.slot m.issued
      (s2.dropLine m).carryOut { m with hit := hit }

/-- Word waiters of a doubleword, in order of arrival. -/
def State.wordWaiters (s : State) (pa : Nat) : List Msg :=
  s.flights.filter fun m => m.loc = .waiting && m.op.touch.isSome && dwOf m.pa = dwOf pa

/-- Whether an operation takes or fills the word (as against reading it only). -/
def HomeOp.takes : HomeOp → Bool
  | .loadSync _ take => take
  | .fe sy => sy ≠ 1
  | .storeFill _ _ => true
  | _ => false

/-- Serve the wait list after a change of the word's bit: full, every reader and then the oldest taker; empty, the
oldest filler (R171). -/
def State.wakeLoop : Nat → Nat → State → State
  | 0, _, s => s
  | fuel + 1, pa, s =>
    let ok := (s.wordWaiters pa).filter fun m => m.op.admits (s.isFull pa)
    match (ok.find? fun m => ¬ m.op.takes).or ok.head? with
    | none => s
    | some m => match m.op.touch with
      | some x => State.wakeLoop fuel pa (s.performWord m x)
      | none => s

def State.wake (s : State) (pa : Nat) : State := State.wakeLoop (s.flights.length + 1) pa s

/-- The message is still on its way to its home agent. -/
def Msg.coming (m : Msg) : Bool :=
  match m.loc with
  | .grid _ _ | .switch _ _ _ | .merged | .home => true
  | .waiting | .refused | .lost | .back _ => false

/-- A message takes its place behind every other. -/
def State.moveLast (s : State) (m : Msg) : State := { s with flights := (s.flights.filter fun x => x.id ≠ m.id) ++ [m] }

/-- A request at its home agent waits: its frame is being zeroed (R72), an earlier request of its thread to the
doubleword is still on its way (R166, R147), or one that left the same switch before it has not been served (R33). -/
def State.mustWait (s : State) (m : Msg) : Bool :=
  s.zeroingAt m.pa 1 ||
  (s.flights.any fun x => x.id < m.id && (x.tid = m.tid || (s.ctx m.tid).after.contains x.id) && dwOf x.pa = dwOf m.pa &&
    x.coming && (x.op.span.isSome || x.op.isCell || x.op.isRing)) ||
  (s.flights.takeWhile fun x => x.id ≠ m.id).any fun x => x.loc = .home && x.path.head? = m.path.head? &&
    (match m.path.head? with
      | some (.switch _ _ _) => true
      | some (.router _ _) | none => false) && dwOf x.pa = dwOf m.pa

/-- HOME_AGENT_ACCESS of a word operation (R164). -/
def State.homeWord (s : State) (m : Msg) (x : Touch) : State :=
  if m.loc ≠ .home ∨ s.mustWait m then s else (s.performWord m x).wake m.pa

/-! ### Own TCM (R137, R169) -/

/-- A result of stage WB of an instruction of the own core issued in cycle `issued` (R129). -/
def State.wbReg (s : State) (core issued : Nat) (m : Msg) (v : Word) : State :=
  match m.dst with
  | some (.h k) => s.modCore core fun c => { c with delayed := c.delayed ++ [Delayed.hVal issued m.fn k.toNat v] }
  | some r => s.writeReg m.tid r v
  | none => s

/-- The instruction parks from WB on its own TCM's word: its register is empty, and its bounded wait begins (R171, R284–R286).
What word 1 of its pair waits for, it waits for beside it. -/
def State.wbPark (s : State) (core issued : Nat) (m : Msg) : State :=
  let s1 := s.post { m with loc := .waiting, limit := none }
  let s2 := match m.dst with
    | some (.h k) => s1.modCore core fun c => { c with delayed := c.delayed ++ [Delayed.hEmpty issued m.fn k.toNat m.tid] }
    | some r => s1.emptyReg m.tid r .fill
    | none => s1
  s2.modCtx m.tid fun c =>
    { c with park := .reply (s.numberOf m), limit := m.limit, limitFrom := s.ctlTime m.tid, waitFrom := s.startOf m.tid,
             also := match c.park with
               | .reply k => some k
               | _ => c.also }

/-- Stage WB of a checked own-TCM access (R169). A store writes; an atomic reads and writes in this one cycle and writes RD
(R290); ld.tk and fe meet their word, and park where its bit is not as awaited (R171, R284, R285); a st.fl fills an empty
word, or joins the list of a full one and counts from then (R171, R284). -/
def State.wbAccess (s : State) (core issued : Nat) (m : Msg) : State :=
  let meet (n : Nat) (go : State → State) : State :=
    let (s1, hit) := (s.dirty m.core m.leaf).watch m.pa n m.op.watchClass m.va m.tid m.core m.slot m.issued
    (go s1).markTo m.tid m.issued hit false
  let put (n v : Nat) (s : State) : State := (s.homeWrite (some core) m.pa n v).noteDirty m.tid m.pa n
  match m.op with
  | .store n v => meet n fun s => put n v.toNat s
  | .amo f n b e => meet n fun s =>
    let old := s.rd m.pa n
    let new := amoNew f n old (b.toNat % 2 ^ (8 * n)) (e.toNat % 2 ^ (8 * n))
    (if f = .ld then s.unmark m.pa else put n new s).wbReg core issued m (word old)
  | .storeFill n v =>
    if s.isFull m.pa then s.postCounted { m with loc := .waiting }
    else meet n fun s => ((put n v.toNat s).setFull m.pa).wake m.pa
  | .loadSync n _ =>
    if ¬ s.isFull m.pa then s.wbPark core issued m
    else meet n fun s => (((s.unmark m.pa).setEmpty m.pa).wake m.pa).wbReg core issued m (word (s.rd m.pa n))
  | .fe sy =>
    if ¬ m.op.admits (s.isFull m.pa) then s.wbPark core issued m
    else meet 8 fun s =>
      let s1 := s.unmark m.pa
      ((if sy = 2 then s1.setEmpty m.pa else s1.setFull m.pa).wake m.pa).wbReg core issued m 0
  | _ => s

/-- Apply one delayed write or access. -/
def State.settleOne (s : State) (core : Nat) : Delayed → State
  | .hVal _ fn n v => s.modCore core fun c => let b := c.bank fn; c.setBank fn ⟨b.vals.put n v, b.empt.del n⟩
  | .hEmpty _ fn n _ => s.modCore core fun c => let b := c.bank fn; c.setBank fn ⟨b.vals, b.empt.put n .fill⟩
  | .wb issued m => s.wbAccess core issued m

/-- Apply every delayed write of a core that is due, in issue order. -/
def State.settle (s : State) (core : Nat) : State :=
  let c := s.core core
  let ds := c.delayed.filter (·.due c.cycle)
  ds.foldl (fun s d => s.settleOne core d)
    (s.setCore core { c with delayed := c.delayed.filter fun d => ¬ d.due c.cycle })

/-- A checked own-TCM access of the unit being issued that meets its word in stage WB (R169, R290). -/
def State.atWb (s : State) (m : Msg) : State :=
  s.modCore m.core fun c => { c with delayed := c.delayed ++ [.wb c.issueCycle m] }

end Sys2Proof.Machine
end

