-- ==== Sys2Proof/Machine/Memory.lean ====
section
/-! DEFINITION. Loads, stores, synchronising accesses, atomics and fences at their instruction (R166, R173, R174,
R280–R291). -/

namespace Sys2Proof.Machine

/-! ### Bounded waits (R286) -/

/-- The cycle of ctl.time in which the unit being issued is in stage WB: it was issued in the cycle before the one served next
(R125). -/
def State.wbTime (s : State) (t : Nat) : Nat := s.ctlTime t + 6

/-- Start a bounded wait of thread `t` that counts from `from_` of its ctl.time: a limit of 0 is none. -/
def State.limitTo (s : State) (t : Nat) (n : Word) (from_ : Nat) : State :=
  s.modCtx t fun c => { c with limit := if n = 0 then none else some n.toNat, limitFrom := from_ }

/-- Start the bounded wait of the unit's instruction, which parks from WB. -/
def State.setLimit (s : State) (n : Word) : State := s.limitTo s.iss.tid n (s.wbTime s.iss.tid)

/-! ### Sending -/

/-- The own-TCM request of an address: it completes in the pipeline (R169). -/
def State.ownTcm (s : State) : Target → Bool
  | .tcm c _ => c = (s.ctx s.iss.tid).core
  | _ => false

/-- Whether an operation in flight names a doubleword of [pa, pa+n). -/
def Msg.covers (m : Msg) (pa n : Nat) : Bool :=
  match m.op.span with
  | some k => dwOf m.pa < dwOf pa + (n + 7) / 8 * 8 && dwOf pa < m.pa + k
  | none => false

/-- A store whose acknowledgement was early has completed for its thread (R166, R173). -/
def Msg.earlyStore (m : Msg) : Bool :=
  ¬ m.counted && (match m.op with
    | .store _ _ => true
    | _ => false)

/-- The earlier access of the thread that holds an access of `n` bytes in M1 (R166). -/
def State.holder (s : State) (t pa n : Nat) : Option Nat :=
  (s.flights.find? fun m => (m.tid = t || (s.ctx t).after.contains m.id) && m.covers pa n && ¬ m.earlyStore).map (·.id)

/-- Send a request whose reply fills a register of the thread, which goes on issuing (R126). -/
def State.sendFill (s : State) (m : Msg) (rd : Reg) : State := (s.pend rd).post { m with dst := some rd }

/-- Send a request of thread `t`, which parks until its reply. -/
def State.postPark (s : State) (t : Nat) (m : Msg) : State :=
  (s.post m).modCtx t fun c => { c with park := .reply (s.numberOf m), waitFrom := s.startOf t }

/-- Send a request of the unit and park until its reply fills a register. -/
def State.sendPark (s : State) (m : Msg) (rd : Option Reg) : State :=
  (match rd with
    | some r => s.pend r
    | none => s).postPark s.iss.tid { m with dst := rd }

/-- Send a store or store-like request: counted until its acknowledgement, except one to the own die's shared SRAM,
which the port acknowledges at once, noting the bank (R14, R173). -/
def State.sendStore (s : State) (m : Msg) : State :=
  match s.target m.pa with
  | some (.sram die off) =>
    if die = s.coreDie m.core then
      (s.post m).modCtx m.tid fun c => { c with touched := c.touched ||| (1#128 <<< (off / 64 % 128)) }
    else s.postCounted m
  | _ => s.postCounted m

/-- A refusal found in the pipeline is a trap of origin 0 at the instruction (R75, R281). -/
def State.raiseRec (s : State) (t : TrapRec) : State := s.raise t.code.toNat t.taddr t.tinfo

/-- The destination's checks of an access in the own core's pipeline: a refused one traps at the instruction, with origin
0, and any other goes on (R75, R169). -/
def State.checked (s : State) (m : Msg) (x : Touch) (effect : State → State) : State :=
  match s.refusal m x with
  | (s1, some t) => s1.raiseRec t
  | (s1, none) => effect s1

/-- A checked read in stage M1 of the own core: its comparison with the watchpoints, whose mark comes to the thread at once, and
its effect (R169, R212). -/
def State.seen (s : State) (m : Msg) (n : Nat) (effect : State → State) : State :=
  let (s1, hit) := s.watch m.pa n m.op.watchClass m.va m.tid m.core m.slot m.issued
  (effect s1).markTo m.tid m.issued hit false

/-- A read that completes in stage M1 of the own core's pipeline (R169, R212). -/
def State.inPipe (s : State) (m : Msg) (x : Touch) (effect : State → State) : State :=
  s.checked m x fun s1 => s1.seen m x.n effect

/-- The data cache serves ordinary loads of vault and far-tier space; a load that the home agent would refuse goes there
(R75, R138). -/
def State.cacheHit (s : State) (a : Accessor) (core pa n : Nat) (tg : Target) : Option Nat :=
  match tg with
  | .vault _ _ | .far _ => if s.violation a pa n = 0 then (s.core core).cached pa n else none
  | _ => none

/-- A load of device control space counts in the package sub-count until its refusal returns (R172). -/
def State.sendLoad (s : State) (m : Msg) (tg : Target) : State :=
  match tg with
  | .control _ => s.postCounted m
  | _ => s.post m

/-- A hit makes the line the most recently used (R138). -/
def State.touchLine (s : State) (core pa : Nat) : State :=
  (s.corrects 2 (core * 2 ^ 52 + lineOf pa)).modCore core fun c =>
    { c with dcache := c.dcache.filter (fun l => l.pa ≠ lineOf pa) ++ c.dcache.filter (fun l => l.pa = lineOf pa) }

/-- Synchronising accesses and atomics invalidate the line they touch (R138). -/
def State.bypass (s : State) (m : Msg) : State := s.uncache m.core m.pa

/-! ### Fences of requests (R174, R175) -/

/-- Send a probe to each touched bank of the thread's die (R174, R175). -/
def State.sendProbes (s : State) (t : Nat) : State :=
  let c := s.ctx t
  ((List.range 128).filter fun b => bit c.touched b).foldl (fun s b =>
    s.post { s.request t (.probe b) 0 (sramPa (s.coreDie c.core) (64 * b)) none with scope := 3 }) s

/-- Park thread `t` in a fence of form and scope; what it does next is `after` (R174). -/
def State.fenceThen (s : State) (t : Nat) (form : FenceForm) (scope : Nat) (after : After) : State :=
  let s1 := if form ≠ .lfence ∧ 3 ≤ scope then s.sendProbes t else s
  s1.modCtx t fun c => { c with park := .fence form scope after, waitFrom := s.startOf t }

/-- A fence of thread `t`, and then its request (R289, R293, R301, R314). -/
def State.fenceSend (s : State) (t : Nat) (form : FenceForm) (scope : Nat) (m : Msg) (parks : Bool) : State :=
  s.numbered m fun m s => s.fenceThen t form scope (.send m parks)

/-- A release-side operation of thread `t` on a cell whose scope and mode, `v`, are known: the fence of its scope, then its
request, which may combine where the mode is TREE and the cell's bank lies on the requester's die (R158, R293). -/
def State.releaseFence (s : State) (t v : Nat) (m : Msg) (parks : Bool) : State :=
  let near : Bool := match s.target m.pa with
    | some (.sram die _) => die = s.coreDie m.core
    | _ => false
  s.fenceSend t .fence (v % 8) { m with aux := if v / 8 = 2 ∧ near then 1 else 0 } parks

/-! ### Held in M1 (R166) -/

/-- Send a request of thread `t` whose checks at the instruction are past and whose register, if it has one, is empty; its
instruction is in stage WB at `wb` of ctl.time (R126, R166, R286, R289). -/
def State.sendNow (s : State) (t : Nat) (m : Msg) (how : Send) (wb : Nat) : State :=
  match how with
  | .load => (match m.op, s.target m.pa, m.dst with
      | .load n, some tg, some rd => (match s.cacheHit m.accessor m.core m.pa n tg with
          | some v => (s.touchLine m.core m.pa).deliver t m.core m.fn rd (word v)
          | none => s.sendLoad m tg)
      | _, _, _ => s.post m)
  | .store => s.sendStore m
  | .fill => (s.bypass m).postCounted { m with aux := word wb }
  | .sync lim => ((s.bypass m).postPark t m).limitTo t lim wb
  | .plain => (s.bypass m).post m
  | .amo sc => if sc = 0 then (s.bypass m).postCounted m else (s.bypass m).fenceSend t .sfence sc m true
  | .nest target =>
    (s.post m).modCtx t fun c => { c with park := .nestEnd (s.numberOf m) target, waitFrom := s.startOf t }

/-- A request of the unit for `n` bytes is held in M1 behind an earlier access of one of its doublewords, or sent (R166). -/
def State.unheld (s : State) (m : Msg) (n : Nat) (how : Send) : State :=
  let t := s.iss.tid
  match s.holder t m.pa n with
  | some _ => s.numbered m fun m s => s.modCtx t fun c => { c with park := .held m n how }
  | none => s.sendNow t m how (s.wbTime t)

/-- The thread whose instruction is held in M1 behind accesses that have now completed (R125, R166). -/
def State.movesOn (s : State) : Option Nat :=
  (s.ctxs.find? fun e => e.2.place.resident && (match e.2.park with
    | .held m n _ => (s.holder e.1 m.pa n).isNone
    | _ => false)).map (·.1)

/-- It moves on, in the cycle in which its wait ends: it is sent as it was issued, two cycles before its stage WB (R125). -/
def State.moveOn (s : State) (t : Nat) : State :=
  match (s.ctx t).park with
  | .held m _ how => (s.modCtx t fun c => { c with park := .none }).sendNow t m how (s.ctlTime t + 2)
  | _ => s

/-! ### Ordinary loads and stores (R282, R283) -/

/-- ld: the value of `n` bytes, zero-extended, into rd (R282). -/
def State.loadTo (s : State) (rd : Reg) (n : Nat) (va : Word) : State :=
  s.reach va n .read false fun pa tg s =>
    let t := s.iss.tid
    let core := (s.ctx t).core
    let m := s.request t (.load n) va pa (some rd)
    if s.ownTcm tg then s.inPipe m ⟨n, false, true, false⟩ fun s => s.dst rd (word (s.rd pa n))
    else match s.holder t pa n, s.cacheHit m.accessor core pa n tg with
      | none, some v => (s.touchLine core pa).dst rd (word v)
      | _, _ => (s.pend rd).unheld m n .load

/-- st: the low `n` bytes of a value (R282). -/
def State.storeFrom (s : State) (n : Nat) (va v : Word) : State :=
  s.reach va n .write false fun pa tg s =>
    let m := s.request s.iss.tid (.store n v) va pa none
    if s.ownTcm tg then s.checked m ⟨n, true, false, true⟩ fun s => s.atWb m
    else s.unheld m n .store

/-- Access size in bytes. -/
def sizeBytes : Size → Nat
  | .b => 1
  | .h => 2
  | .w => 4
  | .d => 8

/-- Effective address of R282. -/
def State.ea (s : State) (ra : BitVec 6) (imm : BitVec 13) : Word := s.src (g ra) + sext imm

/-- ld.sz rd, ra, imm (R282). -/
def execLd (sz : Size) (rd ra : BitVec 6) (imm : BitVec 13) (s : State) : Host.Outcome State Fault Refusal :=
  .next (s.operands [g ra] [g rd] fun s' => s'.loadTo (g rd) (sizeBytes sz) (s.ea ra imm))

/-- ld.sz into h or q registers (R283). -/
def execLdX (sz : Size) (rd : Reg) (ra : BitVec 6) (imm : BitVec 13) (s : State) : Host.Outcome State Fault Refusal :=
  .next (s.operands [g ra] [rd] fun s' => s'.loadTo rd (sizeBytes sz) (s.ea ra imm))

/-- st.sz rd, ra, imm (R282). -/
def execSt (sz : Size) (rd ra : BitVec 6) (imm : BitVec 13) (s : State) : Host.Outcome State Fault Refusal :=
  .next (s.operands [g ra, g rd] [] fun s' => s'.storeFrom (sizeBytes sz) (s.ea ra imm) (s.src (g rd)))

/-! ### Synchronising accesses (R284–R286) -/

/-- A limit as a request carries it: 0 is none. -/
def limitOf (n : Word) : Option Nat := if n = 0 then none else some n.toNat

/-- A read-only synchronising access of the own TCM, which parks on its word's list where the bit is not as awaited (R171,
R284, R285). -/
def State.readHere (s : State) (m : Msg) (x : Touch) (lim : Word) (effect : State → State) : State :=
  s.checked m x fun s =>
    if m.op.admits (s.isFull m.pa) then s.seen m x.n effect
    else (s.sendPark { m with loc := .waiting } m.dst).setLimit lim

/-- ld.sz.wf and ld.sz.tk (R171, R284). -/
def State.syncLoad (s : State) (rd : Reg) (n : Nat) (va lim : Word) (take : Bool) : State :=
  s.reach va n .read true fun pa tg s =>
    let m := s.request s.iss.tid (.loadSync n take) va pa (some rd)
    let x : Touch := ⟨n, take, true, true⟩
    if s.ownTcm tg then
      if take then s.checked m x fun s => s.atWb { m with limit := limitOf lim }
      else s.readHere m x lim fun s => (s.unmark pa).dst rd (word (s.rd pa n))
    else (s.pend rd).unheld m n (.sync lim)

/-- ld.sz.wf rd, ra, rb (R284). -/
def execLdWf (sz : Size) (rd : Reg) (ra rb : BitVec 6) (s : State) : Host.Outcome State Fault Refusal :=
  .next (s.operands [g ra, g rb] [rd] fun s' => s'.syncLoad rd (sizeBytes sz) (s.src (g ra)) (s.src (g rb)) false)

/-- ld.sz.tk rd, ra, rb (R284). -/
def execLdTk (sz : Size) (rd : Reg) (ra rb : BitVec 6) (s : State) : Host.Outcome State Fault Refusal :=
  .next (s.operands [g ra, g rb] [rd] fun s' => s'.syncLoad rd (sizeBytes sz) (s.src (g ra)) (s.src (g rb)) true)

/-- st.sz.fl: it waits at the home agent, its limit counting ctl.time from WB; one to the own TCM is checked here and meets its
word in stage WB (R169, R284, R286). -/
def State.syncStore (s : State) (n : Nat) (va v lim : Word) : State :=
  s.reach va n .write true fun pa tg s =>
    let t := s.iss.tid
    let m := { s.request t (.storeFill n v) va pa none with limit := limitOf lim, aux := word (s.wbTime t) }
    if s.ownTcm tg then s.checked m ⟨n, true, false, true⟩ fun s => s.atWb m
    else s.unheld m n .fill

/-- st.sz.fl rd, ra, rb (R284). -/
def execStFl (sz : Size) (rd : Reg) (ra rb : BitVec 6) (s : State) : Host.Outcome State Fault Refusal :=
  .next (s.operands [g ra, rd, g rb] [] fun s' =>
    s'.syncStore (sizeBytes sz) (s.src (g ra)) (s.src rd) (s.src (g rb)))

/-- fe.d.wf, fe.d.tk and fe.d.fl: park until the bit is as awaited (R285). -/
def State.feAccess (s : State) (rd : Reg) (va lim : Word) (sy : BitVec 2) : State :=
  s.reach va 8 (if sy = 1 then .read else .write) true fun pa tg s =>
    let m := s.request s.iss.tid (.fe sy) va pa (some rd)
    let x : Touch := ⟨8, sy ≠ 1, false, true⟩
    if s.ownTcm tg then
      if sy = 1 then s.readHere m x lim fun s => (s.unmark pa).dst rd 0
      else s.checked m x fun s => s.atWb { m with limit := limitOf lim }
    else (s.pend rd).unheld m 8 (.sync lim)

/-- fe.d.wf rd, ra, rb (R285). -/
def execFeWf (rd : Reg) (ra rb : BitVec 6) (s : State) : Host.Outcome State Fault Refusal :=
  .next (s.operands [g ra, g rb] [rd] fun s' => s'.feAccess rd (s.src (g ra)) (s.src (g rb)) 1)

/-- fe.d.tk rd, ra, rb (R285). -/
def execFeTk (rd : Reg) (ra rb : BitVec 6) (s : State) : Host.Outcome State Fault Refusal :=
  .next (s.operands [g ra, g rb] [rd] fun s' => s'.feAccess rd (s.src (g ra)) (s.src (g rb)) 2)

/-- fe.d.fl rd, ra, rb (R285). -/
def execFeFl (rd : Reg) (ra rb : BitVec 6) (s : State) : Host.Outcome State Fault Refusal :=
  .next (s.operands [g ra, g rb] [rd] fun s' => s'.feAccess rd (s.src (g ra)) (s.src (g rb)) 3)

/-- feq.d rd, ra: the word's bit, without parking on it (R285). -/
def execFeq (rd : Reg) (ra : BitVec 6) (s : State) : Host.Outcome State Fault Refusal :=
  let va := s.src (g ra)
  .next (s.operands [g ra] [rd] fun s' => s'.reach va 8 .read true fun pa tg s =>
    let m := s.request s.iss.tid .feq va pa (some rd)
    if s.ownTcm tg then s.inPipe m ⟨8, false, false, false⟩ fun s => s.dst rd (if s.isFull pa then 1 else 0)
    else (s.pend rd).unheld m 8 .plain)

/-! ### What a trap of a parked instruction takes back (R204, R238, R281) -/

/-- Engine instructions that write memory (R182, R334). -/
def engineWrites : Instr → Bool
  | .vst _ _ | .tst _ _ | .accSt _ _ => true
  | .accCvt ty _ _ _ _ => ty = .nf
  | _ => false

/-- A register marked empty for a reply that will not come is full again with the value it had (R281). -/
def State.unpend (s : State) (t core fn : Nat) (r : Reg) : State :=
  match r with
  | .h n => s.modCore core fun c =>
      let b := c.bank fn
      { c.setBank fn ⟨b.vals, b.empt.del n.toNat⟩ with delayed := c.delayed.filter fun d => ¬ d.empties t fn n.toNat }
  | .g _ | .q _ | .i _ => s.modCtx t fun c => { c with empt := c.empt.del r.code.toNat }

/-- A full/empty bit and its reason as they stood. -/
def asBefore (e : SMap EmptyWhy) (k : Nat) (why : Option EmptyWhy) : SMap EmptyWhy :=
  match why with
  | some w => e.put k w
  | none => e.del k

/-- Whether a delayed write is to register h`n` of a function, of the instruction issued in that cycle. -/
def Delayed.writesH (cycle fn n : Nat) : Delayed → Bool
  | .hVal i f k _ | .hEmpty i f k _ => i = cycle && f = fn && k = n
  | .wb _ _ => false

/-- A register stands again as before the unit. -/
def State.restoreReg (s : State) (t : Nat) (e : Reg × Word × Option EmptyWhy) : State :=
  let c := s.ctx t
  match e.1 with
  | .h n => s.modCore c.core fun k =>
      let b := k.bank c.fn
      { k.setBank c.fn ⟨b.vals.put n.toNat e.2.1, asBefore b.empt n.toNat e.2.2⟩ with
        delayed := k.delayed.filter fun d => ¬ d.writesH c.lastIssue c.fn n.toNat }
  | r => s.modCtx t fun k =>
      { k with regs := k.regs.put r.code.toNat e.2.1, empt := asBefore k.empt r.code.toNat e.2.2 }

/-- An engine instruction of the unit that has not begun leaves its queue (R204); one that has begun runs to its end
(notes/assumptions/139.md). -/
def State.unqueue (s : State) (t seq : Nat) : State :=
  let core := s.core (s.ctx t).core
  match (core.mq ++ core.vq).find? fun e => e.seq = seq && e.steps = 0 with
  | none => s
  | some e =>
    let s1 := s.modCore (s.ctx t).core fun k =>
      { k with mq := k.mq.filter fun x => x.seq ≠ seq, vq := k.vq.filter fun x => x.seq ≠ seq }
    if engineWrites e.instr then s1.uncountStore t 1 else s1

/-- The value that word 1 wrote to the link of g61 is the newest there, unless it has been taken (R130). -/
def State.unpush (s : State) (t : Nat) : State :=
  match s.partner t ((s.ctx t).vcore + 1) with
  | some p => s.modCtx p fun c => { c with chain := c.chain.dropLast }
  | none => s

/-- The unit last issued, which is still parked, has had no effect: what its A word wrote, its skip count, the link value it
took or wrote, its special-function request and its queued engine instruction are taken back (R204, R238, R281). -/
def State.undoPair (s : State) (t : Nat) : State :=
  let c := s.ctx t
  let u := c.undo
  let s1 := match c.also with
    | some k => s.dropMsg k
    | none => s
  let s2 := (u.regs.foldl (fun (s : State) e => s.restoreReg t e) s1).modCtx t fun k =>
    { k with undo := ⟨[], u.skip, none, false, none⟩, also := none, skip := u.skip, chain := u.link.toList ++ k.chain }
  let s3 := if u.pushed then s2.unpush t else s2
  match u.entry with
  | some q => s3.unqueue t q
  | none => s3

/-- The parked unit has had no effect, and PC names it; the register of a request that it has not sent is as it was (R204,
R281). -/
def State.unissue (s : State) (t : Nat) : State :=
  let c := s.ctx t
  let s1 := match c.park.unsent with
    | some m =>
      let rs := if m.op = HomeOp.claim true then [Reg.i 0, Reg.i 1, Reg.i 2, Reg.i 3] else []
      (m.dst.toList ++ rs).foldl (fun (s : State) r => s.unpend t m.core m.fn r) s
    | none => s
  (s1.undoPair t).modCtx t fun k => { k with pc := c.ipc, park := .none, limit := none }

/-- A trap of the parked unit is taken at it, which has had no effect; a frozen thread takes it at its first issue after the
freeze (R204, R213, R281). -/
def State.trapAt (s : State) (t : Nat) (r : TrapRec) : State :=
  let c := s.ctx t
  let s1 := s.unissue t
  if c.stays then s1.pendTrap t r else s1.takeTrap t r c.iwpos

/-- An instruction that is held back, in M1 or in a fence, before it sends its request has been performed nowhere: as its thread
leaves its slot, it is to be issued again (R210). So is a nest.end, which then takes what its claim has brought (R264), and a
dg.fold whose state has not returned, which reads its line again (R329). -/
def State.unhold (s : State) (t : Nat) : State :=
  match (s.ctx t).park with
  | .scope k _ _ _ => (s.unissue t).dropMsg k
  | .nestEnd _ _ => s.unissue t
  | .reply k => match s.msg k with
    | some m => if m.op = HomeOp.fold ∧ ¬ m.answered then (s.unissue t).dropMsg k else s
    | none => s
  | p => if p.unsent.isSome then s.unissue t else s

/-! ### Fences (R174, R175, R291) -/

/-- Scope codes of R8. -/
def scopeCode : Scope → Nat
  | .thr => 0
  | .core => 1
  | .clu => 2
  | .die => 3
  | .pkg => 4
  | .sys => 5

/-- Engine instructions that read memory (R182, R334, R338). -/
def engineReads : Instr → Bool
  | .vld _ _ | .tld _ _ | .accLd _ _ => true
  | .mma ty _ _ _ _ _ rs => ty = .nf && rs ≠ 0
  | _ => false

/-- Requests whose reply carries a value of memory: loads, fe and feq, atomics, claims, and the sync-cell and ring
instructions that have a result (R174). -/
def HomeOp.valued (o : HomeOp) : Bool :=
  match o with
  | .store _ _ | .storeFill _ _ | .rel | .deliver _ | .depaWait _ _ _ | .scopeRead | .ringPub _ _ | .ringAdv _ => false
  | _ => o.touch.isSome || o.isCell || o.isRing

/-- A request of the thread whose reply carries a value of memory is outstanding (R174). -/
def State.loadsOut (s : State) (t : Nat) : Bool :=
  (s.flights.any fun m => m.tid = t && m.op.valued) ||
  (s.core (s.ctx t).core).mq.any (fun e => e.tid = t && engineReads e.instr) ||
  (s.core (s.ctx t).core).vq.any (fun e => e.tid = t && engineReads e.instr)

/-- Fence and sfence: every unacknowledged store within the scope has been acknowledged, and every probe echoed (R174). -/
def State.storesDone (s : State) (t : Nat) (scope : Nat) : Bool :=
  let c := s.ctx t
  (List.range 6).all (fun k => k = 0 || scope < k || c.subCount k = 0) &&
    s.flights.all (fun m => ¬ (c.after.contains m.id && m.counted && 0 < m.scope && m.scope ≤ scope)) &&
    (scope < 3 || s.flights.all fun m => m.tid ≠ t || (match m.op with
      | .probe _ => false
      | _ => true))

/-- The waits of Fence(form, s) are over (R174). -/
def State.fenceReady (s : State) (t : Nat) (form : FenceForm) (scope : Nat) : Bool :=
  let c := s.ctx t
  (form = .lfence ||
    ((s.core c.core).cq.all (fun x => x.tid ≠ t || x.record.isSome || x.stat.isSome) && s.storesDone t scope)) &&
  (form = .sfence || ¬ s.loadsOut t)

/-- fence.sc, sfence.sc and lfence.sc at the instruction: at .thr they complete in the pipeline (R174, R291). -/
def State.fenceIssue (s : State) (form : FenceForm) (sc : Scope) : State :=
  s.operands [] [] fun s => if sc = .thr then s else s.fenceThen s.iss.tid form (scopeCode sc) .done

/-- fence.sc (R291). -/
def execFence (sc : Scope) (s : State) : Host.Outcome State Fault Refusal := .next (s.fenceIssue .fence sc)
/-- sfence.sc (R291). -/
def execSfence (sc : Scope) (s : State) : Host.Outcome State Fault Refusal := .next (s.fenceIssue .sfence sc)
/-- lfence.sc (R291). -/
def execLfence (sc : Scope) (s : State) : Host.Outcome State Fault Refusal := .next (s.fenceIssue .lfence sc)

/-- Carry on after a completed fence: unpark, or send the request that waited for it (R289, R293, R301). -/
def State.runAfter (s : State) (t : Nat) (a : After) : State :=
  match a with
  | .done | .leave _ => s.modCtx t fun c => { c with park := .none }
  | .exitWait j v => s.modCtx t fun c => { c with park := .copies j v }
  | .send m parks =>
    let s1 := if m.counted then s.postCounted m else s.post m
    s1.modCtx t fun c => { c with
      park := if parks then .reply (s.numberOf m) else .none, waitFrom := s.startOf t }

/-- Everything but the error report of a completed fence: touched banks, data cache (R174). -/
def State.fenceDone (s : State) (t : Nat) (form : FenceForm) (scope : Nat) : State :=
  let s1 := if form ≠ .lfence ∧ 3 ≤ scope then s.modCtx t fun c => { c with touched := 0 } else s
  if form ≠ .sfence ∧ 2 ≤ scope then s1.invalidateCache (s.ctx t).core else s1

/-- Whether the fence reports error acknowledgements: the fence instructions and exit (R311, notes/assumptions/15.md). -/
def After.reports : After → Bool
  | .done | .exitWait _ _ => true
  | .send _ _ | .leave _ => false

/-- A fence reports the first error acknowledgement, as if it had trapped (R174, R204, R281). -/
def State.fenceReport (s : State) (t : Nat) (scope : Nat) (e : TrapRec) : State :=
  let acks := (s.ctx t).errAcks
  ((s.buryAll t fun r _ => acks.contains r).modCtx t fun c =>
    { c with errAcks := [], touched := if 3 ≤ scope then 0 else c.touched }).trapAt t { e with orig := 1 }

/-- FENCE_COMPLETE: a parked fence whose waits are over completes, or reports the first error acknowledgement (R174,
R281). Only the fence instructions report (notes/assumptions/15.md). -/
def State.fenceComplete (s : State) (t : Nat) : State :=
  let c := s.ctx t
  match c.park with
  | .fence form scope after =>
    if ¬ s.fenceReady t form scope then s
    else match c.errAcks with
      | e :: _ =>
        if form ≠ .lfence ∧ after.reports then s.fenceReport t scope e
        else (s.fenceDone t form scope).runAfter t after
      | [] => (s.fenceDone t form scope).runAfter t after
  | _ => s

/-! ### Atomics (R287–R290) -/

/-- An atomic of `n` bytes with scope `sc`: at .thr one to the own TCM is checked here and performed in stage WB (R289,
R290). -/
def State.amo (s : State) (f : AmoFn) (n : Nat) (sc : Scope) (rd : Reg) (va b e : Word) : State :=
  s.reach va n .write true fun pa tg s =>
    let t := s.iss.tid
    let m := { s.request t (.amo f n b e) va pa (some rd) with aux := word (scopeCode sc), counted := true }
    if s.ownTcm tg then
      if sc = .thr then s.checked m ⟨n, true, true, true⟩ fun s => s.atWb m
      else (s.pend rd).sendNow t m (.amo (scopeCode sc)) (s.wbTime t)
    else (s.pend rd).unheld m n (.amo (scopeCode sc))

/-- The shape of the atomics: cas reads RD as well (R288). -/
def State.amoIssue (s : State) (f : AmoFn) (d : Bool) (sc : Scope) (rd ra rb : BitVec 6) : State :=
  s.operands (if f = .cas then [g ra, g rb, g rd] else if f = .ld then [g ra] else [g ra, g rb]) [g rd] fun s' =>
    s'.amo f (if d then 8 else 4) sc (g rd) (s.src (g ra)) (s.src (g rb)) (s.src (g rd))

/-- amo.add (R288). -/
def execAmoAdd (d : Bool) (sc : Scope) (rd ra rb : BitVec 6) (s : State) : Host.Outcome State Fault Refusal :=
  .next (s.amoIssue .add d sc rd ra rb)
/-- amo.and (R288). -/
def execAmoAnd (d : Bool) (sc : Scope) (rd ra rb : BitVec 6) (s : State) : Host.Outcome State Fault Refusal :=
  .next (s.amoIssue .and d sc rd ra rb)
/-- amo.or (R288). -/
def execAmoOr (d : Bool) (sc : Scope) (rd ra rb : BitVec 6) (s : State) : Host.Outcome State Fault Refusal :=
  .next (s.amoIssue .or d sc rd ra rb)
/-- amo.xor (R288). -/
def execAmoXor (d : Bool) (sc : Scope) (rd ra rb : BitVec 6) (s : State) : Host.Outcome State Fault Refusal :=
  .next (s.amoIssue .xor d sc rd ra rb)
/-- amo.swap (R288). -/
def execAmoSwap (d : Bool) (sc : Scope) (rd ra rb : BitVec 6) (s : State) : Host.Outcome State Fault Refusal :=
  .next (s.amoIssue .swap d sc rd ra rb)
/-- amo.cas (R288). -/
def execAmoCas (d : Bool) (sc : Scope) (rd ra rb : BitVec 6) (s : State) : Host.Outcome State Fault Refusal :=
  .next (s.amoIssue .cas d sc rd ra rb)
/-- amo.min (R288). -/
def execAmoMin (d : Bool) (sc : Scope) (rd ra rb : BitVec 6) (s : State) : Host.Outcome State Fault Refusal :=
  .next (s.amoIssue .min d sc rd ra rb)
/-- amo.max (R288). -/
def execAmoMax (d : Bool) (sc : Scope) (rd ra rb : BitVec 6) (s : State) : Host.Outcome State Fault Refusal :=
  .next (s.amoIssue .max d sc rd ra rb)
/-- amo.minu (R288). -/
def execAmoMinu (d : Bool) (sc : Scope) (rd ra rb : BitVec 6) (s : State) : Host.Outcome State Fault Refusal :=
  .next (s.amoIssue .minu d sc rd ra rb)
/-- amo.maxu (R288). -/
def execAmoMaxu (d : Bool) (sc : Scope) (rd ra rb : BitVec 6) (s : State) : Host.Outcome State Fault Refusal :=
  .next (s.amoIssue .maxu d sc rd ra rb)
/-- amo.fadd, .w only (R287, R288). -/
def execAmoFadd (sc : Scope) (rd ra rb : BitVec 6) (s : State) : Host.Outcome State Fault Refusal :=
  .next (s.amoIssue .fadd false sc rd ra rb)
/-- amo.ld (R288). -/
def execAmoLd (d : Bool) (sc : Scope) (rd ra : BitVec 6) (s : State) : Host.Outcome State Fault Refusal :=
  .next (s.amoIssue .ld d sc rd ra 0)

end Sys2Proof.Machine
end

