-- ==== Sys2Proof/Machine/Branch.lean ====
section
/-! DEFINITION. Branches and jumps (R260, R261) and loop nests (R262–R265). -/

namespace Sys2Proof.Machine

/-- Set the thread's PC. -/
def State.jump (s : State) (pc : Word) : State := s.modCtx s.iss.tid fun c => { c with pc := pc }

/-- The target of a relative branch: W + 4 × Sext(imm) (R260, R264). -/
def State.target4 {n : Nat} (s : State) (imm : BitVec n) : Word := s.iss.w + (sext imm <<< 2)

/-- br imm (R260). -/
def execBr (imm : BitVec 19) (s : State) : Host.Outcome State Fault Refusal :=
  .next (s.operands [] [] fun s => s.jump (s.target4 imm))

/-- bl imm: g62 := NextUnit (R260). -/
def execBl (imm : BitVec 19) (s : State) : Host.Outcome State Fault Refusal :=
  .next (s.operands [] [.g 62] fun s => (s.dst (.g 62) s.iss.next).jump (s.target4 imm))

/-- bz ra, imm (R260). -/
def execBz (ra : BitVec 6) (imm : BitVec 19) (s : State) : Host.Outcome State Fault Refusal :=
  .next (s.operands [g ra] [] fun s' => if s.src (g ra) = 0 then s'.jump (s'.target4 imm) else s')

/-- bnz ra, imm (R260). -/
def execBnz (ra : BitVec 6) (imm : BitVec 19) (s : State) : Host.Outcome State Fault Refusal :=
  .next (s.operands [g ra] [] fun s' => if s.src (g ra) ≠ 0 then s'.jump (s'.target4 imm) else s')

/-- jr ra: an alignment fault at the jump when t[1:0] is not zero (R250, R261). -/
def execJr (ra : Reg) (s : State) : Host.Outcome State Fault Refusal :=
  .next (s.operands [ra] [] fun s' =>
    if fld (s.src ra) 0 2 ≠ 0 then s'.raise 0x04 (s.src ra) 4 else s'.jump (s.src ra))

/-- jlr rd, ra: rd := NextUnit (R261). -/
def execJlr (rd ra : Reg) (s : State) : Host.Outcome State Fault Refusal :=
  .next (s.operands [ra] [rd] fun s' =>
    if fld (s.src ra) 0 2 ≠ 0 then s'.raise 0x04 (s.src ra) 4 else (s'.dst rd s'.iss.next).jump (s.src ra))

/-! ### Loop nests -/

/-- The pending claim of a thread's nest (R263). -/
def State.claimOut (s : State) (t : Nat) : Option Nat :=
  (s.flights.find? fun m => m.tid = t && (match m.op with
    | .claim _ => true
    | _ => false)).map (·.id)

/-- LoadIdx(n) (R92, R264). -/
def State.loadIdx (s : State) (t : Nat) (x : Nest) (n : Word) : State :=
  let v := n.toNat
  (((s.fillReg t (.i 0) (word (v % x.e0))).fillReg t (.i 1) (word (v / x.e0 % x.e1))).fillReg t (.i 2)
    (word (v / (x.e0 * x.e1) % x.e2))).fillReg t (.i 3) (word (v / (x.e0 * x.e1 * x.e2)))

/-- nest rd, ra (R263). -/
def execNest (rd ra : Reg) (s : State) : Host.Outcome State Fault Refusal :=
  let va := s.src ra
  .next (s.operands [ra] [rd] fun s =>
    let t := s.iss.tid
    if (s.ctx t).nest.isSome ∨ (s.claimOut t).isSome then s.illegal
    else if va.toNat % 32 ≠ 0 then s.raise 0x03 va 7
    else s.reach va 1 .read false fun pa tg s =>
      match tg with
      | .sram _ _ =>
        (((((s.pend rd).pend (.i 0)).pend (.i 1)).pend (.i 2)).pend (.i 3)).unheld (s.request t (.claim true) va pa (some rd)) 32
          .plain
      | _ => s.raise 0x03 va 7)

/-- The claim's reply reaches the thread: nest starts or stays inactive; a nest.end that waits goes on with its next chunk or past
the end, and one that was saved finds either when it issues again (R263, R264). -/
def State.claimReply (s : State) (m : Msg) (join : Bool) (r c : Word) (e0 e1 e2 e3 : Nat) : State :=
  let t := m.tid
  let total := word (e0 * e1 * e2 * e3)
  let first := total - r
  let fill (s : State) (v : Word) : State :=
    match m.dst with
    | some rd => s.deliver t m.core m.fn rd v
    | none => s
  if join then
    if c = 0 then
      ((((fill s 0).fillReg t (.i 0) 0).fillReg t (.i 1) 0).fillReg t (.i 2) 0).fillReg t (.i 3) 0
    else
      let x : Nest := ⟨m.pa, m.va, total, e0, e1, e2, e3, first, first + c - 1, m.leaf, false, false⟩
      ((fill s c).loadIdx t x first).modCtx t fun k => { k with nest := some x }
  else
    let next (x : Nest) : Nest := { x with total := total, e0 := e0, e1 := e1, e2 := e2, e3 := e3, last := first + c - 1 }
    match (s.ctx t).nest, (s.ctx t).park with
    | none, _ => s
    | some x, .nestEnd _ target =>
      if c = 0 then s.modCtx t fun k => { k with nest := none, park := .none }
      else (s.loadIdx t (next x) first).modCtx t fun k =>
        { k with nest := some { next x with n := first }, pc := target, park := .none }
    | some x, _ =>
      let y : Nest := if c = 0 then { x with ended := true } else { next x with n := first - 1, fresh := true }
      s.modCtx t fun k => { k with nest := some y }

/-- An iteration of the thread's task is completed, kept for 20 µs (R118). -/
def State.noteIter (s : State) (t : Nat) : State :=
  { s with tasks := s.tasks.map fun (e : Nat × Task) =>
      if e.1 = (s.ctx t).task then (e.1, { e.2 with iters := (e.2.iters.filter fun w => s.wall < w + 20000) ++ [s.wall] }) else e }

/-- nest.end imm (R264). -/
def execNestEnd (imm : BitVec 13) (s : State) : Host.Outcome State Fault Refusal :=
  .next (s.operands [] [] fun s =>
    let t := s.iss.tid
    if (s.claimOut t).isSome then s.parkIssue .nestReply
    else match (s.ctx t).nest with
      | none => s.illegal
      | some x =>
        if x.ended then s.modCtx t fun c => { c with nest := none }
        else if x.n ≠ x.last then
          let s1 := if x.fresh then s else s.noteIter t
          ((s1.loadIdx t x (x.n + 1)).modCtx t fun c => { c with nest := some { x with n := x.n + 1, fresh := false } }).jump
            (s.target4 imm)
        else (s.noteIter t).unheld { s.request t (.claim false) x.va x.pa none with leaf := x.leaf } 32 (.nest (s.target4 imm)))

end Sys2Proof.Machine
end

