-- ==== Sys2Proof/Machine/Sha.lean ====
section
/-! DEFINITION. SHA-256 as the digest engine applies it (R40, R57, R58, R327, R328): one block passes through 64 steps of
a 256-bit chaining register and a 512-bit window of the message schedule. -/

namespace Sys2Proof.Machine

/-- The SHA-256 initial value, to which each digest state returns (R327). -/
def shaInit : BitVec 256 := (Ctx.cleared (.transit 0 0)).sha

/-- The 64 step constants, the first in the top 32 bits. -/
def shaTable : BitVec 2048 :=
  0x428a2f9871374491b5c0fbcfe9b5dba53956c25b59f111f1923f82a4ab1c5ed5d807aa9812835b01243185be550c7dc372be5d7480deb1fe9bdc06a7c19bf174#512 ++
  0xe49b69c1efbe47860fc19dc6240ca1cc2de92c6f4a7484aa5cb0a9dc76f988da983e5152a831c66db00327c8bf597fc7c6e00bf3d5a7914706ca635114292967#512 ++
  0x27b70a852e1b21384d2c6dfc53380d13650a7354766a0abb81c2c92e92722c85a2bfe8a1a81a664bc24b8b70c76c51a3d192e819d6990624f40e3585106aa070#512 ++
  0x19a4c1161e376c082748774c34b0bcb5391c0cb34ed8aa4a5b9cca4f682e6ff3748f82ee78a5636f84c878148cc7020890befffaa4506cebbef9a3f7c67178f2#512

/-- Exclusive or of a word turned right by three amounts; the last is a shift where `cut` is set. -/
def spin (cut : Bool) (i j k : Nat) (x : BitVec 32) : BitVec 32 :=
  x.rotateRight i ^^^ x.rotateRight j ^^^ if cut then x >>> k else x.rotateRight k

/-- Word `k` of a row of 32-bit words, counted from the top. -/
def lane {n : Nat} (x : BitVec n) (k : Nat) : BitVec 32 := x.extractLsb' (n - 32 - 32 * k) 32

/-- Step `t` on the chaining register and the window, whose top word it uses up. -/
def shaStep (p : BitVec 256 × BitVec 512) (t : Nat) : BitVec 256 × BitVec 512 :=
  let (r, w) := p
  let e := lane r 4
  let a := lane r 0
  let choose := (lane r 5 ^^^ lane r 6) &&& e ^^^ lane r 6
  let most := (a ||| lane r 1) &&& lane r 2 ||| a &&& lane r 1
  let gain := lane w 0 + lane shaTable t + lane r 7 + choose + spin false 6 11 25 e
  let fresh := lane w 0 + lane w 9 + spin true 7 18 3 (lane w 1) + spin true 17 19 10 (lane w 14)
  ((gain + most + spin false 2 13 22 a) ++ r.extractLsb' 160 96 ++ (lane r 3 + gain) ++ r.extractLsb' 32 96,
   w.extractLsb' 0 480 ++ fresh)

/-- The sum of two chaining values, word by word. -/
def laneSum (x y : BitVec 256) : BitVec 256 :=
  (List.range 8).foldl (fun (z : BitVec 256) k => z <<< 32 ||| (lane x k + lane y k).setWidth 256) 0

/-- One SHA-256 compression of a 64-byte block (R327). -/
def shaCompress (h : BitVec 256) (block : List Byte) : BitVec 256 :=
  let w : BitVec 512 := block.foldl (fun (w : BitVec 512) b => w <<< 8 ||| b.setWidth 512) 0
  laneSum h ((List.range 64).foldl shaStep (h, w)).1

/-- The low bytes of a number, the most significant first. -/
def beBytes (n : Nat) : Nat → List Byte
  | 0 => []
  | len + 1 => BitVec.ofNat 8 (n >>> (8 * len)) :: beBytes n len

/-- Fold the next `n` blocks of a byte string. -/
def shaBlocks (n : Nat) (h : BitVec 256) (bs : List Byte) : BitVec 256 :=
  (List.range n).foldl (fun h k => shaCompress h ((bs.drop (64 * k)).take 64)) h

/-- The digest of a message of which `blocks` blocks are folded and fewer than 64 bytes remain: a one bit, zeros, and
the length in bits end it (R328). -/
def shaClose (h : BitVec 256) (blocks : Nat) (tail : List Byte) : BitVec 256 :=
  let rest := if tail.length < 56 then 1 else 2
  let head := tail ++ [0x80]
  shaBlocks rest h (head ++ List.replicate (64 * rest - 8 - head.length) 0 ++ beBytes (512 * blocks + 8 * tail.length) 8)

/-- SHA-256 of a byte string. -/
def sha256 (bs : List Byte) : BitVec 256 :=
  let whole := bs.length / 64
  shaClose (shaBlocks whole shaInit bs) whole (bs.drop (64 * whole))

end Sys2Proof.Machine
end

