-- ==== Sys2Proof/Machine/Reply.lean ====
section
/-! DEFINITION. Replies and acknowledgements at the requester (R126, R138, R173, R281), hit marks and freezing (R212–R214),
and the fabric response timeout (R25). -/

namespace Sys2Proof.Machine

/-! ### Replies -/

/-- The core remembers the scope of the last four cells that replied to the thread (R293). -/
def State.rememberScope (s : State) (t pa sc : Nat) : State :=
  s.modCtx t fun c =>
    let l := (c.scopeMem.filter fun e => e.1 ≠ pa) ++ [(pa, sc)]
    { c with scopeMem := l.drop (l.length - 4) }

/-- The thread is parked on this request: its instruction has not completed (R281). -/
def Ctx.waitsFor (c : Ctx) (m : Msg) : Bool :=
  match c.park with
  | .reply k | .nestEnd k _ | .scope k _ _ _ => k = m.id
  | _ => false

/-- The instruction completes with its fill: acquire-side instructions invalidate the data cache (R138, R293, R301), an
acquiring atomic counts as a synchronising load that parked and makes its lfence (R177, R289), and a release-side one that has
read its cell's scope makes its fence (R293). -/
def State.completeWait (s : State) (m : Msg) (v : Word) : State :=
  let core := (s.ctx m.tid).core
  let go (s : State) : State := s.modCtx m.tid fun c => { c with park := .none, limit := none }
  match m.op with
  | .joinWait => match (s.ctx m.tid).place with
    | .setAside d =>
      let saved := (s.ctx m.tid).record.isSome
      (s.modCtx m.tid fun c => { c with park := .joined, place := .inbound d, chuckAt := (s.core d).cycle }).modCore d fun c =>
        { c with inbound := c.inbound ++ [m.tid],
                 inboundSpill := if saved then c.inboundSpill ++ [m.tid] else c.inboundSpill }
    | _ => go (s.invalidateCache core)
  | .loadSync _ _ | .acq | .call _ | .arriveWait | .sbWait _ | .ringResv _ | .ringWait _ | .ringFree _ =>
    go (s.invalidateCache core)
  | .tryacq => if v = 1 then go (s.invalidateCache core) else go s
  | .amo _ _ _ _ => (s.invalidateCache core).fenceThen m.tid .lfence m.aux.toNat .done
  | .scopeRead => (match (s.ctx m.tid).park with
    | .scope _ req parks lim => (s.limitTo m.tid lim (s.ctlTime m.tid)).releaseFence m.tid v.toNat req parks
    | _ => s)
  | _ => go s

/-- The trap of a refused access whose instruction is still parked: the destination is as it was (R281). -/
def State.refuseAt (s : State) (m : Msg) (t : TrapRec) : State :=
  (match m.dst with
    | some r => s.unpend m.tid m.core m.fn r
    | none => s).trapAt m.tid { t with orig := 0 }

/-- What word 1 of a pair waits for beside word 0 has come (R238, R347). -/
def State.alsoDone (s : State) (t k : Nat) : State :=
  s.modCtx t fun c => { c with also := if c.also = some k then none else c.also }

/-- A refusal reaches the requester: a trap of origin 0 at the parked instruction, whose destination stays as it was,
or of origin 1 later (R281). -/
def State.refuse (s : State) (m : Msg) (t : TrapRec) (waiting : Bool) : State :=
  if waiting then s.refuseAt m t
  else
    let e := { t with orig := 1 }
    let s1 := match m.dst with
      | some r => s.deliverError m.tid m.core m.fn r e m.id
      | none => s
    let s2 := if m.op = .claim true then
        [Reg.i 0, Reg.i 1, Reg.i 2, Reg.i 3].foldl (fun s r => s.emptyReg m.tid r (.failed e m.id)) s1
      else s1
    (s2.modCtx m.tid fun c => { c with errAcks := c.errAcks ++ [e] }).alsoDone m.tid m.id

/-- The reply of a cell, which carries its scope in `aux`; an access that was refused before it reached the cell has no scope
(R158, R293). -/
def Msg.cellReply (m : Msg) : Bool := m.op.isCell && m.aux.toNat < 64

/-- The fill of g61 waits for a partner with room in its link (R130). -/
def State.linkWaits (s : State) (m : Msg) : Bool :=
  m.dst = some (.g 61) && (match m.loc with
    | .back (.error _) => false
    | _ => true) && (match s.partner m.tid ((s.ctx m.tid).vcore + 1) with
    | some p => decide (2 ≤ (s.ctx p).chain.length)
    | none => true)

/-- REPLY_FILL: the reply of a request reaches its thread, wherever its context is (R126, R163, R178). -/
def State.replyFill (s : State) (id : Nat) : State :=
  match s.msg id with
  | none => s
  | some m =>
    if (s.waitBufs.any fun w => w.first = id) ∨ ¬ m.arrived then s
    else if (s.ctxs.look m.tid).isNone then (match m.op, m.loc with
      | .depaWait _ _ _, _ => s
      | _, .back _ => s.dropMsg id
      | _, _ => s)
    else if s.linkWaits m then s
    else
    let waiting := (s.ctx m.tid).waitsFor m
    let arrive : State :=
      let s1 := s.dropMsg id
      let s2 := if m.counted then s1.uncountStore m.tid m.scope else s1
      if m.cellReply then s2.rememberScope m.tid m.pa m.aux.toNat else s2
    match m.loc with
    | .back (.value v) =>
      let s1 := if m.op = .scopeRead then arrive.rememberScope m.tid m.pa v.toNat else arrive
      let s2 := match m.dst with
        | some r => s1.deliver m.tid m.core m.fn r v
        | none => s1
      ((if waiting then s2.completeWait m v else s2).alsoDone m.tid id).markTo m.tid m.issued m.hit waiting
    | .back (.chunk r c e0 e1 e2 e3) => arrive.claimReply m (m.op = .claim true) r c e0 e1 e2 e3
    | .back (.line data) =>
      let s1 := arrive.modCtx m.tid fun c => { c with sha := shaCompress c.sha data, folded := c.folded + 1 }
      if waiting then s1.completeWait m 0 else s1
    | .back (.error t) => if m.dst.isSome ∨ waiting then arrive.refuse m t waiting else s
    | _ => s

/-- STORE_ACK_ARRIVE: the acknowledgement of a store, or of a release-side operation, which may carry an error (R138,
R166, R170, R173). -/
def State.ackArrive (s : State) (id : Nat) : State :=
  match s.msg id with
  | none => s
  | some m =>
    if ¬ m.arrived then s
    else if (s.ctxs.look m.tid).isNone then
      (match m.op, m.loc with
      | .depaWait _ _ _, _ => s
      | _, .back (.error _) => if m.tid = 0 then (s.dropMsg id).vector m.fn 64 else s.dropMsg id
      | _, .back _ => s.dropMsg id
      | _, _ => s)
    else
    let arrive : State :=
      let s1 := s.dropMsg id
      let s2 := if m.counted then s1.uncountStore m.tid m.scope else s1
      if m.cellReply then s2.rememberScope m.tid m.pa m.aux.toNat else s2
    match m.loc with
    | .back .ack =>
      let s1 := match m.op with
        | .store n v => arrive.modCore m.core fun c => c.storeCached m.pa n v.toNat m.perf
        | _ => arrive
      s1.markTo m.tid m.issued m.hit false
    | .back (.error t) =>
      if m.dst.isSome ∨ (s.ctx m.tid).waitsFor m then s
      else arrive.modCtx m.tid fun c => { c with errAcks := c.errAcks ++ [{ t with orig := 1 }] }
    | _ => s

/-- A request goes to bank `b` of a die's shared SRAM (R14). -/
def State.toBank (s : State) (m : Msg) (die b : Nat) : Bool :=
  match s.target m.pa with
  | some (.sram d o) => d = die && o / 64 % 128 = b
  | _ => false

/-- PROBE_AT_BANK: a probe that has come to its bank is echoed once every request that reached the bank before it has been
performed, and every error message for one of its thread's has arrived (R175). -/
def State.probeEcho (s : State) (id : Nat) : State :=
  match s.msg id with
  | none => s
  | some m => match m.op with
    | .probe b =>
      let die := match s.target m.pa with
        | some (.sram d _) => d
        | _ => 0
      let ahead := (s.flights.takeWhile fun x => x.id ≠ id).any fun x => x.loc = .home && s.toBank x die b && x.op.translated
      let own := s.flights.any fun x => x.id < id && (x.tid = m.tid || (s.ctx m.tid).after.contains x.id) && ¬ x.counted &&
        s.toBank x die b && x.op.touch.isSome && (x.coming || (match x.loc with
          | .back (.error _) => true
          | _ => false))
      if m.loc ≠ .home ∨ ahead = true ∨ own = true then s else s.dropMsg id
    | _ => s

/-- PROBE_AT_BANK (R175). -/
def execProbeAtBank (msg : Nat) (s : State) : Host.Outcome State Fault Refusal := .next (s.probeEcho msg)

/-! ### Fabric response timeout (R25) -/

/-- The SEQ of the newest fabric-error record written since `from_` ns, or all ones (R25). -/
def State.feSince (s : State) (from_ : Nat) : Nat :=
  match s.feLog.getLast? with
  | some r => if from_ ≤ fld r 160 64 then fld r 224 32 else 0xFFFF_FFFF
  | none => 0xFFFF_FFFF

/-- 2^RTOLOG cycles of a core have passed, but for those in which the thread's timeouts were held, since a start (R25, R42,
R214). -/
def State.timedOut (s : State) (t core : Nat) (x : Start) : Bool :=
  2 ^ s.rtolog ≤ (s.core core).cycle - x.cycle - ((s.ctx t).heldCycles - x.held)

/-- The fence-timeout trap of a fence or request with a start (R25, R206). -/
def State.timeoutTrap (s : State) (t : Nat) (x : Start) (scope : Nat) : TrapRec :=
  TrapRec.make 0x09 (s.ctx t).ipc (word (s.feSince x.wall + scope * 2 ^ 32)) 0

/-- A request stands on a wait list of its home, itself or with the one it was combined into (R31, R146). -/
def State.listed (s : State) (m : Msg) : Bool :=
  m.loc = .waiting || (m.loc = .merged && s.waitBufs.any fun w => w.second = m.id && (match s.msg w.first with
    | some x => x.loc = .waiting
    | none => false))

/-- A request of the thread that expects a reply has had none for the fabric response timeout: it is neither on a wait list
nor back (R25). -/
def State.lateRequest (s : State) (t : Nat) : Option Msg :=
  s.flights.find? fun m => m.tid = t && (m.dst.isSome || (s.ctx t).waitsFor m) && s.timedOut t m.core m.born &&
    ¬ s.listed m && (match m.loc with
      | .back _ => ¬ m.arrived
      | .grid _ _ | .switch _ _ _ | .merged | .home | .waiting | .refused | .lost => true)

/-- An access held in M1 behind a lost store goes on: the acknowledgement never comes, and the store stays counted (R25,
R166, notes/assumptions/121.md). -/
def State.lostStore (s : State) (t : Nat) : Option Msg :=
  match (s.ctx t).park with
  | .held h n _ => ((s.holder t h.pa n).bind s.msg).filter fun m => m.loc = .lost && m.dst.isNone && s.timedOut t m.core m.born
  | _ => none

/-- FABRIC_RESPONSE_TIMEOUT: the sub-counts or probe echoes of the fence that the thread waits in, or a request of the thread
that expects a reply, have been waited for the fabric response timeout, which ends in the fence-timeout trap: at the
instruction that is parked on it, else at the reader of its register or the next fence (R25, R206, R281, R291). The timeouts
of a frozen thread are held, but for a step (R214, R215). -/
def State.responseTimeout (s : State) (t : Nat) : State :=
  let c := s.ctx t
  if c.stays then s
  else
    let requests : State := match s.lateRequest t, s.lostStore t with
      | some m, _ => (s.dropMsg m.id).refuse m (s.timeoutTrap t m.born m.scope) (c.waitsFor m)
      | none, some m => s.dropMsg m.id
      | none, none => s
    match c.park with
    | .fence form scope _ =>
      if form = .lfence ∨ s.storesDone t scope = true ∨ s.timedOut t c.core c.waitFrom = false then requests
      else
        { s with flights := s.flights.filter fun m => m.tid ≠ t || (match m.op with
          | .probe _ => false
          | _ => true) }.trapAt t (s.timeoutTrap t c.waitFrom scope)
    | _ => requests

/-- FABRIC_RESPONSE_TIMEOUT (R25). -/
def execFabricResponseTimeout (tid : Nat) (s : State) : Host.Outcome State Fault Refusal := .next (s.responseTimeout tid)

/-- HOST_POSTED_WRITE: the oldest store of the outbound queue reaches host memory (R180). -/
def execHostPostedWrite (s : State) : Host.Outcome State Fault Refusal :=
  .next (match s.hostOut with
    | [] => s
    | (pa, n, v) :: rest => { s.wr pa n v with hostOut := rest })

/-- TLB_WALK_COMPLETE (R68). -/
def execTlbWalkComplete (walk : Nat) (s : State) : Host.Outcome State Fault Refusal := .next (s.walkDone walk)

end Sys2Proof.Machine
end

