-- ==== Sys2Proof/Machine/System.lean ====
section
/-! DEFINITION. System instructions (R266–R279). -/

namespace Sys2Proof.Machine

/-- The format record of ctl.fmtk. -/
def Ctx.fmt (c : Ctx) (k : BitVec 2) : BitVec 16 :=
  if k = 0 then c.fmt0 else if k = 1 then c.fmt1 else if k = 2 then c.fmt2 else c.fmt3

/-- A control register as it reads (R267); ctl.time and ctl.wall as of stage OP. -/
def State.ctlRead (s : State) (t : Nat) (c : Ctx) (r : CtlReg) : Word :=
  match r with
  | .status => c.status
  | .seg => c.seg
  | .tvec => c.tvec
  | .tdeleg => c.tdeleg
  | .tinfo => c.tinfo
  | .taddr => c.taddr
  | .time => word (s.ctlTime t)
  | .wall => word s.wall
  | .fmt k => zext (c.fmt k)
  | .scl => c.scl
  | .vshape => c.vshape
  | .asid => zext c.asid
  | .skid => c.skid

/-- What a write of a control register does (R140, R267). -/
inductive CtlWrite where
  | done (c : Ctx)
  | privilege
  | illegal
  deriving DecidableEq, Repr

/-- A write of a control register at a level, masked to the bits it holds (R140, R267). -/
def Ctx.ctlWrite (c : Ctx) (lvl : Level) (r : CtlReg) (v : Word) : CtlWrite :=
  match r with
  | .status | .time | .wall | .skid => .done c
  | .seg =>
    if lvl = .u then .privilege
    else if 64 < fld v 8 6 + fld v 20 7 then .illegal
    else .done { c with seg := v &&& 0xFFFF_FF00_07F0_3F00 }
  | .tvec => .done { c with tvec := v &&& ~~~3#64 }
  | .tdeleg => .done { c with tdeleg := v &&& 0x003E_FFFE }
  | .tinfo => .done { c with tinfo := v }
  | .taddr => .done { c with taddr := v }
  | .fmt k =>
    let f : BitVec 16 := v.setWidth 16
    .done (if k = 0 then { c with fmt0 := f } else if k = 1 then { c with fmt1 := f }
      else if k = 2 then { c with fmt2 := f } else { c with fmt3 := f })
  | .scl => .done { c with scl := v }
  | .vshape => .done { c with vshape := v }
  | .asid => if lvl = .f then .done { c with asid := v.setWidth 10 } else .privilege

/-- ctl.rd rd, ctl (R266). -/
def execCtlRd (rd : Reg) (c : CtlReg) (s : State) : Host.Outcome State Fault Refusal :=
  .next (s.compute rd [] (s.ctlRead s.iss.tid s.opCtx c))

/-- An instruction whose level is checked in stage IS, before its operands are read (R9, R249). -/
def State.guarded (s : State) (allowed : Bool) (go : State → State) : State :=
  if allowed then go s else s.privilege

/-- Whether a level may write a control register (R267). -/
def ctlWritable (c : CtlReg) (lvl : Level) : Bool :=
  match c with
  | .seg => lvl ≠ .u
  | .asid => lvl = .f
  | .status | .tvec | .tdeleg | .tinfo | .taddr | .time | .wall | .fmt _ | .scl | .vshape | .skid => true

/-- ctl.wr ctl, ra (R266). -/
def execCtlWr (c : CtlReg) (ra : Reg) (s : State) : Host.Outcome State Fault Refusal :=
  .next (s.guarded (ctlWritable c (s.ctx s.iss.tid).lvl) fun s => s.operands [ra] [] fun s' =>
    let k := s'.ctx s'.iss.tid
    match k.ctlWrite k.lvl c (s.src ra) with
    | .done k' => s'.setCtx s'.iss.tid k'
    | .privilege => s'.privilege
    | .illegal => s'.illegal)

/-- eret: the exchange of PC and ctl.tvec leaves ctl.tvec at the eret (R207, R270, notes/assumptions/16.md). -/
def execEret (s : State) : Host.Outcome State Fault Refusal :=
  .next (s.operands [] [] fun s =>
    if (s.ctx s.iss.tid).intrap then s.returnFromTrap s.iss.tid s.iss.w else s.illegal)

/-- brk imm (R275). -/
def execBrk (imm : BitVec 13) (s : State) : Host.Outcome State Fault Refusal :=
  .next (s.operands [] [] fun s => s.raise 0x14 s.iss.w (zext imm))

/-- sys imm: a service message with g1 to g4, which stage OP reads, and the thread parks until an eretx names it (R127,
R269). -/
def execSys (imm : BitVec 13) (s : State) : Host.Outcome State Fault Refusal :=
  .next (s.operands [g 1, g 2, g 3, g 4] [] fun s' =>
    let t := s'.iss.tid
    let c := s'.ctx t
    let m := s'.trapMail t { c with trapf := 0 }
    (s'.modCtx t fun c => { c with park := .sys }).mailTo c.part
      { m with pc := s'.iss.w, taddr := s.src (g 1), tinfo := zext imm, x5 := s.src (g 2), x6 := s.src (g 3),
               x7 := s.src (g 4) })

/-- halt (R279). -/
def execHalt (s : State) : Host.Outcome State Fault Refusal :=
  .next (s.operands [] [] fun s => s.modCtx s.iss.tid fun c => { c with park := .halted })

/-- The invalidation of tlb.inv and S2INV, steps 1 and 2: every entry that matches leaves every TLB of the partition; walks
of the ASID complete against the tables as they then stand (R69). -/
def State.dropTlb (s : State) (part : Nat) (hit : TlbEntry → Bool) : State :=
  let p := s.partition part
  { s with cores := s.cores.map fun e =>
      if p.base ≤ e.1 ∧ e.1 < p.base + p.len then (e.1, { e.2 with tlb := e.2.tlb.filter fun x => ¬ hit x }) else e }

/-- The entries of the TLBs of a partition that match (R69). -/
def State.tlbOf (s : State) (part : Nat) (hit : TlbEntry → Bool) : List TlbEntry :=
  let p := s.partition part
  ((s.cores.filter fun e => p.base ≤ e.1 && e.1 < p.base + p.len).map fun e => e.2.tlb.filter hit).flatten

/-- The entry's page holds an address of its ASID. -/
def TlbEntry.maps (e : TlbEntry) (m : Msg) : Bool :=
  e.asid = m.asid && e.vpage ≤ m.va.toNat / 4096 && m.va.toNat / 4096 < e.vpage + e.pages

/-- An access that has not been performed matches, or was translated through an entry that is removed (R69 step 3). -/
def Msg.goesThrough (m : Msg) (asid : Nat) (gone : List TlbEntry) (hit : Msg → Bool) : Bool :=
  m.asid = asid && m.op.translated && (hit m || gone.any fun e => e.maps m) && (match m.loc with
    | .back _ | .lost => false
    | .grid _ _ | .switch _ _ _ | .merged | .home | .waiting | .refused => true)

/-- The requests that step 3 of R69 waits for: in flight, or still held back by their instruction. -/
def State.through (s : State) (asid : Nat) (gone : List TlbEntry) (hit : Msg → Bool) : List Nat :=
  ((s.flights ++ s.unsent).filter fun m => m.goesThrough asid gone hit).map (·.id)

/-- The accesses of TCM pipelines that it waits for, with their cores (R69, R169). -/
def State.throughTcm (s : State) (asid : Nat) (gone : List TlbEntry) (hit : Msg → Bool) : List (Nat × Delayed) :=
  (s.cores.map fun e => (e.2.delayed.filter fun d => (match d with
    | .wb _ m => m.goesThrough asid gone hit
    | .hVal _ _ _ _ | .hEmpty _ _ _ _ => false)).map fun d => (e.1, d)).flatten

/-- tlb.inv ra, rb (R274). -/
def execTlbInv (ra rb : Reg) (s : State) : Host.Outcome State Fault Refusal :=
  .next (s.operands [ra, rb] [] fun s' =>
    let t := s'.iss.tid
    let c := s'.ctx t
    let first := (s.src ra).toNat / 4096
    let n := (s.src rb).toNat
    let all := n = 0 || 2 ^ 36 < n
    let hit (e : TlbEntry) : Bool := e.asid = c.asid.toNat && (all || overlap e.vpage e.pages first n)
    let s1 := s'.dropTlb c.part hit
    let gone := s'.tlbOf c.part hit
    let near (m : Msg) : Bool := all || overlap (m.va.toNat / 4096) 1 first n
    let ms := s1.through c.asid.toNat gone near
    let ds := s1.throughTcm c.asid.toNat gone near
    s1.modCtx t fun c => { c with park := if ms.isEmpty ∧ ds.isEmpty then .none else .inval ms ds })

/-! ### Acting on another thread (R271–R273, R276) -/

/-- The thread in a slot of a core, or saved from it (R271). -/
def State.named (s : State) (core slot : Nat) : Option Nat :=
  (s.inSlot core slot).or
    ((s.ctxs.find? fun e => ¬ e.2.place.resident && e.2.core = core && e.2.slotNo = slot && (match e.2.place with
      | .chuck _ _ | .save _ _ | .ckpt _ _ => true
      | _ => false)).map (·.1))

/-- A target is held: parked after a posted trap, in sys, or halted (R271). -/
def Ctx.held (c : Ctx) : Bool :=
  match c.park with
  | .trapped | .sys | .halted => true
  | _ => false

/-- The checks of an instruction that names a target in RB; then `effect` has the target (R271). -/
def State.targeted (s : State) (rb : Word) (effect : Nat → Option Nat → State → State) : State :=
  let c := s.ctx s.iss.tid
  let core := fld rb 4 12
  if s.partOf core ≠ some c.part then s.raise 0x03 rb 1
  else effect core (s.named core (fld rb 0 4)) s

/-- Stage IS lets an instruction of the supervisor go on at level S or F (R9, R249). -/
def State.atS (s : State) (go : State → State) : State := s.guarded ((s.ctx s.iss.tid).lvl ≠ .u) go

/-- The request to the target's core is answered: the executing thread parks until the reply fills rd (R271). -/
def State.answered (s : State) (rd : Option Reg) (v : Word) : State :=
  s.sendPark { s.request s.iss.tid .none 0 0 none with loc := .back (.value v) } rd

/-- ctl.rdx rd, ctl, rb (R272). -/
def execCtlRdx (rd : Reg) (c : CtlReg) (rb : Reg) (s : State) : Host.Outcome State Fault Refusal :=
  .next (s.atS fun s => s.operands [rb] [rd] fun s' => s'.targeted (s.src rb) fun _ tg s' =>
    s'.answered (some rd) (match tg with
      | some t => if (s'.ctx t).held then s'.ctlRead t (s'.ctx t) c else 0
      | none => 0))

/-- ctl.wrx ctl, ra, rb (R272). -/
def execCtlWrx (c : CtlReg) (ra rb : Reg) (s : State) : Host.Outcome State Fault Refusal :=
  .next (s.atS fun s => s.operands [ra, rb] [] fun s' => s'.targeted (s.src rb) fun _ tg s' =>
    match tg with
    | some t =>
      if (s'.ctx t).held then match (s'.ctx t).ctlWrite .s c (s.src ra) with
        | .done k => (s'.setCtx t k).answered none 0
        | .privilege => s'.privilege
        | .illegal => s'.illegal
      else s'.answered none 0
    | none => s'.answered none 0)

/-- eretx rd, ra, rb (R273). -/
def execEretx (rd ra rb : Reg) (s : State) : Host.Outcome State Fault Refusal :=
  let v := s.src ra
  .next (s.atS fun s => s.operands [ra, rb] [rd] fun s' => s'.targeted (s.src rb) fun _ tg s' =>
    match tg with
    | some t =>
      let go (s : State) : State := (s.modCtx t fun c => { c with park := .none }).answered (some rd) 0
      match (s'.ctx t).park with
      | .sys | .halted => go (s'.fillReg t (.g 1) v)
      | .trapped =>
        if v = 0 then go s'
        else if fld v 0 2 ≠ 0 then s'.raise 0x04 v 4
        else go (s'.modCtx t fun c => { c with pc := v, skip := 0 })
      | _ => s'.answered (some rd) 1
    | none => s'.answered (some rd) 1)

/-- step rd, ra, rb (R215, R276). -/
def execStep (rd ra rb : Reg) (s : State) : Host.Outcome State Fault Refusal :=
  .next (s.atS fun s => s.operands [ra, rb] [rd] fun s' => s'.targeted (s.src rb) fun core tg s' =>
    let n := min 4095 (s.src ra).toNat
    if n = 0 then
      let cl := s'.clusterOf core
      (((List.range 8).map (s'.clusterCore cl)).foldl (fun s d => s.modCore d fun c => { c with release := true }) s').dst rd 0
    else match tg with
      | some t =>
        if (s'.ctx t).frozen ∧ (s'.ctx t).stepLeft = none then
          let id := s'.nextMsg
          let s1 := (s'.resumeLimits t).modCtx t fun c => { c with stepLeft := some n, stepper := some id }
          s1.sendPark { s1.request s1.iss.tid .none 0 0 none with loc := .home } (some rd)
        else s'.dst rd 1
      | none => s'.dst rd 1)

/-! ### Watchpoints (R212, R277) -/

/-- Whether a thread at level U may change a watchpoint (R277). -/
def State.mayChange (s : State) (cl wp : Nat) : Bool :=
  let c := s.ctx s.iss.tid
  c.lvl ≠ .u || (match (s.cluster cl).wps.look wp with
    | none => true
    | some w => ¬ w.stopAct && w.asid = c.asid.toNat)

/-- wp.set ra, rb (R277). -/
def execWpSet (ra rb : Reg) (s : State) : Host.Outcome State Fault Refusal :=
  let va := s.src ra
  let w := s.src rb
  .next (s.operands [ra, rb] [] fun s' =>
    let t := s'.iss.tid
    let c := s'.ctx t
    let cl := s'.clusterOf c.core
    let wp := fld w 0 2
    if (c.lvl = .u ∧ bit w 8) ∨ ¬ s'.mayChange cl wp then s'.privilege
    else s'.reach va 8 .read false fun pa _ s =>
      if s.watchCluster pa ≠ some cl then s.raise 0x03 va 8
      else
        let m := s.request t .none va pa none
        let k := s.violation m.accessor pa 8
        if k ≠ 0 then let (s1, r) := s.violate m k; s1.raiseRec r
        else if fld w 2 3 = 0 then s.modCluster cl fun x => { x with wps := x.wps.del wp }
        else
          let e : Watch := ⟨pa, va, c.asid.toNat, c.fn, c.lvl, c.part, bit w 2, bit w 3, bit w 4, bit w 8⟩
          s.modCluster cl fun x => { x with wps := x.wps.put wp e })

/-- wp.clr ra (R277). -/
def execWpClr (ra : Reg) (s : State) : Host.Outcome State Fault Refusal :=
  .next (s.operands [ra] [] fun s' =>
    let cl := s'.clusterOf (s'.ctx s'.iss.tid).core
    let wp := fld (s.src ra) 0 2
    if s'.mayChange cl wp then s'.modCluster cl fun x => { x with wps := x.wps.del wp } else s'.privilege)

end Sys2Proof.Machine
end

