-- ==== Sys2Proof/Machine/Cells.lean ====
section
/-! DEFINITION. Sync cells and byte barriers: the instructions (R292–R297) and the home bank (R142–R163). -/

namespace Sys2Proof.Machine

/-! ### The record (R143, R144) -/

/-- Doubleword `k` of a cell, and a field of it. -/
def State.cw (s : State) (b k : Nat) : Word := s.rd64 (b + 8 * k)
def State.cf (s : State) (b k lo len : Nat) : Nat := fld (s.cw b k) lo len
def State.setCf (s : State) (b k lo len v : Nat) : State := s.wr64 (b + 8 * k) (withFld (s.cw b k) lo len v)

def State.cMode (s : State) (b : Nat) : Nat := s.cf b 0 60 2
def State.cPin (s : State) (b : Nat) : Bool := bit (s.cw b 0) 59
def State.cScope (s : State) (b : Nat) : Nat := s.cf b 0 56 3
def State.th1 (s : State) (b : Nat) : Nat := s.cf b 0 40 8
def State.th2 (s : State) (b : Nat) : Nat := s.cf b 0 32 8
def State.th3 (s : State) (b : Nat) : Nat := s.cf b 0 24 8
def State.cHeld (s : State) (b : Nat) : Bool := bit (s.cw b 2) 63
def State.cNext (s : State) (b : Nat) : Nat := s.cf b 1 40 24
def State.cServe (s : State) (b : Nat) : Nat := s.cf b 1 16 24
def State.cDlv (s : State) (b : Nat) : Bool := bit (s.cw b 3) 63
def State.cBusy (s : State) (b : Nat) : Bool := bit (s.cw b 2) 63
def State.cPhase (s : State) (b : Nat) : Nat := s.cf b 1 0 32
def State.cArrived (s : State) (b : Nat) : Nat := s.cf b 1 32 16
def State.cParties (s : State) (b : Nat) : Nat := s.cf b 1 48 16
def State.setMode (s : State) (b m : Nat) : State := s.setCf b 0 60 2 m
def State.setMa (s : State) (b v : Nat) : State := s.setCf b 0 16 8 (min 255 v)
def State.setMb (s : State) (b v : Nat) : State := s.setCf b 0 8 8 (min 255 v)

/-- Home-bank cycles: 2.0 GHz (R7, notes/assumptions/17.md). -/
def State.bankNow (s : State) : Nat := 2 * s.wall

/-- Reply to a cell operation with the cell's scope and mode, which the core remembers (R158, R293). -/
def State.cellAnswer (s : State) (m : Msg) (r : Reply) : State :=
  s.answer { m with aux := word (s.cScope m.pa + 8 * s.cMode m.pa) } r

/-- A sync-state or delegate fault (R206, R281). -/
def State.cellFault (s : State) (m : Msg) (code reason : Nat) : State :=
  s.cellAnswer m (.error (TrapRec.make code m.va (word reason) 0))

/-! ### Locks (R149–R152) -/

/-- Waiters of a lock, in order of arrival: plain acquirers and sections not yet granted. -/
def State.lockWaiters (s : State) (b : Nat) : List Msg :=
  (s.cellWaiters b).filter fun m => match m.op with
    | .acq => true
    | .call _ => m.aux = 0
    | _ => false

/-- The waiting sections of a cell that no grant has reached. -/
def State.callWaiters (s : State) (b : Nat) : List Msg :=
  (s.cellWaiters b).filter fun m => match m.op with
    | .call _ => m.aux = 0
    | _ => false

/-- Forward a granted section to the delegate core (R153, R155). -/
def State.forward (s : State) (m : Msg) : State :=
  let d := s.cf m.pa 3 51 12
  (s.queueUp { m with aux := 1 }).modCore d fun c => { c with sections := c.sections ++ [m.id] }

/-- HandTo: the holder is recorded and its grant sent (R150). -/
def State.handTo (s : State) (m : Msg) : State :=
  let b := m.pa
  let rec_ (s : State) (dlg : Nat) : State :=
    { ((s.setCf b 2 62 2 (2 + dlg)).setCf b 2 16 12 m.core).setCf b 2 12 4 m.slot with holders := s.holders.put b m.tid }
  match m.op with
  | .call _ => (rec_ s 1).forward m
  | _ =>
    let s1 := rec_ s 0
    s1.cellAnswer m (.value (match m.ticket with
      | some t => word t
      | none => 0xFFFF_FFFF))

/-- WPEAK after an acquire that parks (R149). -/
def State.notePeak (s : State) (b : Nat) : State :=
  s.setMa b (max (s.cf b 0 16 8) (s.lockWaiters b).length)

/-- An acquire, plain or of a section, at the bank (R149). -/
def State.acquire (s : State) (m : Msg) : State :=
  let b := m.pa
  if s.cMode b = 0 then
    if ¬ s.cHeld b then s.handTo { m with ticket := none }
    else (s.queueUp { m with ticket := none, aux := 0 }).notePeak b
  else
    let t := s.cNext b
    let s1 := s.setCf b 1 40 24 (t + 1)
    if ¬ s.cHeld b ∧ s.cServe b = t then s1.handTo { m with ticket := some t }
    else (s1.queueUp { m with ticket := some t, aux := 0 }).notePeak b

/-- tryacq succeeds only where an acquire would be granted at once (R149). -/
def State.tryAcquire (s : State) (m : Msg) : State :=
  let b := m.pa
  let ok := ¬ s.cHeld b && (s.cMode b = 0 || s.cServe b = s.cNext b)
  if ok then
    let s1 := if s.cMode b = 0 then s else s.setCf b 1 40 24 (s.cNext b + 1)
    let s2 := { ((s1.setCf b 2 62 2 2).setCf b 2 16 12 m.core).setCf b 2 12 4 m.slot with holders := s1.holders.put b m.tid }
    s2.cellAnswer m (.value 1)
  else s.cellAnswer m (.value 0)

/-- Give tickets to the wait list, oldest first, as a lock leaves FLAG (R150, R151). -/
def State.ticketAll (s : State) (b mode : Nat) : State :=
  let n := s.cNext b
  let s1 := (s.setMode b mode).setCf b 1 16 24 n
  let ws := s.lockWaiters b
  (ws.zipIdx.foldl (fun (s : State) e => s.setMsg { e.1 with ticket := some ((n + e.2) % 2 ^ 24) }) s1).setCf b 1 40 24
    (n + ws.length)

/-- Tickets become wait-list entries in ticket order as a lock returns to FLAG by a pin (R151). -/
def State.unticketAll (s : State) (b : Nat) : State :=
  { (s.lockWaiters b).foldl (fun (s : State) m => s.setMsg { m with ticket := none }) (s.setMode b 0) with
    cancelled := s.cancelled.del b }

/-- A deferred pin takes effect at a release (R151, R296). -/
def State.applyPin (s : State) (b : Nat) : State :=
  match s.pins.look b with
  | none => s
  | some mode =>
    let s1 := { s with pins := s.pins.del b }
    if s.cMode b = 0 ∧ mode ≠ 0 then s1.ticketAll b mode
    else if s.cMode b ≠ 0 ∧ mode = 0 then s1.unticketAll b
    else s1.setMode b mode

/-- Skip cancelled tickets (R150). -/
def State.skipCancelled (s : State) (b : Nat) : Nat → State
  | 0 => s
  | n + 1 =>
    let t := s.cServe b
    let cs := (s.cancelled.look b).getD []
    if t ≠ s.cNext b ∧ cs.contains t then
      ({ s with cancelled := s.cancelled.put b (cs.filter (· ≠ t)) }.setCf b 1 16 24 (t + 1)).skipCancelled b n
    else s

/-- The lock is left free (R150). -/
def State.leaveFree (s : State) (b : Nat) : State :=
  { s.setCf b 2 62 2 0 with holders := s.holders.del b }

/-- Release(c) (R150): a holder granted under a ticket retires it, also where a pin takes the cell to FLAG. -/
def State.release (s : State) (b : Nat) : State :=
  let tk := s.cMode b ≠ 0
  let w := (s.lockWaiters b).length
  let peak := s.cf b 0 16 8
  let s1 :=
    if s.cPin b then s.applyPin b
    else
      let x := if s.cMode b = 0 ∧ s.th1 b ≤ peak then s.ticketAll b 1 else s
      if x.cMode b = 1 ∧ x.th2 b ≤ peak ∧ x.cDlv b then x.setMode b 3 else x
  let s2 := s1.setMb b (if 0 < w then 0 else s1.cf b 0 8 8 + 1)
  let s3 :=
    if s2.cMode b = 0 then
      let x := if tk then s2.setCf b 1 16 24 (s2.cServe b + 1) else s2
      match x.lockWaiters b with
      | m :: _ => x.handTo m
      | [] => x.leaveFree b
    else
      let x := if tk then s2.setCf b 1 16 24 (s2.cServe b + 1) else s2
      let y := x.skipCancelled b (((x.cancelled.look b).getD []).length + 1)
      match (y.lockWaiters b).find? fun m => m.ticket = some (y.cServe b) with
      | some m => y.handTo m
      | none =>
        let z := y.leaveFree b
        if ¬ z.cPin b ∧ z.th3 b ≤ z.cf b 0 8 8 then z.setMode b 0 else z
  s3.setMa b (s3.lockWaiters b).length

/-! ### Barriers and counters (R157–R159) -/

/-- Mode of a barrier or byte barrier at a phase completion (R158). -/
def State.phaseMode (s : State) (b skew : Nat) : State :=
  if s.cPin b then s
  else if s.cMode b = 0 ∧ skew ≤ s.th1 b ∧ s.th2 b ≤ s.cParties b then s.setMode b 2
  else if s.cMode b = 2 ∧ (s.th3 b ≤ skew ∨ s.cParties b < s.th2 b) then s.setMode b 0
  else s

/-- sb.wait p is over when (PHASE − p) mod 2^32 lies in [1, 2^31] (R160). -/
def phaseOver (phase p : Nat) : Bool :=
  let d := (phase + 2 ^ 32 - p % 2 ^ 32) % 2 ^ 32
  1 ≤ d && d ≤ 2 ^ 31

/-- Phase completion (R157): SKEW, PHASE, ARRIVED, the mode, and every waiter of the phase. -/
def State.completePhase (s : State) (b : Nat) : State :=
  let ph := s.cPhase b
  let skew := min 255 ((s.bankNow + 2 ^ 32 - s.cf b 3 32 32) % 2 ^ 32 / 16)
  let s1 := (((s.setMa b skew).setCf b 1 0 32 (ph + 1)).setCf b 1 32 16 0).phaseMode b skew
  (s1.cellWaiters b).foldl (fun (s : State) m => match m.op with
    | .arriveWait => if m.ticket = some ph then s.cellAnswer m (.value (word ph)) else s
    | .sbWait p => if phaseOver (s.cPhase b) p.toNat then s.cellAnswer m (.value (word (s.cPhase b))) else s
    | _ => s) s1

/-- One arrival counts; the first of a phase sets TFIRST (R157). -/
def State.countArrival (s : State) (b : Nat) : State :=
  let n := s.cArrived b
  let s1 := if n = 0 then s.setCf b 3 32 32 s.bankNow else s
  s1.setCf b 1 32 16 (n + 1)

/-- A barrier arrival: arrive is answered with its phase; arrive.wait waits for it (R157, R294). -/
def State.barrierArrive (s : State) (m : Msg) : State :=
  let b := m.pa
  let ph := s.cPhase b
  let s1 := s.countArrival b
  let s2 := match m.op with
    | .arriveWait => s1.queueUp { m with ticket := some ph }
    | _ => s1.cellAnswer m (.value (word ph))
  if s2.cArrived b = s2.cParties b then s2.completePhase b else s2

/-- ARATE: arrivals of the last 64 home-bank cycles (R145). -/
def State.countRate (s : State) (b : Nat) (n : Nat) : State :=
  let now := s.bankNow
  let l := (((s.arrivals.look b).getD []).filter fun c => now < c + 64) ++ List.replicate n now
  { s with arrivals := s.arrivals.put b l }.setMa b l.length

/-- The rate of a counter as an access finds it: its window has moved on (R145). -/
def State.freshRate (s : State) (pa : Nat) : State :=
  if s.isCell pa ∧ s.cellKind (recordOf pa) = 2 then s.countRate (recordOf pa) 0 else s

/-- Counter mode by rate (R159): FLAG to TREE at an arrival, TREE to FLAG at any operation. -/
def State.rateMode (s : State) (b : Nat) (arrival : Bool) : State :=
  if s.cPin b then s
  else if s.cMode b = 0 ∧ arrival ∧ s.th1 b ≤ s.cf b 0 16 8 then s.setMode b 2
  else if s.cMode b = 2 ∧ s.cf b 0 16 8 ≤ s.th3 b then s.setMode b 0
  else s

/-- Every waiter of a counter wakes as VALUE becomes 0, the dispatcher's among them (R79, R159). -/
def State.counterZero (s : State) (b : Nat) : State :=
  if s.cw b 1 ≠ 0 then s
  else (s.cellWaiters b).foldl (fun (s : State) m => match m.op with
    | .arriveWait | .depaWait _ _ _ => s.cellAnswer m (.value 0)
    | _ => s) s

/-- A counter arrival (R159): it waits while a section runs. -/
def State.counterArrive (s : State) (m : Msg) (add : Word) : State :=
  let b := m.pa
  if s.cBusy b then s.queueUp m
  else
    let old := s.cw b 1
    let s1 := (s.countRate b 1).rateMode b true
    ((s1.wr64 (b + 8) (old + add)).cellAnswer m (.value old)).counterZero b

/-- arrive.wait on a counter; the dispatcher's wait is none of the operations that may move the mode (R79, R159). -/
def State.counterWait (s : State) (m : Msg) : State :=
  let b := m.pa
  let s1 := if m.op = .arriveWait then (s.countRate b 0).rateMode b false else s
  if s1.cw b 1 = 0 then s1.cellAnswer m (.value 0) else s1.queueUp m

/-- The sections of a counter: one at a time (R153, R159). -/
def State.counterCall (s : State) (m : Msg) : State :=
  let b := m.pa
  let s0 := (s.countRate b 0).rateMode b false
  if ¬ s0.cBusy b then (s0.setCf b 2 63 1 1).forward m
  else
    let s1 := s0.queueUp { m with aux := 0 }
    if ¬ s1.cPin b ∧ s1.cMode b ≠ 3 ∧ s1.th2 b ≤ (s1.callWaiters b).length ∧ s1.cDlv b then s1.setMode b 3 else s1

/-- The idle count of a counter after a section, and its mode (R145, R159). -/
def State.counterIdle (s : State) (b : Nat) (more : Bool) : State :=
  let s1 := (s.setCf b 2 63 1 0).setMb b (if more then 0 else s.cf b 0 8 8 + 1)
  if ¬ s1.cPin b ∧ s1.cMode b = 3 ∧ 8 ≤ s1.cf b 0 8 8 then s1.setMode b 0 else s1

/-- An arrival that waited for a section to end (R159). -/
def State.counterLate (s : State) (m : Msg) : State :=
  match m.op with
  | .arrive a => s.counterArrive m a
  | _ => s

/-- The arrivals that waited are performed in order (R159). -/
def State.counterLates (s : State) (b : Nat) : State := (s.cellWaiters b).foldl State.counterLate s

/-- The next section of a counter is granted (R153). -/
def State.counterNext (s : State) (b : Nat) (waiting : Option Msg) : State :=
  match waiting with
  | some m => (s.setCf b 2 63 1 1).forward m
  | none => s

/-- The section's new VALUE (R155). -/
def State.setValue (s : State) (b : Nat) (value : Option Word) : State :=
  match value with
  | some v => s.wr64 (b + 8) v
  | none => s

/-- A counter's section has ended: VALUE, the idle count, then the arrivals that waited, then the next section (R155,
R159). -/
def State.counterEnd (s : State) (b : Nat) (value : Option Word) : State :=
  let s1 := s.setValue b value
  let waiting := (s1.callWaiters b).head?
  (((s1.counterIdle b waiting.isSome).counterZero b).counterLates b).counterNext b waiting

/-! ### Delegated sections (R153–R156) -/

/-- A section's grant ends: the lock is released, or the counter's section is over (R155, R156). -/
def State.sectionOver (s : State) (b : Nat) (value : Option Word) : State :=
  (if s.cellKind b = 2 then s.counterEnd b value else s.release b).joinWake b 32

/-- A section of a registration that ends, as it now stands: one that no grant has reached leaves its list, and one that is
granted but not started gives its grant back; both fail with a delegate fault (R152, R154). -/
def State.failSection (s : State) (b id : Nat) : State :=
  match (s.msg id).filter fun m => m.loc = .waiting with
  | none => s
  | some m =>
    if m.aux = 0 then
      let s1 := s.cellFault m 0x0E 2
      match m.ticket with
      | some t => if s.cellKind b = 0 then { s1 with cancelled := s1.cancelled.put b (((s1.cancelled.look b).getD []) ++ [t]) } else s1
      | none => s1
    else if m.aux = 1 then
      let d := s.cf b 3 51 12
      ((s.cellFault m 0x0E 2).modCore d fun c => { c with sections := c.sections.filter (· ≠ m.id) }).sectionOver b none
    else s

/-- The requests of a registration that ends (R154): those that no grant has reached first, so that a grant that comes back
goes to a waiter that stays. -/
def State.failSections (s : State) (b : Nat) : State :=
  let calls := (s.cellWaiters b).filter fun m => match m.op with
    | .call _ => true
    | _ => false
  ((calls.filter fun m => m.aux = 0) ++ calls.filter fun m => m.aux ≠ 0).foldl (fun (s : State) m => s.failSection b m.id) s

/-- The registration of a cell leaves the delegate slot it names (R153). -/
def State.unregister (s : State) (b : Nat) : State :=
  let k := s.cf b 3 47 4
  if ¬ s.cDlv b then s
  else s.modCore (s.cf b 3 51 12) fun c => match c.delegates.look k with
    | none => c
    | some x =>
      let cells := x.cells.filter (· ≠ b)
      { c with delegates := if cells.isEmpty then c.delegates.del k else c.delegates.put k { x with cells := cells } }

/-- A registration stands in slot `k` of core `d`: a cell names it (R153). -/
def State.delegated (s : State) (d k : Nat) : Bool :=
  match (s.core d).delegates.look k with
  | some x => x.cells.any fun b => s.isCell b && s.cDlv b && s.cf b 3 51 12 = d && s.cf b 3 47 4 = k
  | none => false

/-- Cancel the registration of a cell (R154). -/
def State.cancelRegistration (s : State) (b : Nat) : State :=
  if ¬ s.cDlv b then s
  else
    let s1 := ((s.failSections b).unregister b).setCf b 3 63 1 0
    if s1.cMode b = 3 then s1.setMode b (if s1.cellKind b = 0 then 1 else 0) else s1

/-- Sections of a cell that are granted and have not started go to the core that it is registered on now (R153, R155). -/
def State.moveSections (s : State) (b old new : Nat) : State :=
  let ids := ((s.cellWaiters b).filter fun m => m.aux = 1 && (match m.op with
    | .call _ => true
    | _ => false)).map (·.id)
  (s.modCore old fun c => { c with sections := c.sections.filter fun i => ¬ ids.contains i }).modCore new fun c =>
    { c with sections := c.sections ++ ids }

/-- Register a delegate routine (R153): refused unless the slot is reserved to the task and holds no thread. A registration that
the cell has already is replaced. -/
def State.registerDelegate (s : State) (m : Msg) (slot : Nat) (entry : Nat) : Option State :=
  let c := s.ctx m.tid
  let s0 := s
  let s := if s0.cDlv m.pa then (s0.unregister m.pa).moveSections m.pa (s0.cf m.pa 3 51 12) m.core else s0
  let core := s.core m.core
  if core.reserved.look (slotKey c.fn slot) ≠ some c.task ∨ c.task = 0 ∨ (s.inSlot m.core slot).isSome then none
  else
    let old := (core.delegates.look slot).map (·.cells) |>.getD []
    let d : Delegate := ⟨c.task, c.part, c.fn, c.lvl, c.asid, c.seg, c.fmt0, c.fmt1, c.fmt2, c.fmt3, c.scl,
      if old.contains m.pa then old else old ++ [m.pa]⟩
    let s1 := s.modCore m.core fun x => { x with delegates := x.delegates.put slot d }
    some (s1.wr64 (m.pa + 24) (word (2 ^ 63 + m.core * 2 ^ 51 + slot * 2 ^ 47 + entry)))

/-! ### sync.init, sync.mode, sync.pol (R146, R295–R297) -/

/-- The thresholds of a kind after sync.init (R145). -/
def resetTh (kind : Nat) : Nat :=
  let (a, b, c) : Nat × Nat × Nat := match kind with
    | 0 => (2, 12, 8)
    | 2 => (16, 12, 4)
    | _ => (8, 16, 32)
  a * 2 ^ 40 + b * 2 ^ 32 + c * 2 ^ 24

/-- The trap of an expired wait on a cell (R162, R206). -/
def State.cellTimeout (s : State) (m : Msg) : TrapRec :=
  let b := m.pa
  TrapRec.make 0x0A m.va (match s.cellKind b with
    | 0 => word ((match m.ticket with | some t => t | none => 0xFFFF_FFFF) + s.cServe b * 2 ^ 32)
    | 1 => word ((match m.ticket with | some t => t | none => 0) + s.cArrived b * 2 ^ 32)
    | 2 => s.cw b 1
    | _ => word (s.cf b 2 24 40 + (match m.op with | .sbWait p => p.toNat % 2 ^ 24 | _ => 0) * 2 ^ 40)) 0

/-- The record that sync.init writes (R143, R144, R295). -/
def State.writeCell (s : State) (m : Msg) (cfg : Word) : State :=
  let b := m.pa
  let kind := fld cfg 0 2
  let sc := fld cfg 3 3
  let scope := if sc = 0 then 1 else if 5 < sc then 5 else sc
  let w0 := word (kind * 2 ^ 62 + scope * 2 ^ 56 + 2 ^ 55 + resetTh kind)
  let parties := max 1 (fld cfg 8 16)
  let w1 : Word := match kind with
    | 0 => 0
    | 2 => cfg.sshiftRight 8
    | _ => word (parties * 2 ^ 48)
  let w3 : Word := if kind = 3 then word (m.core * 2 ^ 16 + m.slot * 2 ^ 12) else 0
  let s0 := if s.isCell b then s.unregister b else s
  let s1 := (((s0.wr64 b w0).wr64 (b + 8) w1).wr64 (b + 16) 0).wr64 (b + 24) w3
  { s1.mendEcc b 32 with
    marks := insertNat s1.marks b, cancelled := s1.cancelled.del b, arrivals := s1.arrivals.del b, pins := s1.pins.del b,
    holders := if kind = 3 then s1.holders.put b m.tid else s1.holders.del b }

/-- A waiter of a cell that is re-initialised ends as an expired wait does, but for the dispatcher's (R79, R146). -/
def State.endWaiter (s : State) (x : Msg) : State :=
  match x.op with
  | .depaWait _ _ _ => s
  | .call _ => (s.cellAnswer x (.error (s.cellTimeout x))).modCore (s.cf x.pa 3 51 12) fun c =>
      { c with sections := c.sections.filter (· ≠ x.id) }
  | _ => s.cellAnswer x (.error (s.cellTimeout x))

/-- The dispatcher checks a re-initialised cell again: a counter keeps the wait, against its new VALUE (R79). -/
def State.recheckDepa (s : State) (b : Nat) : State :=
  if s.cellKind b = 2 then s.counterZero b
  else (s.cellWaiters b).foldl (fun (s : State) x => s.cellFault x 0x0D 2) s

/-- sync.init (R146): a cell that is not quiescent is refused at level U, and at S or F re-initialised with every waiter
ending as an expired wait does. -/
def State.cellInit (s : State) (m : Msg) (cfg : Word) : State :=
  let b := m.pa
  if s.isCell b ∧ ¬ s.quiescent b then
    if m.lvl = .u then s.cellFault m 0x0D 4
    else
      let s1 := (s.cellWaiters b).foldl State.endWaiter s
      let s2 := (s1.writeCell m cfg).recheckDepa b
      s2.cellAnswer m (.value (s2.cw b 0))
  else
    let s2 := s.writeCell m cfg
    s2.cellAnswer m (.value (s2.cw b 0))

/-- The modes a kind may take (R142). -/
def kindTakes (kind mode : Nat) : Bool :=
  match mode with
  | 0 => true
  | 1 => kind = 0
  | 2 => kind ≠ 0
  | _ => kind = 0 || kind = 2

/-- sync.mode (R151, R296). -/
def State.cellMode (s : State) (m : Msg) (w : Word) : State :=
  let b := m.pa
  let mode := fld w 0 2
  match fld w 2 2 with
  | 1 =>
    if ¬ kindTakes (s.cellKind b) mode ∨ (mode = 3 ∧ ¬ s.cDlv b) then s.cellFault m 0x0D 6
    else
      let s1 := s.setCf b 0 59 1 1
      let s2 :=
        if s.cellKind b = 0 then
          (if s.cHeld b then { s1 with pins := s1.pins.put b mode }
           else { s1 with pins := s1.pins.put b mode }.applyPin b)
        else s1.setMode b mode
      s2.cellAnswer m (.value (s2.cw b 0))
  | 2 =>
    let s1 := { s.setCf b 0 59 1 0 with pins := s.pins.del b }
    s1.cellAnswer m (.value (s1.cw b 0))
  | _ => s.cellAnswer m (.value (s.cw b 0))

/-- The limits of R145. -/
def thOk (kind a b c : Nat) : Bool :=
  match kind with
  | 0 => 2 ≤ a && a ≤ b && 1 ≤ c
  | 2 => 2 ≤ a && 2 ≤ b && c ≤ 254 && c < a
  | _ => a ≤ 254 && 2 ≤ b && 1 ≤ c && a < c

/-- sync.pol (R153, R154, R297). -/
def State.cellPol (s : State) (m : Msg) (w : Word) : State :=
  let b := m.pa
  let kind := s.cellKind b
  match fld w 0 2 with
  | 0 =>
    let t1 := fld w 48 8
    let t2 := fld w 40 8
    let t3 := fld w 32 8
    if thOk kind t1 t2 t3 then
      let s1 := s.setCf b 0 24 24 (t1 * 2 ^ 16 + t2 * 2 ^ 8 + t3)
      s1.cellAnswer m (.value (s1.cw b 0))
    else s.cellFault m 0x0D 5
  | 1 =>
    let entry := fld w 3 45
    if kind = 1 ∨ kind = 3 then s.cellFault m 0x0D 2
    else if entry = 0 then
      let s1 := s.cancelRegistration b
      s1.cellAnswer m (.value (s1.cw b 0))
    else match s.registerDelegate m (fld w 60 4) entry with
      | some s1 => s1.cellAnswer m (.value (s1.cw b 0))
      | none => s.cellFault m 0x0D 8
  | _ => s.cellAnswer m (.value (s.cw b 0))

/-! ### Byte barriers (R160, R161) -/

/-- sb.expect (R160, R294). -/
def State.cellExpect (s : State) (m : Msg) (n : Word) : State :=
  let b := m.pa
  let p := s.cf b 2 24 40
  if n = 0 ∨ 2 ^ 40 ≤ n.toNat ∨ 2 ^ 40 ≤ p + n.toNat then s.cellFault m 0x0D 7
  else
    let ph := s.cPhase b
    let s1 := (s.countArrival b).setCf b 2 24 40 (p + n.toNat)
    s1.cellAnswer m (.value (word ph))

/-- sb.wait (R160). -/
def State.cellSbWait (s : State) (m : Msg) (p : Word) : State :=
  if phaseOver (s.cPhase m.pa) p.toNat then s.cellAnswer m (.value (word (s.cPhase m.pa))) else s.queueUp m

/-- The owner of a byte barrier takes the underflow fault, or the supervisor when it has exited (R161, R206). -/
def State.underflow (s : State) (m : Msg) (excess : Nat) : State :=
  let t := TrapRec.make 0x13 m.va (word excess) 3
  match s.holders.look m.pa with
  | some o =>
    if (s.ctxs.look o).isSome then s.pendTrap o t
    else
      let c := { Ctx.cleared (.slot (s.cf m.pa 3 16 12) (s.cf m.pa 3 12 4)) with
        part := m.part, asid := BitVec.ofNat 10 m.asid, fn := m.fn, taddr := m.va, tinfo := word excess,
        trapf := trapFields t false false 0 }
      s.mailTo m.part (s.trapMail 0 c)
  | none => s

/-- Deliver(c, d) (R160). -/
def State.cellDeliver (s : State) (m : Msg) (d : Nat) : State :=
  let b := m.pa
  let p := s.cf b 2 24 40
  let s1 := if d ≤ p then s.setCf b 2 24 40 (p - d) else (s.setCf b 2 24 40 0).underflow m (d - p)
  let s2 := s1.cellAnswer m .ack
  if s2.cArrived b = s2.cParties b ∧ s2.cf b 2 24 40 = 0 then s2.completePhase b else s2

/-! ### The home bank -/

/-- The kinds an operation serves (R294). -/
def HomeOp.serves (o : HomeOp) (kind : Nat) : Bool :=
  match o with
  | .acq | .tryacq | .rel => kind = 0
  | .call _ => kind = 0 || kind = 2
  | .arrive _ | .arriveWait => kind = 1 || kind = 2
  | .expect _ | .sbWait _ | .deliver _ => kind = 3
  | .depaWait _ _ _ => kind = 2
  | _ => true

def HomeOp.isInit : HomeOp → Bool
  | .cellInit _ => true
  | _ => false

/-- The checks of a cell operation at its bank (R75, R146, R292); then `effect`. -/
def State.atBank (s : State) (m : Msg) (effect : State → State) : State :=
  if m.loc ≠ .home ∨ s.mustWait m then s
  else match s.refusal m ⟨32, true, !m.op.isInit, false⟩ with
    | (s1, some t) => s1.answer { m with aux := 64 } (.error t)
    | (s1, none) =>
      let s2 := (s1.dirty m.core m.leaf).freshRate m.pa
      match m.op with
      | .cellInit _ | .scopeRead => (effect s2).joinWake m.pa 32
      | _ =>
        if ¬ s2.isCell m.pa then s2.answer { m with aux := 64 } (.error (TrapRec.make 0x0D m.va 1 0))
        else if ¬ m.op.serves (s2.cellKind m.pa) then s2.cellFault m 0x0D 2
        else (effect s2).joinWake m.pa 32

/-- CELL_ACQUIRE_AT_BANK: acq, tryacq and sync.call (R149, R154, R155, R159). -/
def State.acquireAtBank (s : State) (id : Nat) : State :=
  match s.msg id with
  | none => s
  | some m => match m.op with
    | .acq => s.atBank m fun s => s.acquire m
    | .tryacq => s.atBank m fun s => s.tryAcquire m
    | .call _ => s.atBank m fun s =>
      if ¬ s.cDlv m.pa then s.cellFault m 0x0E 1
      else if s.cellKind m.pa = 2 then s.counterCall m else s.acquire m
    | _ => s

/-- CELL_ACQUIRE_AT_BANK (R149). -/
def execCellAcquireAtBank (msg : Nat) (s : State) : Host.Outcome State Fault Refusal := .next (s.acquireAtBank msg)

/-- CELL_RELEASE_AT_BANK: rel (R150). -/
def State.releaseAtBank (s : State) (id : Nat) : State :=
  match s.msg id with
  | none => s
  | some m => match m.op with
    | .rel => s.atBank m fun s =>
      if ¬ s.cHeld m.pa ∨ bit (s.cw m.pa 2) 62 ∨ s.holders.look m.pa ≠ some m.tid then s.cellFault m 0x0D 3
      else (s.release m.pa).cellAnswer m .ack
    | _ => s

/-- CELL_RELEASE_AT_BANK (R150). -/
def execCellReleaseAtBank (msg : Nat) (s : State) : Host.Outcome State Fault Refusal := .next (s.releaseAtBank msg)

/-- BARRIER_ARRIVAL_AT_BANK (R157). -/
def State.barrierAtBank (s : State) (id : Nat) : State :=
  match s.msg id with
  | none => s
  | some m => match m.op with
    | .arrive _ | .arriveWait =>
      if s.isCell m.pa ∧ s.cellKind m.pa = 2 then s else s.atBank m fun s => s.barrierArrive m
    | _ => s

/-- COUNTER_ARRIVAL_AT_BANK (R159); the dispatcher's wait on DEPA among them (R79). -/
def State.counterAtBank (s : State) (id : Nat) : State :=
  match s.msg id with
  | none => s
  | some m =>
    let other : Bool := s.isCell m.pa && s.cellKind m.pa ≠ 2
    match m.op with
    | .arrive a => if other then s else s.atBank m fun s => s.counterArrive m a
    | .arriveWait => if other then s else s.atBank m fun s => s.counterWait m
    | .depaWait _ _ _ => s.atBank m fun s => s.counterWait m
    | _ => s

/-- SB_EXPECT_AT_BANK (R160). -/
def State.expectAtBank (s : State) (id : Nat) : State :=
  match s.msg id with
  | none => s
  | some m => match m.op with
    | .expect n => s.atBank m fun s => s.cellExpect m n
    | _ => s

/-- SB_EXPECT_AT_BANK (R160). -/
def execSbExpectAtBank (msg : Nat) (s : State) : Host.Outcome State Fault Refusal := .next (s.expectAtBank msg)

/-- BYTE_BARRIER_DELIVERY (R160). -/
def State.deliverAtBank (s : State) (id : Nat) : State :=
  match s.msg id with
  | none => s
  | some m => match m.op with
    | .deliver d =>
      if s.isCell m.pa ∧ s.cellKind m.pa = 3 then s.atBank m fun s => s.cellDeliver m d
      else if m.loc = .home then s.answer { m with aux := 64 } .ack else s
    | _ => s

/-- BYTE_BARRIER_DELIVERY (R160). -/
def execByteBarrierDelivery (msg : Nat) (s : State) : Host.Outcome State Fault Refusal := .next (s.deliverAtBank msg)

/-- The cell operations that HOME_AGENT_ACCESS performs: the scope read, sync.init, sync.mode, sync.pol and sb.wait. -/
def State.homeCell (s : State) (m : Msg) : State :=
  s.atBank m fun s => match m.op with
    | .scopeRead => s.cellAnswer m (.value (word (s.cScope m.pa + 8 * s.cMode m.pa)))
    | .cellInit cfg => s.cellInit m cfg
    | .mode w => s.cellMode m w
    | .pol w => s.cellPol m w
    | .sbWait p => s.cellSbWait m p
    | _ => s

/-! ### Sections in their slot (R155) -/

/-- SECTION_START: the section at the head of its slot's order starts in the delegate slot, which is idle (R153, R155). It sees
what its requester wrote: no stale line of the core serves it (R148, R156). -/
def State.sectionStart (s : State) (id : Nat) : State :=
  match s.msg id with
  | none => s
  | some m => match m.op with
    | .call arg =>
      let b := m.pa
      let d := s.cf b 3 51 12
      let k := s.cf b 3 47 4
      let core := s.core d
      let first := core.sections.find? fun i => match s.msg i with
        | some x => s.cf x.pa 3 47 4 = k
        | none => false
      match core.delegates.look k with
      | none => s
      | some x =>
        if m.aux ≠ 1 ∨ first ≠ some id ∨ (s.inSlot d k).isSome then s
        else
          let entry : BitVec 45 := BitVec.ofNat 45 (s.cf b 3 0 45)
          let pc : Word := (entry ++ 0#3).signExtend 64
          let c := { Ctx.cleared (.slot d k) with
            task := x.task, lvl := x.lvl, fn := x.fn, part := x.part, asid := x.asid, pc := pc, seg := x.seg,
            fmt0 := x.fmt0, fmt1 := x.fmt1, fmt2 := x.fmt2, fmt3 := x.fmt3, scl := x.scl, caller := some id,
            seatedAt := core.cycle,
            regs := [(1, arg), (2, m.va), (3, if s.cellKind b = 2 then s.cw b 1 else 0), (4, word (m.core * 16 + m.slot))] }
          let s1 := (s.setMsg { m with aux := 2 }).modCore d fun c => { c with sections := c.sections.filter (· ≠ id) }
          { s1 with ctxs := s1.ctxs.put s1.nextTid c, nextTid := s1.nextTid + 1 }.invalidateCache d
    | _ => s

/-- SECTION_START (R155). -/
def execSectionStart (msg : Nat) (s : State) : Host.Outcome State Fault Refusal := .next (s.sectionStart msg)

/-- The request of a section that runs: none once a re-initialisation has ended it (R146, R155). -/
def State.running (s : State) (id : Nat) : Option Msg := (s.msg id).filter fun m => m.loc = .waiting && m.aux = 2

/-- The section of context `t` ends by exit: its results and its release; the slot is cleared (R155). -/
def State.sectionExit (s : State) (t : Nat) (id : Nat) : State :=
  match s.running id with
  | none => { s with ctxs := s.ctxs.del t }
  | some m =>
    let v := s.peek t (.g 1)
    let v3 := s.peek t (.g 3)
    let s1 := s.cellAnswer m (.value v)
    { s1.sectionOver m.pa (some v3) with ctxs := s1.ctxs.del t }

/-- A section that ends by a trap: its release is performed and the requester's sync.call ends with a delegate fault
(R156). -/
def State.sectionTrapped (s : State) (t : Nat) : State :=
  match (s.ctx t).caller.bind s.running with
  | none => s.modCtx t fun c => { c with caller := none }
  | some m => ((s.cellFault m 0x0E 3).sectionOver m.pa none).modCtx t fun c => { c with caller := none }

/-! ### The instructions (R292–R294) -/

/-- The cell's address is checked and translated (R142, R292); then `effect`. -/
def State.cell (s : State) (va : Word) (effect : Nat → State → State) : State :=
  if va.toNat % 32 ≠ 0 then s.raise 0x03 va 7
  else s.reach va 1 .write false fun pa tg s => match tg with
    | .sram _ _ => effect pa s
    | _ => s.raise 0x03 va 7

/-- The scope of a cell that the core remembers (R293). -/
def Ctx.knows (c : Ctx) (pa : Nat) : Option Nat := (c.scopeMem.find? fun e => e.1 = pa).map (·.2)

/-- A release-side operation: the fence of the cell's scope, then the request; the scope is read from the bank first when
it is not remembered (R293). -/
def State.releaseSide (s : State) (va : Word) (pa : Nat) (m : Msg) (rd : Option Reg) (parks : Bool) (lim : Word) : State :=
  let t := s.iss.tid
  let s0 := match rd with
    | some r => s.pend r
    | none => s
  let m := { m with dst := rd, counted := true }
  let lim := if parks then lim else 0
  match (s.ctx t).knows pa with
  | some v => (s0.setLimit lim).releaseFence t v m parks
  | none => s0.numbered m fun m s =>
    (s.post (s.request t .scopeRead va pa none)).modCtx t fun c =>
      { c with park := .scope s.nextMsg m parks lim, waitFrom := s.startOf t }

/-- A cell instruction that does not release: it parks, or RD is filled later. -/
def State.plainCell (s : State) (va : Word) (op : HomeOp) (rd : Reg) (parks : Bool) (lim : Word) : State :=
  s.cell va fun pa s =>
    let m := s.request s.iss.tid op va pa none
    if parks then (s.sendPark m (some rd)).setLimit lim else s.sendFill m rd

/-- A release-side cell instruction. -/
def State.relCell (s : State) (va : Word) (op : HomeOp) (rd : Option Reg) (parks : Bool) (lim : Word) : State :=
  s.cell va fun pa s => s.releaseSide va pa (s.request s.iss.tid op va pa none) rd parks lim

/-- sync.init rd, ra, rb (R294, R295). -/
def execSyncInit (rd ra rb : Reg) (s : State) : Host.Outcome State Fault Refusal :=
  .next (s.operands [ra, rb] [rd] fun s' => s'.plainCell (s.src ra) (.cellInit (s.src rb)) rd false 0)

/-- acq rd, ra (R149, R294). -/
def execAcq (rd ra : Reg) (s : State) : Host.Outcome State Fault Refusal :=
  .next (s.operands [ra, rd] [rd] fun s' => s'.plainCell (s.src ra) .acq rd true (s.src rd))

/-- tryacq rd, ra (R149, R294). -/
def execTryacq (rd ra : Reg) (s : State) : Host.Outcome State Fault Refusal :=
  .next (s.operands [ra] [rd] fun s' => s'.plainCell (s.src ra) .tryacq rd true 0)

/-- rel ra (R150, R294). -/
def execRel (ra : Reg) (s : State) : Host.Outcome State Fault Refusal :=
  .next (s.operands [ra] [] fun s' => s'.relCell (s.src ra) .rel none false 0)

/-- sync.call rd, ra, rb (R155, R294). -/
def execSyncCall (rd ra rb : Reg) (s : State) : Host.Outcome State Fault Refusal :=
  .next (s.operands [ra, rb, rd] [rd] fun s' => s'.relCell (s.src ra) (.call (s.src rb)) (some rd) true (s.src rd))

/-- arrive rd, ra, rb (R157, R159, R294). -/
def execArrive (rd ra rb : Reg) (s : State) : Host.Outcome State Fault Refusal :=
  .next (s.operands [ra, rb] [rd] fun s' => s'.relCell (s.src ra) (.arrive (s.src rb)) (some rd) false 0)

/-- arrive.wait rd, ra (R157, R159, R294). -/
def execArriveWait (rd ra : Reg) (s : State) : Host.Outcome State Fault Refusal :=
  .next (s.operands [ra, rd] [rd] fun s' => s'.relCell (s.src ra) .arriveWait (some rd) true (s.src rd))

/-- sync.mode rd, ra, rb (R296). -/
def execSyncMode (rd ra rb : Reg) (s : State) : Host.Outcome State Fault Refusal :=
  .next (s.operands [ra, rb] [rd] fun s' => s'.plainCell (s.src ra) (.mode (s.src rb)) rd false 0)

/-- sync.pol rd, ra, rb (R297). -/
def execSyncPol (rd ra rb : Reg) (s : State) : Host.Outcome State Fault Refusal :=
  .next (s.operands [ra, rb] [rd] fun s' => s'.plainCell (s.src ra) (.pol (s.src rb)) rd false 0)

/-- sb.expect rd, ra, rb (R160, R294). -/
def execSbExpect (rd ra rb : Reg) (s : State) : Host.Outcome State Fault Refusal :=
  .next (s.operands [ra, rb] [rd] fun s' => s'.relCell (s.src ra) (.expect (s.src rb)) (some rd) false 0)

/-- sb.wait rd, ra, rb (R160, R294). -/
def execSbWait (rd ra rb : Reg) (s : State) : Host.Outcome State Fault Refusal :=
  .next (s.operands [ra, rb, rd] [rd] fun s' => s'.plainCell (s.src ra) (.sbWait (s.src rb)) rd true (s.src rd))

end Sys2Proof.Machine
end

