-- ==== Sys2Proof/Machine/Fetch.lean ====
section
/-! DEFINITION. What an issue does before its instruction: pending traps (R204), annulled units (R258), the fetch
(R67, R75, R139, R206, R250) and the decoded unit (R237, R249). -/

namespace Sys2Proof.Machine

/-- What the fetch of a thread's next unit gives. -/
inductive Fetched where
  /-- Nothing issues: a trap was taken, or a walk started. -/
  | stop (s : State)
  /-- A lone instruction, and the state it issues in. -/
  | lone (i : Instr) (s : State)
  /-- A pair: word 0 issues in `s`, and word 1 reads its registers as `i1` holds them (R238). -/
  | pair (c a : Instr) (s : State) (i1 : Issue)

/-- The address of the doubleword that holds an address. -/
def dwAddr (a : Word) : Word := a &&& ~~~7#64

/-- The doubleword at an address as a fetch of the thread reads it, without effects: none where the fetch would fault
or miss. -/
def State.peekDw (s : State) (t : Nat) (pc : Word) : Option Word :=
  match s.translate t (dwAddr pc) .fetch with
  | .ok pa _ =>
    let c := s.ctx t
    if (s.target pa).isNone ∨ s.violation ⟨c.fn, c.part, c.lvl⟩ pa 8 ≠ 0 ∨ s.bad pa 8 = true then none
    else some (s.rd64 pa)
  | _ => none

/-- NextUnit of a unit at `pc` in a doubleword (R251). -/
def nextUnit (pc dw : Word) : Word :=
  if bit dw 31 ∧ ¬ wordPos pc then pc + 4 else dwAddr pc + 8

/-- The doubleword of an address is not translated yet: whether it can be fetched is known once its walk has ended. -/
def State.fetchMiss (s : State) (t : Nat) (pc : Word) : Bool :=
  match s.translate t (dwAddr pc) .fetch with
  | .miss _ => true
  | .ok _ _ | .fault _ | .hole => false

/-- Annul units while the skip count lasts (R258). A doubleword that cannot be fetched is annulled as one unit; one whose
translation misses is walked first, and the count stays until then. -/
def State.annul (s : State) (t : Nat) : Nat → State
  | 0 => s
  | n + 1 =>
    let c := s.ctx t
    if c.skip = 0 ∨ s.fetchMiss t c.pc = true then s
    else
      let next := match s.peekDw t c.pc with
        | some dw => nextUnit c.pc dw
        | none => dwAddr c.pc + 8
      (s.setCtx t { c with skip := c.skip - 1, pc := next, walkFault := none }).annul t n

/-- The thread's next unit after annulment, for readiness (R132). -/
def State.peekUnit (s : State) (t : Nat) : Option IssueUnit :=
  let s' := s.annul t 3
  let pc := (s'.ctx t).pc
  (s'.peekDw t pc).map fun dw => decodeUnit dw (wordPos pc)

/-- The unit at the thread's PC becomes the one being issued. -/
def State.setIssue (s : State) (t : Nat) (next : Word) (word : BitVec 32) : State :=
  let c := s.ctx t
  let s1 := s.setCtx t { c with
    ipc := c.pc, iword := word, iwpos := wordPos c.pc, park := .none, undo := ⟨[], c.skip, none, false, none⟩ }
  { s1 with iss := ⟨t, c.pc, c.pc, next, word, wordPos c.pc, none, .done, none⟩ }

/-- Start an issue at the thread's PC: it counts as issued (R213, R215) and spends the turn (R86). -/
def State.startIssue (s : State) (t : Nat) (next : Word) (word : BitVec 32) : State :=
  let c := s.ctx t
  let now := (s.core c.core).issueCycle
  ((s.setIssue t next word).modCtx t fun c => { c with issued := c.issued + 1, lastIssue := now }).modCore c.core fun k =>
    { k with slotIssue := k.slotIssue.put c.slotNo now }

/-- A stepped thread has issued once more: at the count of its step it freezes again and the step completes (R215). -/
def State.countStep (s : State) (t : Nat) : State :=
  match (s.ctx t).stepLeft with
  | none => s
  | some n => if 1 < n then s.modCtx t fun c => { c with stepLeft := some (n - 1) } else s.endStep t

/-- An uncorrectable error in the thread's registers or in its Chuck entry: the trap at its next issue, which hands the context
to the supervisor, counted in the class of the register file or the Chuck (R35, R36, R206). -/
def State.regError (s : State) (t k : Nat) : State :=
  ((s.modCtx t fun c => { c with regErr := none }).countEcc (if k = 1 then 0 else 5) false).takeTrap t
    (TrapRec.make 0x08 0 (word (k * 2 ^ 52)) 0) (wordPos (s.ctx t).pc)

/-- The unit at the thread's PC issues in a turn (R215). -/
def State.enter (s : State) (t : Nat) (next : Word) (word : BitVec 32) : State := (s.startIssue t next word).countStep t

/-- Fetch the thread's next unit (R204, R258). -/
def State.fetchUnit (s : State) (t : Nat) : Fetched :=
  let c := s.ctx t
  let pc := c.pc
  let va := dwAddr pc
  let s0 := s.setIssue t pc 0
  match s0.translate t va .fetch with
  | .fault f => .stop (s0.raiseFlt pc f)
  | .hole => .stop (s0.raise 0x03 pc 6)
  | .miss ia => .stop (s0.startWalk va ia)
  | .ok pa _ =>
    if (s0.target pa).isNone then .stop (s0.raise 0x03 pc 1)
    else
      let m := s0.request t .none pc pa none
      match s0.refusal m ⟨8, false, true, false⟩ with
      | (s1, some r) => .stop (s1.raise r.code.toNat pc r.tinfo)
      | (s1, none) =>
        let dw := s1.rd64 pa
        let w0 : BitVec 32 := dw.extractLsb' 0 32
        let w1 : BitVec 32 := dw.extractLsb' 32 32
        let start (w : BitVec 32) : State := s1.enter t (nextUnit pc dw) w
        match decodeUnit dw (wordPos pc) with
        | .illegal second =>
          let s2 := start (if second then w1 else w0)
          .stop ({ s2 with iss := { s2.iss with wpos := second } }).illegal
        | .lone i => .lone i (start (if wordPos pc then w1 else w0))
        | .pair a b =>
          let s2 := start w0
          let c2 := s2.ctx t
          .pair a b s2 { s2.iss with w := pc + 4, word := w1, wpos := true,
                                     snap := some (c2, (s2.core c2.core).bank c2.fn) }

/-- Fetch for a thread that issues in its turn: an error of its registers, then a pending trap, come first (R36, R204). -/
def State.fetch (s : State) (t : Nat) : Fetched :=
  let s := { s with pick := none }
  let c := s.ctx t
  match c.regErr, c.pending with
  | some k, _ => .stop (s.regError t k)
  | none, some r => .stop ((s.modCtx t Ctx.dropPending).takeTrap t r (wordPos c.pc))
  | none, none => ((s.corrects 0 t).annul t 3).fetchUnit t

/-- What is left of a correction after `dt` ns, at 100 ppm (R18). -/
def slewLeft (slew : Int) (dt : Nat) : Int :=
  let n : Int := (dt / 10000 : Nat)
  if 0 ≤ slew then max 0 (slew - n) else min 0 (slew + n)

/-- Time passes between two events: `dt` ns of oscillator time, in which the part of a correction that is slewed is added to
or taken from PTP time (R18). -/
def State.pass (s : State) (dt : Nat) : State :=
  let left := slewLeft s.slew dt
  { s with wall := ((s.wall + dt : Nat) + (s.slew - left) : Int).toNat, slew := left }

/-- The package runs (R38, R39, R41). -/
def State.awake (s : State) : Bool :=
  match s.power with
  | .running | .recovery => true
  | .off | .bootFailed => false

/-- Physical address of the start of core 0's TCM. -/
def State.bootPa (s : State) : Nat := s.corePa 5 0 0

/-- Start of the private window (R139). -/
def windowBase : Word := 0xFFFF_FF00_0000_0000

/-- Core 0 in the active partition 0, if it is in none (R63): a fetch from TCM is checked against it. -/
def State.setPart0 (s : State) : State :=
  match s.partOf 0 with
  | some _ => s
  | none => s.modPart 0 fun p => { p with en := true, st := 1, base := 0, len := 1 }

/-- Seat thread 0, at level S, whose shares are not checked (R72), in slot 0 of core 0 with one instruction in its TCM: a footprint of one page (R140), PC at the word, and
the turn given to it. -/
def State.seatWord (s : State) (nbits w : Nat) : State :=
  let _ := nbits
  let lone := w / 2 ^ 31 % 2 = 1
  let dw : Nat := if lone then w % 2 ^ 32 else 0xC000_0000 + (w % 2 ^ 32) * 2 ^ 32
  let c := { s.ctx 0 with
    place := .slot 0 0, lvl := .s, seg := 0x0000_0000_0010_0000, pc := if lone then windowBase else windowBase + 4, skip := 0,
    pend0 := none, pend1 := none, regErr := none, pend2 := none, pend3 := none, park := .none, stepLeft := none }
  { (s.setCtx 0 c).wr s.bootPa 8 dw with power := .running, pick := some 0, agenda := [], ue := [], soft := [], parts := (s.setPart0).parts }

end Sys2Proof.Machine
end

