-- ==== Sys2Proof/Machine/Rings.lean ====
section
/-! DEFINITION. Rings: the instructions (R298–R303) and the home agent of a descriptor (R298, R302). -/

namespace Sys2Proof.Machine

/-! ### The descriptor (R298) -/

/-- RESV, PUB and PWIN. -/
def State.ringResv (s : State) (b : Nat) : Nat := s.rd b 8
def State.ringPub (s : State) (b : Nat) : Nat := s.rd (b + 8) 8
def State.ringWin (s : State) (b : Nat) : Nat := s.rd (b + 16) 8
/-- GEO: SPACE, CNTLOG and 2^CNTLOG. -/
def State.ringGeo (s : State) (b : Nat) : Nat := s.rd (b + 56) 4 % 2 ^ 17
def State.ringSlots (s : State) (b : Nat) : Nat := 2 ^ (s.ringGeo b / 256 % 32)
def State.ringOpened (s : State) (b : Nat) : Bool := 128 ≤ s.rd (b + 62) 1
/-- CVAL. -/
def State.ringCval (s : State) (b k : Nat) : Bool := s.rd (b + 63) 1 / 2 ^ k % 2 = 1

/-- Cursor k: the index C with PUB − 2^31 ≤ C < PUB + 2^31 and the stored low 32 bits (R298). -/
def State.ringCur (s : State) (b k : Nat) : Int :=
  let d : Nat := (s.rd (b + 24 + 4 * k) 4 + 2 ^ 32 - s.ringPub b % 2 ^ 32) % 2 ^ 32
  (s.ringPub b : Int) + (if d < 2 ^ 31 then (d : Int) else (d : Int) - 2 ^ 32)

/-- Slowest: the smallest existing cursor, or PUB (R302). -/
def State.ringSlowest (s : State) (b : Nat) : Int :=
  match ((List.range 8).filter (s.ringCval b)).map (s.ringCur b) with
  | [] => s.ringPub b
  | c :: cs => cs.foldl min c

def State.setRingCur (s : State) (b k : Nat) (c : Int) : State := s.wr (b + 24 + 4 * k) 4 (c % 2 ^ 32).toNat

/-- Roles: 0 for the producer, k + 1 for consumer cursor k (R299). -/
def Msg.role (m : Msg) : Nat := fld m.aux 0 4

def Msg.cursor (m : Msg) : Nat := m.role - 1

/-- Whether the role fits the instruction (R302). -/
def HomeOp.fits (o : HomeOp) (role : Nat) : Bool :=
  match o with
  | .ringResv _ | .ringPub _ _ | .ringFree _ => role = 0
  | .ringWait _ | .ringAdv _ => 1 ≤ role && role ≤ 8
  | _ => role ≤ 8

/-- A handle or count that the home agent refuses: access fault, cause 1 (R281, R299). -/
def State.ringRefuse (s : State) (m : Msg) : State := s.answer m (.error (TrapRec.make 0x03 m.va 1 0))

/-- The checks of a handle against its ring (R299). -/
def State.ringHandle (s : State) (m : Msg) : Bool :=
  fld m.aux 4 2 = 0 && m.op.fits m.role && s.ringOpened m.pa && (m.role = 0 || s.ringCval m.pa m.cursor)

/-! ### Waits and their wake-ups -/

/-- Whether a count lies in the range of R302. -/
def State.ringCount (s : State) (m : Msg) : Bool :=
  let c := s.ringSlots m.pa
  match m.op with
  | .ringResv n => 1 ≤ n.toNat && n.toNat ≤ min 64 c
  | .ringPub _ n => 1 ≤ n.toNat && n.toNat ≤ 64
  | .ringWait n | .ringFree n => 1 ≤ n.toNat && n.toNat ≤ c
  | .ringAdv n => n.toNat ≤ c
  | _ => true

/-- One examination of a ring wait: performed when its condition holds (R302). -/
def State.ringTry (s : State) (m : Msg) : Option State :=
  let b := m.pa
  let c : Int := s.ringSlots b
  let resv : Int := s.ringResv b
  match m.op with
  | .ringResv n =>
    if resv + n.toNat - s.ringSlowest b ≤ c ∧ resv + n.toNat - s.ringPub b ≤ 64 then
      some ((s.wr64 b (word (s.ringResv b + n.toNat))).answer m (.value (word (s.ringResv b))))
    else none
  | .ringWait n =>
    if (n.toNat : Int) ≤ s.ringPub b - s.ringCur b m.cursor then
      some (s.answer m (.value (BitVec.ofInt 64 (s.ringCur b m.cursor))))
    else none
  | .ringFree n =>
    let free := c - (resv - s.ringSlowest b)
    if (n.toNat : Int) ≤ free then some (s.answer m (.value (BitVec.ofInt 64 free))) else none
  | _ => none

/-- The mark of a ring operation performed at a watched doubleword of its descriptor (R212). -/
def State.ringWatch (s : State) (m : Msg) : State × Msg :=
  let (s1, hit) := s.watch m.pa 64 (false, false, true) m.va m.tid m.core m.slot m.issued
  (s1, { m with hit := hit })

/-- Waiters of a ring, in order of arrival. -/
def State.ringWaiters (s : State) (b : Nat) : List Msg :=
  s.flights.filter fun m => m.loc = .waiting && m.op.isRing && m.pa = b

/-- Examine one waiter: a wait on a cursor that no longer exists ends with an access fault (R302, R303). -/
def State.ringExamine (s : State) (m : Msg) : State :=
  if ¬ s.ringOpened m.pa ∨ (m.role ≠ 0 ∧ ¬ s.ringCval m.pa m.cursor) then s.ringRefuse m
  else match s.ringTry m with
    | none => s
    | some _ =>
      let (s1, m1) := s.ringWatch m
      (s1.ringTry m1).getD s

/-- Examine every waiter of a ring in order of arrival (R302). -/
def State.ringWake (s : State) (b : Nat) : State := ((s.ringWaiters b).foldl State.ringExamine s).joinWake b 64

/-! ### Operations at the home agent -/

/-- PubItems(i, n) (R302): none where it is refused. -/
def State.pubItems (s : State) (b i n : Nat) : Option State :=
  if s.ringResv b < i + n then none
  else
    let pub := s.ringPub b
    let marks := (List.range n).foldl (fun w k =>
      if pub ≤ i + k ∧ i + k - pub < 64 then w ||| 2 ^ (i + k - pub) else w) (s.ringWin b)
    let run := ((List.range 64).takeWhile fun k => marks / 2 ^ k % 2 = 1).length
    some ((s.wr64 (b + 8) (word (pub + run))).wr64 (b + 16) (word (marks / 2 ^ run)))

/-- Whether ring.open is performed (R300). -/
def State.openOk (s : State) (b : Nat) (w : Word) : Bool :=
  let role := fld w 0 4
  let geo := fld w 16 17
  let cl := geo / 256 % 32
  let sl := geo % 32
  let space := match s.target b with
    | some (.scratch _ _) => 1
    | _ => 0
  role ≤ 8 &&
    (if bit w 7 then
      1 ≤ cl && cl ≤ 16 && 6 ≤ sl && sl ≤ 16 && geo / 2 ^ 16 = space && (role = 0 || fld w 8 8 / 2 ^ (role - 1) % 2 = 1)
    else s.ringOpened b && (role = 0 || s.ringCval b (role - 1)))

/-- ring.open with INIT: a new ring with the cursors of CMASK at 0 (R300). -/
def State.ringInit (s : State) (b geo cmask : Nat) : State :=
  (((s.wr b 56 0).wr (b + 56) 7 (geo + 2 ^ 55)).wr (b + 63) 1 cmask).mendEcc b 64

/-- ring.open at the home agent (R300). -/
def State.openRing (s : State) (m : Msg) (w : Word) : State :=
  let b := m.pa
  let s1 := if bit w 7 then s.ringInit b (fld w 16 17) (fld w 8 8) else s
  let s2 := s1.answer m (.value (word (m.va.toNat + fld w 0 4)))
  if bit w 7 then s2.ringWake b else s2

/-- ring.adv (R302): a cursor never passes PUB and never moves back. -/
def State.advRing (s : State) (m : Msg) (n : Nat) : State :=
  let b := m.pa
  let c := s.ringCur b m.cursor
  let d : Int := min (n : Int) (max 0 ((s.ringPub b : Int) - c))
  s.setRingCur b m.cursor (c + d)

/-- A ring operation at the home agent of its descriptor (R75, R298, R299, R302). -/
def State.homeRing (s : State) (m : Msg) : State :=
  if m.loc ≠ .home ∨ s.mustWait m then s
  else match s.refusal m ⟨64, true, true, false⟩ with
    | (s0, some t) => s0.answer m (.error t)
    | (s0, none) =>
      let s1 := s0.dirty m.core m.leaf
      match m.op with
      | .ringOpen w =>
        if ¬ s1.openOk m.pa w then s1.ringRefuse m
        else
          let (s2, m2) := s1.ringWatch m
          s2.openRing m2 w
      | _ =>
        if ¬ s1.ringHandle m ∨ ¬ s1.ringCount m then s1.ringRefuse m
        else match m.op with
          | .ringPub i n =>
            let (s2, m2) := s1.ringWatch m
            (match s2.pubItems m.pa i.toNat n.toNat with
              | some s3 => (s3.answer m2 .ack).ringWake m.pa
              | none => s1.ringRefuse m)
          | .ringAdv n =>
            let (s2, m2) := s1.ringWatch m
            ((s2.advRing m n.toNat).answer m2 .ack).ringWake m.pa
          | _ => ((s1.queueUp m).ringExamine m).joinWake m.pa 64

/-- Remove a consumer cursor of a ring; its waiter and the producers' waits are examined at once (R108, R303). A sealed
descriptor takes no write (R57). -/
def State.dropCursor (s : State) (b k : Nat) : State :=
  let v := s.rd (b + 63) 1
  if s.sealedAt b 64 then s
  else (s.wr (b + 63) 1 (v - (v / 2 ^ k % 2) * 2 ^ k)).ringWake b

/-- The trap of an expired wait on a ring (R206, R302). -/
def State.ringTimeout (s : State) (m : Msg) : TrapRec :=
  let b := m.pa
  let lo (x : Int) : Nat := (x % 2 ^ 32).toNat
  TrapRec.make 0x0C m.va (if m.role = 0 then word (lo (s.ringResv b) + lo (s.ringSlowest b) * 2 ^ 32)
    else word (lo (s.ringCur b m.cursor) + lo (s.ringPub b) * 2 ^ 32)) 0

/-! ### The instructions (R299–R302) -/

/-- A ring handle is a q register (R299). -/
def isQ : Reg → Bool
  | .q _ => true
  | .g _ | .h _ | .i _ => false

/-- The descriptor's address is checked and translated (R280, R298); then `effect`. -/
def State.ring (s : State) (va : Word) (effect : Nat → State → State) : State :=
  if va.toNat % 64 ≠ 0 then s.raise 0x03 va 1
  else s.reach va 1 .write false fun pa tg s => match tg with
    | .sram _ _ | .scratch _ _ => effect pa s
    | _ => s.raise 0x03 va 1

/-- The descriptor address of a handle. -/
def ringVa (h : Word) : Word := h &&& ~~~63#64

/-- A ring request of the handle `h`. -/
def State.ringMsg (s : State) (op : HomeOp) (h : Word) (pa : Nat) : Msg :=
  { s.request s.iss.tid op (ringVa h) pa none with aux := h }

/-- An acquire-side ring instruction: it parks until its reply (R301, R302). -/
def State.ringPark (s : State) (op : HomeOp) (h : Word) (rd : Reg) (lim : Word) : State :=
  s.ring (ringVa h) fun pa s => (s.sendPark (s.ringMsg op h pa) (some rd)).setLimit lim

/-- ring.pub and ring.adv: the fence at the ring's scope, then a request counted as an unacknowledged store (R301). -/
def State.ringRelease (s : State) (form : FenceForm) (op : HomeOp) (h : Word) : State :=
  s.ring (ringVa h) fun pa s =>
    let m := s.ringMsg op h pa
    s.fenceSend s.iss.tid form m.scope { m with counted := true } false

/-- ring.open qd, ra, rb (R300). -/
def execRingOpen (rd ra rb : Reg) (s : State) : Host.Outcome State Fault Refusal :=
  .next (if ¬ isQ rd then s.illegal
    else s.operands [ra, rb] [rd] fun s' => s'.ring (s.src ra) fun pa s1 =>
      s1.sendPark (s1.request s1.iss.tid (.ringOpen (s.src rb)) (s.src ra) pa none) (some rd))

/-- ring.resv rd, qa, rb (R302). -/
def execRingResv (rd ra rb : Reg) (s : State) : Host.Outcome State Fault Refusal :=
  .next (if ¬ isQ ra then s.illegal
    else s.operands [ra, rb, rd] [rd] fun s' => s'.ringPark (.ringResv (s.src rb)) (s.src ra) rd (s.src rd))

/-- ring.pub rd, qa, rb: count from RD, first index from RB (R302). -/
def execRingPub (rd ra rb : Reg) (s : State) : Host.Outcome State Fault Refusal :=
  .next (if ¬ isQ ra then s.illegal
    else s.operands [ra, rb, rd] [] fun s' => s'.ringRelease .sfence (.ringPub (s.src rb) (s.src rd)) (s.src ra))

/-- ring.wait rd, qa, rb (R302). -/
def execRingWait (rd ra rb : Reg) (s : State) : Host.Outcome State Fault Refusal :=
  .next (if ¬ isQ ra then s.illegal
    else s.operands [ra, rb, rd] [rd] fun s' => s'.ringPark (.ringWait (s.src rb)) (s.src ra) rd (s.src rd))

/-- ring.free rd, qa, rb (R302). -/
def execRingFree (rd ra rb : Reg) (s : State) : Host.Outcome State Fault Refusal :=
  .next (if ¬ isQ ra then s.illegal
    else s.operands [ra, rb, rd] [rd] fun s' => s'.ringPark (.ringFree (s.src rb)) (s.src ra) rd (s.src rd))

/-- ring.adv qa, rb (R302). -/
def execRingAdv (ra rb : Reg) (s : State) : Host.Outcome State Fault Refusal :=
  .next (if ¬ isQ ra then s.illegal
    else s.operands [ra, rb] [] fun s' => s'.ringRelease .fence (.ringAdv (s.src rb)) (s.src ra))

end Sys2Proof.Machine
end

