-- ==== Sys2Proof/Machine/Special.lean ====
section
/-! DEFINITION. Special functions (R199) and phasor arithmetic (R200–R203), computed from the exact function to enough
bits and rounded once. -/

namespace Sys2Proof.Machine

/-- ⌊π × 2^400⌋, ⌊2^400 / π⌋ and ⌊ln 2 × 2^400⌋. -/
def piFix : Nat := 8112377246730971238862271351300894519161151600179265203591191037615230905373990498745523360926816815427566779727327576236
def invPiFix : Nat := 821955664791951210437707667250466922264357687797474724014411797241516373176633858822247118516145645819140799348937228046
def ln2Fix : Nat := 1789879222497203190815761498240779176894896805856420935579692301363062920687047601279850318367644315849030039181347319086

/-- Fraction bits of fixed-point work. -/
def fixBits : Nat := 400
def fixOne : Nat := 2 ^ fixBits

/-- Product of two fixed-point numbers. -/
def fixMul (a b : Nat) : Nat := a * b / fixOne

/-- Square root of the low `fuel` bit pairs, rounded down. -/
def isqrtLoop : Nat → Nat → Nat → Nat
  | 0, _, r => r
  | fuel + 1, n, r =>
    let r' := r + 2 ^ fuel
    isqrtLoop fuel n (if r' * r' ≤ n then r' else r)

def isqrt (n : Nat) : Nat := isqrtLoop (bitLen n / 2 + 1) n 0

/-- A positive irrational or inexact value: its leading bits with a sticky bit below. -/
def stickyVal (neg : Bool) (m : Nat) (inexact : Bool) (e : Int) : Num := .fin neg (2 * m + b2n inexact) (e - 1)

/-- 1/x (R199). -/
def numRcp (x : Num) : Num :=
  match x with
  | .nan => .nan
  | .inf n => .fin n 0 0
  | .fin n m e =>
    if m = 0 then .inf n
    else stickyVal n (2 ^ 64 / m) (2 ^ 64 % m ≠ 0) (-64 - e)

/-- √x (R199). -/
def numSqrt (x : Num) : Num :=
  match x with
  | .nan => .nan
  | .inf n => if n then .nan else .inf false
  | .fin n m e =>
    if m = 0 then .fin n 0 0
    else if n then .nan
    else
      let (m', e') := if e % 2 = 0 then (m, e) else (2 * m, e - 1)
      let v := m' * 2 ^ 64
      let r := isqrt v
      stickyVal false r (r * r ≠ v) (e' / 2 - 32)

/-- 1/√x (R199). -/
def numRsqrt (x : Num) : Num :=
  match x with
  | .nan => .nan
  | .inf n => if n then .nan else .fin false 0 0
  | .fin n m e =>
    if m = 0 then .inf n
    else if n then .nan
    else
      let (m', e') := if e % 2 = 0 then (m, e) else (2 * m, e - 1)
      let r := isqrt (2 ^ 128 / m')
      stickyVal false r (r * r * m' ≠ 2 ^ 128) (-64 - e' / 2)

/-- exp(t) − of a fixed-point t in [0, 1): the sum of its series from term n. -/
def expSeries (t : Nat) : Nat → Nat → Nat → Nat
  | 0, _, _ => 0
  | fuel + 1, n, term => term + expSeries t fuel (n + 1) (fixMul term t / (n + 1))

/-- 2^x (R199). -/
def numExp2 (x : Num) : Num :=
  match x with
  | .nan => .nan
  | .inf n => if n then .fin false 0 0 else .inf false
  | .fin n m e =>
    if m = 0 then .fin false 1 0
    else
      let te := e + (bitLen m : Int) - 1
      if te > 10 then (if n then .fin false 1 (-2000) else .fin false 1 2000)
      else
        -- floor and fraction of the exact x
        let den := pow2 (-e)
        let v : Int := signed n (m * pow2 e)
        let ip := v / den
        let fr := (v % den).toNat
        if fr = 0 then .fin false 1 ip
        else
          let t := fixMul (fr * fixOne / den) ln2Fix
          stickyVal false (expSeries t 100 0 fixOne) true (ip - fixBits)

/-- atanh(z) of a fixed-point z ≤ 1/3: Σ z^(2k+1)/(2k+1). -/
def atanhSeries (z2 : Nat) : Nat → Nat → Nat → Nat
  | 0, _, _ => 0
  | fuel + 1, k, p => p / (2 * k + 1) + atanhSeries z2 fuel (k + 1) (fixMul p z2)

/-- log2 x (R199). -/
def numLog2 (x : Num) : Num :=
  match x with
  | .nan => .nan
  | .inf n => if n then .nan else .inf false
  | .fin n m e =>
    if m = 0 then .inf true
    else if n then .nan
    else
      let l := bitLen m
      let te := e + (l : Int) - 1
      if m = 2 ^ (l - 1) then (if te = 0 then .fin false 0 0 else .fin (te < 0) te.natAbs 0)
      else
        let den := 2 ^ (l - 1)
        let z := (m - den) * fixOne / (m + den)
        let lg := 2 * atanhSeries (fixMul z z) 130 0 z * fixOne / ln2Fix
        let v : Int := te * fixOne + lg
        stickyVal (v < 0) v.natAbs true (-(fixBits : Int))

/-- sin of a fixed-point angle y ≤ π/4, from term k with the power so far. -/
def sinSeries (y2 : Nat) : Nat → Nat → Nat → Int
  | 0, _, _ => 0
  | fuel + 1, k, p => p - sinSeries y2 fuel (k + 2) (fixMul p y2 / ((k + 1) * (k + 2)))

/-- sin(π × num/den) and cos of the same, for 0 ≤ num/den ≤ 1/4, in fixed point. -/
def sinPiSmall (num den : Nat) : Nat :=
  let y := piFix * num / den
  (sinSeries (fixMul y y) 50 1 y).toNat
def cosPiSmall (num den : Nat) : Nat :=
  let y := piFix * num / den
  (sinSeries (fixMul y y) 50 0 fixOne).toNat

/-- sin(π × num/den) for 0 ≤ num/den ≤ 1/2, in fixed point. -/
def sinPiQuarter (num den : Nat) : Nat :=
  if 4 * num ≤ den then sinPiSmall num den else cosPiSmall (den - 2 * num) (2 * den)

/-- sin(π × num/den) for 0 ≤ num/den < 2 as a sign and a fixed-point magnitude. -/
def sinPiFix (num den : Nat) : Bool × Nat :=
  let neg := den ≤ num
  let r := num % den
  (neg, sinPiQuarter (if 2 * r ≤ den then r else den - r) den)

/-- sin(πx) of an exact x (R199); an integer gives zero with its sign. -/
def numSinpi (x : Num) : Num :=
  match x with
  | .nan | .inf _ => .nan
  | .fin n m e =>
    if m = 0 then .fin n 0 0
    else
      let den := pow2 (-e)
      let v := m * pow2 e
      let r := v % (2 * den)
      if r % den = 0 then .fin n 0 0
      else
        let (s, y) := sinPiFix r den
        if 2 * r % den = 0 then .fin (s != n) 1 0
        else stickyVal (s != n) y true (-(fixBits : Int))

/-- cos(πx) (R199): sin(π(|x| + 1/2)); n + 1/2 gives +0. -/
def numCospi (x : Num) : Num :=
  match x with
  | .nan | .inf _ => .nan
  | .fin _ m e =>
    let den := 2 * pow2 (-e)
    let v := 2 * m * pow2 e + den / 2
    let r := v % (2 * den)
    if r % den = 0 then .fin false 0 0
    else
      let (s, y) := sinPiFix r den
      if 2 * r % den = 0 then .fin s 1 0
      else stickyVal s y true (-(fixBits : Int))

/-- The seven functions, by FN order (R199, R347). -/
def sfEval (fn : Nat) (x : BitVec 32) : BitVec 32 :=
  let v := f32 x
  f32Of .rne 0 (match fn with
    | 0 => numRcp v
    | 1 => numSqrt v
    | 2 => numRsqrt v
    | 3 => numExp2 v
    | 4 => numLog2 v
    | 5 => numSinpi v
    | _ => numCospi v)

/-! ### Phasors -/

/-- A PH16 code's angle; none when it reads undefined (R200). -/
def ph16Angle (c : Nat) : Option Nat := if c % 2 ^ 16 / 2 ^ 15 = 0 then some (c % 2 ^ 15) else none
def ph8Angle (c : Nat) : Option Nat := if c % 2 ^ 8 / 2 ^ 7 = 0 then some (c % 2 ^ 7) else none
def ph16Undef : Nat := 0x8000
def ph8Undef : Nat := 0x80

/-- Product of PH16 codes (R201). -/
def ph16Mul (a b : Nat) : Nat :=
  match ph16Angle a, ph16Angle b with
  | some x, some y => (x + y) % 2 ^ 15
  | _, _ => ph16Undef

/-- PH8 to PH16 and back (R201). -/
def phWide (c : Nat) : Nat := match ph8Angle c with | some a => a * 256 | none => ph16Undef
def phNarrow (c : Nat) : Nat :=
  match ph16Angle c with
  | some a =>
    let q := a / 256
    let r := a % 256
    (if r > 128 ∨ (r = 128 ∧ q % 2 = 1) then q + 1 else q) % 128
  | none => ph8Undef

/-- FP32 radians to PH16 (R201): round(x × 16,384/π) mod 32,768. -/
def phFromRad (x : BitVec 32) : Nat :=
  match f32 x with
  | .nan | .inf _ => ph16Undef
  | .fin neg m e =>
    -- twice the scaled value, in units of 2^-400
    let v := m * 2 ^ 15 * invPiFix * pow2 e / pow2 (-e)
    let r := (v / fixOne + 1) / 2 % 32768
    if neg then (32768 - r) % 32768 else r

/-- PH16 to FP32 radians (R201). -/
def phToRad (c : Nat) : BitVec 32 :=
  match ph16Angle c with
  | none => 0x7FC0_0000
  | some a => if a = 0 then 0 else f32Of .rne 0 (stickyVal false (a * piFix) true (-(fixBits : Int) - 14))

/-- A fixed-point value below 1 times 16,384, to nearest even (R202). -/
def to14 (y : Nat) : Nat :=
  let v := y * 16384
  let q := v / fixOne
  let r := v % fixOne
  if 2 * r > fixOne ∨ (2 * r = fixOne ∧ q % 2 = 1) then q + 1 else q

/-- Tables S and C (R202). -/
def phS (j : Nat) : Int := let (n, y) := sinPiFix (j % 1024) 512; signed n (to14 y)
def phC (j : Nat) : Int := phS (j + 256)

/-- Table index of a PH16 element and of a PH8 element (R202). -/
def ph16Index (a : Nat) : Nat := (a + 16) / 32 % 1024
def ph8Index (a : Nat) : Nat := a * 8

/-- atan of a fixed-point t ≤ 1/2: Σ (−1)^k t^(2k+1)/(2k+1). -/
def atanSeries (t2 : Nat) : Nat → Nat → Nat → Int
  | 0, _, _ => 0
  | fuel + 1, k, p => (p / (2 * k + 1) : Nat) - atanSeries t2 fuel (k + 1) (fixMul p t2)

/-- atan(num/den) for 0 ≤ num ≤ den, in fixed point, by halving the angle twice. -/
def atanFix (num den : Nat) : Nat :=
  let half (t : Nat) : Nat := t * fixOne / (fixOne + isqrt (fixOne * fixOne + t * t))
  let t := half (half (num * fixOne / den))
  4 * (atanSeries (fixMul t t) 100 0 t).toNat

/-- The PH16 code nearest atan2(y, x) (R202). -/
def phAtan2 (y x : Int) : Nat :=
  let ax := x.natAbs
  let ay := y.natAbs
  if ay = 0 then (if x > 0 then 0 else 16384)
  else if ax = 0 then (if y > 0 then 8192 else 24576)
  else if ax = ay then (if x > 0 then (if y > 0 then 4096 else 28672) else if y > 0 then 12288 else 20480)
  else
    -- angle within the first quadrant in units of 2π/32,768, scaled by 2^401
    let small := 2 * 16384 * atanFix (min ax ay) (max ax ay) * fixOne / piFix
    let first := if ay < ax then small else 2 * 8192 * fixOne - small
    let a := if x > 0 then (if y > 0 then first else 2 * 32768 * fixOne - first)
      else if y > 0 then 2 * 16384 * fixOne - first else 2 * 16384 * fixOne + first
    (a / fixOne + 1) / 2 % 32768

/-- Coherence of sums X, Y over n elements (R202). -/
def phCoh (x y : Int) (n : Nat) : Nat :=
  if n = 0 then 0
  else
    let s := x.natAbs * x.natAbs + y.natAbs * y.natAbs
    let k := isqrt (16 * s) / n
    let twice := (2 * k + 1) * (2 * k + 1) * n * n
    let r := if twice < 64 * s ∨ (twice = 64 * s ∧ k % 2 = 1) then k + 1 else k
    min 0xFFFF r

/-- PhRed over the table indices of the defined elements (R202): the angle code and the coherence. -/
def phRed (idx : List Nat) : Nat × Nat :=
  let x := idx.foldl (fun a j => a + phC j) 0
  let y := idx.foldl (fun a j => a + phS j) 0
  (if x = 0 ∧ y = 0 then ph16Undef else phAtan2 y x, phCoh x y idx.length)

/-- ph.cmp on angles of `n` bits (R203). -/
def phCmp (n : Nat) (a b : Option Nat) : Nat :=
  match a, b with
  | some x, some y =>
    let d := (y + 2 ^ n - x) % 2 ^ n
    if d = 0 then 0 else if d < 2 ^ (n - 1) then 1 else if d = 2 ^ (n - 1) then 3 else 2
  | _, _ => 4

end Sys2Proof.Machine
end

