-- ==== Sys2Proof/Machine/HomeAgent.lean ====
section
/-! DEFINITION. HOME_AGENT_ACCESS (R164), the writes of engines and of the copy engine at a home agent, join words
(R308–R311), the special-function unit (R133, R347) and bounded waits (R162, R286). -/

namespace Sys2Proof.Machine

/-! ### Leaving a slot -/

/-- The thread's accesses in its core's pipeline complete, and those issued before them (R121, R169, R204). -/
def State.finishTcm (s : State) (t : Nat) : State :=
  let d := (s.ctx t).core
  let own (x : Delayed) : Bool := match x with
    | .wb _ m => m.tid = t
    | .hVal _ _ _ _ | .hEmpty _ _ _ _ => false
  let tcm (x : Delayed) : Bool := match x with
    | .wb _ _ => true
    | .hVal _ _ _ _ | .hEmpty _ _ _ _ => false
  let ds := (s.core d).delayed
  let n := ds.length - (ds.reverse.takeWhile fun x => ¬ own x).length
  ((ds.take n).filter tcm).foldl (fun s x => s.settleOne d x)
    (s.modCore d fun c => { c with delayed := (ds.take n).filter (fun x => ¬ tcm x) ++ ds.drop n })

/-- The context leaves its slot: what it has in the pipeline completes, an instruction that has been performed nowhere is to be
issued again (R210), and ctl.time stops (R99). -/
def State.vacate (s : State) (t : Nat) (p : Place) : State :=
  let s := (s.finishTcm t).unhold t
  let now := s.ctlTime t
  s.modCtx t fun c => { c with timeAcc := now, place := p, chuckAt := (s.core c.core).cycle }

/-! ### Writes of engines (R165, R184) -/

/-- A write that also sets full bits and serves the waiters of its doublewords (R165, R184). -/
def State.fillWrite (s : State) (pa : Nat) (bs : List Byte) : State :=
  let n := bs.length
  let v := bs.foldr (fun b a => b.toNat + 256 * a) 0
  let dws := (List.range ((n + 14) / 8)).map fun k => dwOf pa + 8 * k
  let s1 := s.homeWrite none pa n v
  (dws.filter fun d => decide (d < pa + n)).foldl (fun s d => (s.setFull d).wake d) s1

/-- The waiters of a ring whose descriptor was written are examined afresh (R298). -/
def State.ringTouched (s : State) (pa : Nat) : State := s.ringWake (lineOf pa)

/-! ### Join words -/

/-- Contexts set aside on a core that are in its Chuck (R310), not in the save area. -/
def State.asideIn (s : State) (core : Nat) : List Nat :=
  (s.ctxs.filter fun e => e.2.place = .setAside core && e.2.record.isNone).map (·.1)

/-- Contexts held in the Chuck of a core: pre-empted, inbound and set aside. -/
def State.chuckUsed (s : State) (core : Nat) : Nat :=
  let c := s.core core
  c.chuck.length + (c.inbound.filter fun t => ¬ c.inboundSpill.contains t).length + (s.asideIn core).length

/-- The Chuck has an entry free of its 32 (R95). Without one a joining context waits in its slot
(notes/assumptions/124.md). -/
def State.chuckRoom (s : State) (core : Nat) : Bool := s.chuckUsed core < 32

/-- An operation on a join word at its home agent, compared with the watchpoints as it is performed, a join when it first reads
the word (R212, R308, R310, R311). -/
def State.homeJoin (s : State) (m : Msg) : State :=
  if m.loc ≠ .home ∨ s.mustWait m = true then s
  else
    let x : Touch := ⟨8, m.op ≠ .joinWait, true, m.op ≠ .joinWait⟩
    match s.refusal m x with
    | (s0, some t) => s0.answer m (.error t)
    | (s0, none) =>
      let (s1, hit) := (s0.dirty m.core m.leaf).watch m.pa 8 m.op.watchClass m.va m.tid m.core m.slot m.issued
      let m := { m with hit := hit }
      let v := s1.rd64 m.pa
      let count (v : Word) : State := ((s1.dropLine m).homeWrite none m.pa 8 v.toNat).noteDirty m.tid m.pa 8
      match m.op with
      | .joinInc _ _ => (count (v + 1)).answer m (.value v)
      | .joinDec => (count (v - 1)).answer m (.value v)
      | .joinWait =>
        if v = 0 then s1.answer m (.value 0)
        else if (s1.ctx m.tid).place.resident ∧ s1.chuckRoom (s1.ctx m.tid).core = true then (s1.queueUp m).vacate m.tid (.setAside (s1.ctx m.tid).core)
        else s1.queueUp m
      | _ => s1

/-! ### Digest lines (R327) -/

/-- Stores on their way to host memory are written before a read of it (R180). -/
def State.drainFor (s : State) (pa : Nat) : State :=
  match s.target pa with
  | some (.host _) => s.drainHost
  | _ => s

/-- The line of dg.fold is read as one access, like a copy read: it matches no watchpoint (R212, R327). -/
def State.homeFold (s : State) (m : Msg) : State :=
  if m.loc ≠ .home ∨ s.zeroingAt m.pa 64 = true then s
  else match s.refusal m ⟨64, false, true, false⟩ with
    | (s1, some t) => s1.answer m (.error t)
    | (s1, none) => let s2 := s1.drainFor m.pa; s2.answer m (.line (s2.rdBytes m.pa 64))

/-- HOME_AGENT_ACCESS: one access is performed at its home agent (R164). -/
def State.homeAccess (s : State) (id : Nat) : State :=
  match s.msg id with
  | none => s
  | some m => match m.op with
    | .scopeRead | .cellInit _ | .mode _ | .pol _ | .sbWait _ => s.homeCell m
    | .ringOpen _ | .ringResv _ | .ringPub _ _ | .ringWait _ | .ringFree _ | .ringAdv _ => s.homeRing m
    | .joinInc _ _ | .joinDec | .joinWait => s.homeJoin m
    | .fold => s.homeFold m
    | _ => match m.op.touch with
      | some x => ((s.freshRate m.pa).homeWord m x).ringTouched m.pa
      | none => s

/-- The members of a combined group of claims or arrivals that follow its first, in the serial order of R32. -/
def State.group (s : State) : Nat → Nat → List Nat
  | 0, _ => []
  | fuel + 1, id => ((s.waitBufs.filter fun w => w.first = id).map fun w => w.second :: s.group fuel w.second).flatten

/-- The way of a request that was combined into another: the other's from their switch on, then its own (R30, R31). -/
def Msg.joinPath (m : Msg) (path : List Way) : List Way :=
  match path with
  | w :: _ => (m.path.takeWhile fun x => x ≠ w) ++ path
  | [] => path

/-- A combined claim or arrival is served as consecutive operations, with none between them (R32, R92, R158). -/
def State.serveGroup (s : State) (id : Nat) (serve : State → Nat → State) : State :=
  match s.msg id with
  | none => s
  | some m =>
    let whole := match m.op with
      | .claim _ | .arrive _ | .arriveWait => true
      | _ => false
    let g := if whole then s.group (s.waitBufs.length + 1) id else []
    let s1 := serve s id
    if g.isEmpty ∨ (s1.msg id).map (·.loc) = some .home then s1
    else
      let s2 := { s1 with
        waitBufs := s1.waitBufs.filter fun w => w.first ≠ id && !g.contains w.second,
        flights := (g.filterMap s1.msg).map (fun x => { x with loc := .home, path := m.joinPath x.path }) ++
          s1.flights.filter fun x => ¬ g.contains x.id }
      g.foldl serve s2

/-- HOME_AGENT_ACCESS (R164). -/
def execHomeAgentAccess (msg : Nat) (s : State) : Host.Outcome State Fault Refusal :=
  .next (s.serveGroup msg State.homeAccess)

/-- BARRIER_ARRIVAL_AT_BANK (R157, R158). -/
def execBarrierArrivalAtBank (msg : Nat) (s : State) : Host.Outcome State Fault Refusal :=
  .next (s.serveGroup msg State.barrierAtBank)

/-- COUNTER_ARRIVAL_AT_BANK (R158, R159). -/
def execCounterArrivalAtBank (msg : Nat) (s : State) : Host.Outcome State Fault Refusal :=
  .next (s.serveGroup msg State.counterAtBank)

/-! ### Special functions (R133, R347) -/

/-- SFU_REQUEST_SERVE: the cluster's unit serves its oldest request (R64, R133). -/
def State.sfuServe (s : State) (cl : Nat) : State :=
  match s.flights.find? fun m => m.loc = .home && s.clusterOf m.core = cl && (match m.op with
    | .sfu _ _ => true
    | _ => false) with
  | none => s
  | some m => match m.op with
    | .sfu fn x => s.answer m (.value (zext (sfEval fn x)))
    | _ => s

/-- SFU_REQUEST_SERVE (R133). -/
def execSfuRequestServe (cluster : Nat) (s : State) : Host.Outcome State Fault Refusal := .next (s.sfuServe cluster)

/-- A special-function request: the thread parks until the unit fills RD, in a pair beside what word 0 has parked on (R238,
R347). -/
def State.sfIssue (s : State) (fn : Nat) (rd ra : Reg) : State :=
  s.operands [ra] [rd] fun s' =>
    let t := s'.iss.tid
    let m := { s'.request t (.sfu fn ((s.src ra).setWidth 32)) 0 0 (some rd) with loc := .home }
    if (s'.ctx t).park = .none then s'.sendPark m (some rd)
    else ((s'.pend rd).post m).modCtx t fun c => { c with also := some s'.nextMsg }

/-- sf.rcp rd, ra (R347). -/
def execSfRcp (rd ra : Reg) (s : State) : Host.Outcome State Fault Refusal := .next (s.sfIssue 0 rd ra)
/-- sf.sqrt rd, ra (R347). -/
def execSfSqrt (rd ra : Reg) (s : State) : Host.Outcome State Fault Refusal := .next (s.sfIssue 1 rd ra)
/-- sf.rsqrt rd, ra (R347). -/
def execSfRsqrt (rd ra : Reg) (s : State) : Host.Outcome State Fault Refusal := .next (s.sfIssue 2 rd ra)
/-- sf.exp2 rd, ra (R347). -/
def execSfExp2 (rd ra : Reg) (s : State) : Host.Outcome State Fault Refusal := .next (s.sfIssue 3 rd ra)
/-- sf.log2 rd, ra (R347). -/
def execSfLog2 (rd ra : Reg) (s : State) : Host.Outcome State Fault Refusal := .next (s.sfIssue 4 rd ra)
/-- sf.sinpi rd, ra (R347). -/
def execSfSinpi (rd ra : Reg) (s : State) : Host.Outcome State Fault Refusal := .next (s.sfIssue 5 rd ra)
/-- sf.cospi rd, ra (R347). -/
def execSfCospi (rd ra : Reg) (s : State) : Host.Outcome State Fault Refusal := .next (s.sfIssue 6 rd ra)

/-! ### Bounded waits (R162, R286) -/

/-- The core sends a cancel of a request to its home (R162). -/
def State.sendCancel (s : State) (m : Msg) : State := s.post (s.request m.tid (.cancel m.id) m.va m.pa none)

/-- BOUNDED_WAIT_EXPIRE: the limit of the thread's parked wait, or of one of its waiting st.fl, has passed in cycles of
ctl.time (R162, R286). -/
def State.waitExpire (s : State) (t : Nat) : State :=
  let c := s.ctx t
  let now := s.ctlTime t
  let stores (s : State) : State :=
    match s.flights.find? fun m => m.tid = t && (match m.op, m.limit with
      | .storeFill _ _, some n => decide (n ≤ now - m.aux.toNat)
      | _, _ => false) with
    | some m => (s.setMsg { m with limit := none }).sendCancel m
    | none => s
  if c.stays then s
  else match c.park, c.limit with
    | .reply id, some n =>
      if n ≤ now - c.limitFrom then
        match s.msg id with
        | some m => (s.modCtx t fun c => { c with limit := none }).sendCancel m
        | none => stores s
      else stores s
    | _, _ => stores s

/-- BOUNDED_WAIT_EXPIRE (R162). -/
def execBoundedWaitExpire (tid : Nat) (s : State) : Host.Outcome State Fault Refusal := .next (s.waitExpire tid)

/-- The trap that ends a wait whose cancel came first, if the operation waits under a limit (R162, R286). -/
def State.waitTrap (s : State) (m : Msg) : Option TrapRec :=
  match m.op with
  | .acq | .arriveWait | .sbWait _ => some (s.cellTimeout m)
  | .call _ => if m.aux = 0 then some (s.cellTimeout m) else none
  | .loadSync _ take => some (TrapRec.make 0x0B m.va (if take then 2 else 1) 0)
  | .fe sy => some (TrapRec.make 0x0B m.va (zext sy) 0)
  | .storeFill _ _ => some (TrapRec.make 0x0B m.va 3 0)
  | .ringResv _ | .ringWait _ | .ringFree _ => some (s.ringTimeout m)
  | _ => none

/-- A cancelled waiter of a lock leaves its ticket marked (R162). -/
def State.cancelTicket (s : State) (m : Msg) : State :=
  match m.op, m.ticket with
  | .acq, some t | .call _, some t =>
    if s.cellKind m.pa = 0 then
      { s with cancelled := s.cancelled.put m.pa (((s.cancelled.look m.pa).getD []) ++ [t]) }
    else s
  | _, _ => s

/-- WAIT_CANCEL_AT_HOME: a cancel reaches the home agent and races with the satisfaction of the wait (R162). -/
def State.cancelAtHome (s : State) (id : Nat) : State :=
  match s.msg id with
  | none => s
  | some m => match m.op with
    | .cancel target =>
      if m.loc ≠ .home ∨ s.mustWait m then s
      else
        let s1 := s.dropMsg id
        match s1.msg target with
        | none => s1
        | some w =>
          if w.loc ≠ .waiting then s1
          else match s1.waitTrap w with
            | none => s1
            | some t =>
              if w.op.isCell then (s1.cellAnswer w (.error t)).cancelTicket w else s1.answer w (.error t)
    | _ => s

/-- WAIT_CANCEL_AT_HOME (R162). -/
def execWaitCancelAtHome (msg : Nat) (s : State) : Host.Outcome State Fault Refusal := .next (s.cancelAtHome msg)

end Sys2Proof.Machine
end

