-- ==== Sys2Proof/Machine/Fabric.lean ====
section
/-! DEFINITION. Grid routers (R21–R29) and the switches of the combining networks (R30–R33). -/

namespace Sys2Proof.Machine

/-! ### Routers -/

/-- The router at which a packet stands: a request on its way there, or a reply on its way back (R24, R30). -/
def Msg.router (m : Msg) : Option (Nat × Nat) :=
  match m.loc, m.ret with
  | .grid x y, _ => some (x, y)
  | .back _, some (.router x y) => some (x, y)
  | _, _ => none

/-- Flits of a virtual network and class, or of the escape network, at an input of a router (R26). -/
def State.flitsAt (s : State) (xy : Nat × Nat) (port : Nat) (esc : Bool) (of : Msg → Bool) : Nat :=
  ((s.flights.filter of).map fun m =>
    (m.held.filter fun f => f.x = xy.1 && f.y = xy.2 && f.port = port && f.esc = esc).length).sum

/-- Flit buffers of one class of virtual network `p` that are free at an input of a router (R26). -/
def State.freeBufs (s : State) (xy : Nat × Nat) (port : Nat) (p cls : Nat) : Nat :=
  let of (q k : Nat) : Nat := s.flitsAt xy port false fun m => m.part = q && m.cls = k
  let pool (q : Nat) : Nat := ((List.range 5).map fun k => of q k - 1).sum
  let total := ((List.range 16).map pool).sum
  (if of p cls = 0 then 1 else 0) + min (8 - pool p) (32 - total)

/-- Escape buffers of a class that are free at an input of a router (R26). -/
def State.freeEsc (s : State) (xy : Nat × Nat) (port cls : Nat) : Nat :=
  2 - s.flitsAt xy port true fun m => m.cls = cls

/-- One hop towards a destination in X or in Y, and the input port it arrives at (R24). -/
def hopX (xy dst : Nat × Nat) : Option ((Nat × Nat) × Nat) :=
  if xy.1 < dst.1 then some ((xy.1 + 1, xy.2), 3) else if dst.1 < xy.1 then some ((xy.1 - 1, xy.2), 1) else none
def hopY (xy dst : Nat × Nat) : Option ((Nat × Nat) × Nat) :=
  if xy.2 < dst.2 then some ((xy.1, xy.2 + 1), 2) else if dst.2 < xy.2 then some ((xy.1, xy.2 - 1), 0) else none

/-- The number of a grid link: that of the router input at its end. -/
def linkNo (n : Nat × Nat) (port : Nat) : Nat := (n.1 * 64 + n.2) * 4 + port

/-- The hop a packet would take: minimal and adaptive, to the output with more free buffers and X on a tie; on the escape
network X first, then Y, and only in the link's next slot for escape flits. None while no buffer is free (R26, R27, R29). -/
def State.hop (s : State) (m : Msg) (xy dst : Nat × Nat) : Option ((Nat × Nat) × Nat) :=
  if m.esc then ((hopX xy dst).or (hopY xy dst)).filter fun h =>
    decide (0 < s.freeEsc h.1 h.2 m.cls) && (s.escFrom.look (linkNo h.1 h.2)).getD 0 ≤ s.wall
  else
    let free (h : Option ((Nat × Nat) × Nat)) : Nat :=
      match h with
      | some x => s.freeBufs x.1 x.2 m.part m.cls
      | none => 0
    let fx := free (hopX xy dst)
    let fy := free (hopY xy dst)
    if fx = 0 ∧ fy = 0 then none else if fy ≤ fx then hopX xy dst else hopY xy dst

/-- Where a packet goes that has reached its last router: a request to its home, or into the combining network of the SRAM's
die at the cluster of the first core reached there (R14); a reply to its requester. -/
def State.leaveGrid (s : State) (m : Msg) (xy : Nat × Nat) : Option Msg :=
  let out : Msg := { m with held := [], track := [], entered := 0, esc := false, since := s.wall }
  match m.loc with
  | .back _ => if s.coreXY m.core = xy then some { out with ret := none } else none
  | _ => match s.target m.pa with
    | some (.sram die _) =>
      let cl := s.clusterOf (s.coreAt xy.1 xy.2)
      if dieOf xy = die then
        some { out with loc := .switch die 0 (cl % 64), port := cl / 64 % 2, path := .router xy.1 xy.2 :: m.path }
      else none
    | _ => if s.routeTo xy m.pa = xy then some { out with loc := .home, path := .router xy.1 xy.2 :: m.path } else none

/-- The output that the header of a packet at a router waits for, if any is free to it. -/
def State.wants (s : State) (m : Msg) : Option ((Nat × Nat) × Nat) :=
  m.router.bind fun xy => if m.held.isEmpty ∨ (s.leaveGrid m xy).isSome then none else s.hop m xy (s.goal m xy)

/-- The step of a body flit: into the buffer that the header took after the one that the flit is in, if a buffer is free there to
its packet (R21, R26, R29). -/
def State.follows (s : State) (m : Msg) (f : Flit) : Option Flit :=
  ((m.track.takeWhile fun e => e ≠ f).getLast?).filter fun e =>
    if e.esc then decide (0 < s.freeEsc (e.x, e.y) e.port m.cls) && (s.escFrom.look (linkNo (e.x, e.y) e.port)).getD 0 ≤ s.wall
    else decide (0 < s.freeBufs (e.x, e.y) e.port m.part m.cls)

/-- The flits of a packet that are ready for a link, with the buffers that they would take, the header's first (R27). -/
def State.readyFlits (s : State) (m : Msg) : List (Nat × Flit) :=
  let head : Option Flit := (s.wants m).map fun h => ⟨h.1.1, h.1.2, h.2, m.esc⟩
  (m.held.zipIdx.filterMap fun e => (if e.2 = 0 then head else s.follows m e.1).map fun g => (e.2, g))

/-- Round-robin order of an output link: the virtual network has the next grant among those with a flit ready for the link
(R27). An escape flit takes its own network's grants (R29). After reset a link serves virtual network 0 first: the spec says
nothing of the first (DESIGN CHOICE, notes/assumptions/150.md). -/
def State.granted (s : State) (m : Msg) (e : Flit) : Bool :=
  let after (q : Nat) : Nat := (q + 31 - (s.served.look (linkNo (e.x, e.y) e.port)).getD 15) % 16
  s.flights.all fun o => after m.part ≤ after o.part ||
    (s.readyFlits o).all fun f => (f.2.x, f.2.y, f.2.port) ≠ (e.x, e.y, e.port)

/-- One grant of a link: it has served the virtual network, and an escape flit leaves it to others for 15 slots in 16, of half a
nanosecond each (R27, R29). -/
def State.grant (s : State) (m : Msg) (e : Flit) : State :=
  { s with
    served := s.served.put (linkNo (e.x, e.y) e.port) m.part,
    escFrom := if e.esc then s.escFrom.put (linkNo (e.x, e.y) e.port) (s.wall + 8) else s.escFrom }

/-- One flit of a packet takes a hop by a grant: the header to the next router, or a body flit after it (R21, R27). -/
def State.takeHop (s : State) (m : Msg) (k : Nat) (e : Flit) : State :=
  let m1 : Msg := { m with held := m.held.set k e }
  let m2 : Msg :=
    if k ≠ 0 then m1
    else
      let h : Msg := { m1 with port := e.port, since := s.wall, track := e :: m.track }
      match m.loc with
      | .back _ => { h with ret := some (.router e.x e.y) }
      | _ => { h with loc := .grid e.x e.y }
  ((s.corrects 6 m.id).setMsg m2).grant m e

/-- The next flit of a packet enters the network by the input of the router's own core, where a buffer is free to it (R24,
R26). -/
def State.enterFlit (s : State) (m : Msg) : Option Msg :=
  let door : Option (Nat × Nat) := match m.track.getLast? with
    | some e => some (e.x, e.y)
    | none => m.router
  match door with
  | none => none
  | some xy =>
    let e : Flit := ⟨xy.1, xy.2, 4, m.esc && m.track.isEmpty⟩
    let free : Bool := if e.esc then decide (0 < s.freeEsc xy 4 m.cls) else decide (0 < s.freeBufs xy 4 m.part m.cls)
    if m.len < m.entered ∨ free = false then none
    else some { m with held := m.held ++ [e], entered := m.entered + 1, track := if m.track.isEmpty then [e] else m.track }

/-- A body flit that has come to the router at which its packet leaves the grid leaves its buffer (R21). -/
def Msg.drain (m : Msg) (xy : Nat × Nat) : Option Msg :=
  match m.held with
  | head :: f :: rest => if f.x = xy.1 ∧ f.y = xy.2 then some { m with held := head :: rest } else none
  | _ => none

/-- A packet at a router that accepts it: its first ready flit with a grant takes one hop, or its next flit enters the network; at
the last router its flits leave one by one, and with the last of them the packet has left the grid (R21, R27). -/
def State.routePacket (s : State) (m : Msg) (xy : Nat × Nat) : State :=
  let move : State := match (s.readyFlits m).find? fun e => s.granted m e.2 with
    | some e => s.takeHop m e.1 e.2
    | none => ((s.enterFlit m).map s.setMsg).getD s
  match s.leaveGrid m xy with
  | none => move
  | some out =>
    if m.len < m.entered ∧ m.held.length ≤ 1 then s.moveLast out
    else match m.drain xy with
      | some m1 => s.setMsg m1
      | none => move

/-- The coordinates that a fabric-error record names, and the arrival link: a router, or a switch's stage and index. A switch
has no arrival link of R24: its PORT is recorded as 4, which is the model's choice (R24, R30,
notes/assumptions/122.md). -/
def Msg.whereIs (m : Msg) : Option (Nat × Nat × Nat) :=
  match m.router with
  | some (x, y) => some (x, y, m.port)
  | none => match m.loc, m.ret with
    | .switch _ st ix, _ => some (st, ix, 4)
    | .back _, some (.switch _ st ix) => some (st, ix, 4)
    | _, _ => none

/-- ROUTER_PACKET_RECEIVE: the header as received is checked; a packet that fails is dropped whole and logged, and its
destination and sender learn nothing (R22, R23, R24, R27, R30). -/
def State.receivePacket (s : State) (id : Nat) (hdr : BitVec 96) : State :=
  match s.msg id with
  | none => s
  | some m => match m.whereIs with
    | none => s
    | some (x, y, port) =>
      let kind := if crc16 (hdr.setWidth 80) ≠ hdr.extractLsb' 80 16 then 1 else if 4 < fld hdr 35 3 then 2 else 0
      if kind ≠ 0 then (s.setMsg { m with loc := .lost, held := [], track := [] }).logFabric hdr x y port kind
      else match m.router with
        | some xy => s.routePacket m xy
        | none => s

/-- ROUTER_PACKET_RECEIVE (R23). -/
def execRouterPacketReceive (msg : Nat) (hdr : BitVec 96) (s : State) : Host.Outcome State Fault Refusal :=
  .next (s.receivePacket msg hdr)

/-- A packet at a router is blocked: it is not at its last router, and no buffer that it may take is free (R26, R29). -/
def State.stuck (s : State) (m : Msg) : Bool :=
  match m.router with
  | some xy => ¬ m.held.isEmpty && (s.leaveGrid m xy).isNone && (s.wants m).isNone
  | none => false

/-- ESCAPE_TIMEOUT: a router's oldest blocked packet that has waited longer than the escape timeout moves to the escape
network (R29). -/
def State.escape (s : State) (id : Nat) : State :=
  match s.msg id with
  | none => s
  | some m =>
    let oldest := s.flights.all fun o => o.router ≠ m.router || o.esc || ¬ s.stuck o || m.since ≤ o.since
    if m.esc ∨ ¬ s.stuck m ∨ ¬ oldest ∨ s.wall - m.since ≤ s.esct then s else s.setMsg { m with esc := true, since := s.wall }

/-- ESCAPE_TIMEOUT (R29). -/
def execEscapeTimeout (msg : Nat) (s : State) : Host.Outcome State Fault Refusal := .next (s.escape msg)

/-! ### Switches -/

/-- Home bank of an offset in shared SRAM (R14). -/
def bankOf (off : Nat) : Nat := off / 64 % 128

/-- A request leaves a switch: stage s routes by bit 6−s of its home bank, and the wiring between stages is a perfect
shuffle of the 128 lines, of which a switch has two inputs (R30). -/
def State.nextSwitch (s : State) (m : Msg) (die st ix : Nat) : Msg :=
  let out : Msg := { m with path := .switch die st ix :: m.path, since := s.wall }
  match s.target m.pa with
  | some (.sram _ off) =>
    let line := ix * 2 + bankOf off / 2 ^ (6 - st) % 2
    if 6 ≤ st then { out with loc := .home } else { out with loc := .switch die (st + 1) (line % 64), port := line / 64 }
  | _ => { out with loc := .home }

/-- Whether two requests may combine: fetch-and-adds of one size to one word, claims of one counter, or arrivals that
their requesters marked (R31, R92, R158). -/
def combinable (a b : Msg) : Bool :=
  a.part = b.part && a.pa = b.pa && (match a.op, b.op with
    | .amo .add n _ _, .amo .add n' _ _ => n = n'
    | .claim _, .claim _ => true
    | .arrive _, .arrive _ | .arrive _, .arriveWait | .arriveWait, .arrive _ | .arriveWait, .arriveWait =>
      a.aux = 1 && b.aux = 1
    | _, _ => false)

/-- The addend of a request, and the request with another. -/
def Msg.addend (m : Msg) : Word :=
  match m.op with
  | .amo .add _ b _ => b
  | _ => 0
def Msg.addTo (m : Msg) (a : Word) : Msg :=
  match m.op with
  | .amo .add n b e => { m with op := .amo .add n (b + a) e }
  | _ => m

/-- A request must not pass one that came by the same input: one for the same doubleword, or, of a probe, one for the same bank
(R33, R175). -/
def State.keepsOrder (s : State) (m w : Msg) : Bool :=
  w.port = m.port && (dwOf w.pa = dwOf m.pa || (match m.op, s.target m.pa with
    | .probe b, some (.sram die _) => s.toBank w die b
    | _, _ => false))

/-- An earlier request at the switch must leave first: itself, or one that was combined into it here (R33, R175). -/
def State.behind (s : State) (m w : Msg) : Bool :=
  w.loc = m.loc && (s.keepsOrder m w || (s.waitBufs.any fun b => b.first = w.id && .switch b.die b.stage b.index = w.loc &&
    (match s.msg b.second with
      | some x => s.keepsOrder m x
      | none => false)))

/-- A probe waits at the switch behind a request, which is then forwarded uncombined (R175). -/
def State.probeBehind (s : State) (w : Msg) : Bool :=
  s.flights.any fun p => p.loc = w.loc && (match p.op with
    | .probe _ => s.keepsOrder p w
    | _ => false)

/-- COMBINE_ARRIVE: a request at a switch combines with one that waits there, or is forwarded in its turn; with every wait
buffer taken it is forwarded uncombined (R31, R33). -/
def State.combine (s : State) (id : Nat) : State :=
  match s.msg id with
  | none => s
  | some m => match m.loc with
    | .switch die st ix =>
      let ahead := s.flights.takeWhile fun x => x.id ≠ id
      let used := (s.waitBufs.filter fun w => w.die = die && w.stage = st && w.index = ix).length
      let partner := if used < 8 then ahead.find? fun w => w.loc = m.loc && combinable w m && ¬ s.probeBehind w else none
      if ahead.any fun w => s.behind m w && partner.map (·.id) ≠ some w.id then s
      else match partner with
        | some w =>
          { (s.setMsg (w.addTo m.addend)).setMsg { m with loc := .merged, path := .switch die st ix :: m.path } with
            waitBufs := s.waitBufs ++ [⟨die, st, ix, w.id, id, w.addend⟩] }
        | none => s.moveLast (s.nextSwitch m die st ix)
    | _ => s

/-- COMBINE_ARRIVE (R31). -/
def execCombineArrive (msg : Nat) (s : State) : Host.Outcome State Fault Refusal := .next (s.combine msg)

/-- What the second requester of a pair receives when the first receives `r`: v plus the first's addend, modulo 2^width, or
the refusal (R31). -/
def Msg.share (x : Msg) (r : Reply) (addend : Word) : Reply :=
  let width := match x.op with
    | .amo _ n _ _ => 8 * n
    | _ => 64
  match r with
  | .value v => .value (word ((v.toNat + addend.toNat) % 2 ^ width))
  | .error t => .error { t with taddr := x.va }
  | .ack | .line _ | .chunk _ _ _ _ _ _ => r

/-- One pair of the switch: the reply goes to the second requester too, from this switch back along its own path. -/
def State.sharePair (s : State) (r : Reply) (w : WaitBuf) : State :=
  let s1 := { s with waitBufs := s.waitBufs.erase w }
  match s1.msg w.second with
  | some x => s1.setMsg { x.reply (x.share r w.addend) with since := s.wall }
  | none => s1

/-- COMBINE_REPLY: a reply at a switch on its way back is given to the requesters that were combined there, and goes back one
place on its request's path (R30, R31). -/
def State.splitReply (s : State) (id : Nat) : State :=
  match s.msg id with
  | none => s
  | some m => match m.loc, m.ret with
    | .back r, some (.switch die st ix) =>
      let pairs := s.waitBufs.filter fun w => w.first = id && w.die = die && w.stage = st && w.index = ix
      (pairs.foldl (fun s w => s.sharePair r w) s).setMsg
        { m with path := m.path.tail, ret := m.path.tail.head?, port := 4, since := s.wall }
    | _, _ => s

/-- COMBINE_REPLY (R31). -/
def execCombineReply (msg : Nat) (s : State) : Host.Outcome State Fault Refusal := .next (s.splitReply msg)

end Sys2Proof.Machine
end

