-- ==== Sys2Proof/Machine/Tasks.lean ====
section
/-! DEFINITION. Tasks and contexts: what package agents read and write for a task (R51, R56), the Chuck and the save
area (R93–R95), seating a context in a slot (R82, R93, R309), and the end of threads and tasks (R76, R83, R121, R265). -/

namespace Sys2Proof.Machine

/-! ### Accesses of package agents -/

/-- The private window denotes a thread's own memory, so no package agent reaches it. -/
def inWindow (va : Word) : Bool := (windowOff va).isSome

/-- Translate an address under an ASID for an agent that is no thread, by a walk, at level U; a write sets the stage-2
D bit (R51, R67, R74). The trap record only carries the reason of a refusal. -/
def State.agentReach (s : State) (asid : Nat) (va : Word) (size : Nat) (k : Kind) : Except TrapRec (Nat × State) :=
  if va.toNat % size ≠ 0 then .error (TrapRec.make 0x04 va (word size) 0)
  else if inWindow va then .error (TrapRec.make 0x03 va 6 0)
  else match s.walk asid va.toNat none with
    | .error f => .error (TrapRec.make f.code va (word f.tinfo) 0)
    | .ok e => match e.refuses va.toNat k .u with
      | some f => .error (TrapRec.make f.code va (word f.tinfo) 0)
      | none =>
        if (s.target (e.pa va.toNat)).isNone then .error (TrapRec.make 0x03 va 1 0)
        else
          let l := e.leaf va.toNat
          .ok (e.pa va.toNat, if k = .write then s.setD (some l) else s)

/-- The request of a package agent for a function, as the destination's checks see it: no thread, core or slot. -/
def State.agentMsg (s : State) (fn part asid : Nat) (op : HomeOp) (va : Word) (pa : Nat) : Msg :=
  { s.request 0 op va pa none with fn := fn, part := part, asid := asid, lvl := .u, core := 0, slot := 0, loc := .home }

/-- Read `n` bytes at a virtual address for a function's task, checked as any access (R75). -/
def State.agentRead (s : State) (fn part asid : Nat) (va : Word) (n : Nat) : Except TrapRec Nat × State :=
  match s.agentReach asid va 8 .read with
  | .error t => (.error t, s)
  | .ok (pa, s1) => match s1.refusal (s1.agentMsg fn part asid .none va pa) ⟨n, false, true, false⟩ with
    | (s2, some t) => (.error t, s2)
    | (s2, none) => (.ok (s2.rd pa n), s2)

/-- The stage-2 leaf of an agent's access, whose D bit is set again as the access is performed (R74). -/
def State.agentLeaf (s : State) (asid : Nat) (va : Word) : Option Nat :=
  match s.walk asid va.toNat none with
  | .ok e => some (e.leaf va.toNat)
  | .error _ => none

/-- Fill a doubleword: write it and mark it full, once it is empty, as st.fl does (R56, R171). None where the write
fails. -/
def State.agentFill (s : State) (fn part asid : Nat) (va v : Word) : Option State × State :=
  match s.agentReach asid va 8 .write with
  | .error _ => (none, s)
  | .ok (pa, s1) =>
    let m := s1.agentMsg fn part asid (.storeFill 8 v) va pa
    match s1.refusal m ⟨8, true, false, true⟩ with
      | (s2, some _) => (none, s2)
      | (s2, none) =>
        if !(((s2.target pa).map Target.hasFe).getD false) then (none, s2)
        else if s2.isFull pa then (some (s2.post { m with loc := .waiting, leaf := s.agentLeaf asid va }), s2)
        else (some (((s2.homeWrite none pa 8 v.toNat).setFull pa).wake pa), s2)

/-- DONE_FILL: DONE takes the value, or vector 64 of the function is raised (R56). -/
def State.doneFill (s : State) (fn part asid : Nat) (va v : Word) : State :=
  if va = 0 then s
  else match s.agentFill fn part asid va v with
    | (some s', _) => s'
    | (none, s') => s'.vector fn 64

/-! ### The Chuck and the save area (R93–R95) -/

/-- The start of a function's save area on a core (R94). -/
def State.saveBase (s : State) (fn core : Nat) : Nat := s.corePa 1 core (fld ((s.save.look fn).getD 0) 20 7 * 2 ^ 20)

/-- SAVEf: the area is set, and every one of its frames is the function's and takes writes (R57, R94). -/
def State.saveOk (s : State) (fn core : Nat) : Bool :=
  bit ((s.save.look fn).getD 0) 63 && (List.range 256).all fun k =>
    let pa := s.saveBase fn core + 4096 * k
    s.owner pa = .fn fn && ¬ s.sealedAt pa 4096

/-- Write `n` bytes whose content the spec does not lay out, a context's record or image: each doubleword takes a free value
(R94, R121, notes/assumptions/123.md). -/
def State.writeOpaque (s : State) (pa n : Nat) : State :=
  (List.range (n / 8)).foldl (fun (s : State) k =>
    if s.sealedAt (pa + 8 * k) 8 then s else ((s.free.2).zeroFirst (pa + 8 * k) 8).homeWrite none (pa + 8 * k) 8 s.free.1.toNat) s

/-- Records of a function's area on a core that hold contexts (R94). -/
def State.saveUsed (s : State) (fn core : Nat) : Nat :=
  (s.ctxs.filter fun e => e.2.fn = fn && (match e.2.place with
    | .save c _ => c = core
    | .inbound c => c = core && (s.core core).inboundSpill.contains e.1
    | .setAside c => c = core && e.2.record.isSome
    | _ => false)).length

/-- The records that contexts of a function hold in its area on a core: of the save records, or of the deque spill buffer. -/
def State.records (s : State) (fn core : Nat) (deque : Bool) : List Nat :=
  s.ctxs.filterMap fun e => if e.2.fn = fn && e.2.core = core && decide (e.2.place = .deque core) = deque then e.2.record else none

/-- Where the newest continuation of a function goes in its deque spill buffer on a core: the next of the 448 records, which the
buffer uses in a circle, in age order (R89). -/
def State.spillNext (s : State) (fn core : Nat) : Nat := ((s.core core).spillNext.look fn).getD 0

/-- The first free record of a list. -/
def firstFree (used order : List Nat) : Nat := (order.find? fun r => ¬ used.contains r).getD 0

/-- Context `t` has record `r` of the area at `off`, and is written there. -/
def State.recordAt (s : State) (t core off r : Nat) : State :=
  (s.writeOpaque (s.saveBase (s.ctx t).fn core + off + 1024 * r) 1024).modCtx t fun c => { c with record := some r }

/-- Write a context to its function's area on a core, to a free one of the 64 records at its start (R94): the spec does not say
to which, and here it is the first (notes/assumptions/140.md). -/
def State.writeRecord (s : State) (t core : Nat) : State :=
  s.recordAt t core 0 (firstFree (s.records (s.ctx t).fn core false) (List.range 64))

/-- Write a continuation to the spill buffer of its function's area on a core, as the newest there, or, at the oldest end, as the
oldest (R89, R94, R312). -/
def State.spillRecord (s : State) (t core : Nat) (oldest : Bool) : State :=
  let fn := (s.ctx t).fn
  let used := s.records fn core true
  let at_ := s.spillNext fn core
  let circle := (List.range 448).map fun k => (at_ + k) % 448
  if oldest then
    s.recordAt t core 0x9_0000 (((circle.takeWhile fun r => ¬ used.contains r).getLast?).getD (firstFree used circle))
  else
    let r := firstFree used circle
    (s.recordAt t core 0x9_0000 r).modCore core fun c => { c with spillNext := c.spillNext.put fn ((r + 1) % 448) }

/-- A continuation leaves the spill buffer: its record is free, and where it was the newest its place is the next one (R89). -/
def State.unspill (s : State) (t : Nat) : State :=
  let c := s.ctx t
  match c.place, c.record with
  | .deque d, some r =>
    if s.spillNext c.fn d = (r + 1) % 448 then s.modCore d fun x => { x with spillNext := x.spillNext.put c.fn r } else s
  | _, _ => s

/-- Records of a function's deque spill buffer on a core (R89, R94). -/
def State.dequeSpilled (s : State) (fn core : Nat) : Nat :=
  ((s.core core).deques.map fun e => (e.2.spill.filter fun t => (s.ctx t).fn = fn).length).sum

/-- A request of the thread whose reply carries a value of memory is outstanding, but for the one it is parked on, whose
reply reaches the saved context (R163, R174, R210). -/
def State.loadsBehind (s : State) (t : Nat) : Bool :=
  (s.flights.any fun m => m.tid = t && m.op.valued && ¬ (s.ctx t).waitsFor m) ||
  (s.core (s.ctx t).core).mq.any (fun e => e.tid = t && engineReads e.instr) ||
  (s.core (s.ctx t).core).vq.any (fun e => e.tid = t && engineReads e.instr)

/-- What leaving a core needs first: everything that a fence of system scope completes (R178). Touched banks are probed
before. -/
def State.settled (s : State) (t : Nat) : Bool :=
  (s.ctx t).touched = 0 && s.fenceReady t .sfence 5 && ¬ s.loadsBehind t

/-- Probe the touched banks of a context that is to leave (R174, R178). -/
def State.probeOut (s : State) (t : Nat) : State := (s.sendProbes t).modCtx t fun c => { c with touched := 0 }

/-- The fence of system scope that a context's leaving makes: the data cache, and a trap that the completion raises, which is
taken at the first issue after the context resumes, and which reports the refused registers too (R174, R178, R204, R281). -/
def State.carryErrors (s : State) (t : Nat) : State :=
  let acks := (s.ctx t).errAcks
  (match acks with
    | [] => s
    | e :: _ => ((s.buryAll t fun r _ => acks.contains r).modCtx t fun c => { c with errAcks := [] }).pendTrap t { e with orig := 1 }
    ).invalidateCache (s.ctx t).core

/-- Remove a context from the lists of its core; a Chuck entry is read as it is left (R35). -/
def State.unlist (s : State) (t : Nat) : State :=
  ((if (s.core (s.ctx t).core).chuck.contains t then s.corrects 5 t else s).unspill t).modCore (s.ctx t).core fun c =>
    { c with
      chuck := c.chuck.filter (· ≠ t), inbound := c.inbound.filter (· ≠ t), inboundSpill := c.inboundSpill.filter (· ≠ t),
      deques := c.deques.map fun e => (e.1, ⟨e.2.chip.filter (· ≠ t), e.2.spill.filter (· ≠ t)⟩) }

/-! ### Engine contexts of a thread -/

def Core.eng (c : Core) (k : Nat) : Eng := if k = 0 then c.eng0 else c.eng1
def Core.setEng (c : Core) (k : Nat) (e : Eng) : Core := if k = 0 then { c with eng0 := e } else { c with eng1 := e }
def State.modEng (s : State) (d k : Nat) (f : Eng → Eng) : State := s.modCore d fun c => c.setEng k (f (c.eng k))

/-- Elements of `w` bits, the first in the lowest bits. -/
def packN (w : Nat) (l : List Nat) : Nat := l.foldr (fun v a => v % 2 ^ w + a * 2 ^ w) 0

/-- The status of a copy tag as a spill record holds it (R211). -/
def tagWord (x : Eng) (k : Nat) : Nat :=
  match x.tags.look k with
  | some (.ended w) => w.toNat
  | some .busy | none => 63

/-- The bytes of an engine spill record up to its zero tail, as a number (R211). Every register is full. -/
def spillNumber (x : Eng) (d slot : Nat) : Nat :=
  packN 8192 ((List.range 16).map fun k => ((x.v.look k).getD 0).toNat) +
  packN 16384 ((List.range 8).map fun k => ((x.t.look k).getD 0).toNat) * 2 ^ (8 * 0x4000) +
  packN 32768 ((List.range 4).map fun k => ((x.a.look k).getD 0).toNat) * 2 ^ (8 * 0x8000) +
  packN 64 ((List.range 8).map fun k => ((x.td.look k).getD 0).toNat) * 2 ^ (8 * 0xC000) +
  (x.gen.toNat + (2 ^ 36 - 1) * 2 ^ 64 + (d * 16 + slot) * 2 ^ 128) * 2 ^ (8 * 0xC040) +
  packN 64 ((List.range 16).map (tagWord x)) * 2 ^ (8 * 0xC058)

/-- Where engine spill record `r`, function × 8 + record, lies on a core (R94). -/
def State.spillBase (s : State) (d r : Nat) : Nat := s.saveBase (r / 8) d + 0x1_0000 + r % 8 * 0x1_0000

/-- Write a spill record to memory, line by line (R94, R211). -/
def State.writeSpill (s : State) (d r : Nat) (x : Eng) (slot : Nat) : State :=
  s.homeLines (s.spillBase d r) 1024 (spillNumber x d slot)

/-- Registers of a spill record from `pa`, of `n` bytes each: those that are not zero. -/
def State.spillRegs (s : State) (w pa count : Nat) : SMap (BitVec w) :=
  (List.range count).filterMap fun k =>
    let v := BitVec.ofNat w (s.rd (pa + w / 8 * k) (w / 8))
    if v = 0 then none else some (k, v)

/-- The engine context that a spill record in memory holds (R131, R211); what its dirty tracking knows of it stays with the
core (R117). -/
def State.readSpill (s : State) (d r : Nat) : Eng :=
  let b := s.spillBase d r
  { Eng.reset with
    v := s.spillRegs 8192 b 16, t := s.spillRegs 16384 (b + 0x4000) 8, a := s.spillRegs 32768 (b + 0x8000) 4,
    td := s.spillRegs 64 (b + 0xC000) 8, gen := BitVec.ofNat 32 (s.rd (b + 0xC040) 4),
    tags := (List.range 16).filterMap fun k =>
      let w := s.rd64 (b + 0xC058 + 8 * k)
      if w = 63 then none else some (k, .ended w),
    dirty := (((s.core d).spills.look r).map Eng.dirty).getD [] }

/-- The free engine spill records of a function on a core, by function × 8 + record (R94, R131): records in use, and those
that spills in progress have taken, are not free. -/
def State.freeSpills (s : State) (d fn : Nat) : List Nat :=
  let c := s.core d
  ((List.range 8).map (fn * 8 + ·)).filter fun r => (c.spills.look r).isNone && c.eng0.spillTo ≠ some r && c.eng1.spillTo ≠ some r

def State.freeSpill (s : State) (d fn : Nat) : Option Nat := (s.freeSpills d fn).head?

/-- An engine context is bound to a thread: its spilled record, or zero and full (R131). -/
def State.bindEng (s : State) (d k t : Nat) : State :=
  let e := match (s.ctx t).claim with
    | some (.spilled r) => s.readSpill d r
    | some (.bound _) | none => Eng.reset
  let s1 := match (s.ctx t).claim with
    | some (.spilled r) => s.modCore d fun c => { c with spills := c.spills.del r }
    | some (.bound _) | none => s
  (s1.modEng d k fun _ => { e with owner := some t, spillTo := none, next := none }).modCtx t fun c =>
    { c with claim := some (.bound k) }

/-- Whether a thread's engine instructions are still queued (R132). -/
def Core.engineWork (c : Core) (t : Nat) : Bool := c.mq.any (fun e => e.tid = t) || c.vq.any fun e => e.tid = t

/-- A freed engine context goes to the thread that waits for it, or is zeroed (R131). -/
def State.freeEng (s : State) (d k : Nat) : State :=
  match ((s.core d).eng k).next with
  | some n => if (s.ctxs.look n).isSome then s.bindEng d k n else s.modEng d k fun _ => Eng.reset
  | none => s.modEng d k fun _ => Eng.reset

/-- A thread that waits for an engine context no longer does. -/
def Eng.unwait (e : Eng) (t : Nat) : Eng := if e.next = some t then { e with next := none, spillTo := none } else e

/-- The claim of a thread ends: its context is freed, or, where its owner has left instructions in a queue, once they have
ended (R131, R209); a spill record is released. -/
def State.freeClaim (s : State) (t : Nat) : State :=
  let c := s.ctx t
  let s0 := (s.modCtx t fun c => { c with claim := none }).modCore c.core fun x =>
    { x with eng0 := x.eng0.unwait t, eng1 := x.eng1.unwait t }
  match c.claim with
  | some (.bound k) => if (s0.core c.core).engineWork t then s0 else s0.freeEng c.core k
  | some (.spilled r) => s0.modCore c.core fun x => { x with spills := x.spills.del r }
  | none => s0

/-- The engine context of a thread, bound or spilled, as the thread's own. -/
def State.engOf (s : State) (t : Nat) : Option Eng :=
  let c := s.ctx t
  match c.claim with
  | some (.bound k) => some { (s.core c.core).eng k with owner := some t, spillTo := none, next := none }
  | some (.spilled r) => some { s.readSpill c.core r with owner := some t }
  | none => none

/-- Abandon the queued engine and copy work of a thread (R121, R210, R329). -/
def State.abandon (s : State) (t : Nat) : State :=
  s.modCore (s.ctx t).core fun c =>
    { c with mq := c.mq.filter fun e => e.tid ≠ t, vq := c.vq.filter fun e => e.tid ≠ t,
             cq := c.cq.filter fun e => e.tid ≠ t }

/-! ### The end of a thread -/

/-- Leave any nest: CLAIM is decremented, unless it is 0, the frame is sealed, or a claim that found no iteration did so (R57,
R262, R265). A claim that has not been performed yet is, and its thread is then no claimant (`State.carryOut`). -/
def State.leaveNest (s : State) (t : Nat) : State :=
  let leave : State := s.modCtx t fun c => { c with nest := none }
  let drop (pa : Nat) (leaf : Option Nat) : State := (leave.dirty (s.ctx t).core leaf).unclaim pa
  let active : State := match (s.ctx t).nest with
    | some x => if x.ended then leave else drop x.pa x.leaf
    | none => s
  match (s.claimOut t).bind s.msg with
  | some m => (match m.loc with
    | .back (.chunk _ c _ _ _ _) => if c = 0 then leave else drop m.pa m.leaf
    | .back _ => active
    | _ => leave)
  | none => active

/-- Requests that would join a wait list, or be granted a lock or a word, for their thread alone (R149, R159, R171, R302). -/
def State.waitsOnly (s : State) (m : Msg) : Bool :=
  match m.op with
  | .acq | .tryacq | .call _ | .loadSync _ _ | .fe _ | .sbWait _ | .ringResv _ | .ringWait _ | .ringFree _ | .joinWait => true
  | .arriveWait => s.isCell m.pa && s.cellKind m.pa = 2
  | _ => false

/-- An arrive.wait of a barrier that is on its way only arrives: its thread waits no more (R157, R163). -/
def Msg.arrivesOnly (m : Msg) : Msg := if m.op = .arriveWait ∧ m.coming = true then { m with op := .arrive 0 } else m

/-- A thread that is discarded or reset leaves every wait list, and a request of its that would join one on its way is
dropped; messages to it end with an error acknowledgement (R163, R315, R329). A section that was granted to it runs to its
end, and is then released (R155). -/
def State.leaveLists (s : State) (t : Nat) : State :=
  let granted (m : Msg) : Bool := match m.op with
    | .call _ => m.aux ≠ 0
    | _ => false
  let mine (m : Msg) : Bool := m.tid = t && ((m.loc = .waiting && ¬ granted m) || (m.coming && s.waitsOnly m))
  let s1 := (s.flights.filter fun m => mine m && m.loc = .waiting).foldl (fun (s : State) m => s.cancelTicket m) s
  { s1 with flights := (s1.flights.filter fun m => ¬ mine m).map fun m => if m.tid = t then m.arrivesOnly else m }

/-- The context is gone: its slot is cleared (R71, R76, R83). -/
def State.removeCtx (s : State) (t : Nat) : State :=
  let s1 := s.unlist t
  { s1 with ctxs := s1.ctxs.del t }

/-- A thread is discarded: its instructions in the pipeline complete; then lists, nest, engine work and context (R76, R121). -/
def State.discardThread (s : State) (t : Nat) : State :=
  (((((s.finishTcm t).leaveLists t).leaveNest t).abandon t).freeClaim t).removeCtx t

/-- A stop reaches its threads: those that may issue are marked, and stop at their turn; a parked, halted or frozen one, or
one that is in no slot, stops at once (R361). -/
def State.stopThreads (s : State) (ts : List Nat) : State :=
  ts.foldl (fun (s : State) t =>
    let c := s.ctx t
    if c.place.resident ∧ s.blocked t = false ∧ c.frozen = false then s.modCtx t fun c => { c with stop := true }
    else s.discardThread t) s

/-! ### Seating a context -/

/-- The footprint of a task on a core, as TBASE and TLEN (R140). -/
def State.footprint (s : State) (task fn part core : Nat) : Nat × Nat :=
  match (s.core core).tcm.find? fun e => e.1 = task with
  | some e => if e.2.2 = 0 then (((s.shareOf part fn).map fun w => fld w 26 6).getD 0, 0) else (e.2.1, e.2.2)
  | none => (((s.shareOf part fn).map fun w => fld w 26 6).getD 0, 0)

/-- The virtual core number of a core of a task's crews (R82, R96). -/
def Task.vcoreOn (k : Task) (core : Nat) : Option Nat :=
  k.crews.zipIdx.findSome? fun c => if c.1.contains core then some (c.2 * 8 + c.1.idxOf core) else none

/-- A context moves to another core of its task: ctl.seg denotes the footprint there, PBASE is kept (R96, R309), and the chain
connects it as a thread of that core (R130). -/
def State.rebase (s : State) (t core : Nat) : State :=
  let c := s.ctx t
  let (b, n) := s.footprint c.task c.fn c.part core
  let vc := (((s.tasks.look c.task).bind fun k => k.vcoreOn core)).getD c.vcore
  if c.task = 0 then s
  else s.modCtx t fun c => { c with seg := withFld (withFld c.seg 8 6 b) 20 7 n, vcore := vc, lane := none }

/-- The waits of a context count cycles of the core it stands on now (R25, R214). -/
def State.rehome (s : State) (t old core : Nat) : State :=
  s.modCtx t fun c =>
    { c with waitFrom := s.startOf t, heldCycles := c.heldCycles + c.heldFor (s.core old).cycle,
             heldAt := c.heldAt.map fun _ => (s.core core).cycle }

/-- A context takes a slot: it is taken from its list and its record; the scope memory starts empty (R293). The core's data cache
is invalidated: what the thread was granted while it was away it acquires here (R148, R163, R310). -/
def State.seat (s : State) (t core slot : Nat) : State :=
  let c := s.ctx t
  let s1 := if c.core = core then s.unlist t else (s.unlist t).rebase t core
  let s2 := s1.modCtx t fun c =>
    { c with place := .slot core slot, seatedAt := (s.core core).cycle, scopeMem := [], record := none,
             park := if c.park = .joined then .none else c.park }
  (if c.core = core then s2 else s2.rehome t c.core core).invalidateCache core

/-- A slot is idle for a task: its thread has exited or left the core, or it has received none, and no delegate routine is in
it. One whose thread is saved from it, as at pre-emption, is not (R90, R95, R153). -/
def State.slotIdle (s : State) (task core k : Nat) : Bool :=
  (s.inSlot core k).isNone && ¬ s.delegated core k && s.ctxs.all fun e =>
    e.2.task ≠ task || (e.2.place ≠ .chuck core k && e.2.place ≠ .save core k && e.2.place ≠ .ckpt core k)

/-- An idle slot of a task on a core, reserved to it (R90). -/
def State.idleSlot (s : State) (task fn core : Nat) : Option Nat :=
  (List.range 16).find? fun k => (s.core core).reserved.look (slotKey fn k) = some task && s.slotIdle task core k

/-- The cores of a span in ascending Hilbert order (R90). -/
def State.spanCores (s : State) (task : Nat) : List Nat :=
  match s.tasks.look task with
  | some k => k.crews.flatten.foldl insertNat []
  | none => []

/-- A core lies in a closed interval (R116). -/
def State.closed (s : State) (core : Nat) : Bool :=
  match s.partOf core with
  | none => false
  | some p => (s.partition p).dls.any fun e => e.2.v && e.2.base ≤ core && core < e.2.base + e.2.len

/-- The task belongs to a unit that is being saved: its threads stop and none resumes (R116, R120). -/
def State.savingTask (s : State) (task : Nat) : Bool :=
  s.parts.any fun (p : Nat × Partition) => p.2.dls.any fun (e : Nat × Deadline) => e.2.v &&
    e.2.units.any fun u => u.st = .saving && u.tasks.contains task

/-! ### The end of a task -/

/-- Zero the TCM footprint and the written scratchpad regions of a task on a core (R121). -/
def State.zeroTask (s : State) (task core : Nat) : State :=
  let c := s.core core
  let s1 := (c.tcm.filter fun (e : Nat × Nat × Nat) => e.1 = task).foldl (fun (s : State) (e : Nat × Nat × Nat) =>
    s.zeroRange (s.corePa 5 core (e.2.1 * 4096)) (e.2.2 * 4096)) s
  let seg := 4 * 2 ^ 48 + s.clusterOf core * 2 ^ 21 + s.coreInCluster core * 0x4_0000
  (c.dirtySp.filter fun (e : Nat × Nat) => e.1 = task).foldl
    (fun (s : State) (e : Nat × Nat) => s.zeroRange (seg + e.2 * 4096) 4096) s1

/-- Release the slots, TCM room and deques of a task on every core (R83); the placer chooses again (R80). -/
def State.releaseTask (s : State) (task part : Nat) : State :=
  let s1 := { s with cores := s.cores.map fun (e : Nat × Core) => (e.1, { e.2 with
    reserved := e.2.reserved.filter fun (r : Nat × Nat) => r.2 ≠ task, tcm := e.2.tcm.filter fun r => r.1 ≠ task,
    deques := e.2.deques.del task, dirtyTcm := e.2.dirtyTcm.filter fun r => r.1 ≠ task,
    dirtySp := e.2.dirtySp.filter fun r => r.1 ≠ task }) }
  s1.modPart part fun p => { p with tried := [] }

/-- Cancel every registration of a task (R154): those of the cells that still name its slots. -/
def State.cancelTask (s : State) (task : Nat) : State :=
  let of (d : Nat) (c : Core) : List Nat := ((c.delegates.filter fun x => x.2.task = task).map fun x =>
    x.2.cells.filter fun b => s.isCell b && s.cDlv b && s.cf b 3 51 12 = d && s.cf b 3 47 4 = x.1).flatten
  let cells := (s.cores.map fun e => of e.1 e.2).flatten
  cells.foldl (fun (s : State) b => s.cancelRegistration b) s

/-- A packet waits for the placer. -/
def PktState.isReady : PktState → Bool
  | .ready _ | .resumable _ => true
  | .waiting | .placed _ | .retired => false

/-- A resumable entry (R121). -/
def PktState.isResumable : PktState → Bool
  | .resumable _ => true
  | .waiting | .ready _ | .placed _ | .retired => false

/-- A packet of the queue is to become ready: a queue that held none joins the placer's round with c = 0 (R80). -/
def TaskQueue.joins (x : TaskQueue) : TaskQueue :=
  if x.pkts.any fun p => p.st.isReady then x else { x with wrr := 0, inQ := false }

/-- The packet of a task has retired. -/
def State.packetOver (s : State) (fn q index : Nat) : State :=
  s.modTqueue fn q fun x => { x with pkts := x.pkts.modify index fun p => { p with st := .retired } }

/-- The instance of a task that ended is to become FAILED, with this event to its owner (R109). -/
def State.instOver (s : State) (k : Task) (kind : Nat) : State :=
  match k.inst with
  | none => s
  | some i => s.modPart k.part fun p => { p with insts := p.insts.map fun e =>
      if e.1 = i ∧ e.2.st = .live then (e.1, { e.2 with st := .over kind, task := none }) else e }

/-- The task is over: registrations, slots, its packet, then DONE (R83, R154). -/
def State.taskOver (s : State) (id : Nat) (v : Word) : State :=
  match s.tasks.look id with
  | none => s
  | some k =>
    let s0 := s.instOver k 4
    let s1 := ((s0.cancelTask id).releaseTask id k.part).packetOver k.fn k.queue k.index
    { s1 with tasks := s1.tasks.del id, images := s1.images.filter fun i => i.task ≠ id }.doneFill k.fn k.part k.asid
      k.pkt.done v

/-- Every thread of a task is discarded, its memory is zeroed, and DONE takes the code (R94, R121). -/
def State.taskDiscarded (s : State) (id : Nat) (v : Word) : State :=
  let ts := (s.ctxs.filter fun e => e.2.task = id).map (·.1)
  let s0 := match s.tasks.look id with
    | some k => s.instOver k 1
    | none => s
  let s1 := ts.foldl State.discardThread s0
  ((s.spanCores id).foldl (fun (s : State) d => s.zeroTask id d) s1).taskOver id v

/-! ### Saving -/

/-- DONE of a task whose context cannot be written to its save area (R94). -/
def codeLost : Word := 0xFFFF_FFFF_FFFF_FFFF
/-- DONE of a discarded task (R121). -/
def codeDiscard : Word := 0xFFFF_FFFF_FFFF_FFFE
/-- DONE of a task whose descriptor is refused (R226). -/
def codeDescriptor : Word := 0xFFFF_FFFF_FFFF_FFFD
/-- DONE of a packet whose DEPA is no counter (R79). -/
def codeDepa : Word := 0xFFFF_FFFF_FFFF_FFFC

/-- A context that cannot be written to its area is discarded and its task ends (R94). -/
def State.contextLost (s : State) (t : Nat) : State :=
  let k := (s.ctx t).task
  if k = 0 then s.discardThread t else s.taskDiscarded k codeLost

/-- Write a context of the Chuck to the save area of its core: everything of it must have completed (R94, R178). -/
def State.evict (s : State) (t : Nat) : State :=
  let c := s.ctx t
  let d := c.core
  if c.touched ≠ 0 then s.probeOut t
  else if ¬ s.settled t then s
  else if ¬ s.saveOk c.fn d then s.contextLost t
  else if 64 ≤ s.saveUsed c.fn d then s
  else
    let s1 := s.carryErrors t
    match c.place with
    | .chuck _ k => ((s1.unlist t).writeRecord t d).modCtx t fun c => { c with place := .save d k }
    | .inbound _ => (s1.writeRecord t d).modCore d fun x => { x with inboundSpill := x.inboundSpill ++ [t] }
    | .setAside _ => s1.writeRecord t d
    | _ => s1

/-- The first of the contexts that entered the Chuck earliest (R95). -/
def State.leastRecent (s : State) : List Nat → Option Nat
  | [] => none
  | t :: l => match s.leastRecent l with
    | some u => if (s.ctx u).chuckAt < (s.ctx t).chuckAt then some u else some t
    | none => some t

/-- CHUCK_EVICT: a full Chuck writes back its least recently used context, one that is set aside among them (R95, R310). -/
def State.chuckEvict (s : State) (core : Nat) : State :=
  let c := s.core core
  if s.chuckUsed core < 32 then s
  else match s.leastRecent ((c.chuck ++ c.inbound.filter fun t => ¬ c.inboundSpill.contains t) ++ s.asideIn core) with
    | some t => s.evict t
    | none => s

/-- CHUCK_EVICT (R95). -/
def execChuckEvict (core : Nat) (s : State) : Host.Outcome State Fault Refusal := .next (s.chuckEvict core)

/-- A thread leaves its slot for the Chuck, as at pre-emption (R95, R210). -/
def State.toChuck (s : State) (t : Nat) : State :=
  let c := s.ctx t
  (s.vacate t (.chuck c.core c.slotNo)).modCore c.core fun x => { x with chuck := x.chuck ++ [t] }

/-- Whether an inbound context finds room: in the Chuck, or in the function's save area (R93). -/
def State.inboundRoom (s : State) (fn core : Nat) : Bool :=
  s.chuckUsed core < 32 || (s.saveOk fn core && s.saveUsed fn core < 64)

/-- A context arrives at a core: an idle slot of its task, else the inbound list (R93, R309). None where it is refused. -/
def State.arriveCtx (s : State) (t core : Nat) : Option State :=
  let c := s.ctx t
  if s.closed core then none
  else match s.idleSlot c.task c.fn core with
    | some k => some (s.seat t core k)
    | none =>
      if ¬ s.inboundRoom c.fn core then none
      else
        let inChuck := s.chuckUsed core < 32
        let s1 := (s.unlist t).rebase t core
        let s2 := (s1.modCtx t fun c => { c with place := .inbound core, chuckAt := (s.core core).cycle }) |> fun s =>
          if inChuck then s else s.writeRecord t core
        some (s2.modCore core fun x =>
          { x with inbound := x.inbound ++ [t], inboundSpill := if inChuck then x.inboundSpill else x.inboundSpill ++ [t] })

end Sys2Proof.Machine
end

