-- ==== Sys2Proof/Machine/Mandrel.lean ====
section
/-! DEFINITION. The Mandrel (R100–R112, R322–R324, R355, R356): binding records, identity, attachment, lifetimes, events
and the instructions. -/

namespace Sys2Proof.Machine

/-! ### Reading a binding record (R100, R101) -/

/-- The translation of an address of a request's thread, by a walk at the thread's level, private window included
(R67, R139). -/
def State.threadWalk (s : State) (m : Msg) (va : Word) (k : Kind) : Option Nat :=
  let c := s.ctx m.tid
  let walk (ia : Option Nat) : Option Nat :=
    match s.walk m.asid va.toNat ia with
    | .error _ => none
    | .ok e => if (e.refuses va.toNat k m.lvl).isSome then none else some (e.pa va.toNat)
  match windowOff va with
  | some w =>
    if w < fld c.seg 20 7 * 4096 then some (s.corePa 5 c.core (fld c.seg 8 6 * 4096 + w))
    else if 0x4_0000 ≤ w then walk (some (fld c.seg 40 24 * 2 ^ 24 + w))
    else none
  | none => walk none

/-- One 64-byte line of a record, as a number; none where it cannot be read. -/
def State.recordLine (s : State) (m : Msg) (va : Word) : Option Nat × State :=
  match s.threadWalk m va .read with
  | none => (none, s)
  | some pa =>
    if (s.target pa).isNone then (none, s)
    else match s.refusal { m with va := va, pa := pa } ⟨64, false, true, false⟩ with
      | (s1, some _) => (none, s1)
      | (s1, none) => (some (s1.rd pa 64), s1)

/-- The lines of a record from `va` on; none where one cannot be read. -/
def State.recordLines (s : State) (m : Msg) (va : Word) : Nat → Option (List Nat) × State
  | 0 => (some [], s)
  | n + 1 => match s.recordLine m va with
    | (none, s1) => (none, s1)
    | (some l, s1) => match s1.recordLines m (va + 64) n with
      | (none, s2) => (none, s2)
      | (some ls, s2) => (some (l :: ls), s2)

/-- Bits [lo+len−1:lo] of a line. -/
def nfld (x lo len : Nat) : Nat := x >>> lo % 2 ^ len

/-- A binding record as read, with the physical addresses of SRC and of every RDESC. -/
structure BindRec where
  src : Word
  srcPa : Nat
  gen : BitVec 32
  nstg : Nat
  queue : Nat
  weight : Nat
  join : Nat
  event : Word
  stages : List (Stage × Nat)
  deriving DecidableEq, Repr

/-- The stage entry of two lines (R100). -/
def stageOf (a b : Nat) : Stage where
  codedg := BitVec.ofNat 256 a
  pardg := BitVec.ofNat 256 (a >>> 256)
  entry := word b
  parp := word (b >>> 64)
  fmt := word (b >>> 128)
  crews := nfld b 192 16
  cores := nfld b 208 8
  threads := nfld b 216 8
  stateful := nfld b 224 1 = 1
  rgeo := word (b >>> 256)
  rdesc := word (b >>> 320)

/-- The limits of a stage entry (R100, R101). -/
def stageOk (x : Stage) (b : Nat) : Bool :=
  fld x.entry 0 3 = 0 && 1 ≤ x.crews && x.crews ≤ 512 && 1 ≤ x.cores && x.cores ≤ 8 && 1 ≤ x.threads && x.threads ≤ 16 &&
    nfld b 225 31 = 0 && nfld b 384 128 = 0 && x.rgeo &&& 0xFFFF_FFFF_FFFE_E0E0 = 0 &&
    1 ≤ fld x.rgeo 8 5 && fld x.rgeo 8 5 ≤ 16 && 6 ≤ fld x.rgeo 0 5 && fld x.rgeo 0 5 ≤ 16 && fld x.rdesc 0 6 = 0

/-- SPACE of a stage's output ring. -/
def Stage.scratch (x : Stage) : Bool := bit x.rgeo 16

/-- A write through a virtual address of an ASID sets the D bit of its stage-2 leaf (R74). -/
def State.dirtyVa (s : State) (asid : Nat) (va : Word) : State :=
  match s.walk asid va.toNat none with
  | .ok e => s.setD (some (e.leaf va.toNat))
  | .error _ => s

/-- A ring descriptor's address: shared SRAM (false) or a scratchpad (true), or none: a sealed one takes no write (R57,
R101). An address whose translation does not permit writes counts as one that does not translate: a bind writes the descriptor,
which is the model's choice (notes/assumptions/36.md). -/
def State.ringPlace (s : State) (m : Msg) (va : Word) : Option (Nat × Bool) :=
  match (s.threadWalk m va .write).filter fun pa => ¬ s.sealedAt pa 64 with
  | none => none
  | some pa => match s.target pa with
    | some (.sram _ _) => some (pa, false)
    | some (.scratch _ _) => some (pa, true)
    | _ => none

/-- Every stage entry of the record's lines, checked (R101). -/
def State.stagesOf (s : State) (m : Msg) : List Nat → Option (List (Stage × Nat))
  | a :: b :: rest =>
    let x := stageOf a b
    if ¬ stageOk x b then none
    else match s.ringPlace m x.rdesc with
      | none => none
      | some (pa, scr) => if scr ≠ x.scratch then none else (s.stagesOf m rest).map fun l => (x, pa) :: l
  | _ => some []

/-- The header's limits (R100, R101). -/
def headerOk (h : Nat) : Bool :=
  nfld h 0 6 = 0 && 1 ≤ nfld h 96 8 && nfld h 96 8 ≤ 16 && nfld h 110 2 = 0 && 1 ≤ nfld h 112 8 && nfld h 120 8 = 0 &&
    nfld h 192 3 = 0 && nfld h 256 256 = 0

/-- Read the lines of a binding record, once, as pl.bind is sent (R100, R322): none is INVALID. -/
def State.readRecord (s : State) (m : Msg) (va : Word) : Option (List Nat) × State :=
  if fld va 0 6 ≠ 0 then (none, s)
  else match s.recordLine m va with
    | (none, s1) => (none, s1)
    | (some h, s1) =>
      if ¬ headerOk h then (none, s1)
      else match s1.recordLines m (va + 64) (2 * nfld h 96 8) with
        | (none, s2) => (none, s2)
        | (some ls, s2) => (some (h :: ls), s2)

/-- A pl.bind that its fence has just sent takes its record with it (R100, R322). -/
def State.bindRead (s : State) (id : Nat) : State :=
  match s.msg id with
  | none => s
  | some m => match m.op with
    | .bind va none => let (lines, s1) := s.readRecord m va; s1.setMsg { m with op := .bind va lines }
    | _ => s

/-- The record of the lines that were read, and its rings (R100, R101): none is INVALID. -/
def State.bindRec (s : State) (m : Msg) : List Nat → Option BindRec
  | [] => none
  | h :: ls => match s.ringPlace m (word h), s.stagesOf m ls with
    | some (pa, _), some st =>
      some ⟨word h, pa, BitVec.ofNat 32 (h >>> 64), nfld h 96 8, nfld h 104 6, nfld h 112 8, nfld h 128 64, word (h >>> 192), st⟩
    | _, _ => none

/-! ### Identity (R103) -/

/-- The bit-for-bit comparison of a stage. -/
def Stage.same (a b : Stage) : Bool :=
  a.codedg = b.codedg && a.pardg = b.pardg && a.fmt = b.fmt && a.crews = b.crews && a.cores = b.cores &&
    a.threads = b.threads && a.rgeo = b.rgeo

/-- Neither the entry nor one before it is STATEFUL or in a scratchpad. -/
def shareable (l : List (Stage × Nat)) : Bool := l.all fun e => ¬ e.1.stateful && ¬ e.1.scratch

/-- The chain of instances up to instance `i`, deepest first. -/
def Partition.chainTo (p : Partition) : Nat → Nat → List (Nat × Inst)
  | 0, _ => []
  | fuel + 1, i => match p.insts.look i with
    | none => []
    | some x => (i, x) :: (match x.input with
      | some j => p.chainTo fuel j
      | none => [])

/-- Identical(X, P, d): the instance and the record's entry at its depth (R103). -/
def Partition.identical (p : Partition) (r : BindRec) (asid i d : Nat) : Bool :=
  let chain := (p.chainTo 16 i).reverse
  let want := r.stages.take d
  p.share && chain.length = d && want.length = d && shareable want &&
    chain.all (fun e => ¬ e.2.unshared && e.2.src = r.src.toNat && e.2.gen = r.gen && e.2.asid = asid) &&
    (chain.zip want).all fun e => e.1.2.stage.same e.2.1

/-! ### Attachment (R104–R107, R355) -/

/-- Attach(ring, J): the lowest free consumer cursor at J. A sealed descriptor takes no cursor (R57). -/
def State.attachRing (s : State) (b j : Nat) : Option (Nat × State) :=
  if s.sealedAt b 64 then none
  else match (List.range 8).find? fun k => ¬ s.ringCval b k with
  | none => none
  | some k =>
    if j < s.ringResv b - s.ringSlots b ∨ s.ringPub b + 2 ^ 31 ≤ j then none
    else some (k, ((s.setRingCur b k j).wr (b + 63) 1 (s.rd (b + 63) 1 + 2 ^ k)).ringWake b)

/-- The virtual address of an instance's input ring: its source's, or the output ring of the instance before it (R106). -/
def Partition.inputVa (p : Partition) (x : Inst) : Word :=
  match x.input.bind p.insts.look with
  | some y => y.stage.rdesc
  | none => word x.src

/-- The result of Bind's search: the instance joined, its depth, the ring and the cursor added. -/
structure Attached where
  inst : Option Nat
  depth : Nat
  ring : Nat
  cur : Nat
  deriving DecidableEq, Repr

/-- Bind from depth `d` down: the outcome code of R107, or the attachment. -/
def State.bindAt (s : State) (m : Msg) (r : BindRec) : Nat → Except Nat (Attached × State)
  | 0 =>
    if 1024 < (s.partition m.part).insts.length + r.nstg then .error 4
    else match s.attachRing r.srcPa r.join with
      | some (k, s') => .ok (⟨none, 0, r.srcPa, k⟩, s')
      | none =>
        if r.join < s.ringResv r.srcPa - s.ringSlots r.srcPa ∨ s.ringPub r.srcPa + 2 ^ 31 ≤ r.join then .error 2 else .error 3
  | d + 1 =>
    let p := s.partition m.part
    if 1024 < p.insts.length + r.nstg - (d + 1) then .error 4
    else
      let cand := p.insts.filter fun e => e.2.depth = d + 1 && (e.2.st = .live || e.2.st = .held) &&
        p.identical r m.asid e.1 (d + 1)
      match cand.findSome? fun e => (s.attachRing e.2.outRing r.join).map fun x => (e.1, e.2.outRing, x) with
      | some (i, ring, k, s') => .ok (⟨some i, d + 1, ring, k⟩, s')
      | none => s.bindAt m r d

/-- A fresh output ring (R106, R355). -/
def State.freshRing (s : State) (b geo j : Nat) : State :=
  ((((s.ringInit b geo 1).wr b 8 j).wr (b + 8) 8 j).setRingCur b 0 j).ringWake b

/-- The work packet of a stage instance (R106). -/
def stagePacket (x : Stage) (weight : Nat) : Packet where
  done := 0
  depa := 0
  sclp := 0
  fmtp := 0
  argp := x.parp
  entry := x.entry
  budget := 0
  crews := x.crews
  cores := x.cores
  threads := x.threads
  weight := weight
  job := false

/-- Enqueue an instance's task in its owner's queue as a ready packet (R80, R106). -/
def State.enqueueInst (s : State) (i : Nat) (x : Inst) (weight : Nat) : State :=
  s.modTqueue x.fn x.queue fun q =>
    { q.joins with pkts := q.pkts ++ [⟨stagePacket x.stage weight, x.asid, .ready s.wall, some i, some x.stage.fmt, none, false⟩] }

/-- Create the fresh instances of a pipeline in ascending depth: `input` and the ring and cursor they read (R106). The placer
chooses afresh among their packets (R80). -/
def State.freshInsts (s : State) (m : Msg) (r : BindRec) (owner : Nat) (un : Bool) (input : Option Nat) (ring cur depth : Nat) :
    List (Stage × Nat) → State × List Nat × Nat × Nat
  | [] => (s, [], ring, cur)
  | (x, pa) :: rest =>
    let p := s.partition m.part
    let i := (p.insts.getLast?.map fun e => e.1 + 1).getD 0
    let un' := un || x.stateful || x.scratch
    let qi := (s.tqueue m.fn r.queue).pkts.length
    let e : Inst := ⟨.live, x, depth + 1, input, r.src.toNat, r.gen, m.asid, un', ring, cur, pa, owner, m.fn, r.queue, none,
      qi, false⟩
    let s1 := (s.freshRing pa (fld x.rgeo 0 17) r.join).modPart m.part fun p =>
      { p with insts := p.insts.put i e, tried := [] }
    let (s2, is, rg, cu) := (s1.enqueueInst i e r.weight).freshInsts m r owner un' (some i) pa 0 (depth + 1) rest
    (s2, i :: is, rg, cu)

/-- Bound(P, X, d): the fresh instances and the pipeline; its handle (R104, R107). -/
def State.bound (s : State) (m : Msg) (r : BindRec) (a : Attached) : State × Word :=
  let p := s.partition m.part
  let num := ((List.range 256).find? fun k => (p.pipes.look k).isNone).getD 0
  let shared := match a.inst with
    | some i => ((p.chainTo 16 i).map (·.1)).reverse
    | none => []
  let (s1, fresh, ring, cur) := s.freshInsts m r num (¬ shareable (r.stages.take a.depth)) a.inst a.ring a.cur a.depth
    (r.stages.drop a.depth)
  let lastVa := (r.stages.getLast?.map fun e => e.1.rdesc).getD 0
  let readVa := if fresh.isEmpty then (match a.inst.bind p.insts.look with
    | some x => x.stage.rdesc
    | none => lastVa) else lastVa
  let e : Pipe := ⟨p.bindSeq, m.fn, m.asid, r.src.toNat, r.gen, r.nstg, a.depth, shared ++ fresh, a.ring, a.cur, ring, readVa,
    cur, r.queue, .bound, r.event, [], false, r.weight⟩
  (s1.modPart m.part fun p => { p with pipes := p.pipes.put num e, bindSeq := p.bindSeq + 1 },
   word (num + (p.bindSeq % 2 ^ 32) * 2 ^ 8))

/-- A pipeline of the partition whose pl.end is being carried out. -/
def Partition.busyEnding (p : Partition) : Bool := p.pipes.any fun e => match e.2.st with
  | .ending _ => true
  | .bound | .draining _ => false

/-- MANDREL_BIND: one bind, in its turn (R104); RD takes the handle, or bit 63 and the outcome code (R107, R322). Nothing is
bound for a function that is being reset (R76). -/
def State.mandrelBind (s : State) (id : Nat) : State :=
  match s.msg id with
  | none => s
  | some m => match m.op with
    | .bind _ lines =>
      if m.loc ≠ .home ∨ (s.partition m.part).busyEnding then s
      else if s.resetting.contains m.fn then (if (s.ctxs.look m.tid).isNone then s.dropMsg id else s)
      else
        let refuse (s : State) (code : Nat) : State := s.answer m (.value (word (2 ^ 63 + code)))
        match lines.bind (s.bindRec m) with
        | none => refuse s 1
        | some r =>
          if 256 ≤ (s.partition m.part).pipes.length then refuse s 4
          else match s.bindAt m r r.nstg with
            | .error c => refuse s c
            | .ok (a, s2) =>
              let (s3, h) := s2.bound m r a
              let joined := match a.inst.bind (s2.partition m.part).insts.look with
                | some x => x.stage.rdesc
                | none => r.src
              (((r.stages.drop a.depth).map fun e => e.1.rdesc).foldl (fun (s : State) va => s.dirtyVa m.asid va)
                (s3.dirtyVa m.asid joined)).answer m (.value h)
    | _ => s

/-- MANDREL_BIND (R104). -/
def execMandrelBind (msg : Nat) (s : State) : Host.Outcome State Fault Refusal := .next (s.mandrelBind msg)

/-! ### Events (R111) -/

def State.modPipe (s : State) (p k : Nat) (f : Pipe → Pipe) : State :=
  s.modPart p fun x => { x with pipes := x.pipes.map fun e => if e.1 = k then (e.1, f e.2) else e }

/-- The event word with OVF. -/
def eventOvf (w : Word) (ovf : Bool) : Word := if ovf then w ||| 0x0080_0000_0000_0000 else w

/-- Write the next held event while the word is empty; a failed write drops it (R111). -/
def State.eventWrite (s : State) (p k : Nat) : State :=
  match (s.partition p).pipes.look k with
  | none => s
  | some x => match x.held with
    | [] => s
    | w :: rest =>
      let dropped (s : State) : State := (s.modPipe p k fun x => { x with held := rest, ovf := true }).vector x.fn 64
      let v := eventOvf w x.ovf
      match s.agentReach x.asid x.event 8 .write with
      | .error _ => dropped s
      | .ok (pa, s1) =>
        match s1.refusal (s1.agentMsg x.fn p x.asid (.storeFill 8 v) x.event pa) ⟨8, true, false, true⟩ with
          | (s2, some _) => dropped s2
          | (s2, none) =>
            if ¬ ((s2.target pa).map Target.hasFe).getD false then dropped s2
            else if s2.isFull pa then s
            else (((s2.homeWrite none pa 8 v.toNat).setFull pa).wake pa).modPipe p k fun x =>
              { x with held := rest, ovf := false }

/-- MANDREL_EVENT_WRITE (R111). -/
def execMandrelEventWrite (part pipe : Nat) (s : State) : Host.Outcome State Fault Refusal :=
  .next (s.eventWrite part pipe)

/-- An event of a pipeline: written at once when nothing is held and the word is empty, held, or dropped when 8 are held
(R111). -/
def State.event (s : State) (p k kind depth : Nat) : State :=
  match (s.partition p).pipes.look k with
  | none => s
  | some x =>
    if x.event = 0 then s
    else if 8 ≤ x.held.length then s.modPipe p k fun x => { x with ovf := true }
    else
      let w := word (kind * 2 ^ 56 + depth * 2 ^ 48 + s.wall % 2 ^ 48)
      let s1 := s.modPipe p k fun x => { x with held := x.held ++ [w] }
      if x.held.isEmpty then s1.eventWrite p k else s1

/-- A pipeline that is no more leaves its held events to be written as its word is emptied; one whose write fails is dropped,
and the next has OVF (R111). -/
def State.flushEvents (s : State) (p : Nat) (x : Pipe) : State :=
  (x.held.foldl (fun (a : State × Bool) w => match a.1.agentFill x.fn p x.asid x.event (eventOvf w a.2) with
    | (some s', _) => (s', false)
    | (none, s') => (s'.vector x.fn 64, true)) (s, x.ovf)).1

/-! ### Lifetimes (R109, R110, R356) -/

/-- A task that is to end without being retired: its threads stop (R109, R361). -/
def State.stopTask (s : State) (task : Nat) : State :=
  s.stopThreads ((s.ctxs.filter fun e => e.2.task = task && task ≠ 0).map (·.1))

/-- An instance's input cursor is removed (R74, R108). -/
def State.dropInput (s : State) (p : Nat) (x : Inst) : State :=
  (s.dirtyVa x.asid ((s.partition p).inputVa x)).dropCursor x.inRing x.inCur

/-- An instance through which no pipeline passes is GONE; the task of a held one is no longer queued (R109). -/
def State.instGone (s : State) (p i : Nat) : State :=
  match (s.partition p).insts.look i with
  | none => s
  | some x =>
    let s1 := if x.st = .failed then s else s.dropInput p x
    let s2 := s1.modPart p fun q => { q with insts := q.insts.del i }
    let s2 := if x.st = .held then s2.packetOver x.fn x.queue x.qidx else s2
    match x.task with
    | none => s2.packetOver x.fn x.queue x.qidx
    | some t =>
      { s2 with tasks := s2.tasks.map fun (e : Nat × Task) => if e.1 = t then (e.1, { e.2 with inst := none }) else e }.stopTask t

/-- The instance's task moves to its new owner's queue (R110). -/
def State.requeueInst (s : State) (p i : Nat) (x : Inst) (fn q : Nat) : State :=
  if x.fn = fn ∧ x.queue = q then s
  else match (s.tqueue x.fn x.queue).pkts[x.qidx]? with
    | none => s
    | some k =>
      if k.st = .retired then s
      else
        let n := (s.tqueue fn q).pkts.length
        let s1 := (s.packetOver x.fn x.queue x.qidx).modTqueue fn q fun t =>
          { (if k.st.isReady then t.joins else t) with pkts := t.pkts ++ [k] }
        { s1 with tasks := s1.tasks.map fun (e : Nat × Task) =>
            if x.task = some e.1 then (e.1, { e.2 with fn := fn, queue := q, index := n }) else e }.modPart p fun z =>
          { z with insts := z.insts.put i { x with fn := fn, queue := q, qidx := n }, tried := [] }

/-- Ownership of an instance passes to a pipeline, which receives event 2 (R110). -/
def State.newOwner (s : State) (p i k : Nat) : State :=
  match (s.partition p).insts.look i, (s.partition p).pipes.look k with
  | some x, some y =>
    let s1 := s.requeueInst p i x y.fn y.queue
    (s1.modPart p fun q => { q with insts := q.insts.map fun e => if e.1 = i then (e.1, { e.2 with owner := k }) else e }).event
      p k 2 x.depth
  | _, _ => s

/-- Pipelines that pass through an instance. -/
def Partition.through (p : Partition) (i : Nat) : List (Nat × Pipe) := p.pipes.filter fun e => e.2.chain.contains i

/-- The pipeline of a list with the smallest bind sequence number. -/
def oldest (l : List (Nat × Pipe)) : Option Nat :=
  (l.foldl (fun (a : Option (Nat × Pipe)) e => match a with
    | none => some e
    | some b => if e.2.seq < b.2.seq then some e else some b) none).map (·.1)

/-- A pipeline leaves one instance of its chain. -/
def State.leaveInst (s : State) (p k i : Nat) : State :=
  let q := s.partition p
  match oldest ((q.through i).filter fun e => e.1 ≠ k), q.insts.look i with
  | none, _ => s.instGone p i
  | some o, some x => if x.owner = k then s.newOwner p i o else s
  | some _, none => s

/-- A pipeline leaves: every instance of its chain in ascending depth, then its reader's cursor (R110, R324, R356). -/
def State.pipeLeave (s : State) (p k : Nat) : State :=
  match (s.partition p).pipes.look k with
  | none => s
  | some x =>
    let s1 := x.chain.foldl (fun s i => s.leaveInst p k i) s
    let y := ((s1.partition p).pipes.look k).getD x
    (((s1.dirtyVa x.asid x.readRingVa).dropCursor x.readRing x.readCur).modPart p fun q => { q with pipes := q.pipes.del k }).flushEvents p y

/-- PIPELINE_LEAVE: a pl.end is carried out, and replied to (R110, R356). -/
def State.pipelineLeave (s : State) (p k : Nat) : State :=
  match (s.partition p).pipes.look k with
  | none => s
  | some x => match x.st with
    | .ending id =>
      let s1 := s.pipeLeave p k
      (match s1.msg id with
        | some m => s1.answer m (.value 0)
        | none => s1)
    | .bound | .draining _ => s

/-- PIPELINE_LEAVE (R110). -/
def execPipelineLeave (part pipe : Nat) (s : State) : Host.Outcome State Fault Refusal := .next (s.pipelineLeave part pipe)

/-- The reader's cursor stands at or beyond the stop position. -/
def State.drained (s : State) (x : Pipe) : Bool :=
  match x.st with
  | .draining stop => s.ringCval x.readRing x.readCur && (stop.toNat : Int) ≤ s.ringCur x.readRing x.readCur
  | .bound | .ending _ => false

/-- DRAIN_COMPLETE: a drained pipeline leaves and receives event 3 (R110). -/
def State.drainComplete (s : State) (p k : Nat) : State :=
  match (s.partition p).pipes.look k with
  | none => s
  | some x => if s.drained x then (s.event p k 3 0).pipeLeave p k else s

/-- DRAIN_COMPLETE (R110). -/
def execDrainComplete (part pipe : Nat) (s : State) : Host.Outcome State Fault Refusal := .next (s.drainComplete part pipe)

/-- INSTANCE_FAIL: an instance whose task has ended becomes FAILED (R109). -/
def State.instanceFail (s : State) (p i : Nat) : State :=
  match (s.partition p).insts.look i with
  | none => s
  | some x => match x.st with
    | .over kind =>
      ((s.modPart p fun q => { q with insts := q.insts.put i { x with st := .failed } }).dropInput p x).event p x.owner kind x.depth
    | .live | .held | .failed => s

/-- INSTANCE_FAIL (R109). -/
def execInstanceFail (part inst : Nat) (s : State) : Host.Outcome State Fault Refusal := .next (s.instanceFail part inst)

/-! ### Instructions (R322–R324) -/

/-- The live pipeline that a handle names for the executing thread; none when it is stale (R107, R323). -/
def State.pipeOf (s : State) (h : Word) : Option (Nat × Pipe) :=
  let c := s.ctx s.iss.tid
  let k := fld h 0 8
  match (s.partition c.part).pipes.look k with
  | none => none
  | some x =>
    if fld h 40 24 = 0 ∧ x.seq % 2 ^ 32 = fld h 8 32 ∧ x.asid = c.asid.toNat ∧ (match x.st with
      | .ending _ => false
      | .bound | .draining _ => true) = true then some (k, x) else none

/-- pl.bind rd, ra: what fence.pkg completes, then the Mandrel (R322). -/
def execPlBind (rd ra : Reg) (s : State) : Host.Outcome State Fault Refusal :=
  .next (s.operands [ra] [rd] fun s' =>
    let m := { s'.request s'.iss.tid (.bind (s.src ra) none) (s.src ra) 0 (some rd) with loc := .home }
    (s'.pend rd).fenceSend s'.iss.tid .fence 4 m true)

/-- The reply of a package unit that has acted: the thread parks until RD is filled. -/
def State.unitReply (s : State) (rd : Reg) (v : Word) : State := s.answered (some rd) v

/-- The status word of pl.query (R323). -/
def pipeStatus (x : Pipe) : Word :=
  word (x.nstg * 2 ^ 24 + x.readCur * 2 ^ 16 + x.depth * 2 ^ 8 + (match x.st with
    | .draining _ => 1
    | .bound | .ending _ => 0))

/-- pl.query rd, ra, rb (R323). -/
def execPlQuery (rd ra rb : Reg) (s : State) : Host.Outcome State Fault Refusal :=
  .next (s.operands [ra, rb] [rd] fun s' =>
    let p := s'.pipeOf (s.src ra)
    s'.unitReply rd (if s.src rb = 0 then (p.map fun e => pipeStatus e.2).getD 2
      else if s.src rb = 1 then (p.map fun e => e.2.readRingVa ||| word (e.2.readCur + 1)).getD 0
      else 0))

/-- pl.detach rd, ra (R110, R324). -/
def execPlDetach (rd ra : Reg) (s : State) : Host.Outcome State Fault Refusal :=
  .next (s.operands [ra] [rd] fun s' =>
    match s'.pipeOf (s.src ra) with
    | none => s'.unitReply rd 1
    | some (k, x) => match x.st with
      | .bound =>
        let p := (s'.ctx s'.iss.tid).part
        let stop := word (s'.ringPub x.ownRing)
        ((s'.modPipe p k fun x => { x with st := .draining stop }).drainComplete p k).unitReply rd 0
      | .draining _ | .ending _ => s'.unitReply rd 2)

/-- pl.end rd, ra: the thread parks until the pipeline has left (R110, R324, R356). -/
def execPlEnd (rd ra : Reg) (s : State) : Host.Outcome State Fault Refusal :=
  .next (s.operands [ra] [rd] fun s' =>
    match s'.pipeOf (s.src ra) with
    | none => s'.unitReply rd 1
    | some (k, _) =>
      let id := s'.nextMsg
      (s'.modPipe (s'.ctx s'.iss.tid).part k fun x => { x with st := .ending id }).sendPark
        { s'.request s'.iss.tid .none 0 0 none with loc := .home } (some rd))

end Sys2Proof.Machine
end

