-- ==== Sys2Proof/Machine/Work.lean ====
section
/-! DEFINITION. Fork and join, yield, exit, go and messages (R89–R93, R308–R315), what idle slots do (R90), pre-emption and
resumption (R95), and the completion of fences and replies for these instructions (R126, R174). -/

namespace Sys2Proof.Machine

/-! ### Slots and functions -/

/-- The function of the slot-table entry in force on a core; none where there is no slot table (R70). -/
def State.currentFn (s : State) (d : Nat) : Option Nat :=
  (s.partOf d).bind fun p =>
    let x := s.partition p
    if x.slcnt = 0 then none else x.slotNow.map fun j => fld ((x.slots.look j).getD 0) 52 11

/-- The slot of a partition stays idle: its function has been reset in it (R76). -/
def State.slotIdles (s : State) (d : Nat) : Bool :=
  match s.partOf d with
  | some p => s.wall < (s.partition p).idleTill
  | none => false

/-- The core's partition has a slot table whose SLEPOCH has not come: none of its threads issues, and none takes a slot (R70). -/
def State.unstarted (s : State) (d : Nat) : Bool :=
  match s.partOf d with
  | some p => (s.partition p).slcnt ≠ 0 && (s.partition p).slotNow.isNone
  | none => false

/-- A function's contexts may take slots of a core now (R70, R71, R76). -/
def State.mayRun (s : State) (d fn : Nat) : Bool :=
  match s.currentFn d with
  | some f => f = fn && ¬ s.slotIdles d
  | none => ¬ s.unstarted d

/-- A slot still waits for its outgoing thread's handover (R71). -/
def Core.unhanded (c : Core) (k : Nat) : Bool :=
  match c.handover with
  | some h => ¬ h.done.contains k
  | none => false

/-- The function and the task that an idle slot works for (R90). -/
def State.slotTask (s : State) (d k : Nat) : Option (Nat × Nat) :=
  let c := s.core d
  if c.unhanded k then none
  else (c.reserved.find? fun e => e.1 % 16 = k && s.mayRun d (e.1 / 16) && s.slotIdle e.2 d k && ¬ s.savingTask e.2).map
    fun e => (e.1 / 16, e.2)

/-- The cycle of a core. -/
def State.cycleOf (s : State) (d : Nat) : Nat := (s.core d).cycle

/-! ### The deque (R89–R91) -/

def Core.deque (c : Core) (task : Nat) : Deque := (c.deques.look task).getD ⟨[], []⟩
def State.modDeque (s : State) (d task : Nat) (f : Deque → Deque) : State :=
  s.modCore d fun c => { c with deques := c.deques.put task (f (c.deque task)) }

/-- Entries of a task's deque on a core that spawns in progress have reserved (R308). -/
def State.dequeHeld (s : State) (d task : Nat) : Nat :=
  ((s.flights ++ s.unsent).filter fun m => m.core = d && (s.ctx m.tid).task = task && (match m.op with
    | .joinInc _ _ => true
    | _ => false)).length

/-- Whether the deque takes one more entry: 16 on chip and 448 in the spill buffer (R89). -/
def State.dequeRoom (s : State) (d task fn : Nat) : Bool :=
  ((s.core d).deque task).chip.length + s.dequeHeld d task < 16 ||
    s.dequeSpilled fn d + (((s.core d).deque task).chip.length + s.dequeHeld d task - 16) < 448

/-- Room for one more entry on chip, and then `go`: a full deque first moves its oldest on-chip entry to the spill buffer,
once everything of it has completed; the thread of the unit parks until then (R89, R178). An entry that cannot be written
there is lost, and its task with it (R94). -/
def State.dequeSpill (s : State) (d task : Nat) (go : State → State) : State :=
  let q := (s.core d).deque task
  if q.chip.length + s.dequeHeld d task < 16 then go s
  else match q.chip with
    | [] => go s
    | top :: rest =>
      if (s.ctx top).touched ≠ 0 then (s.probeOut top).parkIssue .spawnFills
      else if ¬ s.settled top then s.parkIssue .spawnFills
      else if ¬ s.saveOk (s.ctx top).fn d then s.contextLost top
      else go (((s.carryErrors top).modDeque d task fun q => ⟨rest, q.spill ++ [top]⟩).spillRecord top d false)

/-- Push at the bottom: the entry has been reserved (R308). -/
def State.dequePush (s : State) (d task t : Nat) : State :=
  s.modDeque d task fun q => { q with chip := q.chip ++ [t] }

/-- The bottom of a deque: the newest on-chip entry, else the newest spilled one (R90). -/
def Deque.bottom (q : Deque) : Option Nat := q.chip.getLast?.or q.spill.getLast?
/-- The top: the oldest spilled entry, else the oldest on chip (R90). -/
def Deque.top (q : Deque) : Option Nat := q.spill.head?.or q.chip.head?

/-! ### spawn (R308) -/

/-- Requests of a context that are outstanding. -/
def State.outstanding (s : State) (t : Nat) : List Nat := (s.flights.filter fun m => m.tid = t).map (·.id)

/-- Nothing to take back. -/
def Undo.nothing (skip : BitVec 2) : Undo := ⟨[], skip, none, false, none⟩

/-- The continuation: the parent's whole context as it leaves the slot, with the values in the link to it (R130, R308). A frozen
one stays frozen (R214); a step of the parent goes on with the child, in the slot (notes/assumptions/141.md). -/
def State.continuation (s : State) (t : Nat) : Ctx :=
  let c := s.ctx t
  { c with
    place := .deque c.core, timeAcc := s.ctlTime t, park := .none, also := none, stepLeft := none, stepper := none, limit := none,
    heldAt := if c.frozen then some (c.heldAt.getD (s.core c.core).cycle) else none, undo := Undo.nothing c.skip }

/-- The child in the parent's slot, whose accesses follow those of the parent that are outstanding (R308). A stop that has reached
its core freezes it before its first issue, as it does the parent (R213, notes/assumptions/141.md). -/
def Ctx.child (c : Ctx) (entry sp : Word) (outstanding : List Nat) : Ctx :=
  { c with
    pc := entry, regs := c.regs.put 63 sp, empt := c.empt.del 63, nest := none, root := false, park := .none, also := none,
    limit := none, chain := [], sub := [], after := c.after ++ outstanding, errAcks := [], pend0 := none, pend1 := none,
    pend2 := none, pend3 := none, regErr := none, undo := Undo.nothing c.skip, caller := none, folded := 0,
    sha := (Ctx.cleared (.transit 0 0)).sha, freezeDue := c.freezeDue.filter fun d => ¬ d.hit, told := [] }

/-- Push the continuation, which is the thread that spawned, with all it holds, and start the child, a new thread, in its slot
(R150, R161, R308). -/
def State.fork (s : State) (t : Nat) (entry sp : Word) : State :=
  let c := s.ctx t
  let k := s.nextTid
  let s1 := { s with
    ctxs := (s.ctxs.put t (s.continuation t)).put k (c.child entry sp (s.outstanding t)), nextTid := k + 1 }
  s1.dequePush c.core c.task t

/-- A pending fill of the thread has not arrived (R126). -/
def State.fillsOut (s : State) (t : Nat) : Bool := s.flights.any fun m => m.tid = t && m.dst.isSome

/-- spawn rd, ra, rb (R308). -/
def execSpawn (rd ra rb : Reg) (s : State) : Host.Outcome State Fault Refusal :=
  let a := s.src ra
  let j := s.src rb
  let sp := s.src rd
  .next (s.operands [ra, rb, rd] [] fun s =>
    let t := s.iss.tid
    let c := s.ctx t
    if fld a 0 2 ≠ 0 then s.raise 0x04 a 4
    else if c.claim.isSome then s.illegal
    else if s.fillsOut t then s.parkIssue .spawnFills
    else if ¬ s.dequeRoom c.core c.task c.fn then s.raise 0x12 s.iss.pc 0
    else s.dequeSpill c.core c.task fun s =>
      if j = 0 then s.fork t a sp
      else s.reach j 8 .write true fun pa _ s => s.unheld (s.request t (.joinInc a sp) j pa none) 8 (.sync 0))

/-- join ra (R310). -/
def execJoin (ra : Reg) (s : State) : Host.Outcome State Fault Refusal :=
  let j := s.src ra
  .next (s.operands [ra] [] fun s => s.reach j 8 .read true fun pa _ s =>
    s.unheld (s.request s.iss.tid .joinWait j pa none) 8 (.sync 0))

/-- The oldest end of the deque is in the spill buffer: the on-chip entries are full, or older ones are spilled (R312). -/
def State.yieldSpills (s : State) (d task fn : Nat) : Bool :=
  (16 ≤ ((s.core d).deque task).chip.length + s.dequeHeld d task || ¬ ((s.core d).deque task).spill.isEmpty) &&
    s.dequeSpilled fn d < 448

/-- The yielded context at the oldest end of its deque (R312); an error that its completion found is taken at its next issue
(R178). -/
def State.yieldTo (s : State) (t : Nat) : State :=
  let c := s.ctx t
  if s.yieldSpills c.core c.task c.fn then
    let s1 := (s.carryErrors t).vacate t (.deque c.core)
    if s.saveOk c.fn c.core then
      (s1.modDeque c.core c.task fun q => { q with spill := t :: q.spill }).spillRecord t c.core true
    else s1.contextLost t
  else (s.vacate t (.deque c.core)).modDeque c.core c.task fun q => { q with chip := t :: q.chip }

/-- yield: to the oldest end of the deque; one that goes to the spill buffer leaves its core, with everything of it complete
(R178, R312). -/
def execYield (s : State) : Host.Outcome State Fault Refusal :=
  .next (s.operands [] [] fun s =>
    let t := s.iss.tid
    let c := s.ctx t
    if ¬ s.dequeRoom c.core c.task c.fn then s.raise 0x12 s.iss.pc 0
    else if s.yieldSpills c.core c.task c.fn then s.fenceThen t .fence 5 (.leave c.core)
    else s.yieldTo t)

/-! ### exit (R311) -/

/-- exit ra, rb (R311). -/
def execExit (ra rb : Reg) (s : State) : Host.Outcome State Fault Refusal :=
  .next (s.operands [ra, rb] [] fun s' => s'.fenceThen s'.iss.tid .fence 5 (.exitWait (s.src ra) (s.src rb)))

/-- A fault of its engine that came while the thread was in its exit goes to the mailbox: the claimant has exited (R209). -/
def State.faultLeft (s : State) (t : Nat) : State :=
  let c := s.ctx t
  match c.pend2 with
  | some r => s.mailTo c.part (s.trapMail t { c with trapf := trapFields r c.iwpos c.intrap c.skip, taddr := r.taddr, tinfo := r.tinfo })
  | none => s

/-- The context ends: a section's results (R155), the task's exit value, the claim, the nest, the slot (R311). -/
def State.exitEnd (s : State) (t : Nat) (v : Word) : State :=
  let c := s.ctx t
  let s0 := ((s.faultLeft t).leaveNest t).freeClaim t
  match c.caller with
  | some m => s0.sectionExit t m
  | none =>
    let s1 := { s0 with tasks := if c.root then s0.tasks.map fun (e : Nat × Task) =>
      if e.1 = c.task then (e.1, { e.2 with exitVal := v }) else e else s0.tasks }
    s1.removeCtx t

/-- The unit that a parked thread last issued becomes the one being issued, for a fault it takes later. -/
def State.atUnit (s : State) (t : Nat) : State :=
  let c := s.ctx t
  { s with iss := ⟨t, c.ipc, c.ipc, c.pc, c.iword, c.iwpos, none, .done, none⟩ }

/-- The fault of a join word's address, as its thread's synchronising write meets it (R206, R280, R311). -/
def State.joinFault (s : State) (t : Nat) (va : Word) : Option TrapRec :=
  let fault (code : Nat) (info : Nat) : Option TrapRec := some (TrapRec.make code va (word info) 0)
  if va.toNat % 8 ≠ 0 then fault 0x04 8
  else match s.translate t va .write with
    | .fault f => fault f.code f.tinfo
    | .hole => fault 0x03 6
    | .miss _ => none
    | .ok pa _ => match s.target pa with
      | none => fault 0x03 1
      | some tg => if tg.hasFe then none else fault 0x03 2

/-- The decrement of a thread's exit is sent. Its faults are traps at the exit, which has then had no effect; a frozen thread takes
them at its first issue after the freeze (R204, R213, R311). -/
def State.exitDec (s : State) (t : Nat) (j v : Word) : State :=
  match s.joinFault t j with
  | some r => (s.modCtx t fun c => { c with walkFault := none }).trapAt t r
  | none => (s.atUnit t).reach j 8 .write true fun pa _ s =>
    s.unheld { s.request t .joinDec j pa none with aux := v } 8 (.sync 0)

/-- A thread whose exit waits for its copy commands goes on once they have ended: the decrement, or the end (R311). A trap that is
pending by then comes first, at the exit (R204, R209). -/
def State.exitCopies (s : State) (t : Nat) : State :=
  let c := s.ctx t
  match c.park with
  | .copies j v =>
    if (s.core c.core).cq.any fun x => x.tid = t then s
    else match c.pending with
      | some r => if c.stays then s.unissue t else ((s.unissue t).modCtx t Ctx.dropPending).takeTrap t r c.iwpos
      | none => if j = 0 then s.exitEnd t v else s.exitDec t j v
  | _ => s

/-! ### go and context messages (R93, R313) -/

/-- The core that owns an address, for go (R313). -/
def State.goOwner (s : State) : Target → Option Nat
  | .vault c _ | .tcm c _ => some c
  | .scratch cl off => some (s.clusterCore cl (off / 0x4_0000))
  | .far _ | .sram _ _ | .control _ | .host _ => none

/-- go ra (R313). -/
def execGo (ra : Reg) (s : State) : Host.Outcome State Fault Refusal :=
  let va := s.src ra
  .next (s.operands [ra] [] fun s =>
    let t := s.iss.tid
    let c := s.ctx t
    if c.claim.isSome then s.illegal
    else s.reach va 1 .read false fun _ tg s =>
      match s.goOwner tg with
      | none => s.raise 0x03 va 1
      | some d =>
        if d = c.core then s
        else if ¬ (s.spanCores c.task).contains d then s.raise 0x03 va 4
        else s.fenceThen t .fence 5 (.leave d))

/-- The context leaves its core as a context message for core `d`; an error that its completion found is taken at its next
issue (R93, R178). -/
def State.departTo (s : State) (t d : Nat) : State :=
  let c := s.ctx t
  let m := s.request t (.context t) 0 (s.corePa 5 d 0) none
  let s1 := ((s.carryErrors t).unlist t).vacate t (.transit c.core c.slotNo)
  s1.post m

/-- CONTEXT_MESSAGE_ARRIVE (R93). -/
def State.contextArrive (s : State) (id : Nat) : State :=
  match s.msg id with
  | none => s
  | some m => match m.op, s.target m.pa with
    | .context t, some (.tcm d _) =>
      if m.loc ≠ .home then s
      else if (s.ctxs.look t).isNone then s.dropMsg id
      else if (s.ctx t).stop then (s.dropMsg id).discardThread t
      else match s.arriveCtx t d with
        | some s1 => s1.dropMsg id
        | none => s.setMsg { m with loc := .refused, ticket := some (s.cycleOf m.core) }
    | _, _ => s

/-- CONTEXT_MESSAGE_ARRIVE (R93). -/
def execContextMessageArrive (msg : Nat) (s : State) : Host.Outcome State Fault Refusal := .next (s.contextArrive msg)

/-- A refused message is sent again after 1,024 cycles of its source's core (R93, R315). -/
def State.resend (s : State) (id : Nat) (ctxMsg : Bool) : State :=
  match s.msg id with
  | none => s
  | some m =>
    if m.loc ≠ .refused ∨ (m.cls = 3) ≠ ctxMsg ∨ s.cycleOf m.core < m.ticket.getD 0 + 1024 then s
    else s.setMsg { m with loc := s.startLoc m.core m.pa, since := s.wall, ticket := none, entered := 0 }

/-- CONTEXT_MESSAGE_RESEND (R93). -/
def execContextMessageResend (msg : Nat) (s : State) : Host.Outcome State Fault Refusal := .next (s.resend msg true)

/-- MESSAGE_RESEND (R315). -/
def execMessageResend (msg : Nat) (s : State) : Host.Outcome State Fault Refusal := .next (s.resend msg false)

/-! ### msg.send (R314, R315) -/

/-- The register that a message names. -/
def msgReg (reg : Nat) : Reg := .g (BitVec.ofNat 6 (reg + 1))

/-- The context that a message is for: of the sender's task, in the named slot, else saved from it (R315). -/
def State.messageTarget (s : State) (m : Msg) (core slot : Nat) : Option Nat :=
  let task := m.aux.toNat
  let mine (c : Ctx) : Bool := c.task = task && c.part = m.part
  ((s.ctxs.find? fun e => mine e.2 && e.2.place = .slot core slot).or
    (s.ctxs.find? fun e => mine e.2 && (match e.2.place with
      | .chuck d k | .save d k | .ckpt d k => d = core && k = slot
      | _ => false))).map (·.1)

/-- A register that is empty and awaits no load fill (R315). -/
def State.takesMessage (s : State) (t : Nat) (r : Reg) : Bool :=
  match s.whyEmpty t r with
  | some .armed | some .dead | some (.failed _ _) => true
  | some .fill | none => false

/-- A message fills its register: the acknowledgement leaves, a halted target wakes, the target core's data cache is
invalidated (R279, R315). -/
def State.messageFill (s : State) (m : Msg) (t : Nat) (reg : Nat) (v : Word) : State :=
  let s1 := s.fillReg t (msgReg reg) v
  let s2 := s1.modCtx t fun c => { c with park := if c.park = .halted then .none else c.park }
  let s3 := (s2.invalidateCache (s.ctx t).core).answer m .ack
  { s3 with cores := s3.cores.map fun (e : Nat × Core) => (e.1, { e.2 with msgBuf := e.2.msgBuf.filter (· ≠ m.id) }) }

/-- An earlier message for the same register waits in the buffer. -/
def State.messageAhead (s : State) (m : Msg) (core t reg : Nat) : Bool :=
  ((s.core core).msgBuf.takeWhile (· ≠ m.id)).any fun i => match s.msg i with
    | some x => (match x.op with
      | .message r _ d k => r = reg && s.messageTarget x d k = some t
      | _ => false)
    | none => false

/-- MESSAGE_ARRIVE: a message at its target core, arriving or waiting in the buffer (R315). The error of a message that
finds no target names no virtual address: ctl.taddr is a free value (notes/assumptions/4.md). -/
def State.messageArrive (s : State) (id : Nat) : State :=
  match s.msg id with
  | none => s
  | some m => match m.op with
    | .message reg v core slot =>
      let out (s : State) : State := s.modCore core fun c => { c with msgBuf := c.msgBuf.filter (· ≠ id) }
      if m.loc ≠ .home ∧ m.loc ≠ .waiting then s
      else match s.messageTarget m core slot with
        | none =>
          let (a, s1) := s.free
          (out s1).answer m (.error (TrapRec.make 0x03 a 1 1))
        | some t =>
          if s.takesMessage t (msgReg reg) ∧ s.messageAhead m core t reg = false then s.messageFill m t reg v
          else if m.loc = .waiting then s
          else if 32 ≤ (s.core core).msgBuf.length then
            s.setMsg { m with loc := .refused, ticket := some (s.cycleOf m.core) }
          else (s.setMsg { m with loc := .waiting }).modCore core fun c => { c with msgBuf := c.msgBuf ++ [id] }
    | _ => s

/-- MESSAGE_ARRIVE (R315). -/
def execMessageArrive (msg : Nat) (s : State) : Host.Outcome State Fault Refusal := .next (s.messageArrive msg)

/-- Arm one register; the oldest waiting message fills it at once (R314, R315). -/
def State.arm (s : State) (t reg : Nat) : State :=
  let s1 := s.emptyReg t (msgReg reg) .armed
  match (s1.core (s1.ctx t).core).msgBuf.find? fun i => match s1.msg i with
    | some x => (match x.op with
      | .message r _ d k => r = reg && s1.messageTarget x d k = some t
      | _ => false)
    | none => false with
  | some i => s1.messageArrive i
  | none => s1

/-- msg.send ra, rb (R314). A target core outside the partition: no rule gives ctl.taddr, which is a free value
(notes/assumptions/4.md). -/
def execMsgSend (ra rb : Reg) (s : State) : Host.Outcome State Fault Refusal :=
  let w := s.src ra
  let v := s.src rb
  .next (s.operands [ra, rb] [] fun s =>
    let t := s.iss.tid
    let c := s.ctx t
    let core := fld w 4 12
    if bit w 31 then
      let regs := (List.range 8).filter fun j => bit w (16 + j)
      match regs.find? fun j => s.whyEmpty t (msgReg j) = some .fill with
      | some j => s.parkIssue (.reg (j + 1))
      | none => regs.foldl (fun s j => s.arm t j) s
    else if s.partOf core ≠ some c.part then
      let (a, s1) := s.free
      s1.raise 0x03 a 1
    else
      let pa := s.corePa 5 core 0
      let m := { s.request t (.message (fld w 24 3) v core (fld w 0 4)) 0 pa none with aux := word c.task, counted := true }
      s.fenceSend t .sfence m.scope m false)

/-! ### Fences and replies that end an instruction of this file -/

/-- FENCE_COMPLETE, with what exit, go and yield do after their fence: a context that leaves for its own core yields (R174,
R311, R312, R313). -/
def State.fenceEnd (s : State) (t : Nat) : State :=
  let s1 := s.fenceComplete t
  match (s.ctx t).park with
  | .fence _ _ (.exitWait _ _) => s1.exitCopies t
  | .fence _ _ (.send m _) => s1.bindRead m.id
  | .fence _ _ (.leave d) =>
    if (s1.ctx t).park ≠ .none then s1 else if d = (s1.ctx t).core then s1.yieldTo t else s1.departTo t d
  | .copies _ _ => s.exitCopies t
  | _ => s1

/-- FENCE_COMPLETE (R174). -/
def execFenceComplete (tid : Nat) (s : State) : Host.Outcome State Fault Refusal := .next (s.fenceEnd tid)

/-- REPLY_FILL, with what spawn and exit do on the join word's reply; for a context that is not in a slot that follows on
its resumption (R126, R308, R311, R329). -/
def State.replyEnd (s : State) (id : Nat) : State :=
  match s.msg id with
  | none => s
  | some m =>
    let c := s.ctx m.tid
    let good : Bool := c.waitsFor m && (match m.loc with
      | .back (.value _) => true
      | _ => false)
    match m.op with
    | .joinInc a sp =>
      if ¬ good then s.replyFill id
      else if c.place.resident then (s.replyFill id).fork m.tid a sp else s
    | .joinDec =>
      if ¬ good then s.replyFill id
      else if c.place.resident then (s.replyFill id).exitEnd m.tid m.aux else s
    | _ => s.replyFill id

/-! ### Idle slots (R90) -/

/-- A message of the scheduler of a core for core `d`: no thread's. -/
def State.schedMsg (s : State) (op : HomeOp) (core slot d fn part : Nat) : Msg :=
  let pa := s.corePa 5 d 0
  { s.request 0 op 0 pa none with fn := fn, part := part, core := core, slot := slot, loc := s.startLoc core pa }

/-- The next victim of a core in a span: after its last one, in ascending order, wrapping (R90). -/
def State.victim (s : State) (d task : Nat) : Option Nat :=
  let others := (s.spanCores task).filter (· ≠ d)
  let last := (s.core d).lastVictim.getD d
  (others.find? (last < ·)).or others.head?

/-- An idle slot sends a steal request (R90). -/
def State.steal (s : State) (d k fn task : Nat) : State :=
  let c := s.core d
  if c.stealBusy ∨ c.stealWaitFrom.isSome then s
  else match s.victim d task with
    | none => s
    | some v =>
      (s.post (s.schedMsg (.stealReq task) d k v fn ((s.partOf d).getD 0))).modCore d fun c =>
        { c with stealBusy := true, lastVictim := some v }

/-- IDLE_SLOT_TAKE_WORK (R90). -/
def State.takeWork (s : State) (d k : Nat) : State :=
  match s.slotTask d k with
  | none => s
  | some (fn, task) =>
    let c := s.core d
    match (c.inbound.find? fun t => (s.ctx t).task = task).or (c.deque task).bottom with
    | some t => s.seat t d k
    | none => s.steal d k fn task

/-- IDLE_SLOT_TAKE_WORK (R90). -/
def execIdleSlotTakeWork (core slot : Nat) (s : State) : Host.Outcome State Fault Refusal := .next (s.takeWork core slot)

/-- The victim's answer (R90): its top entry once everything of it has completed (R178), or empty. -/
def State.stealAnswer (s : State) (m : Msg) (d task : Nat) : State :=
  let reply (s : State) (t : Option Nat) : State :=
    (s.dropMsg m.id).post (s.schedMsg (.stealRep t) d m.slot m.core m.fn m.part)
  match ((s.core d).deque task).top with
  | none => reply s none
  | some t =>
    if (s.ctx t).touched ≠ 0 then s.probeOut t
    else if ¬ s.settled t then s
    else reply (((s.carryErrors t).unlist t).modCtx t fun c => { c with place := .transit d 0, record := none }) (some t)

/-- STEAL_REQUEST_ARRIVE (R90, R116). -/
def State.stealArrive (s : State) (id : Nat) : State :=
  match s.msg id with
  | none => s
  | some m => match m.op, s.target m.pa with
    | .stealReq task, some (.tcm d _) =>
      if m.loc ≠ .home then s
      else if s.closed d then s.setMsg { m with loc := .refused, ticket := some (s.cycleOf m.core) }
      else s.stealAnswer m d task
    | _, _ => s

/-- STEAL_REQUEST_ARRIVE (R90). -/
def execStealRequestArrive (msg : Nat) (s : State) : Host.Outcome State Fault Refusal := .next (s.stealArrive msg)

/-- An empty reply; after as many in a row as the span has other cores the core waits (R90). -/
def State.stealEmpty (s : State) (d others : Nat) : State :=
  s.modCore d fun c =>
    if others ≤ c.emptyReplies + 1 then { c with stealBusy := false, emptyReplies := 0, stealWaitFrom := some c.cycle }
    else { c with stealBusy := false, emptyReplies := c.emptyReplies + 1 }

/-- STEAL_REPLY_ARRIVE (R90, R93). -/
def State.stealReply (s : State) (id : Nat) : State :=
  match s.msg id with
  | none => s
  | some m => match m.op, s.target m.pa with
    | .stealRep none, some (.tcm d _) =>
      if m.loc ≠ .home then s
      else
        let task := ((s.core d).reserved.look (slotKey m.fn m.slot)).getD 0
        (s.dropMsg id).stealEmpty d ((s.spanCores task).filter (· ≠ d)).length
    | .stealRep (some t), some (.tcm d _) =>
      let free (s : State) : State := (s.dropMsg id).modCore d fun c => { c with stealBusy := false, emptyReplies := 0 }
      if m.loc ≠ .home then s
      else if (s.ctxs.look t).isNone then free s
      else if (s.ctx t).stop then (free s).discardThread t
      else match s.arriveCtx t d with
        | some s1 => free s1
        | none => s.setMsg { m with loc := .refused, ticket := some (s.cycleOf m.core) }
    | _, _ => s

/-- STEAL_REPLY_ARRIVE (R90). -/
def execStealReplyArrive (msg : Nat) (s : State) : Host.Outcome State Fault Refusal := .next (s.stealReply msg)

/-- STEAL_BACKOFF_EXPIRE (R90). -/
def execStealBackoffExpire (core : Nat) (s : State) : Host.Outcome State Fault Refusal :=
  .next (match (s.core core).stealWaitFrom with
    | some n => if n + 1024 ≤ s.cycleOf core then s.modCore core fun c => { c with stealWaitFrom := none } else s
    | none => s)

/-! ### Pre-emption, stopping, resumption (R95, R210, R361) -/

/-- The turn of the cycle that the core serves next. -/
def Core.turnNo (c : Core) : Nat := c.cycle % 32
def Core.turn (c : Core) (k : Nat) : Turn := (c.turns[k]?).getD ⟨0, false, false, none⟩

/-- The local index of a task queue (R85). -/
def Core.queueIndex (c : Core) (fn q : Nat) : Option Nat := c.localQ.findIdx? fun (e : Nat × Nat × Nat) => e.1 = fn && e.2.1 = q

/-- The slot owns the turn (R85). -/
def Turn.ownedBy (x : Turn) (k : Nat) : Bool := x.ov && x.tslot = k

/-- A thread may stop now: it waits or is frozen, owns no turn, or owns the turn being served (R71, R361). -/
def State.mayStop (s : State) (t : Nat) : Bool :=
  let c := s.ctx t
  let core := s.core c.core
  s.blocked t || c.frozen || ¬ (core.turns.any fun x => x.ownedBy c.slotNo) || (core.turn core.turnNo).ownedBy c.slotNo

/-- PREEMPT: the thread of a slot stops and its context goes to the Chuck, where there is room (R95). -/
def State.preempt (s : State) (d k : Nat) : State :=
  match s.inSlot d k with
  | none => s
  | some t => if s.mayStop t ∧ s.chuckUsed d < 32 then s.toChuck t else s

/-- PREEMPT (R95). -/
def execPreempt (core slot : Nat) (s : State) : Host.Outcome State Fault Refusal := .next (s.preempt core slot)

/-- THREAD_STOP: a thread that a rule stops is discarded, its slot cleared (R76, R109, R361). -/
def State.threadStop (s : State) (t : Nat) : State :=
  let c := s.ctx t
  if ¬ c.stop then s
  else if c.place.resident ∧ s.mayStop t = false then s
  else s.discardThread t

/-- THREAD_STOP (R361). -/
def execThreadStop (tid : Nat) (s : State) : Host.Outcome State Fault Refusal := .next (s.threadStop tid)

/-- The slot is free for a context: reserved to its task, or, for a context of no task, its own and unreserved. -/
def State.slotFor (s : State) (t d k : Nat) : Bool :=
  let c := s.ctx t
  (s.inSlot d k).isNone && ¬ s.delegated d k && ¬ (s.core d).unhanded k && s.mayRun d c.fn &&
    ¬ s.savingTask c.task && (if c.task = 0 then k = c.slotNo else (s.core d).reserved.look (slotKey c.fn k) = some c.task)

/-- CONTEXT_RESUME: a saved context takes a slot of its core at a rotation boundary (R95, R96). A restored checkpoint names
the core it was placed on (R123). -/
def State.resume (s : State) (t d k : Nat) : State :=
  let c := s.ctx t
  let saved : Bool := match c.place with
    | .chuck e _ | .save e _ | .ckpt e _ => e = d
    | _ => false
  if saved ∧ (s.core d).turnNo = 0 ∧ s.slotFor t d k = true ∧ s.closed d = false then s.seat t d k else s

/-- CONTEXT_RESUME (R95). -/
def execContextResume (tid core slot : Nat) (s : State) : Host.Outcome State Fault Refusal := .next (s.resume tid core slot)

end Sys2Proof.Machine
end

