-- ==== Sys2Proof/Machine/Place.lean ====
section
/-! DEFINITION. From packet to placed task (R54–R56, R79–R82, R96, R123, R226): readiness, the smooth weighted round-robin,
the search for room and dispatch. -/

namespace Sys2Proof.Machine

/-! ### Smooth weighted round-robin (R80) -/

/-- One candidate of ChooseWRR: its key, its weight and its c. -/
structure Wrr where
  key : Nat
  w : Int
  c : Int
  deriving DecidableEq, Repr

/-- ChooseWRR over candidates in ascending key: the key chosen, and every candidate with its new c (R80). -/
def chooseWrr (l : List Wrr) : Option (Nat × List Wrr) :=
  let total : Int := (l.map (·.w)).sum
  let up := l.map fun x => { x with c := x.c + x.w }
  let best := up.foldl (fun (b : Option Wrr) x => match b with
    | none => some x
    | some y => if y.c < x.c then some x else some y) none
  best.map fun b => (b.key, up.map fun x => if x.key = b.key then { x with c := x.c - total } else x)

/-! ### Readiness (R79) -/

/-- The packet of a queue. -/
def State.packet (s : State) (fn q i : Nat) : Option QPkt := (s.tqueue fn q).pkts[i]?

def State.modPacket (s : State) (fn q i : Nat) (f : QPkt → QPkt) : State :=
  s.modTqueue fn q fun x => { x with pkts := x.pkts.modify i f }

/-- The packet retires without running, and DONE takes a code (R79, R226). -/
def State.packetRefused (s : State) (fn q i : Nat) (code : Word) : State :=
  match s.packet fn q i with
  | none => s
  | some x =>
    let p := (s.fnPart fn).getD 0
    let s1 := (s.packetOver fn q i).modPart p fun r => { r with
      tried := [],
      insts := r.insts.map fun e => if x.inst = some e.1 ∧ e.2.st = .live then (e.1, { e.2 with st := .over 1 }) else e }
    s1.doneFill fn p x.asid x.pkt.done code

/-- The dispatcher's wait on the DEPA cell, as a hardware waiter, or the refusal of a DEPA that names no counter (R79). -/
def State.askDepa (s : State) (fn q i : Nat) (x : QPkt) : State :=
  let p := (s.fnPart fn).getD 0
  let va := x.pkt.depa
  match s.agentReach x.asid va 32 .read with
  | .error _ => s.packetRefused fn q i codeDepa
  | .ok (pa, s1) => match s1.target pa with
    | some (.sram _ _) =>
      (s1.post (s1.agentMsg fn p x.asid (.depaWait fn q i) va pa)).modPacket fn q i fun x => { x with depaAsked := true }
    | _ => s.packetRefused fn q i codeDepa

/-- The dispatcher's wait of a packet. -/
def State.depaMsg (s : State) (fn q i : Nat) : Option Msg := s.flights.find? fun m => m.op = .depaWait fn q i

/-- The packet's own conditions hold: a job waits for every earlier packet of its queue (R79). -/
def State.becomeReady (s : State) (fn q i : Nat) (x : QPkt) : State :=
  if x.pkt.job ∧ ((s.tqueue fn q).pkts.take i).any (fun y => y.st ≠ .retired) then s
  else ((s.modTqueue fn q TaskQueue.joins).modPacket fn q i fun x => { x with st := .ready s.wall }).modPart ((s.fnPart fn).getD 0) fun p => { p with tried := [] }

/-- PACKET_READY (R79). -/
def State.packetReady (s : State) (fn q i : Nat) : State :=
  match s.packet fn q i with
  | none => s
  | some x =>
    if x.st ≠ .waiting then s
    else if x.pkt.depa ≠ 0 ∧ ¬ x.depaAsked then s.askDepa fn q i x
    else match s.depaMsg fn q i with
      | none => s.becomeReady fn q i x
      | some m => match m.loc with
        | .back (.error _) => (s.dropMsg m.id).packetRefused fn q i codeDepa
        | .back _ => (s.dropMsg m.id).becomeReady fn q i x
        | _ => s

/-- PACKET_READY (R79). -/
def execPacketReady (fn queue index : Nat) (s : State) : Host.Outcome State Fault Refusal :=
  .next (s.packetReady fn queue index)

/-! ### Room for a span (R81) -/

/-- Slots of a core that are free for a function. -/
def State.freeSlots (s : State) (d fn : Nat) : List Nat :=
  (List.range 16).filter fun k => ((s.core d).reserved.look (slotKey fn k)).isNone && (s.inSlot d k).isNone &&
    ¬ s.delegated d k && ¬ (s.core d).unhanded k

/-- First fit of a footprint of `n` pages within the function's share of a core's TCM, beside footprints of `n` pages at `taken`
(R70, R81). -/
def State.tcmFit (s : State) (d fn part n : Nat) (taken : List Nat) : Option Nat :=
  match s.shareOf part fn with
  | none => none
  | some e =>
    let b := fld e 26 6
    let size := fld e 20 6 + 1
    if n = 0 then some b
    else if size < n then none
    else ((List.range (size - n + 1)).map (b + ·)).find? fun x =>
      ((s.core d).tcm.all fun t => t.2.2 = 0 || x + n ≤ t.2.1 || t.2.1 + t.2.2 ≤ x) && taken.all fun y => x + n ≤ y || y + n ≤ x

/-- Where `k` more footprints of `n` pages go in the function's share, each by itself (R96). -/
def State.tcmFits (s : State) (d fn part n : Nat) : Nat → List Nat → Option (List Nat)
  | 0, taken => some taken
  | k + 1, taken => match s.tcmFit d fn part n taken with
    | some b => s.tcmFits d fn part n k (taken ++ [b])
    | none => none

/-- Slots of a core for `threads` threads of a function, where it may take them now. -/
def State.slotRoom (s : State) (d fn threads : Nat) : Option (List Nat) :=
  let k := (s.freeSlots d fn).take threads
  if s.closed d ∨ ¬ s.mayRun d fn ∨ k.length < threads then none else some k

/-- Room on a core: its slots and where the footprint goes. -/
def State.coreRoom (s : State) (d fn part threads pages : Nat) : Option (Nat × List Nat × Nat) :=
  (s.slotRoom d fn threads).bind fun k => (s.tcmFit d fn part pages []).map fun b => (d, k, b)

/-- The first `n` elements that a test accepts. -/
def firstN {α β : Type} (f : α → Option β) : List α → Nat → Option (List β)
  | _, 0 => some []
  | [], _ + 1 => none
  | a :: l, n + 1 => match f a with
    | some b => (firstN f l n).map (b :: ·)
    | none => firstN f l (n + 1)

/-- Cores of a partition (R63). -/
def Partition.cores (p : Partition) : List Nat := (List.range p.len).map (p.base + ·)

/-- Clusters with a core in the partition, in ascending order of their lowest core there (R81). -/
def State.clustersOf (s : State) (p : Nat) : List Nat :=
  (s.partition p).cores.foldl (fun l d => if l.contains (s.clusterOf d) then l else l ++ [s.clusterOf d]) []

/-- Room for a crew on a cluster: `cores` of its cores that lie in the partition (R81). -/
def State.crewRoom (s : State) (p fn cores threads pages cl : Nat) : Option (List (Nat × List Nat × Nat)) :=
  firstN (fun d => s.coreRoom d fn p threads pages) ((s.partition p).cores.filter fun d => s.clusterOf d = cl) cores

/-- Room for a span (R81). -/
def State.spanRoom (s : State) (p fn : Nat) (x : Packet) (pages : Nat) : Option (List (List (Nat × List Nat × Nat))) :=
  firstN (s.crewRoom p fn x.cores x.threads pages) (s.clustersOf p) x.crews

/-- The room that `n` virtual cores folded onto one core take there: their slots and one footprint each (R96, R123). -/
def State.foldRoom (s : State) (d fn part n threads pages : Nat) : Option (List Nat × List Nat) :=
  if 16 < n * threads then none
  else (s.slotRoom d fn (n * threads)).bind fun k => (s.tcmFits d fn part pages n []).map fun bs => (k, bs)

/-- How many virtual cores of a crew a core takes, at most `n` (R96). -/
def State.foldCap (s : State) (d fn part n threads pages : Nat) : Nat :=
  ((List.range n).filter fun k => (s.foldRoom d fn part (k + 1) threads pages).isSome).length

/-- The `m` cores that take most virtual cores, the first among equals: a core is one of them if fewer than `m` others come
before it. -/
def mostOf (caps : List (Nat × Nat)) (m : Nat) : List (Nat × Nat) :=
  (caps.zipIdx.filter fun x => (caps.zipIdx.filter fun y => x.1.2 < y.1.2 || (x.1.2 = y.1.2 && y.2 < x.2)).length < m).map (·.1)

/-- Virtual cores on cores of a cluster in ascending order, as many on each as it takes: for each virtual core its core, slots
and footprint (R96). -/
def State.foldOnto (s : State) (p fn threads pages : Nat) : List (Nat × Nat) → Nat → List (Nat × List Nat × Nat)
  | [], _ => []
  | (d, cap) :: l, n =>
    let k := min cap n
    (match s.foldRoom d fn p k threads pages with
      | some e => e.2.zipIdx.map fun b => (d, (e.1.drop (b.2 * threads)).take threads, b.1)
      | none => []) ++ s.foldOnto p fn threads pages l (n - k)

/-- A crew folded onto the fewest cores of a cluster that take it, and how many they are (R96, R123). -/
def State.foldCrew (s : State) (p fn : Nat) (x : Packet) (pages cl : Nat) : Option (Nat × List (Nat × List Nat × Nat)) :=
  let caps := ((s.partition p).cores.filter fun d => s.clusterOf d = cl).map fun d =>
    (d, s.foldCap d fn p x.cores x.threads pages)
  (((List.range x.cores).map (· + 1)).find? fun m => decide (x.cores ≤ ((mostOf caps m).map (·.2)).sum)).map fun m =>
    (m, s.foldOnto p fn x.threads pages (mostOf caps m) x.cores)

/-- Crews folded one after another, each onto the cluster, of those that hold no earlier one, that takes it on the fewest cores,
the first among equals (R81, R123). -/
def State.foldCrews (s : State) (p fn : Nat) (x : Packet) (pages : Nat) : Nat → List Nat → Option (List (List (Nat × List Nat × Nat)))
  | 0, _ => some []
  | n + 1, cls =>
    let fits := cls.filterMap fun cl => (s.foldCrew p fn x pages cl).map fun r => (cl, r.1, r.2)
    match fits.find? fun a => fits.all fun b => decide (a.2.1 ≤ b.2.1) with
    | none => none
    | some (cl, _, crew) => (s.foldCrews p fn x pages n (cls.filter (· ≠ cl))).map (crew :: ·)

/-- Room for the span of a resumable entry: unfolded, or, where the kernel declares no use of h0–h15, folded (R96, R123). -/
def State.resumeRoom (s : State) (p fn : Nat) (x : Packet) (pages : Nat) (hreg : Bool) :
    Option (List (List (Nat × List Nat × Nat))) :=
  (s.spanRoom p fn x pages).or (if hreg then none else s.foldCrews p fn x pages x.crews (s.clustersOf p))

/-! ### The kernel descriptor (R225, R226) -/

/-- What the device reads of a kernel descriptor. -/
structure Kernel where
  tcmsz : Nat
  mig : Bool
  hreg : Bool
  pbase : Nat
  deriving DecidableEq, Repr

/-- Doublewords at a virtual address, as an agent reads them; none where a read faults. -/
def State.agentDws (s : State) (fn part asid : Nat) (va : Word) : Nat → Option (List Nat) × State
  | 0 => (some [], s)
  | n + 1 => match s.agentRead fn part asid va 8 with
    | (.error _, s1) => (none, s1)
    | (.ok v, s1) => match s1.agentDws fn part asid (va + 8) n with
      | (none, s2) => (none, s2)
      | (some l, s2) => (some (v :: l), s2)

/-- The descriptor before ENTRY; none where it is refused (R226). -/
def State.kernel (s : State) (fn part asid : Nat) (entry : Word) : Option Kernel × State :=
  match s.agentDws fn part asid (entry - 64) 8 with
  | (some [_, w1, w2, _, w4, w5, w6, w7], s1) =>
    let tcmsz := w1 % 2 ^ 16
    let flags := w1 / 2 ^ 16 % 2 ^ 16
    if 64 < tcmsz ∨ 4 ≤ flags ∨ w1 / 2 ^ 32 ≠ 0 ∨ w2 / 2 ^ 24 ≠ 0 ∨ w4 + w5 + w6 + w7 ≠ 0 then (none, s1)
    else
      let hreg : Bool := flags / 2 = 1
      (some ⟨tcmsz, flags % 2 = 1 && ¬ hreg && tcmsz = 0, hreg, w2 % 2 ^ 24⟩, s1)
  | (_, s1) => (none, s1)

/-! ### Dispatch (R56, R82, R140) -/

/-- The format records of a packet, and the fault of their read (R56). -/
def State.formats (s : State) (fn part : Nat) (x : QPkt) : Word × Option TrapRec × State :=
  match x.fmts with
  | some w => (w, none, s)
  | none =>
    if x.pkt.fmtp = 0 then (0, none, s)
    else match s.agentRead fn part x.asid x.pkt.fmtp 8 with
      | (.ok v, s1) => (word v, none, s1)
      | (.error t, s1) => (0, some { t with taddr := x.pkt.fmtp, orig := 0 }, s1)

/-- g5 to g7 of a stage instance's threads (R106). -/
def State.stageRegs (s : State) (part : Nat) (inst : Option Nat) : SMap Word :=
  let p := s.partition part
  match inst.bind p.insts.look with
  | none => []
  | some x =>
    let input := match x.input.bind p.insts.look with
      | some y => y.stage.rdesc
      | none => word x.src
    [(5, input), (6, x.stage.rdesc), (7, word x.inCur)]

/-- The context of one thread of a span: its crew, core and thread numbers, where it sits and its footprint (R82, R140). -/
def dispatchCtx (folded : Bool) (x : QPkt) (fn part queue task : Nat) (kd : Kernel) (fm : Word) (flt : Option TrapRec) (extra : SMap Word)
    (g4 g3 g2 d k base cycle : Nat) : Ctx :=
  let n := (g4 * x.pkt.cores + g3) * x.pkt.threads + g2
  let root : Bool := g2 = 0 && g3 = 0 && g4 = 0
  { Ctx.cleared (.slot d k) with
    task := task, queue := some queue, lvl := .u, fn := fn, part := part, asid := BitVec.ofNat 10 x.asid, pc := x.pkt.entry,
    regs := [(1, x.pkt.argp), (2, word g2), (3, word g3), (4, word g4)] ++ extra ++ [(63, windowTop)],
    seg := word ((kd.pbase + n) % 2 ^ 24 * 2 ^ 40 + kd.tcmsz * 2 ^ 20 + base * 2 ^ 8),
    fmt0 := fm.extractLsb' 0 16, fmt1 := fm.extractLsb' 16 16, fmt2 := fm.extractLsb' 32 16, fmt3 := fm.extractLsb' 48 16,
    scl := x.pkt.sclp, park := .start, root := root, vcore := g4 * 8 + g3, seatedAt := cycle,
    lane := if folded then some g2 else none,
    pend0 := if root then flt else none }
where
  /-- The top of the private window (R82). -/
  windowTop : Word := 0xFFFF_FF00_0100_0000

/-- Reserve the slots and the footprint of one virtual core, which holds zero (R82, R236). -/
def State.reserve (s : State) (fn task d : Nat) (slots : List Nat) (base pages : Nat) : State :=
  (s.zeroRange (s.corePa 5 d (base * 4096)) (pages * 4096)).modCore d fun c => { c with
    reserved := slots.foldl (fun (r : SMap Nat) k => r.put (slotKey fn k) task) c.reserved,
    tcm := c.tcm ++ [(task, base, pages)],
    dirtyTcm := c.dirtyTcm.filter fun e => e.1 ≠ task, dirtySp := c.dirtySp.filter fun e => e.1 ≠ task }

/-- A page that holds private memory of a function: a frame of its own, or a page of its share of a TCM or a scratchpad, that is
not sealed (R57, R70, R72). -/
def State.ownPage (s : State) (fn part pa : Nat) : Bool :=
  s.violation ⟨fn, part, .u⟩ pa 4096 = 0 && ¬ s.sealedAt pa 4096 && (match s.target pa with
    | some (.vault _ _) | some (.far _) | some (.sram _ _) | some (.scratch _ _) | some (.tcm _ _) => true
    | some (.control _) | some (.host _) | none => false)

/-- Zero `n` bytes of intermediate address space that one stage-2 leaf maps, whether or not it permits writes; one that does has its
D bit set (R57, R74, R236). -/
def State.zeroLeaf (s : State) (fn part : Nat) (l : Leaf) (ia n : Nat) : State :=
  let pas := ((List.range (n / 4096)).map fun k => l.pa ia + 4096 * k).filter (s.ownPage fn part)
  if pas ≠ [] then
    pas.foldl (fun (s : State) pa => s.zeroRange pa 4096) (if bit l.entry 2 then s.setD (some l.entryPa) else s)
  else s

/-- The private memory of a thread's window holds zero at dispatch: what stage 2 maps of it, 2 MiB at a time where one entry,
or none, covers them (R139, R236, notes/assumptions/126.md). -/
def State.zeroPriv (s : State) (fn part asid pbase : Nat) : State :=
  (List.range 8).foldl (fun (s : State) b =>
    let lo := pbase % 2 ^ 24 * 2 ^ 24 + b * 2 ^ 21 + (if b = 0 then 0x4_0000 else 0)
    let n := 2 ^ 21 - (if b = 0 then 0x4_0000 else 0)
    let pages (s : State) : State := (List.range (n / 4096)).foldl (fun (s : State) k => match s.walk2 asid (lo + 4096 * k) with
      | .ok l => s.zeroLeaf fn part l (lo + 4096 * k) 4096
      | .error _ => s) s
    match s.walk2 asid lo with
    | .ok l => if l.level = 4 then pages s else s.zeroLeaf fn part l lo n
    | .error f => if f.tinfo / 2 % 4 = 3 then pages s else s) s

/-- Virtual cores of a crew share a core in the room found (R96). -/
def roomFolded (room : List (List (Nat × List Nat × Nat))) : Bool :=
  room.any fun c => (c.map (·.1)).eraseDups.length < c.length

/-- Place a packet on the cores found; a restart in cursor form may be folded (R82, R123). -/
def State.dispatch (s : State) (fn part q i : Nat) (x : QPkt) (kd : Kernel) (room : List (List (Nat × List Nat × Nat))) : State :=
  let (fm, flt, s0) := s.formats fn part x
  let task := s0.nextTask
  let extra := s0.stageRegs part x.inst
  let folded := roomFolded room
  let k : Task := ⟨x.pkt, fn, q, i, part, x.asid, room.map fun c => c.map (·.1), x.inst, 0, kd.tcmsz, kd.mig, kd.hreg,
    kd.pbase, s.wall, [], false⟩
  let s1 := { s0 with tasks := s0.tasks.put task k, nextTask := task + 1 }
  let s2 := (s1.modPacket fn q i fun y => { y with st := .placed task, task := some task }).modPart part fun p =>
    { p with insts := p.insts.map fun e => if x.inst = some e.1 then (e.1, { e.2 with task := some task }) else e }
  room.zipIdx.foldl (fun s crew => crew.1.zipIdx.foldl (fun s c =>
    let (d, slots, base) := c.1
    slots.zipIdx.foldl (fun s k =>
      let e := dispatchCtx folded x fn part q task kd fm flt extra crew.2 c.2 k.2 d k.1 base (s.core d).cycle
      { s.zeroPriv fn part x.asid (fld e.seg 40 24) with ctxs := s.ctxs.put s.nextTid e, nextTid := s.nextTid + 1 })
      (s.reserve fn task d slots base kd.tcmsz)) s) s2

/-! ### Restoring a checkpoint (R96, R123) -/

/-- Codes of the slot of `Place.ckpt` for contexts that were not in, or saved from, a slot. -/
def ckptDeque : Nat := 16
def ckptInbound : Nat := 17
def ckptAside : Nat := 18

/-- The slots of a task on a core, ascending. -/
def slotsIn (r : SMap Nat) (fn task : Nat) : List Nat :=
  (r.filter fun e => e.2 = task && e.1 / 16 = fn).map fun e => e.1 % 16

/-- Write an image's memory at its new place: the lines saved of the `g`-th virtual core that shared the former core, each of
them of `pages` pages, and with the first the regions (R117, R123). -/
def State.restoreMem (s : State) (im : Image) (d base pages g : Nat) : State :=
  let tcm := s.corePa 5 d (base * 4096)
  let lines := (im.tcm.filter fun e => e.1 / (4096 * max 1 pages) = g).map fun e => (e.1 % (4096 * max 1 pages), e.2)
  let seg := 4 * 2 ^ 48 + s.clusterOf d * 2 ^ 21 + s.coreInCluster d * 0x4_0000
  let put (b : Nat) (s : State) (e : Nat × List Byte × List Nat) : State :=
    let s' := s.wrBytes (b + e.1) e.2.1
    e.2.2.foldl (fun s o => s.setEmpty (b + o)) s'
  let s2 := lines.foldl (put tcm) s
  if g = 0 then im.sp.foldl (put seg) s2 else s2

/-- An engine context of an image goes to a free context of the core, or to a spill record, which is written; its dirty
tracking starts anew (R117, R131, R211). A thread whose record cannot be written is lost (R94). -/
def State.restoreEng (s : State) (d : Nat) (e : Eng) : State :=
  match e.owner with
  | none => s
  | some t =>
    let c := s.core d
    match (List.range 2).find? fun k => (c.eng k).owner.isNone with
    | some k => (s.modEng d k fun _ => { e with dirty := [] }).modCtx t fun c => { c with claim := some (.bound k) }
    | none => match s.freeSpill d (s.ctx t).fn with
      | none => s
      | some r =>
        if ¬ s.saveOk (s.ctx t).fn d then s.contextLost t
        else ((s.writeSpill d r e (s.ctx t).slotNo).modCore d fun c => { c with spills := c.spills.put r { e with dirty := [] } }).modCtx t
          fun c => { c with claim := some (.spilled r) }

/-- Engine contexts and spill records of a function that are free on a core (R131). -/
def State.engRoom (s : State) (d fn : Nat) : Nat :=
  ((List.range 2).filter fun k => ((s.core d).eng k).owner.isNone).length + (s.freeSpills d fn).length

/-- Restore the contexts of virtual core `vc`, the `g`-th that shared its former core: slots map in ascending order, and with the
first go the deque, the inbound contexts and the contexts set aside. ctl.seg denotes the new footprint, and the chain connects a
thread by its slot, and folded ones by their former slots (R96, R123, R130). -/
def State.restoreCtxs (s : State) (folded : Bool) (task vc old g : Nat) (slots : List Nat) (d base : Nat) : State :=
  let mine := s.ctxs.filter fun e => e.2.task = task && (match e.2.place with
    | .ckpt c k => c = old && (if k < 16 then e.2.vcore = vc else g = 0)
    | _ => false)
  let from_ := (mine.map fun e => e.2.slotNo).foldl (fun l k => if k < 16 then insertNat l k else l) []
  mine.foldl (fun s e =>
    let k := e.2.slotNo
    let seg := withFld e.2.seg 8 6 base
    let place : Place :=
      if k = ckptDeque then .deque d else if k = ckptInbound then .inbound d else if k = ckptAside then .setAside d
      else .ckpt d ((slots[(from_.idxOf k)]?).getD k)
    s.modCtx e.1 fun c => { c with
      place := place, vcore := vc, lane := if folded && k < 16 then some c.laneNo else none,
      seg := if fld c.seg 20 7 = 0 then c.seg else seg }) s

/-- Restore one virtual core of a checkpointed task, whose footprint had `was` pages (R123). -/
def State.restoreCore (s : State) (folded : Bool) (task fn vc old : Nat) (c : Nat × List Nat × Nat) (was pages g : Nat) : State :=
  let (d, slots, base) := c
  let s1 := s.reserve fn task d slots base pages
  let s2 := s1.restoreCtxs folded task vc old g slots d base
  match s2.images.find? fun i => i.task = task && i.core = old && i.valid with
  | none => s2
  | some im =>
    let s2 := s2.restoreMem im d base was g
    if g ≠ 0 then s2
    else
      let s3 := im.engines.foldl (fun s e => s.restoreEng d e) s2
      (s3.modDeque d task fun q => ⟨q.chip ++ im.deque.chip, q.spill ++ im.deque.spill⟩).modCore d fun c =>
        { c with inbound := c.inbound ++ im.inbound }

/-- The former core of a virtual core, and how many virtual cores before it shared that core. -/
def Task.formerCore (k : Task) (crew core : Nat) : Nat × Nat :=
  let was := (k.crews[crew]?).getD []
  let old := (was[core]?).getD 0
  (old, (was.take core).count old)

/-- The engine contexts of a task's images fit where the room would put them (R131). -/
def State.engFits (s : State) (id : Nat) (k : Task) (room : List (List (Nat × List Nat × Nat))) : Bool :=
  let plan : List (Nat × Nat) := (room.zipIdx.map fun crew => crew.1.zipIdx.filterMap fun c =>
    let (old, g) := k.formerCore crew.2 c.2
    if g = 0 then some (c.1.1, ((s.images.filter fun i => i.task = id && i.core = old && i.valid).map fun i => i.engines.length).sum)
    else none).flatten
  plan.all fun e => decide (((plan.filter fun x => x.1 = e.1).map (·.2)).sum ≤ s.engRoom e.1 k.fn)

/-- Place a resumable task on the cores found, with its images (R123). The instance of a HELD stage is LIVE again
(R109). -/
def State.restore (s : State) (id : Nat) (k : Task) (kd : Kernel) (room : List (List (Nat × List Nat × Nat))) : State :=
  let s1 := room.zipIdx.foldl (fun s crew => crew.1.zipIdx.foldl (fun s c =>
    let (old, g) := k.formerCore crew.2 c.2
    s.restoreCore (roomFolded room) id k.fn (crew.2 * 8 + c.2) old c.1 k.tcmPages kd.tcmsz g) s) s
  let k' := { k with
    crews := room.map fun c => c.map (·.1), ckptd := false, tcmPages := kd.tcmsz, mig := kd.mig, hreg := kd.hreg, pbase := kd.pbase }
  let s2 := { s1 with
    images := s1.images.filter fun i => i.task ≠ id, tasks := if (s1.tasks.look id).isSome then s1.tasks.put id k' else s1.tasks }
  (s2.modPacket k.fn k.queue k.index fun y => { y with st := if y.st = .retired then .retired else .placed id }).modPart k.part fun p =>
    { p with insts := p.insts.map fun e => if k.inst = some e.1 ∧ e.2.st = .held then (e.1, { e.2 with st := .live }) else e }

/-- A HELD instance saved in cursor form starts afresh: its input cursor is set to its output ring's publish cursor (R122). A
sealed descriptor takes no write (R57). -/
def State.cursorRestart (s : State) (part inst : Nat) : State :=
  match (s.partition part).insts.look inst with
  | none => s
  | some x =>
    let s1 := if s.sealedAt x.inRing 64 then s else (s.setRingCur x.inRing x.inCur (s.ringPub x.outRing)).ringWake x.inRing
    s1.modPart part fun p => { p with insts := p.insts.put inst { x with st := .live, cursorForm := false } }

/-! ### Placement (R80) -/

/-- Place a packet that has not run, or an instance saved in cursor form: none where it does not fit. A packet whose
descriptor is refused retires (R122, R123, R226). -/
def State.placeNew (s : State) (part fn q i : Nat) (x : QPkt) : Option State :=
  match s.kernel fn part x.asid x.pkt.entry with
  | (none, s1) => some (s1.packetRefused fn q i codeDescriptor)
  | (some kd, s1) =>
    (if x.st.isResumable then s1.resumeRoom part fn x.pkt kd.tcmsz kd.hreg else s1.spanRoom part fn x.pkt kd.tcmsz).map fun r =>
      let s2 := match x.inst with
        | some j => if (((s1.partition part).insts.look j).map Inst.cursorForm) = some true then s1.cursorRestart part j else s1
        | none => s1
      s2.dispatch fn part q i x kd r

/-- Place a checkpointed task; one whose descriptor is refused retires, its contexts discarded (R123, R226). -/
def State.placeSaved (s : State) (part fn : Nat) (t : Nat) (k : Task) : Option State :=
  match s.kernel fn part k.asid k.pkt.entry with
  | (none, s1) => some (s1.taskDiscarded t codeDescriptor)
  | (some kd, s1) => ((s1.resumeRoom part fn k.pkt kd.tcmsz kd.hreg).filter fun r => s1.engFits t k r).map fun r =>
      s1.restore t k kd r

/-- Try to place one packet: none where it does not fit (R80, R123). -/
def State.tryPlace (s : State) (part fn q i : Nat) (x : QPkt) : Option State :=
  match x.st with
  | .ready _ => s.placeNew part fn q i x
  | .resumable _ => match x.task.bind fun t => (s.tasks.look t).map fun k => (t, k) with
    | none => s.placeNew part fn q i x
    | some (t, k) => s.placeSaved part fn t k
  | .waiting | .placed _ | .retired => none

/-- The packet has waited 1 ms ready and unplaced; a resumable entry is placed as a packet (R80, R123). -/
def QPkt.late (wall : Nat) (p : QPkt) : Bool :=
  match p.st with
  | .ready t | .resumable t => t + 1000000 ≤ wall
  | .waiting | .placed _ | .retired => false

/-- The entries of a list up to the first that has waited 1 ms (R80). -/
def upToLate (wall : Nat) (l : List (Nat × QPkt)) : List (Nat × QPkt) :=
  match l.findIdx? fun e => e.2.late wall with
  | some n => l.take (n + 1)
  | none => l

/-- The packets of a queue that the placer may try, resumable entries first (R79, R80, R121): nothing later than a job that
has not retired, and nothing later than a packet that has waited 1 ms. -/
def State.candidates (s : State) (x : TaskQueue) : List (Nat × QPkt) :=
  let l : List (Nat × QPkt) := x.pkts.zipIdx.map fun e => (e.2, e.1)
  let upToJob : List (Nat × QPkt) := match l.find? fun e => e.2.pkt.job && e.2.st ≠ .retired with
    | some j => l.filter fun e => e.1 ≤ j.1
    | none => l
  let r := upToJob.filter fun e => e.2.st.isReady
  upToLate s.wall ((r.filter fun e => e.2.st.isResumable) ++ r.filter fun e => ¬ e.2.st.isResumable)

/-- The weight of a queue: WEIGHT of its oldest ready packet, a resumable entry at its head before any other (R80, R121). -/
def TaskQueue.weight (x : TaskQueue) : Nat :=
  ((((x.pkts.find? fun p => p.st.isResumable).or (x.pkts.find? fun p => p.st.isReady))).map fun p => p.pkt.weight).getD 0

/-- The queues of a partition's functions that hold a ready packet, none of a function that is being reset (R76, R80). -/
def State.readyQueues (s : State) (part : Nat) : List (Nat × TaskQueue) :=
  s.queues.filter fun e => s.fnPart (e.1 / 64) = some part && ¬ s.resetting.contains (e.1 / 64) && e.2.pkts.any fun p => p.st.isReady

/-- The c of a partition's queues after a choice: 0 for those outside Q (R80). -/
def State.keepWrr (s : State) (part : Nat) (cs : List Wrr) (e : Nat × TaskQueue) : Nat × TaskQueue :=
  if s.fnPart (e.1 / 64) ≠ some part then e
  else match cs.find? fun c => c.key = e.1 with
    | some c => (e.1, { e.2 with wrr := c.c, inQ := true })
    | none => (e.1, { e.2 with wrr := 0, inQ := false })

/-- PLACER_CHOOSE: one choice of a queue, and the first of its ready packets that fits is placed (R80). A packet that is refused
for its descriptor ends the round of choices as a placement does, which the rule leaves open: the model's choice
(notes/assumptions/127.md). -/
def State.placerChoose (s : State) (part : Nat) : State :=
  let p := s.partition part
  let qs := s.readyQueues part
  if p.st ≠ 1 ∨ (qs.all fun (e : Nat × TaskQueue) => p.tried.contains e.1) = true then s
  else match chooseWrr (qs.map fun e => ⟨e.1, e.2.weight, if e.2.inQ then e.2.wrr else 0⟩) with
    | none => s
    | some (key, cs) =>
      let s1 := { s with queues := s.queues.map (s.keepWrr part cs) }
      let fn := key / 64
      let q := key % 64
      match (s1.candidates (s1.tqueue fn q)).findSome? fun e => s1.tryPlace part fn q e.1 e.2 with
      | some s2 => (s2.modTqueue fn q fun x => { x with aged := false }).modPart part fun p => { p with tried := [] }
      | none => s1.modPart part fun p => { p with tried := insertNat p.tried key }

/-- PLACER_CHOOSE (R80). -/
def execPlacerChoose (part : Nat) (s : State) : Host.Outcome State Fault Refusal := .next (s.placerChoose part)

/-- PLACEMENT_AGE_LIMIT: a ready packet of the queue has waited 1 ms (R80). -/
def execPlacementAgeLimit (fn queue : Nat) (s : State) : Host.Outcome State Fault Refusal :=
  .next (if (s.tqueue fn queue).pkts.any (QPkt.late s.wall) then s.modTqueue fn queue fun x => { x with aged := true } else s)

end Sys2Proof.Machine
end

