-- ==== Sys2Proof/Machine/Engine.lean ====
section
/-! DEFINITION. Engine contexts and queues: eng.claim and eng.rel (R131, R316, R317), the issue of engine instructions
(R132, R332, R333), their memory accesses (R182, R334), spills (R131, R211), and matrix steps (R88, R342). -/

namespace Sys2Proof.Machine

/-! ### Units and registers -/

/-- The engine unit of an instruction by its OP: 0 matrix, 1 vector, 2 copy (R132, R332). -/
def unitOf (i : Instr) : Option Nat :=
  match (encodeWord 0 i).map fun w => (fld w 25 6, fld w 0 4) with
  | some (0x33, _) => some 0
  | some (0x30, _) | some (0x31, _) | some (0x34, _) | some (0x35, _) => some 1
  | some (0x1B, fn) => if 2 ≤ fn ∧ fn ≤ 6 then some 2 else none
  | _ => none

def vReg (n : BitVec 4) : EReg := .v n.toNat
def tReg (n : BitVec 3) : EReg := .t n.toNat
def tdReg (n : BitVec 3) : EReg := .td n.toNat
def aReg (n : BitVec 2) : EReg := .a n.toNat

/-- The generator, under .sr (R335). -/
def genOf (rm : Rm) : List EReg := if rm = .sr then [.gen] else []

/-- The engine registers that an instruction reads and those it writes (R332). -/
def engineUse : Instr → List EReg × List EReg
  | .vadd rm vd va vb | .vsub rm vd va vb | .vmul rm vd va vb | .vpack rm vd va vb | .qnt rm vd va vb _ =>
    ([vReg va, vReg vb] ++ genOf rm, vReg vd :: genOf rm)
  | .vfma rm vd va vb => ([vReg va, vReg vb, vReg vd] ++ genOf rm, vReg vd :: genOf rm)
  | .vmin vd va vb | .vmax vd va vb | .vand vd va vb | .vor vd va vb | .vxor vd va vb | .vcmp vd va vb _
  | .vshuf vd va vb | .phMul vd va vb | .phCmp vd va vb => ([vReg va, vReg vb], [vReg vd])
  | .vsel vd va vb => ([vReg va, vReg vb, vReg vd], [vReg vd])
  | .vabs vd va | .vneg vd va | .vshl vd va _ | .vshr vd va _ | .vrmax vd va | .vunpack vd va _ | .vmov vd va
  | .phCvt _ vd va | .phCos vd va | .phSin vd va | .qclip vd va _ | .dq vd va _ => ([vReg va], [vReg vd])
  | .vcvt rm vd va _ | .vsum rm vd va => (vReg va :: genOf rm, vReg vd :: genOf rm)
  | .phRed vd va _ | .qhist vd va _ => ([vReg va, vReg vd], [vReg vd])
  | .vbcast vd _ | .vld vd _ | .viota vd _ => ([], [vReg vd])
  | .vst va _ => ([vReg va], [])
  | .mma _ _ _ ad ta tb _ | .pmm _ ad ta tb => ([tReg ta, tReg tb, tdReg ta, tdReg tb, aReg ad], [aReg ad])
  | .tld t _ => ([tdReg t], [tReg t])
  | .tst t _ => ([tReg t, tdReg t], [])
  | .tdescWr t _ => ([], [tdReg t])
  | .tdescRd t _ => ([tdReg t], [])
  | .accZero ad => ([], [aReg ad])
  | .accSt ad _ => ([aReg ad], [])
  | .accLd ad _ => ([], [aReg ad])
  | .accCvt _ _ ad t _ => ([aReg ad, tdReg t], [tReg t])
  | .srSeed _ => ([], [.gen])
  | _ => ([], [])

/-- A queue of the core: matrix or vector (R132). -/
def Core.queue (c : Core) (unit : Nat) : List QEntry := if unit = 0 then c.mq else c.vq
def Core.setQueue (c : Core) (unit : Nat) (q : List QEntry) : Core := if unit = 0 then { c with mq := q } else { c with vq := q }

/-- Whether an instruction's queue has a free entry (R132). -/
def Core.queueFree (c : Core) (unit : Nat) : Bool := if unit = 2 then c.cq.length < 2 else (c.queue unit).length < 2

/-! ### ctl.vshape (R333) and tdesc (R336) -/

def etOf (v : Word) : Nat := fld v 13 3
/-- Width of an element type in bits. -/
def etWidth (et : Nat) : Nat := if et ≤ 1 then 32 else if et = 4 ∨ et = 6 then 8 else 16
/-- The capacity of a v register. -/
def etCap (et : Nat) : Nat := 8192 / etWidth et
def etF (et : Nat) : Bool := et = 0 || et = 2 || et = 3
def etI (et : Nat) : Bool := et = 1 || et = 4
def etFI (et : Nat) : Bool := et ≤ 4
def etAny (et : Nat) : Bool := et ≤ 6
def etPh (et : Nat) : Bool := et = 5 || et = 6

/-- The element count under a limit: LEN, or the limit when LEN is 0. -/
def shapeLen (v : Word) (limit : Nat) : Nat := if fld v 0 11 = 0 then limit else fld v 0 11

/-- ctl.vshape is valid, its ET served, and n within the limit. -/
def shapeOk (v : Word) (serves : Nat → Bool) (limit : Nat → Nat) : Bool :=
  fld v 16 48 = 0 && fld v 11 2 = 0 && serves (etOf v) && fld v 0 11 ≤ limit (etOf v)

/-- For I element types RM must be .rne (R343). -/
def rmOk (v : Word) (rm : Rm) : Bool := etF (etOf v) || rm = .rne

/-- The fields of a tdesc. -/
structure Tdesc where
  stride : Nat
  ew : Nat
  rows : Nat
  cols : Nat
  deriving DecidableEq, Repr

def Tdesc.of (w : Word) : Tdesc := ⟨fld w 32 24, fld w 22 2, fld w 16 6, fld w 0 13⟩
def Tdesc.width (d : Tdesc) : Nat := 4 * 2 ^ d.ew
def Tdesc.rowBytes (d : Tdesc) : Nat := (d.cols * d.width + 7) / 8
def Tdesc.step (d : Tdesc) : Nat := if d.stride = 0 then d.rowBytes else d.stride

/-- A tdesc value is valid (R336). -/
def tdescOk (w : Word) : Bool :=
  let d := Tdesc.of w
  fld w 56 8 = 0 && fld w 24 8 = 0 && fld w 13 3 = 0 && 1 ≤ d.rows && d.rows ≤ 32 && 1 ≤ d.cols && d.cols ≤ 4096 &&
    d.rows * d.cols * d.width ≤ 16384 && (d.ew ≠ 0 || d.cols % 2 = 0) && (d.stride = 0 || d.rowBytes ≤ d.stride)

/-- The limit of ph.cvt (R348). -/
def phCvtLimit : Cvk → Nat
  | .fp | .pf => 256
  | .wide | .narrow => 512

/-- The checks of stage OP on ctl.vshape `v` and Src(RS) `x` (R332, R333, R337, R343–R345, R348, R350). -/
def engineOk (i : Instr) (v x : Word) : Bool :=
  match i with
  | .vadd rm _ _ _ | .vsub rm _ _ _ | .vmul rm _ _ _ | .vsum rm _ _ => shapeOk v etFI etCap && rmOk v rm
  | .vfma _ _ _ _ => shapeOk v etF etCap
  | .vmin _ _ _ | .vmax _ _ _ | .vabs _ _ | .vneg _ _ | .vrmax _ _ => shapeOk v etFI etCap
  | .vand _ _ _ | .vor _ _ _ | .vxor _ _ _ | .vsel _ _ _ | .vbcast _ _ | .vld _ _ | .vst _ _ | .vshuf _ _ _ =>
    shapeOk v etAny etCap
  | .vshl _ _ _ | .vshr _ _ _ | .viota _ _ => shapeOk v etI etCap
  | .vcvt rm _ _ _ => fld x 0 3 ≤ 4 && shapeOk v etFI (fun et => min (etCap et) (etCap (fld x 0 3))) && rmOk v rm
  | .vcmp _ _ _ _ => fld x 0 3 ≤ 5 && shapeOk v etFI etCap
  | .vpack _ _ _ _ | .vunpack _ _ _ => shapeOk v (fun et => et = 2 || et = 3) fun _ => 512
  | .phCvt k _ _ => shapeOk v (fun _ => true) fun _ => phCvtLimit k
  | .phMul _ _ _ | .phRed _ _ _ | .phCmp _ _ _ => shapeOk v etPh etCap
  | .phCos _ _ | .phSin _ _ => shapeOk v etPh fun _ => 512
  | .qhist _ _ _ | .qnt _ _ _ _ _ | .dq _ _ _ => shapeOk v (· = 0) etCap
  | .tdescWr _ _ => tdescOk x
  | _ => true

/-! ### Claims (R131, R316, R317) -/

/-- The context to spill, among those that no thread waits for: that of the claimant that issued least recently (R131); in a
handover window, for a claim by the incoming tenant, an outgoing one (R71). -/
def State.spillVictim (s : State) (d : Nat) : Option Nat :=
  let c := s.core d
  let at_ (k : Nat) : Nat := match (c.eng k).owner with
    | some t => (s.ctx t).lastIssue
    | none => 0
  let out (k : Nat) : Bool := match c.handover, (c.eng k).owner with
    | some h, some t => (s.ctx s.iss.tid).fn = h.inFn && (s.ctx t).fn ≠ h.inFn
    | _, _ => false
  match (c.eng 0).next.isNone, (c.eng 1).next.isNone with
  | true, true => some (if out 0 ≠ out 1 then (if out 0 then 0 else 1) else if at_ 0 ≤ at_ 1 then 0 else 1)
  | true, false => some 0
  | false, true => some 1
  | false, false => none

/-- Take an engine context for the thread of the unit: a free one is bound, and `effect` goes on; otherwise the context of
the least recently issued claimant is to be spilled, and the thread parks (R131). -/
def State.takeEngine (s : State) (effect : State → State) : State :=
  let t := s.iss.tid
  let d := (s.ctx t).core
  let c := s.core d
  if c.eng0.owner.isNone then effect (s.bindEng d 0 t)
  else if c.eng1.owner.isNone then effect (s.bindEng d 1 t)
  else match s.spillVictim d with
    | none => s.parkIssue .engine
    | some k =>
      let v := ((c.eng k).owner.getD 0)
      if (s.ctxs.look v).isNone then (s.modEng d k fun e => { e with next := some t }).parkIssue .engine
      else match s.freeSpill d (s.ctx v).fn with
        | none => s.raise 0x11 s.iss.pc 2
        | some r => (s.modEng d k fun e => { e with spillTo := some r, next := some t }).parkIssue .engine

/-- The number of the context that a thread holds. -/
def Ctx.engineNo (c : Ctx) : Nat :=
  match c.claim with
  | some (.bound k) => k
  | some (.spilled _) | none => 0

/-- eng.claim rd: the context's number (R316). A thread whose context is spilled holds a claim, and nothing changes for it; it
stands in neither context, so that the number is a free value, 0 or 1 (notes/assumptions/52.md). -/
def execEngClaim (rd : Reg) (s : State) : Host.Outcome State Fault Refusal :=
  .next (s.operands [] [rd] fun s =>
    let give (s : State) : State := s.dst rd (word (s.ctx s.iss.tid).engineNo)
    match (s.ctx s.iss.tid).claim with
    | some (.bound _) => give s
    | some (.spilled _) => let (v, s1) := s.free; s1.dst rd (v &&& 1)
    | none => s.takeEngine give)

/-- eng.rel: parks until the context's instructions and copy commands have ended; their faults come first (R317). -/
def execEngRel (s : State) : Host.Outcome State Fault Refusal :=
  .next (s.operands [] [] fun s =>
    let t := s.iss.tid
    let c := s.core (s.ctx t).core
    if (s.ctx t).claim.isNone then s
    else if c.engineWork t || c.cq.any fun x => x.tid = t then s.parkIssue .drain
    else s.freeClaim t)

/-- Word 1 of a pair takes the fault of an engine instruction whose claim word 0, an eng.rel, would have freed: the pair has no
effect (R131, R238). -/
def State.claimFault (s : State) : State := s.raise 0x11 s.iss.pc 1

/-- A register as it stands: its value, and why it is empty. -/
def State.regNow (s : State) (t : Nat) (r : Reg) : Reg × Word × Option EmptyWhy := (r, s.peek t r, s.whyEmpty t r)

/-- What word 1 of a pair changed, against the state `t0` before it, is noted: a trap of the pair while it is still parked takes it
back (R204, R238, R281). -/
def State.noteUndo (s t0 : State) (t : Nat) : State :=
  let c := s.ctx t
  let c0 := t0.ctx t
  let codes := ((c.regs.map (·.1) ++ c.empt.map (·.1)) ++ (c0.empt.map (·.1))).foldl insertNat []
  let own := (codes.filter fun k => c.regs.look k ≠ c0.regs.look k || c.empt.look k ≠ c0.empt.look k).filterMap fun k =>
    Reg.ofCode (BitVec.ofNat 7 k)
  let new := (s.core c.core).delayed.filter fun d => ¬ (t0.core c.core).delayed.contains d
  let hs := new.filterMap fun d => match d with
    | .hVal _ _ n _ | .hEmpty _ _ n _ => some (Reg.h (BitVec.ofNat 4 n))
    | .wb _ _ => none
  let link (x : State) : Nat := match x.partner t (c.vcore + 1) with
    | some p => (x.ctx p).chain.length
    | none => 0
  let queued (x : State) : List Nat := (((x.core c.core).mq ++ (x.core c.core).vq).filter fun e => e.tid = t).map (·.seq)
  s.modCtx t fun c => { c with undo := { c.undo with
    regs := (own ++ hs).map (t0.regNow t), pushed := decide (link t0 < link s),
    entry := (queued s).find? fun k => ¬ (queued t0).contains k } }

/-! ### Stops that reach a stalled thread (R132, R213) -/

/-- Instructions of a unit. -/
def unitInstrs : IssueUnit → List Instr
  | .lone i => [i]
  | .pair c a => [c, a]
  | .illegal _ => []

/-- The register that names the tag of a copy command (R319). -/
def tagReg : Instr → Option Reg
  | .cp1d rd _ _ | .cp2d rd _ _ | .cpGather rd _ _ | .cpScatter rd _ _ | .cpLink rd _ => some rd
  | _ => none

/-- An earlier copy command of the thread with the tag of this instruction has not ended (R319). -/
def State.tagStall (s : State) (t : Nat) (i : Instr) : Bool :=
  match tagReg i with
  | some r => (s.whyEmpty t r).isNone && (s.core (s.ctx t).core).cq.any fun x => x.tid = t && x.tag = fld (s.peek t r) 0 4
  | none => false

/-- The thread's next unit has an engine instruction whose queue has no entry left for it, or a copy command whose tag has a
command that has not ended (R132, R319). -/
def State.queueStall (s : State) (t : Nat) : Bool :=
  if (s.ctx t).pending.isSome then false
  else match s.peekUnit t with
    | none => false
    | some u =>
      let us := (unitInstrs u).filterMap unitOf
      let c := s.core (s.ctx t).core
      let used (k : Nat) : Nat := if k = 2 then c.cq.length else (c.queue k).length
      (us.any fun k => decide (2 < used k + (us.filter (· = k)).length)) || (unitInstrs u).any (s.tagStall t)

/-- A stop that reaches a core freezes its stalled threads at once: they are not Ready (R132, R213). -/
def State.freezeStalled (s : State) (core : Nat) : State :=
  (s.ctxs.filter fun e => e.2.place.resident && e.2.core = core && ¬ e.2.freezeDue.isEmpty).foldl (fun (s : State) e =>
    if s.queueStall e.1 then s.freeze e.1 else s) s

/-- The oldest stop broadcast on its way to a core reaches it (R213). -/
def State.stopCore (s : State) (core : Nat) : State := (s.stopArrive core).freezeStalled core

/-- STOP_BROADCAST_ARRIVE (R213). -/
def execStopBroadcastArrive (core : Nat) (s : State) : Host.Outcome State Fault Refusal := .next (s.stopCore core)

/-- STORE_ACK_ARRIVE (R173). -/
def execStoreAckArrive (msg : Nat) (s : State) : Host.Outcome State Fault Refusal := .next (s.ackArrive msg)

/-- REPLY_FILL (R126). -/
def execReplyFill (msg : Nat) (s : State) : Host.Outcome State Fault Refusal := .next (s.replyEnd msg)

/-! ### Issue (R332) -/

/-- An engine instruction enters its queue; its writes count in the core sub-count (R132, R182). -/
def State.enqueueEngine (s : State) (i : Instr) (unit : Nat) (x : Word) : State :=
  let t := s.iss.tid
  let c := s.ctx t
  let o := s.opCtx
  let e : QEntry := ⟨s.nextMsg, i, c.engineNo, t, c.slotNo, c.part, c.fn, c.asid, s.iss.w, s.iss.word, x, o.vshape,
    [o.fmt0, o.fmt1, o.fmt2, o.fmt3], 0, c.issued⟩
  let s1 := { s with nextMsg := s.nextMsg + 1 }.modCore c.core fun k => k.setQueue unit (k.queue unit ++ [e])
  if engineWrites i then s1.countStore t 1 else s1

/-- The issue of a matrix (0) or vector (1) instruction with Src(RS) `x` (R131, R332). -/
def State.engineGo (s : State) (i : Instr) (unit : Nat) (x : Word) : State :=
  match (s.ctx s.iss.tid).claim with
  | none => s.raise 0x11 s.iss.pc 1
  | some cl =>
    if ¬ engineOk i s.opCtx.vshape x then s.illegal
    else match cl with
      | .spilled _ => s.takeEngine fun s => s.parkIssue .none
      | .bound _ => s.enqueueEngine i unit x

/-- An engine instruction that reads no g register. -/
def State.engine0 (s : State) (i : Instr) (unit : Nat) : State := s.operands [] [] fun s => s.engineGo i unit 0

/-- An engine instruction that reads RS. -/
def State.engineRs (s : State) (i : Instr) (unit : Nat) (rs : BitVec 6) : State :=
  s.operands [g rs] [] fun s => s.engineGo i unit (s.src (g rs))

/-! ### Accesses of a thread that its engines make (R182, R334) -/

/-- The address an engine reaches for a thread, translated by a walk at the thread's level, or through the private window, and the
stage-2 leaf of its page (R67, R74, R139, R334). -/
def State.threadReach (s : State) (t : Nat) (va : Word) (k : Kind) : Except TrapRec (Nat × Option Nat) :=
  let c := s.ctx t
  let err (code info : Nat) : Except TrapRec (Nat × Option Nat) := .error (TrapRec.make code va (word info) 2)
  let viaWalk (ia : Option Nat) : Except TrapRec (Nat × Option Nat) :=
    match s.walk c.asid.toNat va.toNat ia with
    | .error f => err f.code f.tinfo
    | .ok e => match e.refuses va.toNat k c.lvl with
      | some f => err f.code f.tinfo
      | none =>
        if (s.target (e.pa va.toNat)).isNone then err 0x03 1 else .ok (e.pa va.toNat, some (e.leaf va.toNat))
  match windowOff va with
  | some w =>
    if w < fld c.seg 20 7 * 4096 then .ok (s.corePa 5 c.core (fld c.seg 8 6 * 4096 + w), none)
    else if 0x4_0000 ≤ w then viaWalk (some (fld c.seg 40 24 * 2 ^ 24 + w))
    else err 0x03 6
  | none => viaWalk none

/-- One element access for an engine instruction: `wr` is the value it writes. Its checks are those of any access (R334). Host
memory is written through the outbound queue, and read after what that holds (R180). A counter's rate is as the access finds it
(R145), the waiters of a ring that it writes are examined (R298), and a hit mark comes to the claimant (R212). -/
def State.engineAccess (s : State) (e : QEntry) (va : Word) (n : Nat) (wr : Option Nat) : State × Except TrapRec Nat :=
  if va.toNat % n ≠ 0 then (s, .error (TrapRec.make 0x04 va (word n) 2))
  else match s.threadReach e.tid va (if wr.isSome then .write else .read) with
    | .error f => (s, .error f)
    | .ok (pa, leaf) =>
      let op : HomeOp := match wr with
        | some v => .store n (word v)
        | none => .load n
      let m := s.request e.tid op va pa none
      match (s.freshRate pa).refusal m ⟨n, wr.isSome, wr.isNone, wr.isSome⟩ with
      | (s2, some f) => (s2, .error { f with orig := 2 })
      | (s2, none) =>
        let (s3, hit) := (s2.dirty m.core (if wr.isSome then leaf else none)).watch pa n op.watchClass va e.tid m.core m.slot e.issued
        let host : Bool := match s3.target pa with
          | some (.host _) => true
          | _ => false
        let s4 := match wr with
          | some x => if host then { s3 with hostOut := s3.hostOut ++ [(pa, n, x)] }
            else ((s3.homeWrite none pa n x).noteDirty e.tid pa n).ringTouched pa
          | none => if host then s3.drainHost else s3
        (s4.markTo e.tid e.issued hit false, .ok (s4.rd pa n))

/-- Read `n`-byte elements at these addresses in order, up to the first that faults. -/
def State.engineReadAll (s : State) (e : QEntry) (n : Nat) : List Word → State × Except TrapRec (List Nat)
  | [] => (s, .ok [])
  | a :: as => match s.engineAccess e a n none with
    | (s1, .error f) => (s1, .error f)
    | (s1, .ok v) => match s1.engineReadAll e n as with
      | (s2, .error f) => (s2, .error f)
      | (s2, .ok vs) => (s2, .ok (v :: vs))

/-- Write `n`-byte elements in order; those before a fault stay written (R209, R334). -/
def State.engineWriteAll (s : State) (e : QEntry) (n : Nat) : List (Word × Nat) → State × Option TrapRec
  | [] => (s, none)
  | (a, v) :: as => match s.engineAccess e a n (some v) with
    | (s1, .error f) => (s1, some f)
    | (s1, .ok _) => s1.engineWriteAll e n as

/-! ### Engine registers -/

def Eng.vec (e : Eng) (n : BitVec 4) : BitVec 8192 := (e.v.look n.toNat).getD 0
def Eng.tile (e : Eng) (n : BitVec 3) : BitVec 16384 := (e.t.look n.toNat).getD 0
def Eng.acc (e : Eng) (n : BitVec 2) : BitVec 32768 := (e.a.look n.toNat).getD 0
def Eng.tdesc (e : Eng) (n : BitVec 3) : Word := (e.td.look n.toNat).getD 0
def Eng.setVec (e : Eng) (n : BitVec 4) (x : BitVec 8192) : Eng := { e with v := e.v.put n.toNat x }
def Eng.setTile (e : Eng) (n : BitVec 3) (x : BitVec 16384) : Eng := { e with t := e.t.put n.toNat x }
def Eng.setAcc (e : Eng) (n : BitVec 2) (x : BitVec 32768) : Eng := { e with a := e.a.put n.toNat x }

/-- The first `n` elements of `w` bits of a register. -/
def elems {m : Nat} (w n : Nat) (x : BitVec m) : List Nat := (List.range n).map fun e => fld x (e * w) w

/-- A register with its first elements replaced; the other bits keep their values (R333). -/
def setElems {m : Nat} (w : Nat) (old : BitVec m) (l : List Nat) : BitVec m :=
  BitVec.ofNat m (packN w l + (old.toNat >>> (w * l.length)) * 2 ^ (w * l.length))

/-- What an engine instruction ends with: its context, a value for a g register, or a fault. -/
structure EngRes where
  eng : Eng
  g : Option Word
  deriving DecidableEq, Repr

/-- A fault at the instruction itself: ctl.taddr is its PC (R209, R332). -/
def QEntry.fault (e : QEntry) (code info : Nat) : TrapRec := TrapRec.make code e.pc (Sys2Proof.Machine.word info) 2
/-- The shape fault of R332. -/
def QEntry.shapeFault (e : QEntry) : TrapRec := e.fault 0x01 e.word.toNat
/-- ctl.fmtk as the instruction read it. -/
def QEntry.fmt (e : QEntry) (k : Nat) : BitVec 16 := e.fmts.getD k 0
/-- The format fault: [1:0] k, [31:16] the record (R206). -/
def QEntry.formatFault (e : QEntry) (k : Nat) : TrapRec := e.fault 0x0F (k + (e.fmt k).toNat * 2 ^ 16)
/-- The reserved-code fault: [63:32] the element index (R206). -/
def QEntry.reservedFault (e : QEntry) (k index : Nat) : TrapRec :=
  e.fault 0x10 (k + (e.fmt k).toNat * 2 ^ 16 + index * 2 ^ 32)

/-- The generator after rounding an element, and the state that the element is rounded with (R189, R335). -/
def stepGen (rm : Rm) (gen : BitVec 32) : BitVec 32 := if rm = .sr then srStep gen else gen

/-- Round every element in ascending order with a function of its generator state (R335). -/
def roundAll (rm : Rm) (f : Nat → Num → Nat) : BitVec 32 → List Num → List Nat × BitVec 32
  | gen, [] => ([], gen)
  | gen, x :: xs =>
    let g1 := stepGen rm gen
    let (l, g2) := roundAll rm f g1 xs
    (f g1.toNat x :: l, g2)

end Sys2Proof.Machine
end

