-- ==== Sys2Proof/Machine/Vector.lean ====
section
/-! DEFINITION. The vector instructions (R343–R346): what each does to the registers of its engine context, and its
issue. -/

namespace Sys2Proof.Machine

/-! ### Elements by type -/

/-- The format of an F element type. -/
def etFmt (et : Nat) : IFmt := if et = 2 then .f16 else if et = 3 then .bf16 else .f32

/-- An element of `w` bits as a signed integer. -/
def signedOf (w x : Nat) : Int := if x % 2 ^ w < 2 ^ (w - 1) then (x % 2 ^ w : Int) else (x % 2 ^ w : Int) - 2 ^ w

/-- An integer modulo 2^w. -/
def wrapTo (w : Nat) (x : Int) : Nat := (x % 2 ^ w).toNat

/-- An element as an exact value. -/
def etNum (et x : Nat) : Num := if etI et then Num.ofInt (signedOf (etWidth et) x) else (etFmt et).decode x

/-- An exact value rounded to an F element type. -/
def etRound (et : Nat) (rm : Rm) (sr : Nat) (x : Num) : Nat := (etFmt et).encode ((etFmt et).round rm sr x)

/-- A number that orders the elements of a type that are not NaN, −0 below +0 (R343). -/
def etKey (et x : Nat) : Int :=
  let w := etWidth et
  if etI et then signedOf w x
  else if x / 2 ^ (w - 1) % 2 = 1 then -(x % 2 ^ (w - 1) : Nat) - 1 else (x % 2 ^ (w - 1) : Nat)

def etIsNan (et x : Nat) : Bool := etF et && ((etFmt et).decode x).isNan

/-- vmin and vmax (R343). -/
def etPick (et : Nat) (larger : Bool) (a b : Nat) : Nat :=
  if etIsNan et a || etIsNan et b then (etFmt et).encode .nan
  else if (if larger then etKey et a < etKey et b else etKey et b < etKey et a) then b else a

/-- The conditions of vcmp (R256, R344). -/
def etCond (et c a b : Nat) : Bool :=
  let w := etWidth et
  if etI et then
    match c with
    | 0 => a = b
    | 1 => a ≠ b
    | 2 => signedOf w a < signedOf w b
    | 3 => signedOf w b ≤ signedOf w a
    | 4 => a < b
    | _ => b ≤ a
  else
    let x := etNum et a
    let y := etNum et b
    let un := x.isNan || y.isNan
    match c with
    | 0 => ¬ un && x.le y && y.le x
    | 1 => un || ¬ (x.le y && y.le x)
    | 2 => ¬ un && ¬ y.le x
    | 3 => ¬ un && y.le x
    | 4 => un
    | _ => ¬ un

/-- One element of vcvt before the rounding of an F result (R344): integers saturate. -/
def cvtInt (src dst : Nat) (x : Nat) : Nat :=
  let w := etWidth dst
  wrapTo w ((etNum src x).toInt .rne 0 (-(2 ^ (w - 1))) (2 ^ (w - 1) - 1))

/-! ### Instructions on registers -/

/-- n of a vector instruction. -/
def QEntry.len (e : QEntry) : Nat := shapeLen e.vshape (etCap (etOf e.vshape))
def QEntry.et (e : QEntry) : Nat := etOf e.vshape
def QEntry.ew (e : QEntry) : Nat := etWidth e.et

/-- The first n elements of a register. -/
def QEntry.read (e : QEntry) (x : Eng) (r : BitVec 4) : List Nat := elems e.ew e.len (x.vec r)

/-- Write elements 0 to n − 1 of a destination. -/
def QEntry.put (e : QEntry) (x : Eng) (vd : BitVec 4) (l : List Nat) : Eng := x.setVec vd (setElems e.ew (x.vec vd) l)

/-- Round a list of exact values into a destination. -/
def QEntry.putRound (e : QEntry) (x : Eng) (rm : Rm) (vd : BitVec 4) (l : List Num) : Eng :=
  let (vs, gen) := roundAll rm (fun sr v => etRound e.et rm sr v) x.gen l
  e.put { x with gen := gen } vd vs

/-- vadd, vsub, vmul (R343): exact and rounded once for F, modulo 2^w for I. -/
def QEntry.arith (e : QEntry) (x : Eng) (rm : Rm) (vd va vb : BitVec 4) (f : Num → Num → Num) (k : Int → Int → Int) : Eng :=
  let l := (e.read x va).zip (e.read x vb)
  if etI e.et then e.put x vd (l.map fun (p : Nat × Nat) => wrapTo e.ew (k (signedOf e.ew p.1) (signedOf e.ew p.2)))
  else e.putRound x rm vd (l.map fun (p : Nat × Nat) => f (etNum e.et p.1) (etNum e.et p.2))

/-- vfma (R343). -/
def QEntry.fma (e : QEntry) (x : Eng) (rm : Rm) (vd va vb : BitVec 4) : Eng :=
  let l := ((e.read x va).zip (e.read x vb)).zip (e.read x vd)
  e.putRound x rm vd (l.map fun (p : (Nat × Nat) × Nat) =>
    ((etNum e.et p.1.1).mul (etNum e.et p.1.2)).add rm (etNum e.et p.2))

/-- An instruction of two registers, element by element. -/
def QEntry.map2 (e : QEntry) (x : Eng) (vd va vb : BitVec 4) (f : Nat → Nat → Nat) : Eng :=
  e.put x vd (((e.read x va).zip (e.read x vb)).map fun (p : Nat × Nat) => f p.1 p.2)

/-- An instruction of one register, element by element. -/
def QEntry.map1 (e : QEntry) (x : Eng) (vd va : BitVec 4) (f : Nat → Nat) : Eng := e.put x vd ((e.read x va).map f)

/-- vcvt (R344). -/
def QEntry.cvt (e : QEntry) (x : Eng) (rm : Rm) (vd va : BitVec 4) : Eng :=
  let src := fld e.rs 0 3
  let n := shapeLen e.vshape (min (etCap e.et) (etCap src))
  let l := elems (etWidth src) n (x.vec va)
  if etI e.et then e.put x vd (l.map (cvtInt src e.et)) else e.putRound x rm vd (l.map (etNum src))

/-- vsum (R345): the exact sum, rounded once. -/
def QEntry.sum (e : QEntry) (x : Eng) (rm : Rm) (vd va : BitVec 4) : Eng :=
  let l := e.read x va
  let zeros := List.replicate (e.len - 1) 0
  if etI e.et then e.put x vd (wrapTo e.ew (l.foldl (fun a v => a + signedOf e.ew v) 0) :: zeros)
  else
    let gen := stepGen rm x.gen
    let total := match l.map (etNum e.et) with
      | [] => Num.fin false 0 0
      | a :: as => as.foldl (Num.add rm) a
    e.put { x with gen := gen } vd (etRound e.et rm gen.toNat total :: zeros)

/-- vrmax (R345). -/
def QEntry.rmax (e : QEntry) (x : Eng) (vd va : BitVec 4) : Eng :=
  match e.read x va with
  | [] => x
  | a :: as => e.put x vd (as.foldl (etPick e.et true) (etPick e.et true a a) :: List.replicate (e.len - 1) 0)

/-- vshuf (R345). -/
def QEntry.shuf (e : QEntry) (x : Eng) (vd va vb : BitVec 4) : Eng :=
  let l := e.read x va
  e.put x vd ((e.read x vb).map fun i => l.getD (i % e.len) 0)

/-- vpack (R345). -/
def QEntry.pack (e : QEntry) (x : Eng) (rm : Rm) (vd va vb : BitVec 4) : Eng :=
  let n := shapeLen e.vshape 512
  let l := (elems 32 256 (x.vec va) ++ elems 32 256 (x.vec vb)).take n
  e.putRound x rm vd (l.map fun v => IFmt.f32.decode v)

/-- vunpack (R345): FP32 elements, exact. -/
def QEntry.unpack (e : QEntry) (x : Eng) (vd va : BitVec 4) : Eng :=
  let n := shapeLen e.vshape 512
  let h := fld e.rs 0 1
  let l := (elems 16 512 (x.vec va)).drop (256 * h) |>.take (min 256 (n - 256 * h))
  x.setVec vd (setElems 32 (x.vec vd) (l.map fun v => etRound 0 .rne 0 (etNum e.et v)))

/-- The shift of an I element by a count (R343). -/
def shiftLeft (w s v : Nat) : Nat := if w ≤ s then 0 else v * 2 ^ s % 2 ^ w
def shiftRight (w s v : Nat) : Nat := wrapTo w (signedOf w v / 2 ^ min s w)

/-- What a vector instruction of OP 0x30 or 0x31 does to its context (R343–R345); vld and vst are in the memory file. -/
def vectorRun (e : QEntry) (x : Eng) : Eng :=
  let w := e.ew
  let et := e.et
  match e.instr with
  | .vadd rm vd va vb => e.arith x rm vd va vb (Num.add rm) (· + ·)
  | .vsub rm vd va vb => e.arith x rm vd va vb (fun a b => a.add rm b.neg) (· - ·)
  | .vmul rm vd va vb => e.arith x rm vd va vb Num.mul (· * ·)
  | .vfma rm vd va vb => e.fma x rm vd va vb
  | .vmin vd va vb => e.map2 x vd va vb (etPick et false)
  | .vmax vd va vb => e.map2 x vd va vb (etPick et true)
  | .vabs vd va => e.map1 x vd va fun v =>
      if etI et then wrapTo w (signedOf w v).natAbs
      else if etIsNan et v then (etFmt et).encode .nan else v % 2 ^ (w - 1)
  | .vneg vd va => e.map1 x vd va fun v =>
      if etI et then wrapTo w (-(signedOf w v))
      else if etIsNan et v then (etFmt et).encode .nan else v ^^^ 2 ^ (w - 1)
  | .vand vd va vb => e.map2 x vd va vb (· &&& ·)
  | .vor vd va vb => e.map2 x vd va vb (· ||| ·)
  | .vxor vd va vb => e.map2 x vd va vb (· ^^^ ·)
  | .vshl vd va _ => e.map1 x vd va (shiftLeft w e.rs.toNat)
  | .vshr vd va _ => e.map1 x vd va (shiftRight w e.rs.toNat)
  | .vcvt rm vd va _ => e.cvt x rm vd va
  | .vcmp vd va vb _ => e.map2 x vd va vb fun a b => if etCond et (fld e.rs 0 3) a b then 2 ^ w - 1 else 0
  | .vsel vd va vb =>
      e.put x vd (((e.read x vd).zip ((e.read x va).zip (e.read x vb))).map fun (p : Nat × Nat × Nat) =>
        if p.1 ≠ 0 then p.2.1 else p.2.2)
  | .vbcast vd _ => e.put x vd (List.replicate e.len (fld e.rs 0 w))
  | .vsum rm vd va => e.sum x rm vd va
  | .vrmax vd va => e.rmax x vd va
  | .vshuf vd va vb => e.shuf x vd va vb
  | .vpack rm vd va vb => e.pack x rm vd va vb
  | .vunpack vd va _ => e.unpack x vd va
  | .viota vd _ => e.put x vd ((List.range e.len).map fun k => (e.rs.toNat + k) % 2 ^ w)
  | .vmov vd va => x.setVec vd (x.vec va)
  | _ => x

/-! ### Issue -/

/-- vadd.rm vd, va, vb (R343). -/
def execVadd (rm : Rm) (vd va vb : BitVec 4) (s : State) : Host.Outcome State Fault Refusal :=
  .next (s.engine0 (.vadd rm vd va vb) 1)
/-- vsub.rm (R343). -/
def execVsub (rm : Rm) (vd va vb : BitVec 4) (s : State) : Host.Outcome State Fault Refusal :=
  .next (s.engine0 (.vsub rm vd va vb) 1)
/-- vmul.rm (R343). -/
def execVmul (rm : Rm) (vd va vb : BitVec 4) (s : State) : Host.Outcome State Fault Refusal :=
  .next (s.engine0 (.vmul rm vd va vb) 1)
/-- vfma.rm (R343). -/
def execVfma (rm : Rm) (vd va vb : BitVec 4) (s : State) : Host.Outcome State Fault Refusal :=
  .next (s.engine0 (.vfma rm vd va vb) 1)
/-- vmin (R343). -/
def execVmin (vd va vb : BitVec 4) (s : State) : Host.Outcome State Fault Refusal := .next (s.engine0 (.vmin vd va vb) 1)
/-- vmax (R343). -/
def execVmax (vd va vb : BitVec 4) (s : State) : Host.Outcome State Fault Refusal := .next (s.engine0 (.vmax vd va vb) 1)
/-- vabs (R343). -/
def execVabs (vd va : BitVec 4) (s : State) : Host.Outcome State Fault Refusal := .next (s.engine0 (.vabs vd va) 1)
/-- vneg (R343). -/
def execVneg (vd va : BitVec 4) (s : State) : Host.Outcome State Fault Refusal := .next (s.engine0 (.vneg vd va) 1)
/-- vand (R343). -/
def execVand (vd va vb : BitVec 4) (s : State) : Host.Outcome State Fault Refusal := .next (s.engine0 (.vand vd va vb) 1)
/-- vor (R343). -/
def execVor (vd va vb : BitVec 4) (s : State) : Host.Outcome State Fault Refusal := .next (s.engine0 (.vor vd va vb) 1)
/-- vxor (R343). -/
def execVxor (vd va vb : BitVec 4) (s : State) : Host.Outcome State Fault Refusal := .next (s.engine0 (.vxor vd va vb) 1)
/-- vshl (R343). -/
def execVshl (vd va : BitVec 4) (rs : BitVec 6) (s : State) : Host.Outcome State Fault Refusal :=
  .next (s.engineRs (.vshl vd va rs) 1 rs)
/-- vshr (R343). -/
def execVshr (vd va : BitVec 4) (rs : BitVec 6) (s : State) : Host.Outcome State Fault Refusal :=
  .next (s.engineRs (.vshr vd va rs) 1 rs)
/-- vcvt.rm (R343, R344). -/
def execVcvt (rm : Rm) (vd va : BitVec 4) (rs : BitVec 6) (s : State) : Host.Outcome State Fault Refusal :=
  .next (s.engineRs (.vcvt rm vd va rs) 1 rs)
/-- vcmp (R343, R344). -/
def execVcmp (vd va vb : BitVec 4) (rs : BitVec 6) (s : State) : Host.Outcome State Fault Refusal :=
  .next (s.engineRs (.vcmp vd va vb rs) 1 rs)
/-- vsel (R343). -/
def execVsel (vd va vb : BitVec 4) (s : State) : Host.Outcome State Fault Refusal := .next (s.engine0 (.vsel vd va vb) 1)
/-- vbcast (R345). -/
def execVbcast (vd : BitVec 4) (rs : BitVec 6) (s : State) : Host.Outcome State Fault Refusal :=
  .next (s.engineRs (.vbcast vd rs) 1 rs)
/-- vld (R345). -/
def execVld (vd : BitVec 4) (rs : BitVec 6) (s : State) : Host.Outcome State Fault Refusal :=
  .next (s.engineRs (.vld vd rs) 1 rs)
/-- vst (R345). -/
def execVst (va : BitVec 4) (rs : BitVec 6) (s : State) : Host.Outcome State Fault Refusal :=
  .next (s.engineRs (.vst va rs) 1 rs)
/-- vsum.rm (R345). -/
def execVsum (rm : Rm) (vd va : BitVec 4) (s : State) : Host.Outcome State Fault Refusal :=
  .next (s.engine0 (.vsum rm vd va) 1)
/-- vrmax (R345). -/
def execVrmax (vd va : BitVec 4) (s : State) : Host.Outcome State Fault Refusal := .next (s.engine0 (.vrmax vd va) 1)
/-- vshuf (R345). -/
def execVshuf (vd va vb : BitVec 4) (s : State) : Host.Outcome State Fault Refusal := .next (s.engine0 (.vshuf vd va vb) 1)
/-- vpack.rm (R345). -/
def execVpack (rm : Rm) (vd va vb : BitVec 4) (s : State) : Host.Outcome State Fault Refusal :=
  .next (s.engine0 (.vpack rm vd va vb) 1)
/-- vunpack (R345). -/
def execVunpack (vd va : BitVec 4) (rs : BitVec 6) (s : State) : Host.Outcome State Fault Refusal :=
  .next (s.engineRs (.vunpack vd va rs) 1 rs)
/-- viota (R345). -/
def execViota (vd : BitVec 4) (rs : BitVec 6) (s : State) : Host.Outcome State Fault Refusal :=
  .next (s.engineRs (.viota vd rs) 1 rs)
/-- vmov (R345). -/
def execVmov (vd va : BitVec 4) (s : State) : Host.Outcome State Fault Refusal := .next (s.engine0 (.vmov vd va) 1)

end Sys2Proof.Machine
end

