-- ==== Sys2Proof/Machine/Phasor.lean ====
section
/-! DEFINITION. The phasor instructions (R348, R349) and the quantise instructions (R350–R352). -/

namespace Sys2Proof.Machine

/-! ### Phasor instructions -/

/-- An element's angle under ET PH16 or PH8 (R200). -/
def phAngle (et x : Nat) : Option Nat := if et = 5 then ph16Angle x else ph8Angle x

/-- The product of two phasors (R201). -/
def phProduct (et a b : Nat) : Nat :=
  if et = 5 then ph16Mul a b
  else match ph8Angle a, ph8Angle b with
    | some x, some y => (x + y) % 2 ^ 7
    | _, _ => ph8Undef

/-- The table index of a defined element (R202). -/
def phIndex (et a : Nat) : Nat := if et = 5 then ph16Index a else ph8Index a

/-- Table indices of the defined elements of a list. -/
def phIndices (et : Nat) (l : List Nat) : List Nat := l.filterMap fun x => (phAngle et x).map (phIndex et)

/-- ph.cvt (R201, R348). -/
def QEntry.phCvt (e : QEntry) (x : Eng) (k : Cvk) (vd va : BitVec 4) : Eng :=
  let n := shapeLen e.vshape (phCvtLimit k)
  match k with
  | .fp => x.setVec vd (setElems 16 (x.vec vd) ((elems 32 n (x.vec va)).map fun v => phFromRad (BitVec.ofNat 32 v)))
  | .pf => x.setVec vd (setElems 32 (x.vec vd) ((elems 16 n (x.vec va)).map fun v => (phToRad v).toNat))
  | .wide => x.setVec vd (setElems 16 (x.vec vd) ((elems 8 n (x.vec va)).map phWide))
  | .narrow => x.setVec vd (setElems 8 (x.vec vd) ((elems 16 n (x.vec va)).map phNarrow))

/-- The reduction of a ph.red whose sums so far are `x0`, `y0` over `m` elements: the four words, or the overflow
(R349). -/
def phRedWords (x0 y0 : Int) (m : Nat) (idx : List Nat) (old : List Nat) : List Nat :=
  let x := idx.foldl (fun a j => a + phC j) x0
  let y := idx.foldl (fun a j => a + phS j) y0
  let n := m + idx.length
  if 131071 < n then [0x8000, old.getD 1 0, old.getD 2 0, old.getD 3 0 % 2 ^ 31 + 2 ^ 31]
  else [phCoh x y n * 2 ^ 16 + (if x = 0 ∧ y = 0 then ph16Undef else phAtan2 y x), wrapTo 32 x, wrapTo 32 y, n]

/-- ph.red (R349). -/
def QEntry.phRed (e : QEntry) (x : Eng) (vd va : BitVec 4) : Eng :=
  let idx := phIndices e.et (e.read x va)
  let old := elems 32 4 (x.vec vd)
  let put (l : List Nat) : Eng := x.setVec vd (setElems 32 (x.vec vd) l)
  if bit e.rs 0 then
    if old.getD 3 0 / 2 ^ 31 = 1 then put [0x8000]
    else put (phRedWords (signedOf 32 (old.getD 1 0)) (signedOf 32 (old.getD 2 0)) (old.getD 3 0 % 2 ^ 31) idx old)
  else put (phRedWords 0 0 0 idx old)

/-- ph.cos and ph.sin: 16-bit elements whatever ET is (R348). -/
def QEntry.phTable (e : QEntry) (x : Eng) (vd va : BitVec 4) (f : Nat → Int) : Eng :=
  let n := shapeLen e.vshape 512
  x.setVec vd (setElems 16 (x.vec vd) ((elems e.ew n (x.vec va)).map fun v =>
    match phAngle e.et v with
    | some a => wrapTo 16 (f (phIndex e.et a))
    | none => 0))

/-- What a phasor instruction does to its context (R348). -/
def phasorRun (e : QEntry) (x : Eng) : Eng :=
  match e.instr with
  | .phCvt k vd va => e.phCvt x k vd va
  | .phMul vd va vb => e.map2 x vd va vb (phProduct e.et)
  | .phRed vd va _ => e.phRed x vd va
  | .phCmp vd va vb => e.map2 x vd va vb fun a b =>
      phCmp (if e.et = 5 then 15 else 7) (phAngle e.et a) (phAngle e.et b)
  | .phCos vd va => e.phTable x vd va phC
  | .phSin vd va => e.phTable x vd va phS
  | _ => x

/-! ### Quantise instructions -/

/-- The exponent of a magnitude: floor(log2(m × 2^e)). -/
def floorLog2 (m : Nat) (e : Int) : Int := e + (bitLen m : Int) - 1

/-- m1 × 2^e1 ≤ m2 × 2^e2. -/
def magLe (m1 : Nat) (e1 : Int) (m2 : Nat) (e2 : Int) : Bool :=
  let d := min e1 e2
  m1 * pow2 (e1 - d) ≤ m2 * pow2 (e2 - d)

/-- The MAX exponent of a block of finite values (R197). -/
def maxExponent (f : NFmt) (l : List Num) : Int :=
  let amax : Nat × Int := l.foldl (fun (a : Nat × Int) v => match v with
    | .fin _ m e => if magLe m e a.1 a.2 then a else (m, e)
    | .nan | .inf _ => a) (0, 0)
  if amax.1 = 0 then -127
  else
    let (xm, xe) := f.fmax
    let e0 := floorLog2 amax.1 amax.2 - floorLog2 xm xe
    if magLe amax.1 amax.2 xm (xe + e0) then e0 else e0 + 1

/-- A block scale exponent clamped to its code's range (R197). -/
def clampScale (e : Int) : Int := max (-127) (min 127 e)

/-- A block encoded from its scale exponent: the scale code and the element codes (R197); a NaN block has scale 0xFF and
codes 0. -/
def encodeBlock (f : NFmt) (rm : Rm) (exp : Int) (gen : BitVec 32) (l : List Num) : Nat × List Nat × BitVec 32 :=
  let (codes, g1) := roundAll rm (fun sr v => f.encode rm sr (v.scale (-exp))) gen l
  if l.any fun v => match v with
    | .fin _ _ _ => false
    | .nan | .inf _ => true
  then (255, codes.map fun _ => 0, g1) else ((exp + 127).toNat, codes, g1)

/-- Consecutive blocks of 32, the last one shorter. -/
def blocksOf {α : Type} : Nat → List α → List (List α)
  | 0, _ => []
  | _ + 1, [] => []
  | n + 1, l => l.take 32 :: blocksOf n (l.drop 32)

/-- The parameter word's record number (R350). -/
def QEntry.kOf (e : QEntry) : Nat := fld e.rs 20 2

/-- The bin of an FP32 element in a histogram (R197). -/
def histBin (base : Int) (v : Num) : Option Nat :=
  match v with
  | .nan => none
  | .inf _ => some 63
  | .fin _ m e => if m = 0 then none else some (max 0 (min 63 (floorLog2 m e - base))).toNat

/-- BASE of a parameter word. -/
def QEntry.base (e : QEntry) : Int := signedOf 8 (fld e.rs 0 8)

/-- qhist (R351). -/
def QEntry.qhist (e : QEntry) (x : Eng) (vd va : BitVec 4) : Eng :=
  let bins := (e.read x va).filterMap fun v => histBin e.base (IFmt.f32.decode v)
  let h := bins.foldl (fun (h : List Nat) b => h.modify b fun c => min (c + 1) (2 ^ 32 - 1)) (elems 32 64 (x.vec vd))
  x.setVec vd (setElems 32 (x.vec vd) h)

/-- The first bin whose running count reaches a bound. -/
def reachBin (bound : Nat) : Nat → Nat → List Nat → Nat
  | b, _, [] => b
  | b, run, c :: cs => if bound ≤ run + c then b else reachBin bound (b + 1) (run + c) cs

/-- The clip exponent of a histogram (R197). -/
def clipExponent (f : NFmt) (base : Int) (p : Nat) (h : List Nat) : Int :=
  let n := h.sum
  if n = 0 then -127
  else
    let b := reachBin (((p + 1) * n + 255) / 256) 0 0 h
    base + b + 1 - floorLog2 f.fmax.1 f.fmax.2

/-- qclip (R351). -/
def QEntry.qclip (e : QEntry) (x : Eng) (vd va : BitVec 4) : Except TrapRec Eng :=
  match NFmt.ofRecord (e.fmt e.kOf) with
  | none => .error (e.formatFault e.kOf)
  | some f => .ok (x.setVec vd (BitVec.ofNat 8192 (wrapTo 32 (clipExponent f e.base (fld e.rs 8 8) (elems 32 64 (x.vec va))))))

/-- qnt (R352). -/
def QEntry.qnt (e : QEntry) (x : Eng) (rm : Rm) (vd va vb : BitVec 4) : Except TrapRec Eng :=
  match NFmt.ofRecord (e.fmt e.kOf) with
  | none => .error (e.formatFault e.kOf)
  | some f =>
    let clip := signedOf 32 (fld (x.vec vb) 0 32) + signedOf 4 (fld e.rs 16 4)
    let bs := blocksOf 8 ((e.read x va).map fun v => IFmt.f32.decode v)
    let r := bs.foldl (fun (a : List Nat × List Nat × BitVec 32) b =>
      let (sc, codes, gen) := encodeBlock f rm (clampScale (min (maxExponent f b) clip)) a.2.2 b
      (a.1 ++ [sc], a.2.1 ++ codes, gen)) ([], [], x.gen)
    .ok ({ x with gen := r.2.2 }.setVec vd (BitVec.ofNat 8192 (packN f.container r.2.1 + packN 8 r.1 * 2 ^ (8 * 512))))

/-- dq of one element: none for a reserved code (R192, R196). -/
def dqElem (f : NFmt) (code scale : Nat) : Option Nat :=
  match f.decode code with
  | .reserved => none
  | .val v => some (etRound 0 .rne 0 (match scaleExp scale with
    | none => .nan
    | some k => v.scale k))

/-- dq (R352). A reserved code faults also in a NaN block (R194). -/
def QEntry.dq (e : QEntry) (x : Eng) (vd va : BitVec 4) : Except TrapRec Eng :=
  match NFmt.ofRecord (e.fmt e.kOf) with
  | none => .error (e.formatFault e.kOf)
  | some f =>
    let src := x.vec va
    let l := (List.range e.len).map fun k => dqElem f (f.element src k) (fld src (8 * (512 + k / 32)) 8)
    match l.findIdx? fun (o : Option Nat) => o.isNone with
    | some k => .error (e.reservedFault e.kOf k)
    | none => .ok (e.put x vd (l.map fun o => o.getD 0))

/-- What a quantise instruction does to its context, or its fault (R350–R352). -/
def quantRun (e : QEntry) (x : Eng) : Except TrapRec Eng :=
  match e.instr with
  | .qhist vd va _ => .ok (e.qhist x vd va)
  | .qclip vd va _ => e.qclip x vd va
  | .qnt rm vd va vb _ => e.qnt x rm vd va vb
  | .dq vd va _ => e.dq x vd va
  | _ => .ok x

/-! ### Issue -/

/-- ph.cvt.cvk vd, va (R348). -/
def execPhCvt (k : Cvk) (vd va : BitVec 4) (s : State) : Host.Outcome State Fault Refusal :=
  .next (s.engine0 (.phCvt k vd va) 1)
/-- ph.mul (R348). -/
def execPhMul (vd va vb : BitVec 4) (s : State) : Host.Outcome State Fault Refusal := .next (s.engine0 (.phMul vd va vb) 1)
/-- ph.red (R349). -/
def execPhRed (vd va : BitVec 4) (rs : BitVec 6) (s : State) : Host.Outcome State Fault Refusal :=
  .next (s.engineRs (.phRed vd va rs) 1 rs)
/-- ph.cmp (R348). -/
def execPhCmp (vd va vb : BitVec 4) (s : State) : Host.Outcome State Fault Refusal := .next (s.engine0 (.phCmp vd va vb) 1)
/-- ph.cos (R348). -/
def execPhCos (vd va : BitVec 4) (s : State) : Host.Outcome State Fault Refusal := .next (s.engine0 (.phCos vd va) 1)
/-- ph.sin (R348). -/
def execPhSin (vd va : BitVec 4) (s : State) : Host.Outcome State Fault Refusal := .next (s.engine0 (.phSin vd va) 1)
/-- qhist (R351). -/
def execQhist (vd va : BitVec 4) (rs : BitVec 6) (s : State) : Host.Outcome State Fault Refusal :=
  .next (s.engineRs (.qhist vd va rs) 1 rs)
/-- qclip (R351). -/
def execQclip (vd va : BitVec 4) (rs : BitVec 6) (s : State) : Host.Outcome State Fault Refusal :=
  .next (s.engineRs (.qclip vd va rs) 1 rs)
/-- qnt.rm (R352). -/
def execQnt (rm : Rm) (vd va vb : BitVec 4) (rs : BitVec 6) (s : State) : Host.Outcome State Fault Refusal :=
  .next (s.engineRs (.qnt rm vd va vb rs) 1 rs)
/-- dq (R352). -/
def execDq (vd va : BitVec 4) (rs : BitVec 6) (s : State) : Host.Outcome State Fault Refusal :=
  .next (s.engineRs (.dq vd va rs) 1 rs)

end Sys2Proof.Machine
end

