-- ==== Sys2Proof/Machine/Matrix.lean ====
section
/-! DEFINITION. The matrix unit's instructions (R336–R342), the memory instructions of both units, the end or fault of
an engine instruction (R209, R332), matrix steps (R88) and engine spills (R131, R211). -/

namespace Sys2Proof.Machine

/-! ### Products (R198, R340, R341) -/

/-- Rows × columns of a tile as rows of codes of a width (R195, R336). -/
def tileCodes {m : Nat} (d : Tdesc) (x : BitVec m) : List (List Nat) :=
  (List.range d.rows).map fun r => (List.range d.cols).map fun c => fld x ((r * d.cols + c) * d.width) d.width

/-- An operand element: its value, or none for a reserved code. `f` is the record of a narrow operand. -/
def mmaElem (ty : MmaTy) (f : Option NFmt) (code : Nat) : Option Num :=
  match ty, f with
  | .i8, _ => some (Num.ofInt (signedOf 8 code))
  | .f16, _ => some (IFmt.f16.decode code)
  | .bf16, _ => some (IFmt.bf16.decode code)
  | .nf, some f => match f.decode code with
    | .val v => some v
    | .reserved => none
  | .nf, none => some .nan

/-- The exact sum of a group's products, +0 when it is zero (R198). -/
def groupSum (a b : List Num) : Num :=
  let p := ((a.zip b).map fun (x : Num × Num) => x.1.mul x.2).foldl (Num.add .rne) (.fin false 0 0)
  if p.isZero then .fin false 0 0 else p

/-- A group sum under its scale codes; code 0xFF makes it NaN (R196, R340). -/
def scaledSum (p : Num) (sa sb : Nat) : Num :=
  match scaleExp sa, scaleExp sb with
  | some i, some j => p.scale (i + j)
  | _, _ => .nan

/-- One element of a product, over its groups in ascending k (R198). -/
def productElem (acc : BitVec 32) (a b : List Num) (sa sb : Nat → Nat) : BitVec 32 :=
  let gs := ((blocksOf 512 a).zip (blocksOf 512 b)).zipIdx
  gs.foldl (fun (x : BitVec 32) (e : (List Num × List Num) × Nat) =>
    f32Add x (f32Of .rne 0 (scaledSum (groupSum e.1.1 e.1.2) (sa e.2) (sb e.2)))) acc

/-- Element (i, j) of an accumulator (R131). -/
def accElem (a : BitVec 32768) (i j : Nat) : Nat := fld a ((i * 32 + j) * 32) 32

/-- An accumulator with the elements i < m, j < n replaced. -/
def setAccElems (a : BitVec 32768) (m n : Nat) (f : Nat → Nat → Nat) : BitVec 32768 :=
  BitVec.ofNat 32768 (packN 32 ((List.range 1024).map fun k =>
    if k / 32 < m ∧ k % 32 < n then f (k / 32) (k % 32) else fld a (k * 32) 32))

/-- The width code that an operand of mma needs (R340). -/
def mmaEw (ty : MmaTy) (f : Option NFmt) : Nat :=
  match ty with
  | .i8 => 1
  | .f16 | .bf16 => 2
  | .nf => match f with
    | some x => if x.container = 4 then 0 else 1
    | none => 0

/-- The first reserved code met in the order of Mma: (record, element index) (R340). -/
def firstReserved (da db : Tdesc) (a b : List (List (Option Num))) : Option (Bool × Nat) :=
  (a.zipIdx).findSome? fun (ra : List (Option Num) × Nat) => (b.zipIdx).findSome? fun (rb : List (Option Num) × Nat) =>
    ((ra.1.zip rb.1).zipIdx).findSome? fun (e : (Option Num × Option Num) × Nat) =>
      if e.1.1.isNone then some (false, ra.2 * da.cols + e.2)
      else if e.1.2.isNone then some (true, rb.2 * db.cols + e.2) else none

/-- The operands of an mma: their tdescs, and the record of each narrow one, none where it is ill-formed (R340). -/
structure MmaArgs where
  da : Tdesc
  db : Tdesc
  fa : Option NFmt
  fb : Option NFmt
  deriving DecidableEq, Repr

def mmaArgs (e : QEntry) (x : Eng) (ty : MmaTy) (ka kb : BitVec 2) (ta tb : BitVec 3) : MmaArgs where
  da := Tdesc.of (x.tdesc ta)
  db := Tdesc.of (x.tdesc tb)
  fa := if ty = .nf then NFmt.ofRecord (e.fmt ka.toNat) else none
  fb := if ty = .nf then NFmt.ofRecord (e.fmt kb.toNat) else none

/-- The format and shape faults of an mma (R332, R340). -/
def mmaRefused (e : QEntry) (x : Eng) (ty : MmaTy) (ka kb : BitVec 2) (ta tb : BitVec 3) : Option TrapRec :=
  let a := mmaArgs e x ty ka kb ta tb
  if ty = .nf ∧ a.fa.isNone then some (e.formatFault ka.toNat)
  else if ty = .nf ∧ a.fb.isNone then some (e.formatFault kb.toNat)
  else if ¬ (tdescOk (x.tdesc ta) && tdescOk (x.tdesc tb)) then some e.shapeFault
  else if a.da.cols ≠ a.db.cols ∨ a.da.ew ≠ mmaEw ty a.fa ∨ a.db.ew ≠ mmaEw ty a.fb then some e.shapeFault
  else none

/-- Groups of 32 along k. -/
def Tdesc.groups (d : Tdesc) : Nat := (d.cols + 31) / 32

/-- mma with its scale codes, A's rows first (R340). -/
def mmaRun (e : QEntry) (x : Eng) (ty : MmaTy) (ka kb ad : BitVec 2) (ta tb : BitVec 3) (scales : List Nat) :
    Except TrapRec Eng :=
  let p := mmaArgs e x ty ka kb ta tb
  let a := (tileCodes p.da (x.tile ta)).map fun r => r.map fun c => mmaElem ty p.fa c
  let b := (tileCodes p.db (x.tile tb)).map fun r => r.map fun c => mmaElem ty p.fb c
  match firstReserved p.da p.db a b with
  | some (second, k) => .error (e.reservedFault (if second then kb else ka).toNat k)
  | none =>
    let av := a.map fun r => r.map fun o => o.getD .nan
    let bv := b.map fun r => r.map fun o => o.getD .nan
    let g := p.da.groups
    let old := x.acc ad
    .ok (x.setAcc ad (setAccElems old p.da.rows p.db.rows fun i j =>
      (productElem (BitVec.ofNat 32 (accElem old i j)) (av.getD i []) (bv.getD j [])
        (fun k => scales.getD (i * g + k) 127) (fun k => scales.getD ((p.da.rows + j) * g + k) 127)).toNat))

/-- pmm (R341). -/
def pmmRun (e : QEntry) (x : Eng) (ty : PmmTy) (ad : BitVec 2) (ta tb : BitVec 3) : Except TrapRec Eng :=
  let da := Tdesc.of (x.tdesc ta)
  let db := Tdesc.of (x.tdesc tb)
  let et := if ty = .ph16 then 5 else 6
  let ew := if ty = .ph16 then 2 else 1
  if ¬ (tdescOk (x.tdesc ta) && tdescOk (x.tdesc tb)) ∨ da.cols ≠ db.cols ∨ da.ew ≠ ew ∨ db.ew ≠ ew then .error e.shapeFault
  else
    let a := tileCodes da (x.tile ta)
    let b := tileCodes db (x.tile tb)
    .ok (x.setAcc ad (setAccElems (x.acc ad) da.rows db.rows fun i j =>
      let (angle, coh) := phRed (phIndices et (((a.getD i []).zip (b.getD j [])).map fun (q : Nat × Nat) => phProduct et q.1 q.2))
      coh * 2 ^ 16 + angle))

/-! ### acc.cvt (R339) -/

/-- The rows of an accumulator. -/
def accRow (a : BitVec 32768) (i : Nat) : List Nat := (List.range 32).map fun j => accElem a i j

/-- acc.cvt: the tile, and the 32 scale codes of the narrow form. -/
def accCvtRun (e : QEntry) (x : Eng) (ty : CvtTy) (ka ad : BitVec 2) (t : BitVec 3) : Except TrapRec (Eng × List Nat) :=
  let d := Tdesc.of (x.tdesc t)
  let shape (ew : Nat) : Bool := tdescOk (x.tdesc t) && d.rows = 32 && d.cols = 32 && d.ew = ew
  let plain (f : IFmt) : Except TrapRec (Eng × List Nat) :=
    if ¬ shape 2 then .error e.shapeFault
    else .ok (x.setTile t (setElems 16 (x.tile t) (((List.range 32).map fun i => (accRow (x.acc ad) i).map fun v =>
      f.encode (f.round .rne 0 (IFmt.f32.decode v))).flatten)), [])
  match ty with
  | .f16 => plain .f16
  | .bf16 => plain .bf16
  | .nf => match NFmt.ofRecord (e.fmt ka.toNat) with
    | none => .error (e.formatFault ka.toNat)
    | some f =>
      if ¬ shape (if f.container = 4 then 0 else 1) then .error e.shapeFault
      else
        let rows := (List.range 32).map fun i =>
          let vs := (accRow (x.acc ad) i).map fun v => IFmt.f32.decode v
          let (sc, codes, _) := encodeBlock f .rne (clampScale (maxExponent f vs)) 0 vs
          (sc, codes)
        .ok (x.setTile t (setElems f.container (x.tile t) (rows.map fun (r : Nat × List Nat) => r.2).flatten),
          rows.map fun (r : Nat × List Nat) => r.1)

/-! ### Memory instructions (R338, R345) -/

/-- Bytes of an element access of a tile. -/
def Tdesc.unit (d : Tdesc) : Nat := if d.ew ≤ 1 then 1 else d.width / 8

/-- The addresses of a tile's accesses from `a`, row by row. -/
def Tdesc.addrs (d : Tdesc) (a : Word) : List Word :=
  ((List.range d.rows).map fun r => (List.range (d.rowBytes / d.unit)).map fun c =>
    a + word (r * d.step + c * d.unit)).flatten

/-- Consecutive elements from an address. -/
def runFrom (a : Word) (n count : Nat) : List Word := (List.range count).map fun k => a + word (k * n)

/-- The outcome of one engine instruction: the state after its memory accesses, and what it ends with or its fault. -/
abbrev EngOut := State × Except TrapRec EngRes

def endWith (s : State) (x : Eng) : EngOut := (s, .ok ⟨x, none⟩)

/-- Read elements and make a new context of them. -/
def State.engineLoad (s : State) (e : QEntry) (n : Nat) (l : List Word) (f : List Nat → Eng) : EngOut :=
  match s.engineReadAll e n l with
  | (s1, .error t) => (s1, .error t)
  | (s1, .ok vs) => endWith s1 (f vs)

/-- Write elements; the context then becomes `x`. -/
def State.engineStore (s : State) (e : QEntry) (n : Nat) (l : List (Word × Nat)) (x : Eng) : EngOut :=
  match s.engineWriteAll e n l with
  | (s1, some t) => (s1, .error t)
  | (s1, none) => endWith s1 x

/-- A computed result. -/
def ofExcept (s : State) (r : Except TrapRec Eng) : EngOut := (s, r.map fun x => ⟨x, none⟩)

/-- mma, whose scale codes are read before the first product (R340). -/
def State.mmaDo (s : State) (e : QEntry) (x : Eng) (ty : MmaTy) (ka kb ad : BitVec 2) (ta tb : BitVec 3) (rs : BitVec 6) :
    EngOut :=
  match mmaRefused e x ty ka kb ta tb with
  | some t => (s, .error t)
  | none =>
    if ty = .nf ∧ rs ≠ 0 then
      let p := mmaArgs e x ty ka kb ta tb
      match s.engineReadAll e 1 (runFrom e.rs 1 ((p.da.rows + p.db.rows) * p.da.groups)) with
      | (s1, .error t) => (s1, .error t)
      | (s1, .ok sc) => ofExcept s1 (mmaRun e x ty ka kb ad ta tb sc)
    else ofExcept s (mmaRun e x ty ka kb ad ta tb [])

/-- acc.cvt, whose scale codes are stored before the tile is filled (R182, R339). -/
def State.accCvtDo (s : State) (e : QEntry) (x : Eng) (ty : CvtTy) (ka ad : BitVec 2) (t : BitVec 3) : EngOut :=
  match accCvtRun e x ty ka ad t with
  | .error f => (s, .error f)
  | .ok (y, sc) => s.engineStore e 1 ((runFrom e.rs 1 sc.length).zip sc) y

/-- tld and tst (R338). -/
def State.tileMove (s : State) (e : QEntry) (x : Eng) (t : BitVec 3) (store : Bool) : EngOut :=
  let d := Tdesc.of (x.tdesc t)
  let n := d.unit
  if ¬ tdescOk (x.tdesc t) then (s, .error e.shapeFault)
  else if store then
    s.engineStore e n ((d.addrs e.rs).zip (elems (8 * n) (d.rows * (d.rowBytes / n)) (x.tile t))) x
  else s.engineLoad e n (d.addrs e.rs) fun vs => x.setTile t (BitVec.ofNat 16384 (packN (8 * n) vs))

/-- What an engine instruction does, once, from context `x` (R332). -/
def State.engineRun (s : State) (e : QEntry) (x : Eng) : EngOut :=
  let w := etWidth (etOf e.vshape)
  match e.instr with
  | .vld vd _ => s.engineLoad e (w / 8) (runFrom e.rs (w / 8) e.len) fun vs => e.put x vd vs
  | .vst va _ => s.engineStore e (w / 8) ((runFrom e.rs (w / 8) e.len).zip (e.read x va)) x
  | .mma ty ka kb ad ta tb rs => s.mmaDo e x ty ka kb ad ta tb rs
  | .pmm ty ad ta tb => ofExcept s (pmmRun e x ty ad ta tb)
  | .tld t _ => s.tileMove e x t false
  | .tst t _ => s.tileMove e x t true
  | .tdescWr t _ => endWith s { x with td := x.td.put t.toNat e.rs }
  | .tdescRd t _ => (s, .ok ⟨x, some (x.tdesc t)⟩)
  | .accZero ad => endWith s (x.setAcc ad 0)
  | .accSt ad _ => s.engineStore e 4 ((runFrom e.rs 4 1024).zip (elems 32 1024 (x.acc ad))) x
  | .accLd ad _ => s.engineLoad e 4 (runFrom e.rs 4 1024) fun vs => x.setAcc ad (BitVec.ofNat 32768 (packN 32 vs))
  | .accCvt ty ka ad t _ => s.accCvtDo e x ty ka ad t
  | .srSeed _ => endWith s { x with gen := e.rs.setWidth 32 }
  | .phCvt _ _ _ | .phMul _ _ _ | .phRed _ _ _ | .phCmp _ _ _ | .phCos _ _ | .phSin _ _ => endWith s (phasorRun e x)
  | .qhist _ _ _ | .qclip _ _ _ | .qnt _ _ _ _ _ | .dq _ _ _ => ofExcept s (quantRun e x)
  | _ => endWith s (vectorRun e x)

/-! ### Steps (R88, R342) -/

/-- The steps of a matrix instruction; none for the vector unit (R342). -/
def QEntry.total (e : QEntry) (x : Eng) : Nat :=
  let k (t : BitVec 3) : Nat := (Tdesc.of (x.tdesc t)).cols
  let narrow (n : BitVec 2) : Bool := match NFmt.ofRecord (e.fmt n.toNat) with
    | some f => f.container = 4
    | none => false
  match e.instr with
  | .mma .f16 _ _ _ ta _ _ | .mma .bf16 _ _ _ ta _ _ => (k ta + 15) / 16
  | .mma .i8 _ _ _ ta _ _ => (k ta + 31) / 32
  | .mma .nf ka kb _ ta _ _ => if narrow ka && narrow kb then (k ta + 63) / 64 else (k ta + 31) / 32
  | .pmm _ _ ta _ => (k ta + 15) / 16
  | .tld _ _ | .tst _ _ | .accCvt _ _ _ _ _ => 1
  | .accLd _ _ | .accSt _ _ => 2
  | _ => 0

/-- An entry waits for engine registers that an earlier instruction of its context has yet to write, or to read
(R332). -/
def Core.regsBusy (c : Core) (e : QEntry) : Bool :=
  let (r, w) := engineUse e.instr
  (c.mq ++ c.vq).any fun x => x.ctx = e.ctx && x.seq < e.seq &&
    (let (xr, xw) := engineUse x.instr
     xw.any (fun n => r.contains n || w.contains n) || xr.any fun n => w.contains n)

/-- The first entry of a context in a queue. -/
def headOf (q : List QEntry) (k : Nat) : Option QEntry := q.find? fun e => e.ctx = k

/-- The entries of a unit that may act: the head of the vector queue; of the matrix queue the first of each context, since
steps alternate between contexts (R88, R132). -/
def Core.heads (c : Core) (unit : Nat) : List QEntry :=
  if unit = 0 then ([0, 1].filterMap (headOf c.mq)) else c.vq.take 1

/-- Memory accesses of an engine instruction (R182). -/
def QEntry.accesses (e : QEntry) : Bool := engineReads e.instr || engineWrites e.instr

/-- An entry that accesses memory, behind one of its queue that does (R182). -/
def Core.behindAccess (c : Core) (unit : Nat) (e : QEntry) : Bool :=
  e.accesses && ((c.queue unit).takeWhile fun x => x.seq ≠ e.seq).any QEntry.accesses

/-- The instruction that a unit may end now, the first of its queue: its registers are full, its steps are made, the accesses
of those ahead of it in its queue are performed, and earlier TCM stores of the core are in memory (R132, R182, R332). -/
def State.endable (s : State) (d unit : Nat) : Option QEntry :=
  let c := s.core d
  if c.delayed.any fun x => match x with
    | .wb _ _ => true
    | .hVal _ _ _ _ | .hEmpty _ _ _ _ => false
  then none
  else (c.queue unit).find? fun e => (c.heads unit).contains e && ¬ c.regsBusy e && e.total (c.eng e.ctx) ≤ e.steps &&
    c.stepping ≠ some e.ctx && ¬ c.behindAccess unit e

/-- The context that the next step goes to: of two with work, the one whose claimant belongs to the queue of the turn
being served; when both or neither do, the one that did not take the last step (R88). -/
def State.nextStep (s : State) (d : Nat) : Option Nat :=
  let c := s.core d
  let wants (k : Nat) : Bool := match headOf c.mq k with
    | some e => ¬ c.regsBusy e && e.steps < e.total (c.eng k)
    | none => false
  let mine (k : Nat) : Bool := match (c.eng k).owner with
    | some t => (match (s.ctx t).queue with
      | some q => (c.turn c.turnNo).qown.isSome && c.queueIndex (s.ctx t).fn q = (c.turn c.turnNo).qown
      | none => false)
    | none => false
  match wants 0, wants 1 with
  | false, false => none
  | true, false => some 0
  | false, true => some 1
  | true, true => some (if mine 0 && ¬ mine 1 then 0 else if mine 1 && ¬ mine 0 then 1 else 1 - c.lastStep)

/-- Start a step where none is in flight. -/
def State.kick (s : State) (d : Nat) : State :=
  match (s.core d).stepping with
  | some _ => s
  | none => s.modCore d fun c => { c with stepping := s.nextStep d }

/-- MATRIX_STEP_END: the step in flight counts for its instruction, and the next step starts (R88). -/
def State.stepEnd (s : State) (d : Nat) : State :=
  match (s.core d).stepping with
  | none => s.kick d
  | some k =>
    let head := (headOf (s.core d).mq k).map (·.seq)
    let s1 := s.modCore d fun c => { c with
      stepping := none, lastStep := k,
      mq := c.mq.map fun e => if some e.seq = head then { e with steps := e.steps + 1 } else e }
    s1.kick d

/-- MATRIX_STEP_END (R88). -/
def execMatrixStepEnd (core : Nat) (s : State) : Host.Outcome State Fault Refusal := .next (s.stepEnd core)

/-! ### The end of an engine instruction (R332) -/

/-- An entry leaves its queue: its writes are acknowledged (R182), and a context that its owner has left is freed with
its last entry (R131). -/
def State.leaveQueue (s : State) (d unit : Nat) (e : QEntry) : State :=
  let s1 := (s.corrects 7 (d * 2 ^ 40 + e.seq)).modCore d fun c => c.setQueue unit ((c.queue unit).filter fun x => x.seq ≠ e.seq)
  let s2 := if engineWrites e.instr ∧ (s1.ctxs.look e.tid).isSome then s1.uncountStore e.tid 1 else s1
  if ((s2.core d).eng e.ctx).owner = some e.tid ∧ (s2.ctx e.tid).claim ≠ some (.bound e.ctx) ∧
      (s2.core d).engineWork e.tid = false then s2.freeEng d e.ctx else s2

/-- The g register that an instruction fills (R337). -/
def engineDst : Instr → Option Reg
  | .tdescRd _ rs => some (g rs)
  | _ => none

/-- The dirty list of a context with the registers an instruction wrote (R117). -/
def Eng.wrote (x : Eng) (l : List EReg) : Eng := { x with dirty := x.dirty ++ l.filter fun r => ¬ x.dirty.contains r }

/-- The instruction ends: its registers are filled (R332). -/
def State.engineDone (s : State) (d unit : Nat) (e : QEntry) (r : EngRes) : State :=
  let s1 := s.modEng d e.ctx fun _ => r.eng.wrote (engineUse e.instr).2
  let s2 := match engineDst e.instr, r.g with
    | some rd, some v => if (s1.ctxs.look e.tid).isSome then s1.deliver e.tid d e.fn rd v else s1
    | _, _ => s1
  s2.leaveQueue d unit e

/-- ENGINE_INSTRUCTION_END (R332): the instruction that a unit may end, where it does not fault. -/
def State.engineEnd (s : State) (d unit : Nat) : State :=
  match s.endable d unit with
  | none => s.kick d
  | some e => match s.engineRun e ((s.core d).eng e.ctx) with
    | (_, .error _) => s
    | (s1, .ok r) => (s1.engineDone d unit e r).kick d

/-- ENGINE_INSTRUCTION_END (R332). -/
def execEngineInstructionEnd (core unit : Nat) (s : State) : Host.Outcome State Fault Refusal :=
  .next (s.engineEnd core unit)

/-- A faulting or discarded instruction fills its g destination with its former contents (R209). -/
def State.engineDrop (s : State) (d unit : Nat) (e : QEntry) : State :=
  let s1 := match engineDst e.instr with
    | some rd => if (s.ctxs.look e.tid).isSome then s.deliver e.tid d e.fn rd (s.peek e.tid rd) else s
    | none => s
  s1.leaveQueue d unit e

/-- The fault of a claimant that has exited goes to the supervisor's mailbox (R209). -/
def State.engineMail (s : State) (d : Nat) (e : QEntry) (t : TrapRec) : State :=
  let c := { Ctx.cleared (.slot d e.slot) with
    part := e.part, asid := e.asid, fn := e.fn, pc := e.pc, taddr := t.taddr, tinfo := t.tinfo,
    trapf := trapFields t (wordPos e.pc) false 0 }
  s.mailTo e.part (s.trapMail 0 c)

/-- ENGINE_FAULT: the instruction stops at its fault, its memory writes stay, the later instructions of its context in the
queue are discarded, and the claimant takes the fault with TORIG 2 (R209). -/
def State.engineStop (s : State) (d unit : Nat) : State :=
  match s.endable d unit with
  | none => s
  | some e => match s.engineRun e ((s.core d).eng e.ctx) with
    | (_, .ok _) => s
    | (s1, .error t) =>
      let r := { t with orig := 2, eng := BitVec.ofNat 2 (unit + 1) }
      let s2 := if (s1.ctxs.look e.tid).isSome then s1.pendTrap e.tid r else s1.engineMail d e r
      let later := ((s2.core d).queue unit).filter fun x => x.ctx = e.ctx && e.seq ≤ x.seq
      (later.foldl (fun s x => s.engineDrop d unit x) s2).kick d

/-- ENGINE_FAULT (R209). -/
def execEngineFault (core unit : Nat) (s : State) : Host.Outcome State Fault Refusal := .next (s.engineStop core unit)

/-! ### Spills (R131, R211) -/

/-- The context `k` of a core is spilled to record `r`: its claimant's record is noted, and the waiting thread is bound
(R131). -/
def State.spill (s : State) (d k r t : Nat) : State :=
  let x := (s.core d).eng k
  let s1 := (s.writeSpill d r x (s.ctx t).slotNo).modCore d fun c => { c with
    spills := c.spills.put r { x with spillTo := none, next := none } }
  (s1.modCtx t fun c => { c with claim := some (.spilled r) }).freeEng d k

/-- ENGINE_SPILL_COMPLETE: a spill whose victim has no instruction and no copy command left completes; one that cannot be
written to its area is lost (R94, R131, R211). -/
def State.spillComplete (s : State) (d : Nat) : State :=
  match [0, 1].find? fun k => ((s.core d).eng k).spillTo.isSome with
  | none => s
  | some k => match ((s.core d).eng k).spillTo, ((s.core d).eng k).owner with
    | some r, some t =>
      if (s.core d).engineWork t || (s.core d).cq.any fun x => x.tid = t then s
      else if ¬ s.saveOk (s.ctx t).fn d then s.contextLost t
      else s.spill d k r t
    | _, _ => s

/-- ENGINE_SPILL_COMPLETE (R131). -/
def execEngineSpillComplete (core : Nat) (s : State) : Host.Outcome State Fault Refusal := .next (s.spillComplete core)

/-! ### Issue -/

/-- mma.ty.ka.kb ad, ta, tb, rs (R340): RS of g0 or of another type is not read. -/
def execMma (ty : MmaTy) (ka kb ad : BitVec 2) (ta tb : BitVec 3) (rs : BitVec 6) (s : State) :
    Host.Outcome State Fault Refusal :=
  .next (s.engineRs (.mma ty ka kb ad ta tb rs) 0 rs)
/-- pmm.ty ad, ta, tb (R341). -/
def execPmm (ty : PmmTy) (ad : BitVec 2) (ta tb : BitVec 3) (s : State) : Host.Outcome State Fault Refusal :=
  .next (s.engine0 (.pmm ty ad ta tb) 0)
/-- tld tN, rs (R338). -/
def execTld (t : BitVec 3) (rs : BitVec 6) (s : State) : Host.Outcome State Fault Refusal :=
  .next (s.engineRs (.tld t rs) 0 rs)
/-- tst tN, rs (R338). -/
def execTst (t : BitVec 3) (rs : BitVec 6) (s : State) : Host.Outcome State Fault Refusal :=
  .next (s.engineRs (.tst t rs) 0 rs)
/-- tdesc.wr tdescN, rs (R337). -/
def execTdescWr (t : BitVec 3) (rs : BitVec 6) (s : State) : Host.Outcome State Fault Refusal :=
  .next (s.engineRs (.tdescWr t rs) 0 rs)
/-- tdesc.rd tdescN, rs: its g register is filled when the instruction ends (R126, R332, R337). -/
def execTdescRd (t : BitVec 3) (rs : BitVec 6) (s : State) : Host.Outcome State Fault Refusal :=
  .next (s.operands [] [g rs] fun s =>
    match (s.ctx s.iss.tid).claim with
    | some (.bound _) => (s.engineGo (.tdescRd t rs) 0 0).pend (g rs)
    | some (.spilled _) | none => s.engineGo (.tdescRd t rs) 0 0)
/-- acc.zero ad (R337). -/
def execAccZero (ad : BitVec 2) (s : State) : Host.Outcome State Fault Refusal := .next (s.engine0 (.accZero ad) 0)
/-- acc.st ad, rs (R338). -/
def execAccSt (ad : BitVec 2) (rs : BitVec 6) (s : State) : Host.Outcome State Fault Refusal :=
  .next (s.engineRs (.accSt ad rs) 0 rs)
/-- acc.ld ad, rs (R338). -/
def execAccLd (ad : BitVec 2) (rs : BitVec 6) (s : State) : Host.Outcome State Fault Refusal :=
  .next (s.engineRs (.accLd ad rs) 0 rs)
/-- acc.cvt.ty.ka ad, tN, rs (R339). -/
def execAccCvt (ty : CvtTy) (ka ad : BitVec 2) (t : BitVec 3) (rs : BitVec 6) (s : State) :
    Host.Outcome State Fault Refusal :=
  .next (s.engineRs (.accCvt ty ka ad t rs) 0 rs)
/-- sr.seed rs (R337). -/
def execSrSeed (rs : BitVec 6) (s : State) : Host.Outcome State Fault Refusal := .next (s.engineRs (.srSeed rs) 0 rs)

end Sys2Proof.Machine
end

