-- ==== Sys2Proof/Machine/Copy.lean ====
section
/-! DEFINITION. The copy engine (R132, R183, R184, R318–R321) and lines from other packages (R181, R320). -/

namespace Sys2Proof.Machine

/-! ### Instructions -/

/-- The issue of a copy command: it enters the copy queue and makes its tag busy (R319). -/
def State.copyGo (s : State) (kind : CopyKind) (rec_ tagW : Word) (cell : Option Word) : State :=
  let t := s.iss.tid
  let c := s.ctx t
  let tag := fld tagW 0 4
  match c.claim with
  | none => s.raise 0x11 s.iss.pc 1
  | some (.spilled _) => s.takeEngine fun s => s.parkIssue .none
  | some (.bound k) =>
    if (s.core c.core).cq.any fun x => x.tid = t && x.tag = tag then s.parkIssue (.tags (2 ^ tag))
    else
      let x : CopyCmd := ⟨kind, k, t, tag, rec_, cell, none, 0, 0, none, none⟩
      (s.modEng c.core k fun e => { e with tags := e.tags.put tag .busy }).modCore c.core fun d => { d with cq := d.cq ++ [x] }

/-- The shape of the commands with RB: g0 names no byte barrier (R319). -/
def State.copyIssue (s : State) (kind : CopyKind) (rd ra rb : Reg) : State :=
  s.operands [ra, rb, rd] [] fun s' =>
    s'.copyGo kind (s'.src ra) (s'.src rd) (if rb = .g 0 then none else some (s'.src rb))

/-- cp.1d rd, ra, rb (R319). -/
def execCp1d (rd ra rb : Reg) (s : State) : Host.Outcome State Fault Refusal := .next (s.copyIssue .d1 rd ra rb)
/-- cp.2d rd, ra, rb (R319). -/
def execCp2d (rd ra rb : Reg) (s : State) : Host.Outcome State Fault Refusal := .next (s.copyIssue .d2 rd ra rb)
/-- cp.gather rd, ra, rb (R319). -/
def execCpGather (rd ra rb : Reg) (s : State) : Host.Outcome State Fault Refusal := .next (s.copyIssue .gather rd ra rb)
/-- cp.scatter rd, ra, rb (R319). -/
def execCpScatter (rd ra rb : Reg) (s : State) : Host.Outcome State Fault Refusal := .next (s.copyIssue .scatter rd ra rb)
/-- cp.link rd, ra (R319, R320). -/
def execCpLink (rd ra : Reg) (s : State) : Host.Outcome State Fault Refusal :=
  .next (s.operands [ra, rd] [] fun s' => s'.copyGo .link (s'.src ra) (s'.src rd) none)

/-- The status word of a tag (R321). -/
def tagStatus (x : Option Tag) : Word :=
  match x with
  | some (.ended w) => w
  | some .busy | none => 63

/-- The result of cp.wait over the selected tags (R321): with ALL, the lowest-numbered tag that failed, or 0. -/
def waitResult (tags : SMap Tag) (all : Bool) (tag : Nat) : Word :=
  if all then
    (((List.range 16).map fun k => tagStatus (tags.look k)).find? fun (w : Word) => w ≠ 63 && fld w 0 6 ≠ 0).getD 0
  else tagStatus (tags.look tag)

/-- cp.wait rd, ra (R321). -/
def execCpWait (rd ra : Reg) (s : State) : Host.Outcome State Fault Refusal :=
  .next (s.operands [ra] [rd] fun s' =>
    let t := s'.iss.tid
    let c := s'.ctx t
    let w := s'.src ra
    let all := bit w 4
    let tag := fld w 0 4
    let mask := if all then 2 ^ 16 - 1 else 2 ^ tag
    match c.claim with
    | none => s'.raise 0x11 s'.iss.pc 1
    | some (.spilled _) => s'.takeEngine fun s => s.parkIssue .none
    | some (.bound k) =>
      if (s'.core c.core).cq.any fun x => x.tid = t && mask.testBit x.tag then s'.parkIssue (.tags mask)
      else
        let tags := ((s'.core c.core).eng k).tags
        ((s'.modEng c.core k fun e => { e with tags := if all then [] else e.tags.del tag }).invalidateCache c.core).dst rd
          (waitResult tags all tag))

/-! ### Accesses of the copy engine -/

/-- STAT of a refused access; none where the spec gives no status for it (R321). -/
def statOf (t : TrapRec) : Option Nat :=
  match t.code.toNat with
  | 0x05 => some 2
  | 0x06 => some 3
  | 0x07 => some 4
  | 0x08 => some 5
  | 0x03 => if t.tinfo = 5 then some 6 else none
  | _ => none

/-- A status word that names the line of an address (R321). -/
def statWord (va : Word) (stat : Nat) : Word := (va &&& ~~~63#64) ||| word stat

/-- The status of a refused access at an address: a free value where the spec gives none (notes/assumptions/4.md). -/
def State.copyStat (s : State) (t : TrapRec) (va : Word) : Word × State :=
  match statOf t with
  | some k => (statWord va k, s)
  | none => let (v, s1) := s.free; (statWord va (fld v 0 6), s1)

/-- The command's access as the destination's checks see it: its tag stands in the slot field (R75). -/
def State.copyMsg (s : State) (x : CopyCmd) (va : Word) (pa : Nat) : Msg :=
  { s.request x.tid .none va pa none with slot := x.tag }

/-- Read `n` bytes within one line (R319). -/
def State.copyRead (s : State) (x : CopyCmd) (va : Word) (n : Nat) : State × Except TrapRec (List Byte) :=
  match s.threadReach x.tid va .read with
  | .error t => (s, .error t)
  | .ok (pa, _) =>
    let host := match s.target pa with
      | some (.host _) => true
      | _ => false
    let s2 := if host then s.drainHost else s
    match s2.refusal (s2.copyMsg x va pa) ⟨n, false, true, false⟩ with
    | (s3, some t) => (s3, .error t)
    | (s3, none) => (s3, .ok (s3.rdBytes pa n))

/-- Read bytes that may cross a line, line by line; a refusal names the line. -/
def State.copyReadLines (s : State) (x : CopyCmd) : Nat → Word → Nat → State × Except (TrapRec × Word) (List Byte)
  | 0, _, _ => (s, .ok [])
  | fuel + 1, va, n =>
    if n = 0 then (s, .ok [])
    else
      let k := min n (64 - va.toNat % 64)
      match s.copyRead x va k with
      | (s1, .error t) => (s1, .error (t, va))
      | (s1, .ok bs) => match s1.copyReadLines x fuel (va + word k) (n - k) with
        | (s2, .error e) => (s2, .error e)
        | (s2, .ok cs) => (s2, .ok (bs ++ cs))

/-- The doublewords that bytes [pa, pa+n) touch. -/
def dwords (pa n : Nat) : List Nat := (List.range 9).filterMap fun k =>
  if dwOf pa + 8 * k < pa + n then some (dwOf pa + 8 * k) else none

/-- A line write of the copy engine or of a host command, in one step: bytes, check bits, markers, cached lines, full
bits, and then the waiters of its doublewords and of a ring there (R165, R184, R298). -/
def State.lineWrite (s : State) (pa : Nat) (bs : List Byte) : State :=
  let n := bs.length
  let s1 := (dwords pa n).foldl (fun (s : State) a => s.unmark a) s
  let s2 := (((s1.wrBytes pa bs).mendEcc pa n).vaultWritten none pa).joinWake pa n
  let s3 := (dwords pa n).foldl (fun (s : State) a => s.setFull a) s2
  ((dwords pa n).foldl (fun (s : State) a => s.wake a) s3).ringTouched pa

/-- Bytes of a line as one store to host memory, in the outbound queue (R165, R180). -/
def hostStores (pa : Nat) (bs : List Byte) : List (Nat × Nat × Nat) :=
  [(pa, bs.length, bs.foldr (fun b a => b.toNat + 256 * a) 0)]

/-- The check of a line write, with `check` for the rest; cells are as for a store (R146). -/
def State.lineRefusedBy (s : State) (check : State → Touch → State × Option TrapRec) (m : Msg) (n : Nat) :
    State × Option TrapRec :=
  let other := (dwords m.pa n).find? fun a => s.isCell a && ¬ s.quiescent (recordOf a)
  match check s ⟨n, true, false, true⟩ with
  | (s1, some t) => (s1, some t)
  | (s1, none) => (s1, other.map fun a => TrapRec.make 0x0D (m.vaOf (recordOf a)) 4 0)

/-- The check of a line write of the copy engine. -/
def State.lineRefused (s : State) (m : Msg) (n : Nat) : State × Option TrapRec :=
  s.lineRefusedBy (fun s x => s.refusal m x) m n

/-- Write part of one line (R319). -/
def State.copyWrite (s : State) (x : CopyCmd) (va : Word) (bs : List Byte) : State × Option TrapRec :=
  match s.threadReach x.tid va .write with
  | .error t => (s, some t)
  | .ok (pa, leaf) =>
    let m := s.copyMsg x va pa
    match s.lineRefused m bs.length with
    | (s2, some t) => (s2, some t)
    | (s2, none) => match s2.target pa with
      | some (.host _) => ({ s2 with hostOut := s2.hostOut ++ hostStores pa bs }, none)
      | _ => (((s2.dirty m.core leaf).lineWrite pa bs).noteDirty x.tid pa bs.length, none)

/-! ### Start (R318, R319) -/

def State.setCopy (s : State) (d : Nat) (x : CopyCmd) : State :=
  s.modCore d fun c => { c with cq := match c.cq with
    | [] => []
    | _ :: l => x :: l }

/-- The command ends with a status, which the next event records (R321). -/
def State.copyStop (s : State) (d : Nat) (x : CopyCmd) (w : Word) : State := s.setCopy d { x with stat := some w }

/-- The fields of a copy record (R318). -/
def copyRecOf (n : Nat) : CopyRec where
  src := word n
  dst := word (n >>> 64)
  len := n >>> 128 % 2 ^ 32
  cnt := n >>> 160 % 2 ^ 32
  sstr := word (n >>> 192)
  dstr := word (n >>> 256)
  idx := []
  dpkg := n >>> 384 % 2 ^ 8
  dasid := n >>> 400 % 2 ^ 10

/-- The IDX word of a record. -/
def idxOf (n : Nat) : Word := word (n >>> 320)

def CopyKind.indexed : CopyKind → Bool
  | .gather | .scatter => true
  | .d1 | .d2 | .link => false

def CopyKind.single : CopyKind → Bool
  | .d1 | .link => true
  | .d2 | .gather | .scatter => false

/-- A record that is refused (R321, STAT 1). -/
def copyRecBad (kind : CopyKind) (n : Nat) : Bool :=
  let r := copyRecOf n
  r.len = 0 || n >>> 392 % 2 ^ 8 ≠ 0 || n >>> 410 % 2 ^ 6 ≠ 0 || n >>> 416 % 2 ^ 96 ≠ 0 ||
    (¬ kind.single && (r.cnt = 0 || 2 ^ 24 < r.cnt)) || (kind.indexed && fld (idxOf n) 0 3 ≠ 0)

/-- The byte barrier that a command names is one, with INIT 1 (R321, STAT 7). -/
def State.copyCellOk (s : State) (x : CopyCmd) : Bool :=
  match x.cell with
  | none => true
  | some va => va.toNat % 32 = 0 && (match s.threadReach x.tid va .write with
    | .ok (pa, _) => (match s.target pa with
      | some (.sram _ _) => s.isCell pa && s.cellKind pa = 3
      | _ => false)
    | .error _ => false)

/-- The IDX entries, read as ordinary 8-byte reads. -/
def State.copyIdx (s : State) (x : CopyCmd) : Nat → Word → State × Except (TrapRec × Word) (List Word)
  | 0, _ => (s, .ok [])
  | n + 1, va => match s.copyRead x va 8 with
    | (s1, .error t) => (s1, .error (t, va))
    | (s1, .ok bs) => match s1.copyIdx x n (va + 8) with
      | (s2, .error e) => (s2, .error e)
      | (s2, .ok l) => (s2, .ok (word (bs.foldr (fun b a => b.toNat + 256 * a) 0) :: l))

/-- The port that reaches a package (R17, R43). -/
def State.routePort (s : State) (pkg : Nat) : Option Nat :=
  match s.lrt.look pkg with
  | some w => if bit w 63 then some (fld w 0 4) else none
  | none => none

/-- A link command finds its route and port up, or ends with status 9 or 8 (R16, R17, R321). -/
def State.copyRoute (s : State) (d : Nat) (x : CopyCmd) (r : CopyRec) : State :=
  match s.routePort r.dpkg with
  | none => s.copyStop d x (statWord r.dst 9)
  | some k =>
    if (s.link k).st ≠ 2 then s.copyStop d x (statWord r.dst 8)
    else s.setCopy d { x with record := some { r with cnt := 1 }, port := some k }

/-- A record that was read and is well formed: the cell, the route, the indices. -/
def State.copyBegin (s : State) (d : Nat) (x : CopyCmd) (n : Nat) : State :=
  let r := copyRecOf n
  if ¬ s.copyCellOk x then s.copyStop d x (statWord (x.cell.getD 0) 7)
  else if x.kind = .link then s.copyRoute d x r
  else if x.kind.indexed then
    match s.copyIdx x r.cnt (idxOf n) with
    | (s1, .error (t, va)) => let (w, s2) := s1.copyStat t va; s2.copyStop d x w
    | (s1, .ok l) => s1.setCopy d { x with record := some { r with idx := l } }
  else s.setCopy d { x with record := some (if x.kind = .d1 then { r with cnt := 1 } else r) }

/-- Earlier writes that a command's reads must see or wait for: the core's TCM stores (R182), and, with a byte barrier, the
acknowledgements of the thread's sb.expects (R160, R294). -/
def State.copyHeld (s : State) (d : Nat) (x : CopyCmd) : Bool :=
  ((s.core d).delayed.any fun e => match e with
    | .wb _ _ => true
    | .hVal _ _ _ _ | .hEmpty _ _ _ _ => false) ||
  (x.cell.isSome && s.flights.any fun m => m.tid = x.tid && (match m.op with
    | .expect _ => true
    | _ => false))

/-- COPY_COMMAND_START: the command at the head of the queue reads its record and its indices once (R183, R319). -/
def State.copyStart (s : State) (d : Nat) : State :=
  match (s.core d).cq with
  | [] => s
  | x :: _ =>
    if x.record.isSome ∨ x.stat.isSome ∨ s.copyHeld d x = true then s
    else if x.recVa.toNat % 64 ≠ 0 then s.copyStop d x (statWord x.recVa 1)
    else match s.copyRead x x.recVa 64 with
      | (s1, .error _) => s1.copyStop d x (statWord x.recVa 1)
      | (s1, .ok bs) =>
        let n := bs.foldr (fun b a => b.toNat + 256 * a) 0
        if copyRecBad x.kind n then s1.copyStop d x (statWord x.recVa 1) else s1.copyBegin d x n

/-- COPY_COMMAND_START (R319). -/
def execCopyCommandStart (core : Nat) (s : State) : Host.Outcome State Fault Refusal := .next (s.copyStart core)

/-! ### Lines (R319, R320) -/

/-- Source and destination of row `r` (R319). -/
def CopyRec.rowAt (c : CopyRec) (kind : CopyKind) (r : Nat) : Word × Word :=
  let i := c.idx.getD r 0
  match kind with
  | .d1 | .link => (c.src, c.dst)
  | .d2 => (c.src + word r * c.sstr, c.dst + word r * c.dstr)
  | .gather => (c.src + i, c.dst + word r * c.dstr)
  | .scatter => (c.src + word r * c.sstr, c.dst + i)

/-- The command after `n` more bytes of its row: the next row when it is over, and its end with status 0 (R321). -/
def CopyCmd.moved (x : CopyCmd) (r : CopyRec) (n : Nat) : CopyCmd :=
  if x.off + n < r.len then { x with off := x.off + n }
  else if x.row + 1 < r.cnt then { x with off := 0, row := x.row + 1 }
  else { x with off := 0, row := x.row + 1, stat := some 0 }

/-- The count of a write's bytes goes to the byte barrier; until the bank acknowledges it, it counts among the thread's
unacknowledged stores (R148, R160, R319). -/
def State.copyDeliver (s : State) (x : CopyCmd) (n : Nat) : State :=
  match x.cell with
  | none => s
  | some va => match s.threadReach x.tid va .write with
    | .ok (pa, leaf) => s.postCounted { s.request x.tid (.deliver n) va pa none with leaf := leaf }
    | .error _ => s

/-- A line for another package: it is sent, and is done when the destination acknowledges it; whether the destination
performs or refuses it is a free value, since the package lies outside this one (R320, notes/assumptions/4.md). -/
def State.copySend (s : State) (d : Nat) (x : CopyCmd) (r : CopyRec) (dva : Word) (n : Nat) : State :=
  if (s.link (x.port.getD 0)).st ≠ 2 then s.copyStop d x (statWord dva 8)
  else
    let (v, s1) := s.free
    let k := fld v 0 3
    if 2 ≤ k ∧ k ≤ 6 then s1.copyStop d x (statWord dva k)
    else (s1.setCopy d (x.moved r n)).setLink (x.port.getD 0) ⟨2, 0⟩

/-- COPY_LINE_WRITE: the next piece, which lies in one destination line, is read and written in one access with its full
bits, and its count delivered (R160, R165, R319). -/
def State.copyLine (s : State) (d : Nat) : State :=
  match (s.core d).cq with
  | [] => s
  | x :: _ => match x.record, x.stat with
    | some r, none =>
      let (sva0, dva0) := r.rowAt x.kind x.row
      let sva := sva0 + word x.off
      let dva := dva0 + word x.off
      let n := min (r.len - x.off) (64 - dva.toNat % 64)
      match s.copyReadLines x 2 sva n with
      | (s1, .error (t, va)) => let (w, s2) := s1.copyStat t va; s2.copyStop d x w
      | (s1, .ok bs) =>
        if x.kind = .link then s1.copySend d x r dva n
        else match s1.copyWrite x dva bs with
          | (s2, some t) => let (w, s3) := s2.copyStat t dva; s3.copyStop d x w
          | (s2, none) => (s2.copyDeliver x n).setCopy d (x.moved r n)
    | _, _ => s

/-- COPY_LINE_WRITE (R319). -/
def execCopyLineWrite (core : Nat) (s : State) : Host.Outcome State Fault Refusal := .next (s.copyLine core)

/-- COPY_COMMAND_END: the command leaves the queue, its status stands in its tag, and an exit that waited for it goes on
(R311, R321). -/
def State.copyEnd (s : State) (d : Nat) : State :=
  match (s.core d).cq with
  | [] => s
  | x :: rest => match x.stat with
    | none => s
    | some w =>
      let s1 := (s.modCore d fun c => { c with cq := rest }).modEng d x.ctx fun e => { e with tags := e.tags.put x.tag (.ended w) }
      if (s1.ctxs.look x.tid).isSome then s1.exitCopies x.tid else s1

/-- COPY_COMMAND_END (R321). -/
def execCopyCommandEnd (core : Nat) (s : State) : Host.Outcome State Fault Refusal := .next (s.copyEnd core)

/-- The owning function of an ASID and its partition (R66). -/
def State.asidOwner (s : State) (a : Nat) : Nat × Nat :=
  let f := fld (s.asidEntry a) 0 11
  (f, (s.fnPart f).getD 0)

/-- CP_LINK_LINE_ARRIVE: a line from another package is translated under its ASID, as for a COPY-IN of the function that
owns it, and written; a refusal is reported to the other package only (R320). -/
def State.linkLine (s : State) (asid : Nat) (va : Word) (data : List Byte) : State :=
  let (fn, part) := s.asidOwner asid
  match s.agentReach asid va 1 .write with
  | .error _ => s
  | .ok (pa, s1) => match s1.lineRefused (s1.agentMsg fn part asid .none va pa) data.length with
    | (s2, some _) => s2
    | (s2, none) => match s2.target pa with
      | some (.host _) => { s2 with hostOut := s2.hostOut ++ hostStores pa data }
      | _ => s2.lineWrite pa data

/-- CP_LINK_LINE_ARRIVE (R320). -/
def execCpLinkLineArrive (asid : Nat) (va : Word) (data : List Byte) (s : State) : Host.Outcome State Fault Refusal :=
  .next (s.linkLine asid va data)

end Sys2Proof.Machine
end

