-- ==== Sys2Proof/Machine/Sched.lean ====
section
/-! DEFINITION. The scheduler of a core: rotation boundaries (R82, R85, R98, R215), turns (R86, R87, R132), and slot
boundaries with their handovers (R70, R71). -/

namespace Sys2Proof.Machine

/-! ### Shares (R85) -/

/-- Divide `total` in proportion to weights by largest remainder, ties to the lowest index. -/
def largestRemainder (total : Nat) (ws : List Nat) : List Nat :=
  let sum := ws.sum
  let rems : List (Nat × Nat) := (ws.map fun w => total * w % sum).zipIdx
  let left := total - (ws.map fun w => total * w / sum).sum
  (ws.zipIdx.zip rems).map fun (e : (Nat × Nat) × (Nat × Nat)) =>
    let ahead := (rems.filter fun (r : Nat × Nat) => e.2.1 < r.1 || (r.1 = e.2.1 && r.2 < e.2.2)).length
    total * e.1.1 / sum + (if sum ≠ 0 ∧ ahead < left then 1 else 0)

/-- Threads in the slots of a core, as (slot, thread), ascending. -/
def State.residents (s : State) (d : Nat) : List (Nat × Nat) :=
  (List.range 16).filterMap fun k => (s.inSlot d k).map fun t => (k, t)

/-- The task queue of a thread and the WEIGHT of its packet; none without a task (R85). -/
def State.queueOf (s : State) (t : Nat) : Option (Nat × Nat × Nat) :=
  (s.tasks.look (s.ctx t).task).map fun k => (k.fn, k.queue, k.pkt.weight)

/-- Insert a queue in ascending (function, queue), keeping the largest weight. -/
def addQueue : List (Nat × Nat × Nat) → Nat × Nat × Nat → List (Nat × Nat × Nat)
  | [], e => [e]
  | x :: l, e =>
    if x.1 = e.1 ∧ x.2.1 = e.2.1 then (x.1, x.2.1, max x.2.2 e.2.2) :: l
    else if e.1 < x.1 ∨ (e.1 = x.1 ∧ e.2.1 < x.2.1) then e :: x :: l
    else x :: addQueue l e

/-- The local queues of a core (R85, step 2). -/
def State.localQueues (s : State) (d : Nat) : List (Nat × Nat × Nat) :=
  ((s.residents d).filterMap fun (e : Nat × Nat) => s.queueOf e.2).foldl addQueue []

/-- The local index of a thread's queue. -/
def queueIdx (l : List (Nat × Nat × Nat)) (q : Option (Nat × Nat × Nat)) : Option Nat :=
  q.bind fun e => l.findIdx? fun (x : Nat × Nat × Nat) => x.1 = e.1 && x.2.1 = e.2.1

/-- Ownership of the turns (R85, step 1): OV, and QOWN of the owned ones. -/
def State.ownTurns (s : State) (d : Nat) (l : List (Nat × Nat × Nat)) (disabled : List Nat) (ts : List Turn) : List Turn :=
  ts.map fun x =>
    match s.inSlot d x.tslot with
    | some t =>
      if x.ten ∧ disabled.contains x.tslot = false then { x with ov := true, qown := queueIdx l (s.queueOf t) }
      else { x with ov := false, qown := none }
    | none => { x with ov := false, qown := none }

/-- Give the unowned turns to the queues by allotment, in ascending order (R85, step 5). -/
def giveTurns : List Wrr → List Turn → List Turn
  | _, [] => []
  | ws, x :: ts =>
    if x.ov then x :: giveTurns ws ts
    else match chooseWrr ws with
      | none => { x with qown := none } :: giveTurns ws ts
      | some (k, ws') => { x with qown := some k } :: giveTurns ws' ts

/-- Steps 1 to 5 of R85. -/
def State.shares (s : State) (d : Nat) (disabled : List Nat) (ts : List Turn) : List Turn :=
  let l := s.localQueues d
  let owned := s.ownTurns d l disabled ts
  let w := l.map fun (e : Nat × Nat × Nat) => e.2.2
  let target := largestRemainder 32 w
  let deficit := target.zipIdx.map fun (e : Nat × Nat) =>
    e.1 - (owned.filter fun x => x.ov && x.qown = some e.2).length
  let free := (owned.filter fun x => ¬ x.ov).length
  let allot := largestRemainder free (if deficit.sum = 0 then w else deficit)
  giveTurns (allot.zipIdx.map fun (e : Nat × Nat) => ⟨e.2, e.1, 0⟩) owned

/-! ### Thermal disabling (R98) -/

/-- The core that a displaced thread of a migratable gang leaves for, none that is closed (R98, R116). -/
def State.migrateTo (s : State) (t : Nat) : Option Nat :=
  let c := s.ctx t
  let p := s.partition c.part
  let order := (List.range 4096).filterMap fun j => match p.rank.look j with
    | some e => if bit e 15 then some (fld e 0 12) else none
    | none => none
  order.find? fun d => d ≠ c.core && (s.spanCores c.task).contains d && ¬ s.closed d &&
    (match s.temps.look d with
      | some x => x ≤ p.thot
      | none => true) && (s.idleSlot c.task c.fn d).isSome

/-- A thread that may leave a disabled slot: of a migratable gang. -/
def State.migratable (s : State) (t : Nat) : Bool :=
  match s.tasks.look (s.ctx t).task with
  | some k => k.mig
  | none => false

/-- A slot is disabled: where its thread is to leave for, if it is to leave; otherwise it stays (R98). -/
def State.displaceTo (s : State) (d k : Nat) : Option Nat :=
  (s.inSlot d k).bind fun t => if s.migratable t then s.migrateTo t else none

/-- The engine context that a thread holds is at rest, and core `e` has room for it; or it holds none (R131, R211). -/
def State.engineMoves (s : State) (t e : Nat) : Bool :=
  let c := s.ctx t
  let x := s.core c.core
  c.claim.isNone || (¬ x.engineWork t && ¬ (x.cq.any fun y => y.tid = t) && 0 < s.engRoom e c.fn)

/-- Its engine context goes with it: to a free context of core `e`, or to a spill record there (notes/assumptions/61.md). -/
def State.moveEngine (s : State) (t e : Nat) : State :=
  match s.engOf t with
  | some x => (s.freeClaim t).restoreEng e x
  | none => s

/-- A displaced thread leaves once everything of it has completed (R93, R98, R178). -/
def State.displace (s : State) (d k : Nat) : State :=
  match s.inSlot d k, (s.core d).displaced.look k with
  | some t, some e =>
    if (s.ctx t).touched ≠ 0 then s.probeOut t
    else if s.settled t ∧ s.engineMoves t e = true then
      let s1 := s.moveEngine t e
      (if (s1.ctxs.look t).isSome then s1.departTo t e else s1).modCore d fun c => { c with displaced := c.displaced.del k }
    else s
  | _, _ => s.modCore d fun c => { c with displaced := c.displaced.del k }

/-! ### Rotation boundaries (R85) -/

/-- RTURN writes that were accepted take effect (R84). -/
def Core.applyWrites (c : Core) : List Turn :=
  c.turnWrites.foldl (fun (ts : List Turn) (e : Nat × Word) =>
    ts.modify e.1 fun x => { x with tslot := fld e.2 12 4, ten := bit e.2 11 }) c.turns

/-- Threads whose span was started issue from now on (R82); a thread's queue is that of its task now. -/
def State.startThreads (s : State) (d : Nat) : State :=
  (s.residents d).foldl (fun (s : State) (e : Nat × Nat) =>
    let q := (s.queueOf e.2).map fun x => x.2.1
    (s.modCtx e.2 fun c => { c with queue := q }).modCtx e.2 fun c => if c.park = .start then { c with park := .none } else c) s

/-- step with n = 0 releases the frozen threads of the core, saved ones among them (R214, R215). -/
def State.releaseFrozen (s : State) (d : Nat) : State :=
  if ¬ (s.core d).release then s
  else (s.ctxs.filter fun e => e.2.core = d && e.2.stays).foldl
    (fun (s : State) e => (s.modCtx e.1 fun c => { c with frozen := false }).resumeLimits e.1)
    (s.modCore d fun c => { c with release := false })

/-- A rotation boundary of a core (R84, R85, R98, R215). The rule gives no cycle at which a re-enabled slot counts again and
THROT clears: here it is the core's next rotation boundary, as for a slot that is disabled, which is the model's choice
(notes/assumptions/128.md). -/
def State.boundary (s : State) (d : Nat) : State :=
  let c := s.core d
  let disabled := (c.disableNext.foldl insertNat c.disabled).filter fun k => ¬ c.enableNext.contains k
  let leave := c.disableNext.filterMap fun k => (s.displaceTo d k).map fun e => (k, e)
  let s1 := s.modCore d fun c =>
    { c with
      disabled := disabled, disableNext := [], enableNext := [], turnWrites := [], turns := c.applyWrites,
      displaced := (leave.foldl (fun m e => m.put e.1 e.2) c.displaced).filter fun e => disabled.contains e.1 }
  let s2 := disabled.foldl (fun (s : State) k => s.displace d k) ((s1.startThreads d).releaseFrozen d)
  s2.modCore d fun c => { c with localQ := s2.localQueues d, turns := s2.shares d disabled c.turns }

/-- ROTATION_BOUNDARY: in the cycle in which turn 0 is served (R85). -/
def execRotationBoundary (core : Nat) (s : State) : Host.Outcome State Fault Refusal :=
  .next (if (s.core core).turnNo = 0 then s.boundary core else s)

/-! ### Readiness (R86, R132) -/

/-- Before SLEPOCH no thread of a partition issues (R70). -/
def State.beforeEpoch (s : State) (d : Nat) : Bool :=
  match s.partOf d with
  | none => false
  | some p => 0 < (s.partition p).slcnt && s.wall < (s.partition p).epoch.toNat

/-- The thread of a slot has stopped at its handover, and waits for room in the Chuck (R71). -/
def State.handStopped (s : State) (t : Nat) : Bool :=
  match (s.core (s.ctx t).core).handover with
  | some h => h.stopped.contains (s.ctx t).slotNo
  | none => false

/-- Ready, but for thermal disabling (R71, R86, R132, R213, R319). -/
def State.wouldIssue (s : State) (d t : Nat) : Bool :=
  let c := s.ctx t
  c.place.resident && ¬ s.blocked t && ¬ c.stays && ¬ s.beforeEpoch d && ¬ s.handStopped t && ¬ s.queueStall t

/-- Ready(t) for the thread of a slot (R86). -/
def State.slotReady (s : State) (d k : Nat) : Bool :=
  match s.inSlot d k with
  | some t => s.wouldIssue d t && ¬ (s.core d).disabled.contains k
  | none => false

/-- Cycles since a slot last issued (R86); a slot that has not issued yet is taken as 8 cycles ago at cycle 0. -/
def Core.since (c : Core) (k : Nat) : Nat :=
  match c.slotIssue.look k with
  | some i => c.cycle - i
  | none => c.cycle + 8

/-- A slot owns none of the next 7 turns (R86). -/
def Core.ownsSoon (c : Core) (k : Nat) : Bool :=
  (List.range 7).any fun j => (c.turn ((c.turnNo + 1 + j) % 32)).ownedBy k

/-- The tenant of a turn, for donation in a handover window: the function of its queue, which names the owner's too, even after
the owner has left its slot; of an owned turn with no queue, its thread's (R71, R86). A turn that nothing owns, with QV 0, has
none, and any tenant's thread may take it, which is the model's choice (notes/assumptions/142.md). -/
def State.turnTenant (s : State) (d : Nat) (x : Turn) : Option Nat :=
  (x.qown.bind fun q => (s.core d).localQ[q]?.map fun (e : Nat × Nat × Nat) => e.1).or
    (if x.ov then (s.inSlot d x.tslot).map fun t => (s.ctx t).fn else none)

/-- E of R86: the slots that may take a turn that its owner leaves, or that has none. -/
def State.eligible (s : State) (d : Nat) (x : Turn) : List Nat :=
  let c := s.core d
  (List.range 16).filter fun k => s.slotReady d k && 8 ≤ c.since k && ¬ c.ownsSoon k &&
    (c.handover.isNone || (match s.turnTenant d x, s.inSlot d k with
      | some f, some t => (s.ctx t).fn = f
      | _, _ => true))

/-- The slots of E in the queue of the turn, where there are any (R86). A thread is in the queue that its task had at the last
boundary (R110). -/
def State.inQueue (s : State) (d : Nat) (x : Turn) (l : List Nat) : List Nat :=
  let q := l.filter fun k => (match s.inSlot d k with
    | some t => x.qown.isSome && (s.ctx t).queue.bind ((s.core d).queueIndex (s.ctx t).fn) = x.qown
    | none => false)
  if x.ov = false ∧ q.isEmpty = false then q else l

/-- The slot with the largest Since, ties to the lowest. -/
def Core.longest (c : Core) (l : List Nat) : Option Nat :=
  l.foldl (fun (a : Option Nat) k => match a with
    | none => some k
    | some b => if c.since b < c.since k then some k else some b) none

/-- A throttled slot: disabled, with its thread still in it (R98). -/
def State.throttled (s : State) (d k : Nat) : Bool := (s.core d).disabled.contains k && (s.inSlot d k).isSome

/-- ServeTurn: the slot that issues in the turn (R86), 8 cycles or more after its last issue (R125). A throttled slot keeps the
turns reserved to it: in one rotation of four it issues in them, in the others they stay idle (R98). -/
def State.chooseSlot (s : State) (d : Nat) : Option Nat :=
  let c := s.core d
  let x := c.turn c.turnNo
  let hot : Bool := x.ten && s.throttled d x.tslot
  let may : Bool := 8 ≤ c.since x.tslot && (if hot then ((s.inSlot d x.tslot).map (s.wouldIssue d)).getD false
    else x.ov && s.slotReady d x.tslot)
  if hot ∧ c.cycle / 32 % 4 ≠ 0 then none
  else if may then some x.tslot
  else c.longest (s.inQueue d x (s.eligible d x))

/-! ### Handover of a slot (R71) -/

/-- A context of a tenant other than the incoming one leaves in a handover window (R71); a supervisor's does not. -/
def Handover.outgoing (h : Handover) (c : Ctx) : Bool := c.fn ≠ h.inFn && c.lvl = .u

/-- An outgoing context of a slot that is in the Chuck on its way to the save area (R71). -/
def State.handing (s : State) (d k : Nat) : Option Nat :=
  (s.core d).handover.bind fun h => (s.ctxs.find? fun e => h.outgoing e.2 && e.2.place = .chuck d k).map (·.1)

/-- A thread slot hands over: its outgoing thread stops and goes through the Chuck, where there is room, to its tenant's save area,
and only then has the slot handed over (R71). -/
def State.handSlot (s : State) (d k : Nat) : State :=
  match (s.core d).handover with
  | none => s
  | some h =>
    let done (s : State) : State := s.modCore d fun c =>
      { c with handover := c.handover.map fun h => { h with done := insertNat h.done k, stopped := h.stopped.filter (· ≠ k) } }
    let leave (s : State) (t : Nat) : State :=
      let s1 := s.evict t
      if (s1.ctxs.look t).isNone || (s1.ctx t).place = .save d k then done s1 else s1
    match (s.inSlot d k).filter fun t => h.outgoing (s.ctx t), s.handing d k with
    | some t, _ =>
      if ¬ s.saveOk (s.ctx t).fn d then done (s.contextLost t)
      else if 32 ≤ s.chuckUsed d then
        s.modCore d fun c => { c with handover := some { h with stopped := insertNat h.stopped k } }
      else
        leave ((s.modCore d fun c => { c with handover := some { h with stopped := h.stopped.filter (· ≠ k) } }).toChuck t) t
    | none, some t => leave s t
    | none, none => done s

/-- The slot has yet to hand over. -/
def Core.toHand (c : Core) (k : Nat) : Bool := c.handover.isSome && c.unhanded k

/-- The first owned turn at or after the boundary (R71). -/
def State.handTurn (s : State) (d k : Nat) : State :=
  let c := s.core d
  if c.toHand k ∧ (c.turn c.turnNo).ownedBy k = true then s.handSlot d k else s

/-- Slots whose outgoing context is in the Chuck, or has stopped and waits for room there, go on handing over (R71). -/
def State.handRest (s : State) (d : Nat) : State :=
  ((List.range 16).filter fun k => (s.core d).toHand k && (match (s.core d).handover with
    | some h => h.stopped.contains k || ((s.handing d k).isSome && (match s.inSlot d k with
      | some t => ¬ h.outgoing (s.ctx t)
      | none => true))
    | none => false)).foldl (fun (s : State) k => s.handSlot d k) s

/-- SLOT_HANDOVER (R71). -/
def execSlotHandover (core slot : Nat) (s : State) : Host.Outcome State Fault Refusal := .next (s.handTurn core slot)

/-- HANDOVER_NO_TURN_TIMEOUT: a slot that owns no turn hands over 32 cycles after the boundary (R71). -/
def State.handTimeout (s : State) (d k : Nat) : State :=
  let c := s.core d
  match c.handover with
  | some h => if c.toHand k ∧ (c.turns.any fun x => x.ownedBy k) = false ∧ h.at_ + 32 ≤ c.cycle then s.handSlot d k else s
  | none => s

/-- HANDOVER_NO_TURN_TIMEOUT (R71). -/
def execHandoverNoTurnTimeout (core slot : Nat) (s : State) : Host.Outcome State Fault Refusal :=
  .next (s.handTimeout core slot)

/-- The engine context of a core that an outgoing thread still holds, at rest, with a free spill record (R71). -/
def State.leftEngine (s : State) (d : Nat) (h : Handover) : Option (Nat × Nat × Nat) :=
  let c := s.core d
  [0, 1].findSome? fun k => match (c.eng k).owner with
    | some t =>
      if (s.ctxs.look t).isSome && h.outgoing (s.ctx t) && ¬ c.engineWork t && ¬ (c.cq.any fun x => x.tid = t) then
        (s.freeSpill d (s.ctx t).fn).map fun r => (k, r, t)
      else none
    | none => none

/-- An engine context of the core still belongs to an outgoing thread. -/
def State.outEngine (s : State) (d : Nat) (h : Handover) : Bool :=
  [0, 1].any fun k => match ((s.core d).eng k).owner with
    | some t => (s.ctxs.look t).isSome && h.outgoing (s.ctx t)
    | none => false

/-- HANDOVER_WINDOW_CLOSE: once every slot has handed over, outgoing contexts are out of the Chuck and outgoing engine
contexts are spilled, the window closes. The outgoing h bank stays saved under its function (R71). -/
def State.windowClose (s : State) (d : Nat) : State :=
  let c := s.core d
  match c.handover with
  | none => s
  | some h =>
    if (List.range 16).any fun k => ¬ h.done.contains k then s.handRest d
    else match c.chuck.find? fun t => h.outgoing (s.ctx t) && s.saveUsed (s.ctx t).fn d < 64 with
      | some t => s.evict t
      | none => match s.leftEngine d h with
        | some (k, r, t) => if s.saveOk (s.ctx t).fn d then s.spill d k r t else s.contextLost t
        | none => if s.outEngine d h then s else s.modCore d fun c => { c with handover := none }

/-- HANDOVER_WINDOW_CLOSE (R71). -/
def execHandoverWindowClose (core : Nat) (s : State) : Host.Outcome State Fault Refusal := .next (s.windowClose core)

/-! ### Slot boundaries (R70) -/

/-- The entry whose span of a cycle of lengths holds `x` µs, from entry `j`. -/
def slotAt (p : Partition) (x : Nat) : Nat → Nat → Nat
  | 0, j => j
  | fuel + 1, j =>
    let len := fld ((p.slots.look j).getD 0) 32 20
    if x < len then j else if j + 1 < p.slcnt then slotAt p (x - len) fuel (j + 1) else j

/-- The length of a partition's slot-table cycle, in µs (R70). -/
def Partition.slotTotal (p : Partition) : Nat := ((List.range p.slcnt).map fun j => fld ((p.slots.look j).getD 0) 32 20).sum

/-- The slot-table position at a PTP time; none before SLEPOCH (R70). -/
def Partition.posAt (p : Partition) (w : Nat) : Option Nat :=
  let total := p.slotTotal
  if p.slcnt = 0 ∨ total = 0 ∨ w < p.epoch.toNat then none
  else some (slotAt p ((w - p.epoch.toNat) / 1000 % total) 64 0)

/-- The slot-table position at the present PTP time. -/
def State.slotPos (s : State) (part : Nat) : Option Nat := (s.partition part).posAt s.wall

/-- The times at which the entries of a partition's slot table begin cycle `c` (R70). -/
def Partition.starts (p : Partition) (c : Nat) : List Nat :=
  (List.range p.slcnt).map fun j =>
    p.epoch.toNat + 1000 * (c * p.slotTotal + ((List.range j).map fun i => fld ((p.slots.look i).getD 0) 32 20).sum)

/-- The cycle of a slot table that a time lies in, the first before SLEPOCH. -/
def Partition.slotCycle (p : Partition) (w : Nat) : Nat := (w - p.epoch.toNat) / (1000 * p.slotTotal)

/-- The slot boundaries after `a` and up to `b`; of a longer time those of its last cycle, which all earlier ones repeat. -/
def Partition.boundariesIn (p : Partition) (a b : Nat) : List Nat :=
  let c := p.slotCycle b
  ((if c = 0 then [] else p.starts (c - 1)) ++ p.starts c).filter fun x => a < x && x ≤ b && b < x + 1000 * p.slotTotal

/-- The next slot boundary after a time; the time itself where there is no slot table. -/
def Partition.nextBoundary (p : Partition) (w : Nat) : Nat :=
  let c := p.slotCycle w
  ((p.starts c ++ p.starts (c + 1)).find? (w < ·)).getD w

/-- The function of a slot-table position. -/
def Partition.slotFn (p : Partition) (j : Nat) : Nat := fld ((p.slots.look j).getD 0) 52 11

/-- Every core of a partition opens its handover window; one that is still open goes on with the new incoming tenant, and every
slot hands over again (R71). -/
def State.openWindows (s : State) (part outFn inFn : Nat) : State :=
  (s.partition part).cores.foldl (fun (s : State) d => s.modCore d fun c =>
    { c with handover := some ⟨outFn, inFn, c.cycle, [], []⟩ }) s

/-- The partition reaches the slot-table position of a time; where FN changes, its cores hand over (R70, R71). -/
def State.reachSlot (s : State) (part w : Nat) : State :=
  let p := s.partition part
  match p.posAt w with
  | none => s
  | some j =>
    if p.st ≠ 1 ∨ p.slotNow = some j then s
    else
      let s1 := s.modPart part fun x => { x with slotNow := some j, tried := [] }
      match p.slotNow with
      | some i => if p.slotFn i = p.slotFn j then s1 else s1.openWindows part (p.slotFn i) (p.slotFn j)
      | none => s1

/-- SLOT_BOUNDARY: the partition reaches the slot-table position of the present time (R70). -/
def State.slotBoundary (s : State) (part : Nat) : State := s.reachSlot part s.wall

/-- SLOT_BOUNDARY (R70). -/
def execSlotBoundary (part : Nat) (s : State) : Host.Outcome State Fault Refusal := .next (s.slotBoundary part)

/-! ### Serving a turn (R86) -/

/-- The thread that a turn was given to: it stops or freezes where that is due, and otherwise issues next. A thread of a
unit that is being saved stops as at pre-emption (R95, R120, R213, R361). -/
def State.give (s : State) (t : Nat) : State :=
  let c := s.ctx t
  if c.stop ∧ s.mayStop t = true then s.threadStop t
  else if s.savingTask c.task ∧ s.mayStop t = true then (if s.chuckUsed c.core < 32 then s.toChuck t else s)
  else if c.freezeDue.isEmpty then { s with pick := some t } else s.freeze t

/-- The core's cycle ends, and the next core's turn follows. -/
def State.tick (s : State) (d : Nat) : State :=
  { s.modCore d fun c => { c with cycle := c.cycle + 1 } with focus := (d + 1) % s.part.cores }

/-- The thread of a slot is to stop at the first turn it owns, even if it is not Ready then (R361). -/
def State.stopDue (s : State) (d k : Nat) : Bool := ((s.inSlot d k).map fun t => (s.ctx t).stop).getD false

/-- Stop broadcasts whose hit lies four cycles back reach their core before its turn (R213, R360). -/
def State.stopsDue (s : State) (d : Nat) : State :=
  let due := (s.cluster (s.clusterOf d)).stops.filter fun x => x.core = d && x.at_ + 4 ≤ s.cycleOf d
  due.foldl (fun (s : State) _ => s.stopCore d) s

/-- SERVE_TURN: one cycle of a core (R85, R86). A stop reaches it by H + 4 (R213). A slot that has yet to hand over does so in its owned turn (R71), and a thread
that is to stop stops there (R361). -/
def State.serve (s : State) (d : Nat) : State :=
  let s0 := (s.settle d).stopsDue d
  let s1 := if (s0.core d).turnNo = 0 then s0.boundary d else s0
  let x := (s1.core d).turn (s1.core d).turnNo
  let s2 :=
    if x.ov ∧ (s1.core d).toHand x.tslot = true then s1.handSlot d x.tslot
    else if x.ov ∧ s1.stopDue d x.tslot = true then s1.threadStop ((s1.inSlot d x.tslot).getD 0)
    else match (s1.chooseSlot d).bind (s1.inSlot d) with
      | some t => s1.give t
      | none => s1
  (s2.handRest d).tick d

/-- SERVE_TURN (R86). -/
def execServeTurn (core : Nat) (s : State) : Host.Outcome State Fault Refusal := .next (s.serve core)

end Sys2Proof.Machine
end

