-- ==== Sys2Proof/Machine/Traps.lean ====
section
/-! DEFINITION. Traps that are taken before a thread's next issue (R204, R207), sections that end by a trap (R156), and the
mailbox (R208). -/

namespace Sys2Proof.Machine

/-! ### TRAP_DELIVER -/

/-- A delegated section has ended by a trap that its handler does not take: it is parked or stopped with its caller still
waiting (R156). -/
def Ctx.sectionDead (c : Ctx) : Bool := c.caller.isSome && (c.park = .trapped || c.park = .stopped)

/-- A resident thread that would issue now: neither frozen, nor reached by a stop that freezes it before its next issue (R86,
R213). -/
def State.mayTake (s : State) (t : Nat) : Bool :=
  let c := s.ctx t
  c.place.resident && ¬ s.blocked t && ¬ c.stays && c.freezeDue.isEmpty && ¬ s.handStopped t

/-- TRAP_DELIVER: a section that ended by a trap is released and its requester told; otherwise the pending trap of the
thread is taken before its next issue (R156, R204, R207). -/
def State.trapDeliver (s : State) (t : Nat) : State :=
  let c := s.ctx t
  if c.sectionDead then s.sectionTrapped t
  else match c.pending with
    | some r => if s.mayTake t then (s.modCtx t Ctx.dropPending).takeTrap t r (wordPos c.pc) else s
    | none => s

/-- TRAP_DELIVER (R207). -/
def execTrapDeliver (tid : Nat) (s : State) : Host.Outcome State Fault Refusal := .next (s.trapDeliver tid)

/-! ### The mailbox (R208) -/

/-- Messages of a mailbox: BASE and NLOG place 2^NLOG of 64 bytes. -/
def Partition.mailPa (p : Partition) : Nat := p.mboxBase + 64 * p.mboxIdx

/-- Bytes 8–63 of a message. -/
def Mail.tail (m : Mail) : List Word := [m.pc, m.taddr, m.tinfo, m.time, m.x5, m.x6, m.x7]

/-- Write a message at its place: bytes 8–63, then doubleword 0 with fill semantics (R208). -/
def State.mailWrite (s : State) (pa : Nat) (m : Mail) : State :=
  let s1 := m.tail.zipIdx.foldl (fun (s : State) (e : Word × Nat) => s.homeWrite none (pa + 8 + 8 * e.2) 8 e.1.toNat) s
  ((s1.homeWrite none pa 8 m.dw0.toNat).setFull pa).wake pa

/-- MAILBOX_POST: the oldest waiting message is written once the indexed message has been taken (R208, R269, R359). No message
is written to a sealed frame (R57). -/
def State.mailboxPost (s : State) (part : Nat) : State :=
  let p := s.partition part
  match p.mail with
  | [] => s
  | m :: rest =>
    if ¬ p.mboxV ∨ s.isFull p.mailPa ∨ s.sealedAt p.mailPa 64 then s
    else ((s.zeroFirst p.mailPa 64).mailWrite p.mailPa m).modPart part fun x =>
      { x with mail := rest, mboxIdx := (x.mboxIdx + 1) % 2 ^ x.mboxLog }

/-- MAILBOX_POST (R208). -/
def execMailboxPost (part : Nat) (s : State) : Host.Outcome State Fault Refusal := .next (s.mailboxPost part)

/-- BASE of a mailbox register. -/
def mboxBaseOf (w : Word) : Nat := fld w 6 46 * 64

/-- Every frame of a physical range is the partition's (R72). -/
def State.rangeOwned (s : State) (part pa n : Nat) : Bool :=
  (List.range ((n + 4095) / 4096 + 1)).all fun k =>
    (pa - pa % 4096) + 4096 * k ≥ pa + n || s.owner ((pa - pa % 4096) + 4096 * k) = .part part

/-- The limits of a MBOX register that sets or keeps V: NLOG, and BASE in shared SRAM that the partition owns (R208). -/
def State.mboxOk (s : State) (part : Nat) (w : Word) : Bool :=
  let nlog := fld w 56 4
  let base := mboxBaseOf w
  4 ≤ nlog && nlog ≤ 12 && (match s.target base, s.target (base + 64 * 2 ^ nlog - 1) with
    | some (.sram a _), some (.sram b _) => a = b
    | _, _ => false) && s.rangeOwned part base (64 * 2 ^ nlog)

/-- MBOX_WRITE (R208). -/
def State.mboxWrite (s : State) (part : Nat) (w : Word) : State :=
  let p := s.partition part
  let nlog := fld w 56 4
  let base := mboxBaseOf w
  if ¬ bit w 63 then
    (if p.mboxV ∧ (p.mboxLog ≠ nlog ∨ p.mboxBase ≠ base) then s
      else s.modPart part fun x => { x with mboxV := false, mboxLog := nlog, mboxBase := base })
  else if ¬ s.mboxOk part w then s
  else if p.mboxV then s
  else s.modPart part fun x => { x with mboxV := true, mboxLog := nlog, mboxBase := base, mboxIdx := 0 }

/-- MBOX_WRITE (R208). -/
def execMboxWrite (part : Nat) (value : Word) (s : State) : Host.Outcome State Fault Refusal := .next (s.mboxWrite part value)

end Sys2Proof.Machine
end

