-- ==== Sys2Proof/Machine/Parting.lean ====
section
/-! DEFINITION. The Parting unit (R113–R124, R325, R326), the retirement of tasks (R83), and digests (R58, R327, R328). -/

namespace Sys2Proof.Machine

/-! ### Commands end -/

/-- A host command ends with a status, an address and results (R49, R50). -/
def State.finish (s : State) (id : Nat) (status : Nat) (addr res0 res1 : Word) : State :=
  { s with cmds := s.cmds.map fun c =>
      if c.id = id then { c with st := .finished (BitVec.ofNat 8 status) addr res0 res1 } else c }

/-! ### Deadlines and units -/

def State.deadlineOf (s : State) (p e : Nat) : Deadline := ((s.partition p).dls.look e).getD Deadline.reset
def State.modDeadline (s : State) (p e : Nat) (f : Deadline → Deadline) : State :=
  s.modPart p fun x => { x with dls := x.dls.put e (f ((x.dls.look e).getD Deadline.reset)) }
def State.modUnit (s : State) (p e i : Nat) (f : DUnit → DUnit) : State :=
  s.modDeadline p e fun d => { d with units := d.units.modify i f }

/-- Tc of R119. -/
def Deadline.cutoff (d : Deadline) : Nat := d.time - 32

/-- The task has a core in an interval. -/
def Task.inside (k : Task) (base len : Nat) : Bool := k.crews.flatten.any fun d => base ≤ d && d < base + len

/-- A pipeline has a stage wholly outside an interval: one that is placed, on cores outside it (R116). -/
def State.stageOutside (s : State) (p base len : Nat) (x : Pipe) : Bool :=
  x.chain.any fun i => match (((s.partition p).insts.look i).bind fun (y : Inst) => y.task).bind s.tasks.look with
    | some k => ¬ k.ckptd && ¬ k.inside base len
    | none => false

/-- The instance of a task forms a unit of its own (R116, R122). -/
def State.sharedOut (s : State) (p base len : Nat) (k : Task) : Bool :=
  match k.inst with
  | some i => ((s.partition p).through i).any fun (e : Nat × Pipe) => s.stageOutside p base len e.2
  | none => false

/-- Put an ordinary task into its queue's unit, units in ascending (function, queue) (R116, R119). -/
def joinUnit (fn q task : Nat) : List DUnit → List DUnit
  | [] => [⟨fn, q, none, [task], .run, false, 0⟩]
  | u :: l =>
    if u.fn = fn ∧ u.queue = q then { u with tasks := u.tasks ++ [task] } :: l
    else if fn < u.fn ∨ (fn = u.fn ∧ q < u.queue) then ⟨fn, q, none, [task], .run, false, 0⟩ :: u :: l
    else u :: joinUnit fn q task l

/-- Put a shared instance's unit in ascending instance number (R119). -/
def addShared (x : DUnit) : List DUnit → List DUnit
  | [] => [x]
  | u :: l => if x.shared.getD 0 < u.shared.getD 0 then x :: u :: l else u :: addShared x l

/-- The units of an interval: ordinary ones, then shared ones (R116). -/
def State.unitsOf (s : State) (p base len : Nat) : List DUnit :=
  let ts := s.tasks.filter fun (e : Nat × Task) => e.2.part = p && ¬ e.2.ckptd && e.2.inside base len
  let ord := (ts.filter fun (e : Nat × Task) => ¬ s.sharedOut p base len e.2).foldl (fun l (e : Nat × Task) => joinUnit e.2.fn e.2.queue e.1 l) []
  let shr := (ts.filter fun (e : Nat × Task) => s.sharedOut p base len e.2).foldl (fun l (e : Nat × Task) =>
    addShared ⟨e.2.fn, e.2.queue, e.2.inst, [e.1], .run, false, 0⟩ l) []
  ord ++ shr

/-! ### Reports (R124, R326) -/

/-- OUT of a unit. -/
def UnitState.out : UnitState → Nat
  | .run | .saving => 1
  | .ran => 2
  | .saved => 3
  | .discarded => 4

/-- The unit's report; an ordinary unit's stands before a shared one of its queue (R326). -/
def State.report (s : State) (p e : Nat) (u : DUnit) : State :=
  let d := s.deadlineOf p e
  if u.shared.isSome ∧ (d.units.any fun v => v.shared.isNone && v.fn = u.fn && v.queue = u.queue) = true then s
  else
    let r : Report := ⟨d.origin, e, u.st.out, if u.st.out = 1 then 0 else u.decided⟩
    s.modPart p fun x => { x with reports := x.reports.put (queueKey u.fn u.queue) r }

/-- A unit takes a state; its report follows, if the queue's report is still of this entry. -/
def State.setUnit (s : State) (p e i : Nat) (st : UnitState) (decided : Nat) : State :=
  let s1 := s.modUnit p e i fun u => { u with st := st, decided := decided }
  match (s1.deadlineOf p e).units[i]? with
  | none => s1
  | some u => match (s1.partition p).reports.look (queueKey u.fn u.queue) with
    | some r => if r.entry = e then s1.report p e u else s1
    | none => s1

/-- RES0 of DEADLINE (R52, R120). -/
def Deadline.counts (d : Deadline) : Word :=
  let n (st : UnitState) : Nat := (d.units.filter fun u => u.st = st).length
  word (n .ran + 2 ^ 16 * n .saved + 2 ^ 32 * n .discarded)

/-- The entry becomes vacant once every unit is final, and a DEADLINE command ends (R120). -/
def State.vacancy (s : State) (p e : Nat) : State :=
  let d := s.deadlineOf p e
  if ¬ d.v ∨ d.vacant ∨ (d.units.any fun u => u.st = .run || u.st = .saving) = true then s
  else
    let s1 := s.modDeadline p e fun d => { d with vacant := true, cmd := none }
    match d.cmd with
    | some c => s1.finish c 0 0 d.counts (word s.wall)
    | none => s1

/-! ### Dirty state and estimates (R117, R118) -/

/-- Bytes of an engine register (R117). -/
def eregBytes : EReg → Nat
  | .v _ => 1024
  | .t _ => 2048
  | .a _ => 4096
  | .td _ | .gen => 0

/-- Threads of a task on a core. -/
def State.threadsOn (s : State) (task d : Nat) : List Nat :=
  (s.ctxs.filter fun (e : Nat × Ctx) => e.2.task = task && e.2.core = d).map (·.1)

/-- dirty[u, c] for one task (R117). -/
def State.dirtyBytes (s : State) (task d : Nat) : Nat :=
  let c := s.core d
  let ts := s.threadsOn task d
  64 * (c.dirtyTcm.filter fun (e : Nat × Nat) => e.1 = task).length + 4096 * (c.dirtySp.filter fun (e : Nat × Nat) => e.1 = task).length +
    ((ts.filterMap s.engOf).map fun e => (e.dirty.map eregBytes).sum).sum + 1024 * ts.length

/-- Remaining iterations of a task's active nests, and the unused parts of its threads' chunks (R118). -/
def State.itersLeft (s : State) (task : Nat) : Option Nat :=
  let nests := (s.ctxs.filter fun (e : Nat × Ctx) => e.2.task = task).filterMap fun (e : Nat × Ctx) => e.2.nest
  if nests.isEmpty then none
  else
    let recs := nests.foldl (fun l (x : Nest) => insertNat l x.pa) []
    some ((recs.map fun a => s.rd a 8).sum + (nests.map fun x => if x.ended then 0 else (x.last - x.n).toNat).sum)

/-- The completion estimate of a task, in ps; none is infinite (R118). -/
def State.estTask (s : State) (id : Nat) (k : Task) : Option Nat :=
  let done := (k.iters.filter fun w => s.wall < w + 20000).length
  let budget : Option Nat :=
    if k.pkt.budget ≠ 0 ∧ s.wall - k.since < k.pkt.budget * 1000 then some ((k.pkt.budget * 1000 - (s.wall - k.since)) * 1000)
    else none
  match s.itersLeft id with
  | some n => if 0 < done then some (n * 20_000_000 / done) else budget
  | none => budget

/-- Est(u): the largest of its tasks that have not retired (R118). -/
def State.estUnit (s : State) (u : DUnit) : Option Nat :=
  u.tasks.foldl (fun (a : Option Nat) id => match a, s.tasks.look id with
    | some x, some k => (s.estTask id k).map (max x)
    | some x, none => some x
    | none, _ => none) (some 0)

/-! ### Decision ticks (R119) -/

def mcfgMargin (w : Word) : Nat := fld w 32 10
def mcfgBw (w : Word) : Nat := fld w 20 6
def mcfgFixt (w : Word) : Nat := fld w 0 16

/-- Cores of a unit: those of its tasks, and those that hold their contexts. -/
def State.unitCores (s : State) (u : DUnit) : List Nat :=
  let a := (u.tasks.map s.spanCores).flatten
  let b := (s.ctxs.filter fun (e : Nat × Ctx) => e.2.task ≠ 0 && u.tasks.contains e.2.task).map fun (e : Nat × Ctx) => e.2.core
  (a ++ b).foldl insertNat []

/-- end[c] in ps (R119). -/
def State.endAt (s : State) (p : Nat) (u : DUnit) (d : Nat) : Nat :=
  let w := (s.partition p).ptcfg
  let dirty := (u.tasks.map fun t => s.dirtyBytes t d).sum
  let threads := (u.tasks.map fun t => (s.threadsOn t d).length).sum
  let bw := max 1 (mcfgBw w)
  max (s.wall * 1000) (s.core d).busyPs + (dirty * 1000 + bw - 1) / bw + mcfgFixt w * threads * 1000

/-- A function's checkpoint area on a core: OFF MiB into the vault above it (R115). -/
def State.ckptBase (s : State) (fn d : Nat) : Nat := s.corePa 1 d (fld ((s.ckoff.look fn).getD 0) 20 7 * 2 ^ 20)

/-- What of a function's checkpoint area on a core is not free, as first byte and bytes: its images there, and frames that take
no write, sealed ones and those of an audit log (R57, R58, R115). -/
def State.areaTaken (s : State) (fn d : Nat) : List (Nat × Nat) :=
  let a := s.ckptBase fn d
  ((s.images.filter fun i => i.fn = fn && i.core = d).map fun i => (a + i.off, i.bytes)) ++
    (s.sealed.map fun f => (f * 4096, 4096)).filter (fun x => overlap x.1 x.2 a (2 ^ 24)) ++
    (s.parts.map fun (p : Nat × Partition) => (p.2.audAt, p.2.audLen)).filter fun x => overlap x.1 x.2 a (2 ^ 24)

/-- Bytes of a function's checkpoint area on a core that are not free (R115). -/
def State.areaUsed (s : State) (fn d : Nat) : Nat :=
  let a := s.ckptBase fn d
  ((s.areaTaken fn d).map fun x => min (x.1 + x.2) (a + 2 ^ 24) - max x.1 a).sum

/-- The first place in a function's checkpoint area on a core that is free for `n` bytes (R115). -/
def State.areaPlace (s : State) (fn d n : Nat) : Nat :=
  let a := s.ckptBase fn d
  let mine := s.areaTaken fn d
  ((0 :: mine.map fun x => x.1 + x.2 - a).find? fun o =>
    o + n ≤ 2 ^ 24 && mine.all fun x => ¬ overlap (a + o) n x.1 x.2).getD 0

/-- Write an image to its place in the checkpoint area: the spec lays out no image, so its bytes are free values (R115, R121,
notes/assumptions/123.md). -/
def State.writeImage (s : State) (i : Image) : State :=
  s.writeOpaque (s.ckptBase i.fn i.core + i.off) i.bytes

/-- Whether a unit can be saved by the cutoff (R119). -/
def State.unitFits (s : State) (p : Nat) (x : Deadline) (u : DUnit) : Bool :=
  bit ((s.ckoff.look u.fn).getD 0) 63 && (s.unitCores u).all fun d =>
    s.endAt p u d ≤ x.cutoff * 1000 && s.areaUsed u.fn d + (u.tasks.map fun t => s.dirtyBytes t d).sum ≤ 2 ^ 24

/-- Room in the areas is taken for a unit's images, and an ordinary unit's checkpoint writes are committed on its cores
(R119). -/
def State.commit (s : State) (p : Nat) (u : DUnit) : State :=
  let cs := s.unitCores u
  let take (s : State) (d t : Nat) : State :=
    let n := s.dirtyBytes t d
    { s with images := s.images ++ [⟨t, u.fn, d, [], [], [], ⟨[], []⟩, [], s.areaPlace u.fn d n, n, false⟩] }
  let ends := if u.shared.isSome then [] else cs.map fun d => (d, s.endAt p u d)
  let s1 := ends.foldl (fun (s : State) (e : Nat × Nat) => s.modCore e.1 fun c => { c with busyPs := e.2 }) s
  cs.foldl (fun (s : State) d => u.tasks.foldl (fun (s : State) t => take s d t) s) s1

/-- The owning pipeline of a discarded stage's instance leaves (R110), after the instance has failed (R109, R121). -/
def State.discardInst (s : State) (p : Nat) (inst : Option Nat) : State :=
  match inst with
  | none => s
  | some i => match (s.partition p).insts.look i with
    | none => s
    | some x => (s.instanceFail p i).pipeLeave p x.owner

/-- Discard(u) (R121). -/
def State.discardUnit (s : State) (p e i : Nat) (u : DUnit) (decided : Nat) : State :=
  let s1 := u.tasks.foldl (fun (s : State) t => match s.tasks.look t with
    | some k => (s.taskDiscarded t codeDiscard).discardInst p k.inst
    | none => s) s
  s1.setUnit p e i .discarded decided

/-- One unit in a tick (R119). -/
def State.tickUnit (s : State) (p e i : Nat) : State :=
  let x := s.deadlineOf p e
  match x.units[i]? with
  | none => s
  | some u =>
    let stays : Bool := match s.estUnit u with
      | some est => decide (s.wall * 1000 + est + mcfgMargin (s.partition p).ptcfg * 1_000_000 ≤ x.cutoff * 1000)
      | none => false
    if u.st ≠ .run then s
    else if stays then s.modUnit p e i fun u => { u with decided := s.wall }
    else if s.unitFits p x u then (s.commit p u).setUnit p e i .saving s.wall
    else if u.shared.isSome then
      (s.modUnit p e i fun u => { u with cursorForm := true }).setUnit p e i .saving s.wall
    else s.discardUnit p e i u s.wall

/-- Tick(now) (R119). -/
def State.tickAll (s : State) (p e : Nat) : State :=
  let n := (s.deadlineOf p e).units.length
  let s1 := (List.range n).foldl (fun (s : State) i => s.tickUnit p e i) s
  (s1.modDeadline p e fun d => { d with lastTick := some s.wall }).vacancy p e

/-- PARTING_TICK: every 5 µs while the entry is deciding (R119). -/
def State.partingTick (s : State) (p e : Nat) : State :=
  let d := s.deadlineOf p e
  match d.lastTick with
  | some w => if d.v ∧ ¬ d.vacant ∧ ¬ d.cut ∧ w + 5000 ≤ s.wall then s.tickAll p e else s
  | none => s

/-- PARTING_TICK (R119). -/
def execPartingTick (part entry : Nat) (s : State) : Host.Outcome State Fault Refusal := .next (s.partingTick part entry)

/-! ### Saving (R121, R122) -/

/-- Ownership of a saved shared instance passes to the oldest attached pipeline with a stage wholly outside the interval
(R122). -/
def State.passOwner (s : State) (p i : Nat) (d : Deadline) : State :=
  let l := ((s.partition p).through i).filter fun (e : Nat × Pipe) => s.stageOutside p d.base d.len e.2
  match oldest l, (s.partition p).insts.look i with
  | some k, some x => if x.owner = k then s else s.newOwner p i k
  | _, _ => s

/-- The instance of a saved task is HELD (R109). -/
def State.holdInst (s : State) (p : Nat) (inst : Option Nat) (f : Inst → Inst) : State :=
  match inst with
  | none => s
  | some i => s.modPart p fun q => { q with insts := q.insts.map fun (e : Nat × Inst) =>
      if e.1 = i ∧ e.2.st = .live then (e.1, f { e.2 with st := .held }) else e }

/-- A context in transit whose message has arrived, at the core it arrived at (R116). -/
def State.arrivedAt (s : State) (t : Nat) : Option Nat :=
  (s.flights.find? fun m => (m.op = .context t || m.op = .stealRep (some t)) && (m.loc = .home || m.loc = .refused)).bind fun m =>
    match s.target m.pa with
    | some (.tcm d _) => some d
    | _ => none

/-- The context of a saving unit has stopped and everything of it has completed (R95, R178, R210). -/
def State.savable (s : State) (t : Nat) : Bool :=
  let c := s.ctx t
  let core := s.core c.core
  (match c.place with
    | .slot _ _ => s.mayStop t
    | .transit _ _ => (s.arrivedAt t).isSome
    | _ => true) && s.settled t && ¬ core.engineWork t && ¬ core.cq.any fun x => x.tid = t

/-- Where a saved context is to be found by the placer (R121, R123). -/
def State.ckptPlace (s : State) (t : Nat) : Place :=
  match (s.ctx t).place with
  | .slot d k | .chuck d k | .save d k | .ckpt d k => .ckpt d k
  | .deque d => .ckpt d ckptDeque
  | .inbound d => .ckpt d ckptInbound
  | .setAside d => .ckpt d ckptAside
  | .transit d _ => .ckpt ((s.arrivedAt t).getD d) ckptInbound

/-- Save one context: its message, list place and engine context are given up (R121). -/
def State.saveCtx (s : State) (t : Nat) : State :=
  let pl := s.ckptPlace t
  let s1 := ((s.carryErrors t).unlist t).vacate t pl
  let s2 := { s1 with flights := s1.flights.filter fun m => m.op ≠ HomeOp.context t && m.op ≠ HomeOp.stealRep (some t) }
  s2.freeClaim t

/-- The image of a task on a core (R117, R121). -/
def State.imageOf (s : State) (task fn d : Nat) : Image :=
  let c := s.core d
  let foot := c.tcm.filter fun (e : Nat × Nat × Nat) => e.1 = task
  let base := (foot.head?.map fun (e : Nat × Nat × Nat) => e.2.1 * 4096).getD 0
  let seg := 4 * 2 ^ 48 + s.clusterOf d * 2 ^ 21 + s.coreInCluster d * 0x4_0000
  let piece (pa n : Nat) : List Byte × List Nat :=
    (s.rdBytes pa n, (s.empt.filter fun a => pa ≤ a && a < pa + n).map fun a => a - pa)
  let lines := (c.dirtyTcm.filter fun (e : Nat × Nat) => e.1 = task &&
    foot.any fun (f : Nat × Nat × Nat) => f.2.1 * 4096 ≤ e.2 * 64 && e.2 * 64 < (f.2.1 + f.2.2) * 4096).map fun (e : Nat × Nat) => e.2 * 64
  let regions := (c.dirtySp.filter fun (e : Nat × Nat) => e.1 = task).map fun (e : Nat × Nat) => e.2 * 4096
  { task := task, fn := fn, core := d,
    tcm := lines.map fun o => (o - base, piece (s.corePa 5 d o) 64),
    sp := regions.map fun o => (o, piece (seg + o) 4096),
    engines := (s.threadsOn task d).filterMap s.engOf,
    deque := c.deque task,
    inbound := c.inbound.filter fun t => (s.ctx t).task = task,
    off := ((s.images.find? fun i => i.task = task && i.core = d).map Image.off).getD 0,
    bytes := s.dirtyBytes task d, valid := true }

/-- The packet of a saved task is a resumable entry at the head of its queue (R80, R121). -/
def State.resumable (s : State) (k : Task) (f : QPkt → QPkt) : State :=
  (s.modTqueue k.fn k.queue TaskQueue.joins).modPacket k.fn k.queue k.index fun x => { f x with st := .resumable s.wall }

/-- Write the images of a task, zero what it held, release its room; its packet is a resumable entry (R121). -/
def State.saveTask (s : State) (p fn id : Nat) (cores : List Nat) : State :=
  match s.tasks.look id with
  | none => s
  | some k =>
    let imgs := cores.map fun d => s.imageOf id fn d
    let ts := (s.ctxs.filter fun (e : Nat × Ctx) => e.2.task = id).map (·.1)
    let s1 := ts.foldl State.saveCtx { s with images := (s.images.filter fun i => i.task ≠ id) ++ imgs }
    let s2 := ((cores.foldl (fun (s : State) d => s.zeroTask id d) s1).releaseTask id p).resumable k fun x => x
    (imgs.foldl State.writeImage { s2 with tasks := s2.tasks.put id { k with ckptd := true } }).holdInst p k.inst id_
where
  /-- Nothing else of the instance changes. -/
  id_ (x : Inst) : Inst := x

/-- The cursor form: threads are cleared, the reserve index of the output ring goes back to the publish cursor, and the
instance's packet waits to start afresh (R122). A ring operation of theirs that has not been performed by then is not: the
stage recomputes its item. -/
def State.saveCursor (s : State) (p id : Nat) (cores : List Nat) : State :=
  match s.tasks.look id with
  | none => s
  | some k =>
    let ts := (s.ctxs.filter fun (e : Nat × Ctx) => e.2.task = id).map (·.1)
    let s0 := { s with flights := s.flights.filter fun m => ¬ (ts.contains m.tid && m.op.isRing && m.coming) }
    let s1 := ts.foldl State.discardThread s0
    let s2 := ((cores.foldl (fun (s : State) d => s.zeroTask id d) s1).cancelTask id).releaseTask id p
    let s3 := { s2 with tasks := s2.tasks.del id, images := s2.images.filter fun i => i.task ≠ id }
    let s4 := match k.inst.bind (s3.partition p).insts.look with
      | some x => if s3.sealedAt x.outRing 64 then s3 else (s3.wr x.outRing 8 (s3.ringPub x.outRing)).ringWake x.outRing
      | none => s3
    (s4.resumable k fun x => { x with task := none }).holdInst p k.inst fun x =>
      { x with task := none, cursorForm := true }

/-- A unit is saved: the form its tick chose, then the ownership of a shared instance passes (R120, R122). -/
def State.saveUnit (s : State) (p e i : Nat) (u : DUnit) (cursor : Bool) : State :=
  let cores := s.unitCores u
  let s1 := u.tasks.foldl (fun (s : State) t =>
    if cursor then s.saveCursor p t cores else s.saveTask p u.fn t cores) s
  let s2 := match u.shared with
    | some x => s1.passOwner p x (s.deadlineOf p e)
    | none => s1
  (s2.setUnit p e i .saved u.decided).vacancy p e

/-- CHECKPOINT_IMAGES_WRITTEN: once every context of a saving unit has stopped, its instructions in flight complete, touched banks
are probed, and the images are written when everything of it has completed (R120, R121, R174). -/
def State.imagesWritten (s : State) (p e i : Nat) : State :=
  match (s.deadlineOf p e).units[i]? with
  | none => s
  | some u =>
    let ts := (s.ctxs.filter fun (x : Nat × Ctx) => x.2.task ≠ 0 && u.tasks.contains x.2.task).map (·.1)
    if ¬ (s.deadlineOf p e).v ∨ u.st ≠ .saving then s
    else if u.cursorForm then
      (if (ts.any fun t => (s.ctx t).place.resident && ¬ s.mayStop t) ||
          (s.flights.any fun m => ts.contains m.tid && m.op.isRing && m.coming) then s else s.saveUnit p e i u true)
    else
      let s0 := (s.unitCores u).foldl State.settle s
      if ts.any fun t => (s0.ctx t).place.resident && ¬ s0.mayStop t then s0
      else
      let s0 := ts.foldl State.finishTcm s0
      match ts.find? fun t => (s0.ctx t).touched ≠ 0 with
      | some t => s0.probeOut t
      | none => if ts.all s0.savable then s0.saveUnit p e i u false else s0

/-- CHECKPOINT_IMAGES_WRITTEN (R120). -/
def execCheckpointImagesWritten (part entry unit : Nat) (s : State) : Host.Outcome State Fault Refusal :=
  .next (s.imagesWritten part entry unit)

/-! ### Cutoff (R121) -/

/-- A unit that is not final at the cutoff: discarded, or, a shared one, saved in cursor form (R121, R122). -/
def State.cutUnit (s : State) (p e i : Nat) : State :=
  let d := s.deadlineOf p e
  match d.units[i]? with
  | none => s
  | some u => match u.st with
    | .run | .saving =>
      if u.shared.isSome then s.saveUnit p e i { u with decided := if u.st = .run then d.cutoff else u.decided } true
      else s.discardUnit p e i u d.cutoff
    | .ran | .saved | .discarded => s

/-- The cutoff of an entry (R121). -/
def State.cutoffNow (s : State) (p e : Nat) : State :=
  let n := (s.deadlineOf p e).units.length
  ((List.range n).foldl (fun (s : State) i => s.cutUnit p e i) (s.modDeadline p e fun d => { d with cut := true })).vacancy p e

/-- PARTING_CUTOFF (R121). -/
def State.partingCutoff (s : State) (p e : Nat) : State :=
  let d := s.deadlineOf p e
  if d.v ∧ ¬ d.vacant ∧ ¬ d.cut ∧ d.cutoff ≤ s.wall then s.cutoffNow p e else s

/-- PARTING_CUTOFF (R121). -/
def execPartingCutoff (part entry : Nat) (s : State) : Host.Outcome State Fault Refusal := .next (s.partingCutoff part entry)

/-! ### Posting and reopening (R113, R325) -/

/-- The free entry for an interval: none without one, or on an overlap (R113). -/
def State.freeEntry (s : State) (p base len : Nat) : Option Nat :=
  if (List.range 4).any fun e => (s.deadlineOf p e).v && overlap (s.deadlineOf p e).base (s.deadlineOf p e).len base len then none
  else (List.range 4).find? fun e => ¬ (s.deadlineOf p e).v

/-- An interval within a partition (R53, R325). -/
def State.intervalOk (s : State) (p base len : Nat) : Bool :=
  1 ≤ len && len ≤ 4096 && (s.partition p).base ≤ base && base + len ≤ (s.partition p).base + (s.partition p).len

/-- A deadline is accepted: the interval closes, its units form and are reported pending, and the first tick runs (R116, R119).
A cutoff that lies in the past is taken at once (R121): no tick runs before it, and the decision time of what it discards is
Tc, though that lies before acceptance (DESIGN CHOICE, notes/assumptions/143.md). -/
def State.accept (s : State) (p e base len time : Nat) (origin : Bool) (cmd : Option Nat) : State :=
  let us := s.unitsOf p base len
  let s1 := s.modDeadline p e fun _ => ⟨true, false, origin, base, len, time, us, cmd, none, false⟩
  let s2 := us.foldl (fun (s : State) u => s.report p e u) s1
  if time ≤ s.wall + 32 then s2.cutoffNow p e else s2.tickAll p e

/-- The interval of a vacant entry opens again (R113). -/
def State.reopen (s : State) (p e : Nat) : State :=
  if (s.deadlineOf p e).v ∧ (s.deadlineOf p e).vacant then
    (s.modDeadline p e fun d => { d with v := false, vacant := false, units := [] }).modPart p fun x => { x with tried := [] }
  else s

/-- DEADLINE_REOPEN: a write of PDLB with REOPEN set (R113). -/
def execDeadlineReopen (part entry : Nat) (value : Word) (s : State) : Host.Outcome State Fault Refusal :=
  .next (if bit value 60 then s.reopen part entry else s)

/-- A refusal of part.post. -/
def postRefusal (k : Nat) : Word := word (2 ^ 63 + k)

/-- part.post rd, ra, rb (R325). -/
def execPartPost (rd ra rb : Reg) (s : State) : Host.Outcome State Fault Refusal :=
  let a := s.src ra
  let time := (s.src rb).toNat
  .next (s.atS fun s => s.operands [ra, rb] [rd] fun s' =>
    let c := s'.ctx s'.iss.tid
    let p := c.part
    let e := fld a 0 2
    if bit a 63 then
      (let d := s'.deadlineOf p e
       if d.v ∧ d.vacant ∧ d.origin then (s'.reopen p e).unitReply rd 0 else s'.unitReply rd (postRefusal 3))
    else if ¬ s'.intervalOk p (fld a 16 12) (fld a 32 13) then s'.unitReply rd (postRefusal 2)
    else match s'.freeEntry p (fld a 16 12) (fld a 32 13) with
      | none => s'.unitReply rd (postRefusal 1)
      | some k => (s'.unitReply rd (word k)).accept p k (fld a 16 12) (fld a 32 13) time true none)

/-- The outcome word of a report (R326). -/
def Report.outcome (r : Report) : Word := word (b2n r.origin * 256 + r.entry * 16 + r.out)

/-- part.query rd, ra, rb (R326). -/
def execPartQuery (rd ra rb : Reg) (s : State) : Host.Outcome State Fault Refusal :=
  let a := s.src ra
  let sel := s.src rb
  .next (s.operands [ra, rb] [rd] fun s' =>
    let c := s'.ctx s'.iss.tid
    let fn := if c.lvl = .u then c.fn else fld a 8 11
    let r := (s'.partition c.part).reports.look (queueKey fn (fld a 0 6))
    s'.unitReply rd (match r with
      | some x => if sel = 0 then x.outcome else if sel = 1 then word x.decided else 0
      | none => 0))

/-! ### Retirement (R83) -/

/-- Units whose every task has retired have run; their decision time is that of the last tick at which they ran on (R119,
R120). -/
def State.unitsRan (s : State) (p : Nat) : State :=
  (List.range 4).foldl (fun (s : State) e =>
    let d := s.deadlineOf p e
    if ¬ d.v ∨ d.vacant then s
    else ((List.range d.units.length).foldl (fun (s : State) i => match d.units[i]? with
      | some u => if u.st = .run ∧ (u.tasks.any fun t => (s.tasks.look t).isSome) = false then s.setUnit p e i .ran u.decided else s
      | none => s) s).vacancy p e) s

/-- TASK_RETIRE: every thread of the task has exited (R83). -/
def State.taskRetire (s : State) (id : Nat) : State :=
  match s.tasks.look id with
  | none => s
  | some k =>
    if s.ctxs.any fun (e : Nat × Ctx) => e.2.task = id && e.2.caller.isNone then s
    else ((s.taskOver id k.exitVal).unitsRan k.part)

/-- TASK_RETIRE (R83). -/
def execTaskRetire (task : Nat) (s : State) : Host.Outcome State Fault Refusal := .next (s.taskRetire task)

/-! ### Digests (R58, R327, R328) -/

/-- dg.fold ra: one 64-byte line, through the cluster's digest engine (R327). -/
def execDgFold (ra : Reg) (s : State) : Host.Outcome State Fault Refusal :=
  let va := s.src ra &&& ~~~63#64
  .next (s.operands [ra] [] fun s' => s'.reach va 64 .read false fun pa _ s =>
    s.sendPark (s.request s.iss.tid .fold va pa none) none)

/-- Little-endian bytes of a number. -/
def leBytes (n len : Nat) : List Byte := (List.range len).map fun k => BitVec.ofNat 8 (n / 256 ^ k)

/-- A number from its little-endian bytes (R4). -/
def bytesNat (bs : List Byte) : Nat := bs.foldr (fun b a => b.toNat + 256 * a) 0

/-- Bytes of the head area after the entries of an audit log (R58). -/
def headArea : Nat := 16 * 0x4400

/-- Entries that the audit log of an active partition holds (R58). -/
def Partition.audEntries (p : Partition) : Nat := (p.audLen - headArea) / 64

/-- Entry n of the audit log (R58). -/
def auditEntry (n wall core slot asid : Nat) (digest : BitVec 256) : List Byte :=
  leBytes n 8 ++ leBytes wall 8 ++ leBytes (core + slot * 2 ^ 12 + asid * 2 ^ 16) 4 ++ leBytes 0 12 ++ beBytes digest.toNat 32

/-- dg.close rd (R328). -/
def execDgClose (rd : Reg) (s : State) : Host.Outcome State Fault Refusal :=
  .next (s.operands [] [rd] fun s' =>
    let t := s'.iss.tid
    let c := s'.ctx t
    let p := s'.partition c.part
    let n := p.audN + 1
    if p.audEntries < n then s'.raise 0x03 0 5
    else
      let e := auditEntry n s'.wall c.core c.slotNo c.asid.toNat (shaClose c.sha c.folded [])
      let at_ := p.audAt + 64 * (n - 1)
      let s1 := ((s'.zeroFirst at_ 64).homeWrite none at_ 64 (bytesNat e)).modPart c.part fun x =>
        { x with audN := n, audH := sha256 (beBytes p.audH.toNat 32 ++ e) }
      (s1.modCtx t fun c => { c with sha := (Ctx.cleared c.place).sha, folded := 0 }).unitReply rd (word n))

end Sys2Proof.Machine
end

