-- ==== Sys2Proof/Machine/Control.lean ====
section
/-! DEFINITION. Device control space (R42, R43, R58, R61–R72, R84, R94, R97, R112–R115, R208): what a write and a read of each
register does; time (R18), device links (R16, R43), function reset (R76) and teardown (R77). -/

namespace Sys2Proof.Machine

/-! ### PTP time (R18) -/

/-- What a forward step passes in a partition: the cutoff of one of its deadline entries, or a boundary of its slot table
(R18). -/
inductive Passed where
  | cutoff (part entry : Nat)
  | slot (part : Nat)
  deriving DecidableEq, Repr

/-- Everything that a step of PTP time from `a` to `b` passes, with its time: cutoffs that have come, and slot boundaries
(R18). -/
def State.passed (s : State) (a b : Nat) : List (Nat × Passed) :=
  (s.parts.map fun (p : Nat × Partition) =>
    ((p.2.dls.filter fun (e : Nat × Deadline) => e.2.v && ¬ e.2.vacant && ¬ e.2.cut && e.2.cutoff ≤ b).map fun (e : Nat × Deadline) =>
      (e.2.cutoff, Passed.cutoff p.1 e.1)) ++
    (if p.2.st = 1 then (p.2.boundariesIn a b).map fun x => (x, Passed.slot p.1) else [])).flatten

/-- Insert by ascending time, behind what has the same. -/
def insertDue (x : Nat × Passed) : List (Nat × Passed) → List (Nat × Passed)
  | [] => [x]
  | y :: l => if x.1 < y.1 then x :: y :: l else y :: insertDue x l

/-- What a forward step passes is reached at the moment of the step, in ascending order of time (R18). -/
def State.reachAll (s : State) (a : Nat) : State :=
  ((s.passed a s.wall).foldl (fun l x => insertDue x l) []).foldl (fun (s : State) (x : Nat × Passed) => match x.2 with
    | .cutoff p e => s.partingCutoff p e
    | .slot p => s.reachSlot p x.1) s

/-- A correction of PTP time: a forward one of 1 ms or more is one step, any other is slewed (R18). -/
def State.correct (s : State) (time : Nat) : State :=
  if s.wall + 1_000_000 ≤ time then { s with wall := time, slew := 0 }.reachAll s.wall
  else { s with slew := (time : Int) - s.wall }

/-- HOST of PTPCFG (R42). -/
def State.hostTime (s : State) : Bool := bit s.ptpcfg 4

/-- PTP_SET: a write of PTPSET while HOST is 1 (R42). -/
def execPtpSet (time : Word) (s : State) : Host.Outcome State Fault Refusal :=
  .next (if s.hostTime then s.correct time.toNat else s)

/-- PTP_EVENT_MESSAGE: on the selected port (R18). -/
def execPtpEventMessage (port time : Nat) (s : State) : Host.Outcome State Fault Refusal :=
  .next (if ¬ s.hostTime ∧ fld s.ptpcfg 0 4 = port ∧ (s.link port).st = 2 then s.correct time else s)

/-- PTP_SOURCE_LOST (R18). -/
def execPtpSourceLost (s : State) : Host.Outcome State Fault Refusal := .next { s with hold := true }

/-- PTP_SOURCE_RETURN (R18). -/
def execPtpSourceReturn (s : State) : Host.Outcome State Fault Refusal := .next { s with hold := false }

/-! ### Device links (R16, R43) -/

/-- LINK_RETRAIN: a write of LSTAT (R43). -/
def State.retrain (s : State) (port : Nat) (w : Word) : State :=
  if bit w 2 ∧ port < s.part.ports ∧ (s.link port).st ≠ 1 then s.setLink port ⟨1, 0⟩ else s

/-- LINK_RETRAIN (R43). -/
def execLinkRetrain (port : Nat) (value : Word) (s : State) : Host.Outcome State Fault Refusal := .next (s.retrain port value)

/-- LINK_TRAINING_COMPLETE (R43). -/
def execLinkTrainingComplete (port : Nat) (up : Bool) (s : State) : Host.Outcome State Fault Refusal :=
  .next (if (s.link port).st = 1 then s.setLink port ⟨if up then 2 else 0, 0⟩ else s)

/-- Copy commands over a port that goes down end with link-down status (R16, R321). -/
def CopyCmd.linkDown (port : Nat) (x : CopyCmd) : CopyCmd :=
  match x.port, x.stat, x.record with
  | some k, none, some r => if k = port then { x with stat := some (statWord (r.dst + word x.off) 8) } else x
  | _, _, _ => x

/-- LINK_FLIT_CRC_FAIL: the 16th failure of the same flit takes the port down (R16). -/
def State.flitFail (s : State) (port : Nat) : State :=
  let l := s.link port
  if l.st ≠ 2 then s
  else if l.fails + 1 < 16 then s.setLink port ⟨2, l.fails + 1⟩
  else
    let s1 := s.setLink port ⟨0, 0⟩
    { s1 with cores := s1.cores.map fun (e : Nat × Core) => (e.1, { e.2 with cq := e.2.cq.map (CopyCmd.linkDown port) }) }

/-- LINK_FLIT_CRC_FAIL (R16). -/
def execLinkFlitCrcFail (port : Nat) (s : State) : Host.Outcome State Fault Refusal := .next (s.flitFail port)

/-! ### Package management registers (R42) -/

/-- FABCFG: ignored whole with a field outside its limits. -/
def State.writeFabcfg (s : State) (w : Word) : State :=
  let e := fld w 16 16
  let r := fld w 0 5
  if 256 ≤ e ∧ e ≤ 64000 ∧ 16 ≤ r ∧ r ≤ 26 then { s with esct := e, rtolog := r } else s

/-- AUDSIG. -/
def State.writeAudsig (s : State) (w : Word) : State :=
  if 1 ≤ fld w 0 14 ∧ fld w 0 14 ≤ 10000 then { s with audsig := fld w 0 14 } else s

/-- LRTn (R43). -/
def State.writeLrt (s : State) (n : Nat) (w : Word) : State :=
  if fld w 0 4 < s.part.ports then { s with lrt := s.lrt.put n (w &&& 0x8000_0000_0000_000F) } else s

/-- ECC_COUNTER_CLEAR (R42). -/
def execEccCounterClear (cls : Nat) (_value : Word) (s : State) : Host.Outcome State Fault Refusal :=
  .next { s with ecc := s.ecc.del cls }

/-! ### Slot tables and partitions (R58, R63, R70) -/

/-- Shares of an entry: TCM and scratchpad as (start, size) in 4 KiB pages. -/
def tcmShare (e : Word) : Nat × Nat := (fld e 26 6, fld e 20 6 + 1)
def spShare (e : Word) : Nat × Nat := (fld e 14 6, fld e 8 6 + 1)

/-- Two entries may stand in one table: identical shares of one function, disjoint ones of two (R70). -/
def slotsAgree (a b : Word) : Bool :=
  if fld a 52 11 = fld b 52 11 then tcmShare a = tcmShare b && spShare a = spShare b
  else ¬ overlap (tcmShare a).1 (tcmShare a).2 (tcmShare b).1 (tcmShare b).2 &&
    ¬ overlap (spShare a).1 (spShare a).2 (spShare b).1 (spShare b).2

/-- The conditions of R70 on a slot table. -/
def Partition.slotsOk (p : Partition) : Bool :=
  let es := (List.range p.slcnt).map fun j => (p.slots.look j).getD 0
  1 ≤ p.slcnt && p.slcnt ≤ 64 &&
    es.all (fun e => 1 ≤ fld e 32 20 && fld e 32 20 ≤ 1_000_000 && (tcmShare e).1 + (tcmShare e).2 ≤ 64 &&
      (spShare e).1 + (spShare e).2 ≤ 64) &&
    es.all fun a => es.all fun b => slotsAgree a b

/-- Bytes of an audit log with its head area (R58). -/
def auditBytes (log : Nat) : Nat := 64 * 2 ^ log + headArea

/-- Every frame of the audit log's range is the partition's (R58, R63). -/
def State.auditOk (s : State) (p log : Nat) : Bool := s.rangeOwned p ((s.partition p).audbase.toNat) (auditBytes log)

/-- An interval overlaps another partition whose STATE is not 0. -/
def State.partOverlap (s : State) (p base len : Nat) : Bool :=
  (List.range 16).any fun o => o ≠ p && (s.partition o).st ≠ 0 && overlap (s.partition o).base (s.partition o).len base len

/-- A refused write of PCFG (R63). -/
def State.pcerr (s : State) (p : Nat) : State := s.modPart p fun x => { x with pcerr := true }

/-- A new key is drawn: the function that takes it has its number (R73). -/
def State.drawKey (s : State) : Nat × State := (s.keyCount + 1, { s with keyCount := s.keyCount + 1 })

/-- The partition becomes active, with a key of its own, an empty audit log whose frames are sealed from now on, and the bind
sequence at 1 (R58, R63, R73, R107). -/
def Partition.start (x : Partition) (base len log key : Nat) : Partition :=
  { x with
    en := true, st := 1, base := base, len := len, audlog := log, audAt := x.audbase.toNat, audLen := auditBytes log, key := key,
    slotNow := none, idleTill := 0, audN := 0, audH := 0, audSigned := 0, audHeads := 0, seals := [], mail := [], tried := [],
    bindSeq := 1 }

/-- Zero what a predicate on addresses selects, mark it full and clear its markers; no data cache keeps what it held (R72). -/
def State.zeroWhere (s : State) (hit : Nat → Bool) : State :=
  { s with mem := s.mem.filter (fun c => ¬ hit c.1), empt := s.empt.filter fun a => ¬ hit a,
           marks := s.marks.filter fun a => ¬ hit a, ue := s.ue.filter fun a => ¬ hit a, soft := s.soft.filter fun a => ¬ hit a,
           cores := s.cores.map fun (e : Nat × Core) => (e.1, { e.2 with dcache := e.2.dcache.filter fun l => ¬ hit l.pa }) }

/-- An address lies in the TCM or scratchpad share of a function in a partition (R70). -/
def State.inShare (s : State) (p f pa : Nat) : Bool :=
  match s.shareOf p f with
  | none => false
  | some e => match s.target pa with
    | some (.tcm c off) => s.partOf c = some p && (tcmShare e).1 * 4096 ≤ off && off < ((tcmShare e).1 + (tcmShare e).2) * 4096
    | some (.scratch cl off) =>
      s.partOf (s.clusterCore cl (off / 0x4_0000)) = some p &&
        (spShare e).1 * 4096 ≤ off % 0x4_0000 && off % 0x4_0000 < ((spShare e).1 + (spShare e).2) * 4096
    | _ => false

/-- PARTITION_CONFIGURE: the write that sets EN (R63). Its cores are at the position of the slot table from then on, and the
shares of the table, whose functions are new to them, are zeroed (R70, R72, notes/assumptions/145.md). -/
def State.partStart (s : State) (p base len log : Nat) : State :=
  let x := s.partition p
  if len = 0 ∨ s.part.cores < base + len ∨ log < 10 ∨ 24 < log ∨ s.partOverlap p base len = true ∨ x.st = 2 ∨
      s.auditOk p log = false ∨ x.slotsOk = false then s.pcerr p
  else
    let (key, s1) := s.drawKey
    let s2 := s1.modPart p fun x => { x.start base len log key with audPeriodFrom := s.wall }
    let fs := (List.range x.slcnt).map fun j => fld ((x.slots.look j).getD 0) 52 11
    (s2.zeroWhere fun a => fs.any fun f => s2.inShare p f a).slotBoundary p

/-! ### Function reset (R76) and teardown (R77) -/

/-- What a reset does at once to the commands of a function: those not completed end with status 0x07 (R76). -/
def State.abortCmds (s : State) (f : Nat) (except : Option Nat) : State :=
  { s with cmds := s.cmds.map fun c =>
      if c.fn = f ∧ some c.id ≠ except then (match c.st with
        | .pending | .running => { c with st := .finished 7 0 0 0 }
        | .finished _ _ _ _ => c) else c }

/-- Fetching stops on every queue of a function (R76). -/
def State.stopQueues (s : State) (f : Nat) : State :=
  s.modFn f fun g => { g with queues := g.queues.map fun (e : Nat × QPair) => (e.1, { e.2 with en := false }) }

/-- Every thread of a function's tenant stops (R76, R361). -/
def State.stopTenant (s : State) (f : Nat) : State :=
  s.stopThreads ((s.ctxs.filter fun (e : Nat × Ctx) => e.2.fn = f && e.2.lvl = .u).map (·.1))

/-- The pipelines of a function leave (R76, R110). -/
def State.dropPipes (s : State) (f : Nat) : State :=
  (List.range 16).foldl (fun (s : State) p =>
    (((s.partition p).pipes.filter fun (e : Nat × Pipe) => e.2.fn = f).map (·.1)).foldl (fun (s : State) k => s.pipeLeave p k) s) s

/-- The pipelines of a function leave, and its queues hold nothing (R76, R110). -/
def State.dropWork (s : State) (f : Nat) : State :=
  let s1 := s.dropPipes f
  { s1 with queues := s1.queues.filter fun (e : Nat × TaskQueue) => e.1 / 64 ≠ f,
            images := s1.images.filter fun i => i.fn ≠ f,
            flights := s1.flights.filter fun m => (match m.op with
              | .depaWait g _ _ => decide (g ≠ f)
              | _ => true) }

/-- While a slot of the function is current, its partition's cores stay idle until the next boundary (R76). -/
def State.idleSlots (s : State) (f p : Nat) : State :=
  let x := s.partition p
  if x.st = 1 ∧ (x.posAt s.wall).map x.slotFn = some f then
    s.modPart p fun y => { y with idleTill := x.nextBoundary s.wall }
  else s

/-- Watchpoints that a test selects are disarmed (R278). -/
def State.disarm (s : State) (hit : Watch → Bool) : State :=
  { s with clusters := s.clusters.map fun (e : Nat × Cluster) => (e.1, { e.2 with wps := e.2.wps.filter fun w => ¬ hit w.2 }) }

/-- Every watchpoint that level U of a function armed is disarmed (R278). -/
def State.disarmFn (s : State) (f : Nat) : State := s.disarm fun w => w.fn = f && w.lvl = .u

/-- The partitions that a function leaves in its reset (R76). -/
def State.leavingOf (s : State) (f : Nat) : List Nat := (s.leaving.look f).getD [vfmapPart ((s.vfmap.look f).getD 0)]

/-- RESET-FUNCTION of f, steps 1 to 3, as far as they are done at once (R76, R278). -/
def State.beginReset (s : State) (f : Nat) (except : Option Nat) : State :=
  let p := vfmapPart ((s.vfmap.look f).getD 0)
  let s1 := (((s.abortCmds f except).stopQueues f).modFn f fun g => { g with ready := false }).disarmFn f
  { ((s1.idleSlots f p).dropWork f).stopTenant f with
    resetting := insertNat s.resetting f, leaving := s.leaving.put f (insertNat ((s.leaving.look f).getD []) p) }

/-- A core gives up what it holds of a function: its h bank, spill records, engine contexts, reservations (R76). -/
def Core.clearFn (c : Core) (f : Nat) (mine : Nat → Bool) (task : Nat → Bool) : Core :=
  let eng (e : Eng) : Eng := match e.owner with
    | some t => if mine t then Eng.reset else e
    | none => e
  { c with
    hb := c.hb.del f, eng0 := eng c.eng0, eng1 := eng c.eng1, spills := c.spills.filter fun (e : Nat × Eng) => e.1 / 8 ≠ f,
    reserved := c.reserved.filter fun (e : Nat × Nat) => e.1 / 16 ≠ f, tcm := c.tcm.filter fun (e : Nat × Nat × Nat) => ¬ task e.1,
    deques := c.deques.filter fun (e : Nat × Deque) => ¬ task e.1, dirtyTcm := c.dirtyTcm.filter fun (e : Nat × Nat) => ¬ task e.1,
    dirtySp := c.dirtySp.filter fun (e : Nat × Nat) => ¬ task e.1,
    mq := c.mq.filter fun e => e.fn ≠ f, vq := c.vq.filter fun e => e.fn ≠ f }

/-- A delegate registration of a function's task. -/
def State.tasksOf (s : State) (f : Nat) : List Nat := (s.tasks.filter fun (e : Nat × Task) => e.2.fn = f).map (·.1)

/-- Live ASIDs of a function. -/
def State.asidsOf (s : State) (f : Nat) : List Nat :=
  (s.asids.filter fun (e : Nat × Word) => bit e.2 63 && fld e.2 0 11 = f).map (·.1)

/-- An ASID is removed: V is cleared and every TLB entry of it leaves (R66, R69). -/
def State.asidRemove (s : State) (a : Nat) (w : Word) : State :=
  { s with asids := s.asids.put a (w &&& 0x000F_FFFF_FFFF_F7FF),
           cores := s.cores.map fun (e : Nat × Core) => (e.1, { e.2 with tlb := e.2.tlb.filter fun x => x.asid ≠ a }) }

/-- Steps 4 to 6 of R76, with what a thread of the function bound or armed before it stopped (R278). Sealed frames keep their
contents until the partition's teardown (R57). -/
def State.endReset (s : State) (f : Nat) : State :=
  let ps := s.leavingOf f
  let ts := s.tasksOf f
  let s0 := (ts.foldl (fun (s : State) t => s.cancelTask t) (s.dropPipes f)).disarmFn f
  let s1 := (s0.asidsOf f).foldl (fun (s : State) a => s.asidRemove a (s.asidEntry a &&& 0x7FFF_FFFF_FFFF_FFFF)) s0
  let s2 := s1.zeroWhere fun a => (s1.owner a = .fn f && ¬ s1.sealed.contains (frameOf a)) || ps.any fun p => s1.inShare p f a
  let s3 := { s2 with
    grants := s2.grants.map fun (g : Grant) => if g.owner = Owner.fn f then { g with owner := Owner.pm } else g,
    tasks := s2.tasks.filter fun (e : Nat × Task) => e.2.fn ≠ f,
    cores := s2.cores.map fun (e : Nat × Core) =>
      (e.1, e.2.clearFn f (fun t => (s2.ctxs.look t).isNone) fun t => ts.contains t),
    flights := s2.flights.filter fun (m : Msg) => ¬ (m.fn = f && m.lvl = Level.u && m.tid ≠ 0 && (s2.ctxs.look m.tid).isNone),
    resetting := s2.resetting.filter (· ≠ f), leaving := s2.leaving.del f }
  let (key, s3) := s3.drawKey
  let s4 := s3.modFn f fun g => { g with key := key, ready := (s2.fnPart f).isSome }
  { s4 with cmds := s4.cmds.map fun (c : Cmd) =>
      if c.st = CmdState.running ∧ fld c.record 0 8 = 7 ∧ fld c.record 64 11 = f then { c with st := .finished 0 0 0 0 } else c }

/-- No thread of the function is left, and no access of one is still on its way (R69, R76). -/
def State.tenantGone (s : State) (f : Nat) : Bool :=
  s.ctxs.all (fun (e : Nat × Ctx) => e.2.fn ≠ f || e.2.lvl ≠ .u) &&
    s.flights.all fun m => m.fn ≠ f || m.lvl ≠ .u || m.tid = 0 || (match m.loc with
      | .back _ | .lost => true
      | _ => false)

/-- FUNCTION_RESET_COMPLETE (R76). -/
def execFunctionResetComplete (fn : Nat) (s : State) : Host.Outcome State Fault Refusal :=
  .next (if s.resetting.contains fn ∧ s.tenantGone fn then s.endReset fn else s)

/-- VFMAP.EN of a function is cleared, and it is reset (R65, R77). -/
def State.fnOff (s : State) (f : Nat) : State :=
  { s with vfmap := s.vfmap.put f (((s.vfmap.look f).getD 0) &&& 0xF) }.beginReset f none

/-- PARTITION_TEARDOWN: the write that clears EN (R77). -/
def State.partStop (s : State) (p : Nat) : State :=
  let fs := (List.range 1025).filter fun f => s.fnPart f = some p
  fs.foldl State.fnOff (s.modPart p fun x => { x with en := false, st := 2 })

/-- A write of PCFG (R63). A partition in teardown keeps its interval for it, and has the written one afterwards (R77). -/
def State.writePcfg (s : State) (p : Nat) (w : Word) : State :=
  let x := s.partition p
  let base := fld w 16 12
  let len := fld w 32 13
  let log := fld w 8 5
  let s1 := if bit w 62 then s.modPart p fun x => { x with pcerr := false } else s
  if x.en then
    if base ≠ x.base ∨ len ≠ x.len ∨ log ≠ x.audlog then s.pcerr p
    else if bit w 63 then s1 else s1.partStop p
  else if bit w 63 then s1.partStart p base len log
  else if x.st = 2 then s1.modPart p fun x => { x with rewritten := some (base, len, log) }
  else s1.modPart p fun x => { x with base := base, len := len, audlog := log }

/-- PARTITION_CONFIGURE (R63). -/
def execPartitionConfigure (part : Nat) (value : Word) (s : State) : Host.Outcome State Fault Refusal :=
  .next (if bit value 63 then s.writePcfg part value else s)

/-- PARTITION_TEARDOWN (R77). -/
def execPartitionTeardown (part : Nat) (value : Word) (s : State) : Host.Outcome State Fault Refusal :=
  .next (if bit value 63 then s else s.writePcfg part value)

/-- A function of the partition is still being reset. -/
def State.partBusy (s : State) (p : Nat) : Bool :=
  s.resetting.any fun f => (s.leavingOf f).contains p

/-- TEARDOWN_COMPLETE: sealed regions and the audit log are zeroed and unsealed, the key is discarded, and watchpoints armed at
level S are disarmed (R57, R77, R278). -/
def State.teardownEnd (s : State) (p : Nat) : State :=
  let x := s.partition p
  if x.st ≠ 2 ∨ s.partBusy p = true then s
  else
    let frames := (x.seals.map fun e => e.frames).flatten
    let s1 := (s.zeroWhere fun a => frames.contains (frameOf a) || (x.audAt ≤ a && a < x.audAt + x.audLen)).disarm fun w =>
      w.part = p && w.lvl ≠ .u
    { s1 with sealed := s1.sealed.filter fun f => ¬ frames.contains f }.modPart p fun x =>
      let (base, len, log) := x.rewritten.getD (x.base, x.len, x.audlog)
      { x with
        base := base, len := len, audlog := log, rewritten := none, st := 0, key := 0, seals := [], audAt := 0, audLen := 0, audN := 0, audH := 0, audSigned := 0, audHeads := 0,
        slotNow := none, idleTill := 0 }

/-- TEARDOWN_COMPLETE (R77). -/
def execTeardownComplete (part : Nat) (s : State) : Host.Outcome State Fault Refusal := .next (s.teardownEnd part)

/-! ### Functions and ASIDs (R65, R66) -/

/-- The tenant of a function is created (R65, R73). -/
def State.fnOn (s : State) (f : Nat) (w : Word) : State :=
  let (key, s1) := s.drawKey
  { s1 with vfmap := s.vfmap.put f (w &&& 0x8000_0000_0000_000F) }.modFn f fun g =>
    { g with key := key, ready := ¬ s.resetting.contains f }

/-- A write of VFMAP (R65). -/
def State.writeVfmap (s : State) (f : Nat) (w : Word) : State :=
  let old := (s.vfmap.look f).getD 0
  if f = 0 ∨ 1024 < f then s
  else if vfmapEn old then
    (if vfmapPart w ≠ vfmapPart old ∨ vfmapEn w then s else s.fnOff f)
  else if vfmapEn w then (if (s.partition (vfmapPart w)).st = 1 then s.fnOn f w else s)
  else { s with vfmap := s.vfmap.put f (w &&& 0xF) }

/-- VFMAP_ENABLE (R65). -/
def execVfmapEnable (fn : Nat) (value : Word) (s : State) : Host.Outcome State Fault Refusal :=
  .next (if vfmapEn value then s.writeVfmap fn value else s)

/-- VFMAP_DISABLE (R65). -/
def execVfmapDisable (fn : Nat) (value : Word) (s : State) : Host.Outcome State Fault Refusal :=
  .next (if vfmapEn value then s else s.writeVfmap fn value)

/-- A write of the ASID table (R66). One whose FN is above 1,024, which the rule does not speak of, is ignored whole, even one
that clears V: the model's choice (notes/assumptions/129.md). -/
def State.writeAsid (s : State) (a : Nat) (w : Word) : State :=
  let fn := fld w 0 11
  if 1024 < fn then s
  else if s.asidLive a then (if bit w 63 then s else s.asidRemove a w)
  else if bit w 63 ∧ fn ≠ 0 ∧ vfmapEn ((s.vfmap.look fn).getD 0) = false then s
  else { s with asids := s.asids.put a (w &&& 0x800F_FFFF_FFFF_F7FF) }

/-- ASID_MAKE_LIVE (R66). -/
def execAsidMakeLive (asid : Nat) (value : Word) (s : State) : Host.Outcome State Fault Refusal :=
  .next (if bit value 63 then s.writeAsid asid value else s)

/-- ASID_REMOVE (R66). -/
def execAsidRemove (asid : Nat) (value : Word) (s : State) : Host.Outcome State Fault Refusal :=
  .next (if bit value 63 then s else s.writeAsid asid value)

/-! ### Stage-2 invalidation (R69) -/

/-- A TLB entry matches a write of S2INV. -/
def s2Hit (w : Word) (e : TlbEntry) : Bool :=
  e.asid = fld w 52 10 && (bit w 62 || overlap e.ipage e.pages (fld w 12 40) (fld w 0 12 + 1))

/-- S2INV_ALL and S2INV_RANGE: matching entries leave every TLB, and the accesses made through them are waited for; walks end
against the tables as they stand then (R69). -/
def State.writeS2inv (s : State) (w : Word) : State :=
  if s.inval.isSome then s
  else
    let gone := (s.cores.map fun (e : Nat × Core) => e.2.tlb.filter (s2Hit w)).flatten
    let ms := s.through (fld w 52 10) gone fun _ => bit w 62
    let ds := s.throughTcm (fld w 52 10) gone fun _ => bit w 62
    { s with cores := s.cores.map (fun (e : Nat × Core) => (e.1, { e.2 with tlb := e.2.tlb.filter fun x => ¬ s2Hit w x })),
             inval := some ⟨fld w 52 10, ms, ds⟩ }

/-- S2INV_ALL (R69). -/
def execS2invAll (value : Word) (s : State) : Host.Outcome State Fault Refusal :=
  .next (if bit value 62 then s.writeS2inv value else s)

/-- S2INV_RANGE (R69). -/
def execS2invRange (value : Word) (s : State) : Host.Outcome State Fault Refusal :=
  .next (if bit value 62 then s else s.writeS2inv value)

/-- S2INV_COMPLETE: every access through a removed entry has been performed (R69). -/
def State.s2invDone (s : State) : State :=
  match s.inval with
  | none => s
  | some x => if s.passing x.msgs x.tcm then s else { s with inval := none }

/-- S2INV_COMPLETE (R69). -/
def execS2invComplete (s : State) : Host.Outcome State Fault Refusal := .next s.s2invDone

/-! ### Frames (R72) -/

/-- The owner that a value of FGOWN names. -/
def fgOwner (w : Word) : Option Owner :=
  let n := w.toNat
  if n = 0 then some .pm
  else if 0x100 ≤ n ∧ n < 0x110 then some (.part (n - 0x100))
  else if 0x201 ≤ n ∧ n ≤ 0x600 then some (.fn (n - 0x200))
  else none

/-- The conditions of a grant on its range: the frames of an audit log take no grant, as sealed ones take none (R58, R72). -/
def State.grantOk (s : State) (base len : Nat) : Bool :=
  base % 4096 = 0 && len % 4096 = 0 && 0 < len && 1 ≤ base / 2 ^ 48 && base / 2 ^ 48 ≤ 3 &&
    (base + len - 1) / 2 ^ 48 = base / 2 ^ 48 &&
    (List.range (len / 4096)).all fun k => (s.target (base + 4096 * k)).isSome && ¬ s.sealedAt (base + 4096 * k) 4096

/-- A write of FGOWN: the grant, or FGERR (R72). The frames read as zero from now on; accesses wait for FRAME_ZERO_COMPLETE. -/
def State.writeFgown (s : State) (w : Word) : State :=
  let base := s.fgbase.toNat
  let len := s.fglen.toNat
  match fgOwner w with
  | some o =>
    if s.grantOk base len then
      { s.zeroRange base len with
        grants := ⟨base, len, o⟩ :: s.grants, fgown := w,
        zeroing := s.zeroing ++ ((List.range (len / 4096)).map (base / 4096 + ·)).filter fun f => ¬ s.zeroing.contains f }
    else { s with fgown := s.fgown ||| 0x8000_0000_0000_0000 }
  | none => { s with fgown := s.fgown ||| 0x8000_0000_0000_0000 }

/-- FGOWN_GRANT (R72). -/
def execFgownGrant (value : Word) (s : State) : Host.Outcome State Fault Refusal := .next (s.writeFgown value)

/-- FRAME_ZERO_COMPLETE (R72). -/
def execFrameZeroComplete (frame : Nat) (s : State) : Host.Outcome State Fault Refusal := .next (s.frameZero frame)

/-! ### Rotation tables (R84) -/

/-- The cyclic distance between turns (R84). -/
def turnDist (a b : Nat) : Nat := min ((a + 32 - b) % 32) ((b + 32 - a) % 32)

/-- Two turns of one slot stand at a distance below 8 (R84). -/
def turnsClash (ts : List Turn) : Bool :=
  let l := ts.zipIdx
  l.any fun (a : Turn × Nat) => l.any fun (b : Turn × Nat) =>
    a.2 < b.2 && a.1.ten && b.1.ten && a.1.tslot = b.1.tslot && turnDist a.2 b.2 < 8

/-- RTURN_WRITE (R84). -/
def State.writeTurn (s : State) (d k : Nat) (w : Word) : State :=
  s.modCore d fun c =>
    let c' := { c with turnWrites := c.turnWrites ++ [(k, w)] }
    if turnsClash c'.applyWrites then { c with rterr := true } else c'

/-- RTURN_WRITE (R84). -/
def execRturnWrite (core turn : Nat) (value : Word) (s : State) : Host.Outcome State Fault Refusal :=
  .next (s.writeTurn core turn value)

/-! ### Any write of device control space -/

/-- PTCFG: ignored whole with a field outside its limits (R114). -/
def State.writePtcfg (s : State) (p : Nat) (w : Word) : State :=
  if mcfgMargin w ≤ 1000 ∧ 1 ≤ mcfgBw w ∧ mcfgBw w ≤ 32 ∧ 1 ≤ mcfgFixt w then
    s.modPart p fun x => { x with ptcfg := w &&& 0x0000_03FF_03F0_FFFF }
  else s

/-- A write in a partition's slot table, taken only while STATE is 0 (R70). -/
def State.writeSlots (s : State) (p o : Nat) (w : Word) : State :=
  if (s.partition p).st ≠ 0 then s
  else if o = 0 then s.modPart p fun x => { x with epoch := w }
  else if o = 8 then s.modPart p fun x => { x with slcnt := fld w 0 7 }
  else if 0x100 ≤ o ∧ o < 0x300 ∧ o % 8 = 0 then
    s.modPart p fun x => { x with slots := x.slots.put ((o - 0x100) / 8) (w &&& 0x7FFF_FFFF_FFFF_FF00) }
  else s

/-- A write in the block of a core (R84). -/
def State.writeCore (s : State) (d o : Nat) (w : Word) : State :=
  if s.part.cores ≤ d then s
  else if o < 0x100 ∧ o % 8 = 0 then s.writeTurn d (o / 8) w
  else if o = 0x100 then (if bit w 0 then s.modCore d fun c => { c with rterr := false } else s)
  else s

/-- A write of a register below 0x2000 (R42, R43). -/
def State.writePackage (s : State) (o : Nat) (w : Word) : State :=
  if o = 0x100 then s.writeFabcfg w
  else if o = 0x108 then { s with ptpcfg := w.setWidth 5 }
  else if o = 0x110 then (if s.hostTime then s.correct w.toNat else s)
  else if o = 0x118 then s.writeAudsig w
  else if o = 0x120 then { s with selfpkg := w.setWidth 8 }
  else if 0x180 ≤ o ∧ o < 0x200 then s.retrain ((o - 0x180) / 8) w
  else if 0x800 ≤ o ∧ o < 0x1000 then s.writeLrt ((o - 0x800) / 8) w
  else if 0x1000 ≤ o ∧ o < 0x1060 then { s with ecc := s.ecc.del ((o - 0x1000) / 8) }
  else s

/-- A write of a register of a partition, by the block it lies in. -/
def State.writePartReg (s : State) (blk i : Nat) (w : Word) : State :=
  if 16 ≤ i then s
  else if blk = 0x10 then s.writePcfg i w
  else if blk = 0x16 then (if 70 ≤ fld w 0 8 ∧ fld w 0 8 ≤ 105 then s.modPart i fun x => { x with thot := fld w 0 8 } else s)
  else if blk = 0x1C then s.modPart i fun x => { x with share := bit w 63 }
  else if blk = 0x1D then s.mboxWrite i w
  else if (s.partition i).en then s
  else s.modPart i fun x => { x with audbase := w &&& 0x000F_FFFF_FFFF_F000 }

/-- A write of SAVEf or CKOFFf (R94, R115). -/
def State.writeArea (s : State) (blk f : Nat) (w : Word) : State :=
  if 1024 < f then s
  else if blk = 0x15 then (if fld w 20 7 < 96 then { s with save := s.save.put f (w &&& 0x8000_0000_07F0_0000) } else s)
  else if fld w 20 7 ≤ 80 then { s with ckoff := s.ckoff.put f (w &&& 0x8000_0000_07F0_0000) } else s

/-- A write of the Parting unit's registers (R113, R114). -/
def State.writeParting (s : State) (o : Nat) (w : Word) : State :=
  if o < 0x80 then s.writePtcfg (o / 8) w
  else if 0x1000 ≤ o ∧ o < 0x1400 ∧ o % 16 = 0 then
    (if bit w 60 then s.reopen ((o - 0x1000) / 0x40) ((o - 0x1000) % 0x40 / 16) else s)
  else s

/-- A write of a doubleword of device control space (R61). -/
def State.ctrlWrite (s : State) (off : Nat) (w : Word) : State :=
  let blk := off / 0x1_0000
  let o := off % 0x1_0000
  let i := o / 8
  if off % 8 ≠ 0 then s
  else if blk = 0 then s.writePackage o w
  else if blk = 0x11 then s.writeVfmap i w
  else if blk = 0x12 then (if i < 1024 then s.writeAsid i w else s)
  else if blk = 0x13 then
    (if o = 0 then s.writeS2inv w else if o = 8 then { s with fgbase := w } else if o = 0x10 then { s with fglen := w }
      else if o = 0x18 then s.writeFgown w else s)
  else if blk = 0x14 then (if o < 0x4000 then s.writeSlots (o / 0x400) (o % 0x400) w else s)
  else if blk = 0x15 ∨ blk = 0x1B then s.writeArea blk i w
  else if blk = 0x1A then s.writeParting o w
  else if blk = 0x10 ∨ blk = 0x16 ∨ blk = 0x1C ∨ blk = 0x1D ∨ blk = 0x1E then s.writePartReg blk i w
  else if 0x100 ≤ blk then s.writeCore ((off - 0x100_0000) / 0x1000) (off % 0x1000) w
  else s

/-! ### Reads of device control space -/

/-- PKGID (R1, R42). -/
def State.pkgid (s : State) : Word :=
  let no := match s.part with
    | .hx1024d => 1
    | .hx4096p => 2
    | .hx4096m => 3
  let uneq : Bool := s.part = .hx4096p && s.farUneq
  word (no * 2 ^ 56 + Config.stepping.toNat * 2 ^ 48 + s.part.dies * 2 ^ 44 + s.farCode * 2 ^ 42 + b2n uneq * 2 ^ 41)

/-- BOOTSTAT (R42). -/
def State.bootstat (s : State) : Word :=
  word (b2n (s.power = .bootFailed) * 2 ^ 63 + b2n (s.power = .recovery) * 2 ^ 62 + s.bootDetail.toNat * 2 ^ 8 + s.bootStep.toNat)

/-- A doubleword of a log of 32-byte records (R24, R42, R75). -/
def logRead (l : List (BitVec 256)) (o : Nat) : Word :=
  match l.find? fun r => (fld r 224 32 + 4095) % 4096 = o / 32 with
  | some r => word (fld r (64 * (o % 32 / 8)) 64)
  | none => 0

/-- A read below 0x2000 (R42, R43). -/
def State.readPackage (s : State) (o : Nat) : Word :=
  if o = 0 then s.pkgid
  else if o = 8 then s.bootstat
  else if o = 0x10 then word (s.image.version.toNat + s.fuseMin.toNat * 2 ^ 32)
  else if 0x20 ≤ o ∧ o < 0x40 then word (fld Config.attestationKey (8 * (o - 0x20)) 64)
  else if o = 0x100 then word (s.esct * 2 ^ 16 + s.rtolog)
  else if o = 0x108 then zext s.ptpcfg
  else if o = 0x118 then word s.audsig
  else if o = 0x120 then zext s.selfpkg
  else if 0x180 ≤ o ∧ o < 0x200 then (if (o - 0x180) / 8 < s.part.ports then word (s.link ((o - 0x180) / 8)).st else 0)
  else if 0x800 ≤ o ∧ o < 0x1000 then (s.lrt.look ((o - 0x800) / 8)).getD 0
  else if 0x1000 ≤ o ∧ o < 0x1060 then (s.ecc.look ((o - 0x1000) / 8)).getD 0
  else 0

/-- PCFG (R63). -/
def Partition.pcfg (x : Partition) : Word :=
  let (base, len, log) := x.rewritten.getD (x.base, x.len, x.audlog)
  word (b2n x.en * 2 ^ 63 + b2n x.pcerr * 2 ^ 62 + x.st * 2 ^ 45 + len * 2 ^ 32 + base * 2 ^ 16 + log * 2 ^ 8)

/-- MCFG (R112). -/
def Partition.mcfg (x : Partition) : Word := word (b2n x.share * 2 ^ 63 + x.insts.length * 2 ^ 32 + x.pipes.length)

/-- MBOX (R208). -/
def Partition.mbox (x : Partition) : Word := word (b2n x.mboxV * 2 ^ 63 + x.mboxLog * 2 ^ 56 + x.mboxBase)

/-- PDLB (R113). -/
def Deadline.pdlb (d : Deadline) : Word :=
  word (b2n d.v * 2 ^ 63 + b2n d.vacant * 2 ^ 61 + b2n d.origin * 2 ^ 59 + d.len * 2 ^ 32 + d.base * 2 ^ 16)

/-- RTURN (R84). -/
def Turn.read (x : Turn) : Word :=
  word (x.tslot * 2 ^ 12 + b2n x.ten * 2 ^ 11 + b2n x.ov * 2 ^ 10 + b2n x.qown.isSome * 2 ^ 9 + (x.qown.getD 0) % 16 * 2 ^ 5)

/-- A doubleword of the thermal ranking table: four entries (R97). -/
def Partition.rankRead (x : Partition) (o : Nat) : Word :=
  let e (k : Nat) : Nat := ((x.rank.look (o / 2 + k)).getD 0).toNat
  word (e 0 + e 1 * 2 ^ 16 + e 2 * 2 ^ 32 + e 3 * 2 ^ 48)

/-- A read of a partition's registers. -/
def State.readPartReg (s : State) (blk i : Nat) : Word :=
  let x := s.partition i
  if 16 ≤ i then 0
  else if blk = 0x10 then x.pcfg
  else if blk = 0x16 then word x.thot
  else if blk = 0x1C then x.mcfg
  else if blk = 0x1D then x.mbox
  else x.audbase

/-- A read of a slot table (R70). -/
def Partition.readSlots (x : Partition) (o : Nat) : Word :=
  if o = 0 then x.epoch else if o = 8 then word x.slcnt
  else if 0x100 ≤ o ∧ o < 0x300 then (x.slots.look ((o - 0x100) / 8)).getD 0 else 0

/-- A read of the Parting unit's registers (R113, R114). -/
def State.readParting (s : State) (o : Nat) : Word :=
  if o < 0x80 then (s.partition (o / 8)).ptcfg
  else if 0x1000 ≤ o ∧ o < 0x1400 then
    (let d := s.deadlineOf ((o - 0x1000) / 0x40) ((o - 0x1000) % 0x40 / 16)
     if o % 16 = 0 then d.pdlb else word d.time)
  else 0

/-- A read of a core's block (R84). -/
def Core.readBlock (c : Core) (o : Nat) : Word :=
  if o < 0x100 then (c.turn (o / 8)).read
  else if o = 0x100 then word (b2n (¬ c.disabled.isEmpty) * 2 + b2n c.rterr)
  else 0

/-- A read of a doubleword of device control space (R61). Offsets that name no register read zero. -/
def State.ctrlRead (s : State) (off : Nat) : Word :=
  let blk := off / 0x1_0000
  let o := off % 0x1_0000
  let i := o / 8
  if blk = 0 then s.readPackage o
  else if blk = 0x11 then (if 1 ≤ i ∧ i ≤ 1024 then (s.vfmap.look i).getD 0 else 0)
  else if blk = 0x12 then (if i < 1024 then s.asidEntry i else 0)
  else if blk = 0x13 then
    (if o = 0 then word (b2n s.inval.isSome * 2 ^ 63) else if o = 8 then s.fgbase else if o = 0x10 then s.fglen
      else if o = 0x18 then s.fgown else 0)
  else if blk = 0x14 then (if o < 0x4000 then (s.partition (o / 0x400)).readSlots (o % 0x400) else 0)
  else if blk = 0x15 then (if i ≤ 1024 then (s.save.look i).getD 0 else 0)
  else if blk = 0x1B then (if i ≤ 1024 then (s.ckoff.look i).getD 0 else 0)
  else if blk = 0x1A then s.readParting o
  else if 0x17 ≤ blk ∧ blk ≤ 0x18 then (s.partition ((off - 0x17_0000) / 0x2000)).rankRead ((off - 0x17_0000) % 0x2000)
  else if 0x20 ≤ blk ∧ blk ≤ 0x21 then logRead s.avLog (off - 0x20_0000)
  else if 0x22 ≤ blk ∧ blk ≤ 0x23 then logRead s.feLog (off - 0x22_0000)
  else if blk = 0x10 ∨ blk = 0x16 ∨ blk = 0x1C ∨ blk = 0x1D ∨ blk = 0x1E then s.readPartReg blk i
  else if 0x100 ≤ blk ∧ (off - 0x100_0000) / 0x1000 < s.part.cores then
    (s.core ((off - 0x100_0000) / 0x1000)).readBlock (off % 0x1000)
  else 0

end Sys2Proof.Machine
end

