-- ==== Sys2Proof/Machine/HostCmd.lean ====
section
/-! DEFINITION. The host interface (R44–R60, R74, R76): BAR0, queues, the fetcher, completion records and the commands. A
command is carried out as one indivisible step per command. -/

namespace Sys2Proof.Machine

/-! ### Host memory -/

/-- The physical address of a bus address: its low 48 bits, which is as much as a device address of host memory holds (R136);
the spec gives a bus address no width (DESIGN CHOICE, notes/assumptions/147.md). -/
def hostPa (a : Nat) : Nat := 8 * 2 ^ 48 + a % 2 ^ 48

/-- The device's write to host memory, after what is queued for it (R180). -/
def State.hostWrite (s : State) (a : Nat) (bs : List Byte) : State := (s.drainHost).wrBytes (hostPa a) bs

/-- Little-endian value of bytes. -/
def ofBytes (bs : List Byte) : Nat := bs.foldr (fun b a => b.toNat + 256 * a) 0

/-! ### BAR0 (R44, R45) -/

/-- The queue size of a log. -/
def qsize (log : Nat) : Nat := 2 ^ log

/-- A refused write of SQBASE, CQBASE or QCTL (R45). -/
def State.cfgRefused (s : State) (f q : Nat) : State := s.setQpair f q { s.qpair f q with cfgerr := true }

/-- The queue pair as EN becomes 1 (R45). -/
def QPair.start (x : QPair) : QPair :=
  { x with en := true, sqhead := 0, sqtail := 0, cqhead := 0, cqtail := 0, expseq := 0, phase := true, cqused := 0,
           retries := 0, mismatch := false, stopped := false }

/-- A write of QCTL (R45). One with EN 1 that leaves SQLOG and CQLOG at their values is not refused: a write to CQLOG or SQLOG
is read as a change of them (DESIGN CHOICE, notes/assumptions/130.md). -/
def State.writeQctl (s : State) (f q : Nat) (w : Word) : State :=
  let x := s.qpair f q
  let sl := fld w 4 4
  let cl := fld w 8 4
  let limits : Bool := 4 ≤ sl && sl ≤ 12 && 4 ≤ cl && cl ≤ 12
  if (x.en ∧ (sl ≠ x.sqlog ∨ cl ≠ x.cqlog)) ∨ (bit w 0 ∧ limits = false) then s.cfgRefused f q
  else
    let y := { x with sqlog := sl, cqlog := cl, ien := bit w 1 }
    s.setQpair f q (if bit w 0 then (if x.en then y else y.start) else { y with en := false, mismatch := false, retries := 0 })

/-- QUEUE_ENABLE: a write of QCTL with EN set (R45). -/
def execQueueEnable (fn q : Nat) (value : Word) (s : State) : Host.Outcome State Fault Refusal :=
  .next (if bit value 0 then s.writeQctl fn q value else s)

/-- QUEUE_DISABLE: a write of QCTL with EN clear (R45). -/
def execQueueDisable (fn q : Nat) (value : Word) (s : State) : Host.Outcome State Fault Refusal :=
  .next (if bit value 0 then s else s.writeQctl fn q value)

/-- QSTAT_CLEAR (R44). -/
def State.clearQstat (s : State) (f q : Nat) (w : Word) : State :=
  let x := s.qpair f q
  s.setQpair f q { x with cfgerr := x.cfgerr && ¬ bit w 2, dberr := x.dberr && ¬ bit w 1, seqerr := x.seqerr && ¬ bit w 0 }

/-- QSTAT_CLEAR (R44). -/
def execQstatClear (fn q : Nat) (value : Word) (s : State) : Host.Outcome State Fault Refusal := .next (s.clearQstat fn q value)

/-- SQ_DOORBELL: the tail, or DBERR (R45, R46). -/
def State.sqDoorbell (s : State) (f q : Nat) (w : Word) : State :=
  let x := s.qpair f q
  if qsize x.sqlog ≤ fld w 0 12 then s.setQpair f q { x with dberr := true } else s.setQpair f q { x with sqtail := fld w 0 12 }

/-- SQ_DOORBELL (R46). -/
def execSqDoorbell (fn q : Nat) (value : Word) (s : State) : Host.Outcome State Fault Refusal := .next (s.sqDoorbell fn q value)

/-- CQ_DOORBELL: slots from the old head up to the new one are released, or DBERR (R45, R46). -/
def State.cqDoorbell (s : State) (f q : Nat) (w : Word) : State :=
  let x := s.qpair f q
  let n := qsize x.cqlog
  let h := fld w 0 12
  if n ≤ h then s.setQpair f q { x with dberr := true }
  else s.setQpair f q { x with cqhead := h, cqused := x.cqused - (h + n - x.cqhead) % n }

/-- CQ_DOORBELL (R46). -/
def execCqDoorbell (fn q : Nat) (value : Word) (s : State) : Host.Outcome State Fault Refusal := .next (s.cqDoorbell fn q value)

/-- A write of SQBASE or CQBASE: refused while EN is 1, and with bits [11:0] not zero (R44, R45). -/
def State.writeQbase (s : State) (f q : Nat) (cq : Bool) (w : Word) : State :=
  let x := s.qpair f q
  if x.en ∨ fld w 0 12 ≠ 0 then s.cfgRefused f q
  else s.setQpair f q (if cq then { x with cqbase := w } else { x with sqbase := w })

/-- An offset of BAR0 lies in the MSI-X table: 16 bytes for each of the function's vectors (R44). -/
def inTable (f o : Nat) : Bool := 0x8000 ≤ o && o < 0x8000 + 16 * (if f = 0 then 66 else 65) && o % 8 = 0

/-- A write of a function's BAR0; the pending-bit array and the offsets that are not listed ignore it (R44). -/
def State.barWrite (s : State) (f o : Nat) (w : Word) : State :=
  let q := (o - 0x1000) / 64
  if inTable f o then s.modFn f fun g => { g with msixTable := g.msixTable.put o w }
  else if o < 0x1000 ∨ 0x2000 ≤ o then s
  else match o % 64 with
    | 0 => s.writeQbase f q false w
    | 8 => s.writeQbase f q true w
    | 0x10 => s.writeQctl f q w
    | 0x18 => s.clearQstat f q w
    | 0x20 => s.sqDoorbell f q w
    | 0x28 => s.cqDoorbell f q w
    | _ => s

/-- REGISTER_WRITE: below 2^32 an offset in device control space, from 2^32 on the BAR0 of function f at 2^32 + 64 KiB × f
(R42, R44, notes/assumptions/18.md). -/
def execRegisterWrite (offset : Nat) (value : Word) (s : State) : Host.Outcome State Fault Refusal :=
  .next (if offset < 2 ^ 32 then s.ctrlWrite offset value
    else if (offset - 2 ^ 32) / 0x1_0000 ≤ 1024 then s.barWrite ((offset - 2 ^ 32) / 0x1_0000) (offset % 0x1_0000) value
    else s)

/-- FSTAT (R44). -/
def State.fstat (s : State) (f : Nat) : Word :=
  let g := s.function f
  word (b2n (g.queues.any fun (e : Nat × QPair) => e.2.seqerr) * 8 + b2n (s.hold && f = 0) * 4 + b2n (s.power = .recovery) * 2 + b2n g.ready)

/-- AUDLOC (R44). -/
def State.audloc (s : State) (f : Nat) : Word :=
  match (if f = 0 then none else s.fnPart f) with
  | some p => (s.partition p).audbase + word (s.partition p).audlog
  | none => 0

/-- QSTAT and QCTL (R44). -/
def QPair.qstat (x : QPair) : Word :=
  word (x.expseq.toNat * 2 ^ 16 + x.sqhead * 2 ^ 4 + b2n x.cfgerr * 4 + b2n x.dberr * 2 + b2n x.seqerr)
def QPair.qctl (x : QPair) : Word := word (x.cqlog * 2 ^ 8 + x.sqlog * 2 ^ 4 + b2n x.ien * 2 + b2n x.en)

/-- A read of a function's BAR0: a message goes out as its vector is raised, so no bit of the pending-bit array is set
(notes/assumptions/131.md); offsets that are not listed read zero (R44). -/
def State.barRead (s : State) (f o : Nat) : Word :=
  let x := s.qpair f ((o - 0x1000) / 64)
  if o = 0 then word f
  else if o = 8 then s.fstat f
  else if o = 0x10 then s.audloc f
  else if inTable f o then ((s.function f).msixTable.look o).getD 0
  else if o < 0x1000 ∨ 0x2000 ≤ o then 0
  else match o % 64 with
    | 0 => x.sqbase
    | 8 => x.cqbase
    | 0x10 => x.qctl
    | 0x18 => x.qstat
    | _ => 0

/-! ### The fetcher (R46, R47) -/

/-- The record at SQHEAD. -/
def State.sqRecord (s : State) (x : QPair) : BitVec 512 := BitVec.ofNat 512 (s.rd (hostPa (x.sqbase.toNat + 64 * x.sqhead)) 64)

/-- A record whose tag matches is accepted (R47). -/
def State.acceptRec (s : State) (f q : Nat) (x : QPair) (r : BitVec 512) : State :=
  let y := { x with sqhead := (x.sqhead + 1) % qsize x.sqlog, expseq := x.expseq + 1, mismatch := false, retries := 0 }
  { s.setQpair f q y with cmds := s.cmds ++ [⟨s.nextCmd, f, q, r, .pending⟩], nextCmd := s.nextCmd + 1 }

/-- One read of the record: accepted, to be read again, or, after the 64th read, SEQERR, and the queue stops (R47). -/
def State.fetchRec (s : State) (f q : Nat) : State :=
  let x := s.qpair f q
  let r := s.sqRecord x
  if r.extractLsb' 16 16 = x.expseq then s.acceptRec f q x r
  else if 64 ≤ x.retries + 1 then
    (s.setQpair f q { x with seqerr := true, stopped := true, mismatch := false, retries := 0 }).vector f 64
  else s.setQpair f q { x with mismatch := true, retries := x.retries + 1, readAt := s.wall }

/-- The function accepts commands: READY, or the recovery state for the physical function (R41, R44). -/
def State.accepts (s : State) (f : Nat) : Bool := if s.power = .recovery then f = 0 else (s.function f).ready

/-- SQ_FETCH (R46, R47). -/
def State.sqFetch (s : State) (f q : Nat) : State :=
  let x := s.qpair f q
  if x.en ∧ ¬ x.stopped ∧ ¬ x.mismatch ∧ x.sqhead ≠ x.sqtail ∧ s.accepts f then s.fetchRec f q else s

/-- SQ_FETCH (R47). -/
def execSqFetch (fn q : Nat) (s : State) : Host.Outcome State Fault Refusal := .next (s.sqFetch fn q)

/-- SEQ_RETRY: 1 µs after a read whose tag did not match (R47). -/
def State.seqRetry (s : State) (f q : Nat) : State :=
  let x := s.qpair f q
  if x.en ∧ x.mismatch ∧ x.readAt + 1000 ≤ s.wall ∧ s.accepts f then s.fetchRec f q else s

/-- SEQ_RETRY (R47). -/
def execSeqRetry (fn q : Nat) (s : State) : Host.Outcome State Fault Refusal := .next (s.seqRetry fn q)

/-! ### Records -/

def Cmd.opc (c : Cmd) : Nat := fld c.record 0 8
def Cmd.seq (c : Cmd) : Nat := fld c.record 16 16
def Cmd.fnc (c : Cmd) : Bool := c.record.getLsbD 32
def Cmd.phys (c : Cmd) : Bool := c.record.getLsbD 33
def Cmd.asid (c : Cmd) : Nat := fld c.record 48 10
/-- Operand Qk (R48). -/
def Cmd.q_ (c : Cmd) (k : Nat) : Word := c.record.extractLsb' (64 * k) 64

/-- The highest operand that a command names (R52). -/
def namedOps (opc : Nat) : Nat :=
  match opc with
  | 7 => 1
  | 1 | 2 | 3 => 2
  | 4 | 5 | 6 => 3
  | _ => 5

/-- No reserved bit is set and every operand that is not named is zero (R48, R52). -/
def Cmd.wellFormed (c : Cmd) : Bool :=
  fld c.record 8 8 = 0 && fld c.record 34 14 = 0 && fld c.record 58 6 = 0 &&
    (List.range 8).all fun k => k ≤ namedOps c.opc || c.q_ k = 0

def State.cmd (s : State) (id : Nat) : Option Cmd := s.cmds.find? fun c => c.id = id

/-- Commands of the same queue that were fetched earlier. -/
def State.earlier (s : State) (c : Cmd) : List Cmd := (s.cmds.takeWhile fun x => x.id ≠ c.id).filter fun x => x.fn = c.fn && x.q = c.q

/-- The command may start: in the order of its queue, and with FNC only after every earlier one has posted its record
(R50). -/
def State.mayStart (s : State) (c : Cmd) : Bool :=
  c.st = .pending && (s.earlier c).all fun x => ¬ c.fnc && x.st ≠ .pending

/-! ### Completion (R46, R48) -/

/-- A completion record (R48). -/
def completion (c : Cmd) (x : QPair) (st : BitVec 8) (addr res0 res1 : Word) : BitVec 256 :=
  res1 ++ res0 ++ addr ++ 0#15 ++ BitVec.ofBool x.phase ++ st ++ BitVec.ofNat 8 c.opc ++ BitVec.ofNat 16 c.seq ++ 0#4 ++
    BitVec.ofNat 12 x.sqhead

/-- Write a finished command's record into a released slot, then raise its vector; the command is over (R46). None while
the completion queue is full. -/
def State.postRec (s : State) (c : Cmd) (st : BitVec 8) (addr res0 res1 : Word) : Option State :=
  let x := s.qpair c.fn c.q
  if qsize x.cqlog ≤ x.cqused then none
  else
    let t := (x.cqtail + 1) % qsize x.cqlog
    let y := { x with cqtail := t, cqused := x.cqused + 1, phase := if t = 0 then ¬ x.phase else x.phase }
    let s1 := (s.hostWrite (x.cqbase.toNat + 32 * x.cqtail) (leBytes (completion c x st addr res0 res1).toNat 32)).setQpair c.fn c.q y
    let s2 := if x.ien then s1.vector c.fn c.q else s1
    some { s2 with cmds := s2.cmds.filter fun z => z.id ≠ c.id }

/-- CQ_POST: a finished command, or one with an invalid OPC that may start (R46, R52). -/
def State.cqPost (s : State) (id : Nat) : State :=
  match s.cmd id with
  | none => s
  | some c => match c.st with
    | .finished st a r0 r1 => (s.postRec c st a r0 r1).getD s
    | .pending =>
      if s.mayStart c ∧ (c.opc = 0 ∨ 8 < c.opc) then
        (let st : BitVec 8 := if s.power = .recovery then 8 else 1
         (s.postRec c st 0 0 0).getD (s.finish id st.toNat 0 0 0))
      else s
    | .running => s

/-- CQ_POST (R46). -/
def execCqPost (cmd : Nat) (s : State) : Host.Outcome State Fault Refusal := .next (s.cqPost cmd)

/-! ### Starting a command -/

/-- A command of one OPC starts: recovery status, an invalid field, or its effect (R41, R49, R52). -/
def State.startCmd (s : State) (id opc : Nat) (effect : Cmd → State → State) : State :=
  match s.cmd id with
  | none => s
  | some c =>
    if c.opc ≠ opc ∨ s.mayStart c = false then s
    else if s.power = .recovery then s.finish id 8 0 0 0
    else if ¬ c.wellFormed then s.finish id 2 0 0 0
    else effect c s

/-- The function that a command acts for, and its partition: its own, or, for the physical function, that of its ASID
(R51). -/
structure Actor where
  fn : Nat
  part : Option Nat
  deriving DecidableEq, Repr

def State.actor (s : State) (c : Cmd) : Actor :=
  if c.fn ≠ 0 then ⟨c.fn, s.fnPart c.fn⟩
  else
    let f := fld (s.asidEntry c.asid) 0 11
    ⟨f, s.fnPart f⟩

/-- The ASID is live and the function may name it (R51). -/
def State.mayName (s : State) (c : Cmd) : Bool :=
  s.asidLive c.asid && (c.fn = 0 || fld (s.asidEntry c.asid) 0 11 = c.fn)

/-! ### LAUNCH (R53, R55) -/

/-- The packet of 64 bytes, and whether R55 refuses it; `crews` is what the partition holds. -/
def packetOf (r : BitVec 512) : Packet where
  done := r.extractLsb' 448 64
  depa := r.extractLsb' 384 64
  sclp := r.extractLsb' 320 64
  fmtp := r.extractLsb' 256 64
  argp := r.extractLsb' 192 64
  entry := r.extractLsb' 128 64
  budget := fld r 96 32
  crews := fld r 86 10
  cores := fld r 82 4
  threads := fld r 77 5
  weight := fld r 56 8
  job := r.getLsbD 0

def packetBad (r : BitVec 512) (crews : Nat) : Bool :=
  let p := packetOf r
  fld r 64 13 ≠ 0 || fld r 1 55 ≠ 0 || p.weight = 0 || p.threads = 0 || 16 < p.threads || p.cores = 0 || 8 < p.cores ||
    p.crews = 0 || 512 < p.crews || fld p.entry 0 3 ≠ 0 || fld p.fmtp 0 3 ≠ 0 || crews < p.crews

/-- Packets from host memory. -/
def State.packetsAt (s : State) (a n : Nat) : List (BitVec 512) :=
  (List.range n).map fun k => BitVec.ofNat 512 (s.rd (hostPa (a + 64 * k)) 64)

/-- LAUNCH (R53, R55). PHYS changes nothing in it: its one address is a host address (DESIGN CHOICE,
notes/assumptions/132.md). -/
def State.launch (s : State) (c : Cmd) : State :=
  let x := s.actor c
  let n := fld (c.q_ 2) 0 13
  if ¬ s.mayName c then s.finish c.id 3 0 0 0
  else match x.part with
    | none => s.finish c.id 3 0 0 0
    | some p =>
      if fld (c.q_ 1) 0 6 ≠ 0 ∨ n = 0 ∨ 4096 < n ∨ fld (c.q_ 2) 13 3 ≠ 0 ∨ fld (c.q_ 2) 22 42 ≠ 0 then s.finish c.id 2 0 0 0
      else
        let s0 := s.drainHost
        let rs := s0.packetsAt (c.q_ 1).toNat n
        if rs.any fun r => packetBad r (s0.clustersOf p).length then s0.finish c.id 2 0 0 0
        else
          (s0.modTqueue x.fn (fld (c.q_ 2) 16 6) fun t => { t with
            pkts := t.pkts ++ rs.map fun r => ⟨packetOf r, c.asid, .waiting, none, none, none, false⟩ }).finish c.id 0 0 (word n) 0

/-- LAUNCH (R53). -/
def execLaunch (cmd : Nat) (s : State) : Host.Outcome State Fault Refusal :=
  .next (s.startCmd cmd 1 fun c s => s.launch c)

/-! ### Accesses of commands (R51, R53, R61, R75) -/

/-- The destination's checks for a command: ownership as its function's, with the function in the violation record; a
physical address of the physical function is not checked for ownership (R51, R75), and none of its commands touches device
control space so (R61). A frame of a grant is zeroed first (R72). -/
def State.cmdRefusal (s : State) (c : Cmd) (m : Msg) (x : Touch) : State × Option TrapRec :=
  if c.fn = 0 ∧ m.pa / 2 ^ 48 = 6 then (s, some (TrapRec.make 0x07 m.va 3 0))
  else if c.phys then (s.zeroFirst m.pa x.n).rawRefusal m x
  else
    let k := s.violation m.accessor m.pa x.n
    if k ≠ 0 then
      (s.logViolation m.pa 0 0 m.part m.asid 0 m.fn k, some (TrapRec.make 0x07 m.va (word k) 0))
    else (s.zeroFirst m.pa x.n).rawRefusal m x

/-- Where a device address lies: physical, or translated under the command's ASID (R51). -/
def State.cmdReach (s : State) (c : Cmd) (a : Word) (k : Kind) : Except TrapRec (Nat × State) :=
  if c.phys then (if (s.target a.toNat).isNone then .error (TrapRec.make 0x03 a 1 0) else .ok (a.toNat, s))
  else s.agentReach c.asid a 1 k

def State.cmdMsg (s : State) (c : Cmd) (a : Word) (pa : Nat) : Msg :=
  let x := s.actor c
  s.agentMsg x.fn (x.part.getD 0) c.asid .none a pa

/-- Read a piece of one line for a command. -/
def State.cmdRead (s : State) (c : Cmd) (a : Word) (n : Nat) : State × Except TrapRec (List Byte) :=
  match s.cmdReach c a .read with
  | .error t => (s, .error t)
  | .ok (pa, s1) => match s1.cmdRefusal c (s1.cmdMsg c a pa) ⟨n, false, true, false⟩ with
    | (s2, some t) => (s2, .error t)
    | (s2, none) => (s2, .ok (s2.rdBytes pa n))

/-- Write a piece of one line for a command. -/
def State.cmdWrite (s : State) (c : Cmd) (a : Word) (bs : List Byte) : State × Option TrapRec :=
  match s.cmdReach c a .write with
  | .error t => (s, some t)
  | .ok (pa, s1) =>
    let m := s1.cmdMsg c a pa
    match s1.lineRefusedBy (fun s x => s.cmdRefusal c m x) m bs.length with
    | (s2, some t) => (s2, some t)
    | (s2, none) => match s2.target pa with
      | some (.host _) => (s2.hostWrite (pa % 2 ^ 48) bs, none)
      | _ => ((s2.lineWrite pa bs).noteDirty 0 pa bs.length, none)

/-- ADDR of an error status: the statuses 0x04 to 0x06 name an address, 0x05 and 0x06 that of a line (R48, R49). -/
def statusAddr (st : Nat) (a : Word) : Word :=
  match st with
  | 4 => a
  | 5 | 6 => a &&& ~~~63#64
  | _ => 0

/-- Some status of the table other than success: the spec matches none to a translation or permission fault of a command
(R49, R53, notes/assumptions/4.md). -/
def State.someStatus (s : State) (a : Word) : State × Nat × Word :=
  let (v, s1) := s.free
  (s1, fld v 0 3 + 1, statusAddr (fld v 0 3 + 1) a)

/-- STATUS and ADDR of a refused access of a command (R49, R61). -/
def State.cmdStatus (s : State) (c : Cmd) (t : TrapRec) (a : Word) : State × Nat × Word :=
  match t.code.toNat with
  | 0x07 => if c.fn = 0 ∧ t.tinfo = 3 then (s, 2, 0) else (s, 4, a)
  | 0x08 => (s, 5, a &&& ~~~63#64)
  | 0x03 => if t.tinfo = 5 then (s, 6, a &&& ~~~63#64) else s.someStatus a
  | _ => s.someStatus a

/-- The piece of the device line from an address on. -/
def pieceLen (a : Word) (left : Nat) : Nat := min left (64 - a.toNat % 64)

/-- COPY-IN line by line: bytes written, and the refusal that stopped it (R53). -/
def State.copyInLines (s : State) (c : Cmd) : Nat → Nat → Word → Nat → Nat → State × Nat × Option (TrapRec × Word)
  | 0, _, _, _, done => (s, done, none)
  | fuel + 1, h, a, left, done =>
    if left = 0 then (s, done, none)
    else
      let n := pieceLen a left
      match s.cmdWrite c a (s.rdBytes (hostPa h) n) with
      | (s1, some t) => (s1, done, some (t, a))
      | (s1, none) => s1.copyInLines c fuel (h + n) (a + word n) (left - n) (done + n)

/-- COPY-OUT line by line. -/
def State.copyOutLines (s : State) (c : Cmd) : Nat → Nat → Word → Nat → Nat → State × Nat × Option (TrapRec × Word)
  | 0, _, _, _, done => (s, done, none)
  | fuel + 1, h, a, left, done =>
    if left = 0 then (s, done, none)
    else
      let n := pieceLen a left
      match s.cmdRead c a n with
      | (s1, .error t) => (s1, done, some (t, a))
      | (s1, .ok bs) => (s1.hostWrite h bs).copyOutLines c fuel (h + n) (a + word n) (left - n) (done + n)

/-- A copy command ends (R49, R53). -/
def State.copyOver (c : Cmd) (r : State × Nat × Option (TrapRec × Word)) : State :=
  match r with
  | (s, n, none) => s.finish c.id 0 0 (word n) 0
  | (s, n, some (t, a)) => let (s1, st, ad) := s.cmdStatus c t a; s1.finish c.id st ad (word n) 0

/-- A device range lies in device control space (R61). -/
def inControl (c : Cmd) (a : Word) : Bool := c.phys && a.toNat / 2 ^ 48 = 6

/-- Register writes of a COPY-IN, in ascending order (R61). -/
def State.copyInRegs (s : State) (h off : Nat) : Nat → State
  | 0 => s
  | n + 1 => (s.ctrlWrite off (s.rd64 (hostPa h))).copyInRegs (h + 8) (off + 8) n

/-- Register reads of a COPY-OUT. -/
def State.copyOutRegs (s : State) (h off : Nat) : Nat → State
  | 0 => s
  | n + 1 => (s.hostWrite h (leBytes (s.ctrlRead off).toNat 8)).copyOutRegs (h + 8) (off + 8) n

/-- A virtual function's physical range lies in its partition's audit log (R51, R59). -/
def State.ownAudit (s : State) (c : Cmd) (a : Word) (n : Nat) : Bool :=
  match s.fnPart c.fn with
  | none => false
  | some p => (s.partition p).audAt ≤ a.toNat && a.toNat + n ≤ (s.partition p).audAt + (s.partition p).audLen

/-- COPY-IN (R51, R53, R61). -/
def State.copyIn (s0 : State) (c : Cmd) : State :=
  let s := s0.drainHost
  let h := (c.q_ 1).toNat
  let a := c.q_ 2
  let n := (c.q_ 3).toNat
  if n = 0 ∨ 2 ^ 32 < n then s.finish c.id 2 0 0 0
  else if c.phys ∧ c.fn ≠ 0 then s.finish c.id 4 a 0 0
  else if ¬ c.phys ∧ s.mayName c = false then s.finish c.id 3 0 0 0
  else if inControl c a then
    (if a.toNat % 8 ≠ 0 ∨ n % 8 ≠ 0 then s.finish c.id 2 0 0 0
      else (s.copyInRegs h (a.toNat % 2 ^ 48) (n / 8)).finish c.id 0 0 (word n) 0)
  else State.copyOver c (s.copyInLines c (n / 64 + 2) h a n 0)

/-- COPY_IN (R53). -/
def execCopyIn (cmd : Nat) (s : State) : Host.Outcome State Fault Refusal :=
  .next (s.startCmd cmd 5 fun c s => s.copyIn c)

/-- COPY-OUT (R51, R53, R59, R61). A virtual function's physical range that runs past the end of its audit log moves no line
(DESIGN CHOICE, notes/assumptions/134.md). -/
def State.copyOut (s0 : State) (c : Cmd) : State :=
  let s := s0.drainHost
  let a := c.q_ 1
  let h := (c.q_ 2).toNat
  let n := (c.q_ 3).toNat
  if n = 0 ∨ 2 ^ 32 < n then s.finish c.id 2 0 0 0
  else if c.phys ∧ c.fn ≠ 0 ∧ s.ownAudit c a n = false then s.finish c.id 4 a 0 0
  else if ¬ c.phys ∧ s.mayName c = false then s.finish c.id 3 0 0 0
  else if inControl c a then
    (if a.toNat % 8 ≠ 0 ∨ n % 8 ≠ 0 then s.finish c.id 2 0 0 0
      else (s.copyOutRegs h (a.toNat % 2 ^ 48) (n / 8)).finish c.id 0 0 (word n) 0)
  else State.copyOver c (s.copyOutLines c (n / 64 + 2) h a n 0)

/-- COPY_OUT (R53). -/
def execCopyOut (cmd : Nat) (s : State) : Host.Outcome State Fault Refusal :=
  .next (s.startCmd cmd 6 fun c s => s.copyOut c)

/-! ### SEAL (R57) -/

/-- The measurement's reads of `n` lines: the first refusal, with its line (R36, R57). -/
def State.sealLines (s : State) (c : Cmd) : Nat → Word → Nat → State × Option (TrapRec × Word)
  | 0, _, _ => (s, none)
  | n + 1, a, pa => match s.cmdRefusal c (s.cmdMsg c a pa) ⟨64, false, true, false⟩ with
    | (s1, some t) => (s1, some (t, a))
    | (s1, none) => s1.sealLines c n (a + 64) (pa + 64)

/-- The frames of a sealed range, each readable by the command; the refusal of the first line that is not. -/
def State.sealFrames (s : State) (c : Cmd) : Nat → Word → State × Except (TrapRec × Word) (List Nat)
  | 0, _ => (s, .ok [])
  | n + 1, a => match s.cmdReach c a .read with
    | .error t => (s, .error (t, a))
    | .ok (pa, s1) => match s1.sealLines c 64 a pa with
      | (s2, some e) => (s2, .error e)
      | (s2, none) => match s2.sealFrames c n (a + 4096) with
        | (s3, .error e) => (s3, .error e)
        | (s3, .ok l) => (s3, .ok (frameOf pa :: l))

/-- A frame has a home bank (R13, R57). -/
def State.hasBank (s : State) (f : Nat) : Bool :=
  match s.target (f * 4096) with
  | some (.vault _ _) | some (.far _) | some (.sram _ _) => true
  | _ => false

/-- The measurement of a sealed region (R57). -/
def State.measure (s : State) (base len : Word) (frames : List Nat) : BitVec 256 :=
  sha256 (leBytes base.toNat 8 ++ leBytes len.toNat 8 ++ (frames.map fun f => s.rdBytes (f * 4096) 4096).flatten)

/-- SEAL (R57). A physical range of the physical function is sealed for the partition of the function of its ASID's entry,
live or not (DESIGN CHOICE, notes/assumptions/133.md). -/
def State.sealRange (s : State) (c : Cmd) : State :=
  let base := c.q_ 1
  let len := c.q_ 2
  let x := s.actor c
  if fld base 0 12 ≠ 0 ∨ fld len 0 12 ≠ 0 ∨ len = 0 ∨ 2 ^ 40 < len.toNat then s.finish c.id 2 0 0 0
  else if c.phys ∧ c.fn ≠ 0 then s.finish c.id 4 base 0 0
  else if ¬ c.phys ∧ s.mayName c = false then s.finish c.id 3 0 0 0
  else match x.part with
    | none => s.finish c.id 3 0 0 0
    | some p =>
      if (s.partition p).st ≠ 1 then s.finish c.id 3 0 0 0
      else match s.sealFrames c (len.toNat / 4096) base with
        | (s1, .error (t, a)) => let (s2, st, ad) := s1.cmdStatus c t a; s2.finish c.id st ad 0 0
        | (s1, .ok fs) =>
          let old := ((s1.partition p).seals.map fun e => e.frames).flatten
          let k := (s1.partition p).seals.length
          if 64 ≤ k ∨ (fs.any fun f => old.contains f || ¬ s1.hasBank f) = true then s1.finish c.id 2 0 0 0
          else
            ({ s1 with sealed := s1.sealed ++ fs.filter fun f => ¬ s1.sealed.contains f }.modPart p fun (y : Partition) =>
              { y with seals := y.seals ++ [(⟨base, len, s1.measure base len fs, fs⟩ : Seal)] }).finish c.id 0 0 (word k) 0

/-- SEAL (R57). -/
def execSeal (cmd : Nat) (s : State) : Host.Outcome State Fault Refusal :=
  .next (s.startCmd cmd 2 fun c s => s.sealRange c)

/-! ### DEADLINE (R53, R113) -/

/-- The command waits for vacancy. -/
def State.cmdRunning (s : State) (id : Nat) : State :=
  { s with cmds := s.cmds.map fun c => if c.id = id then { c with st := .running } else c }

/-- DEADLINE (R53, R113). -/
def State.deadlineCmd (s : State) (c : Cmd) : State :=
  let w := c.q_ 1
  let p := fld w 0 4
  let base := fld w 16 12
  let len := fld w 32 13
  if c.fn ≠ 0 then s.finish c.id 3 0 0 0
  else if fld w 4 12 ≠ 0 ∨ fld w 28 4 ≠ 0 ∨ fld w 45 19 ≠ 0 then s.finish c.id 2 0 0 0
  else if (s.partition p).st ≠ 1 then s.finish c.id 3 0 0 0
  else if ¬ s.intervalOk p base len then s.finish c.id 2 0 0 0
  else match s.freeEntry p base len with
    | none => s.finish c.id 2 0 0 0
    | some e => (s.cmdRunning c.id).accept p e base len (c.q_ 2).toNat false (some c.id)

/-- DEADLINE (R53). -/
def execDeadline (cmd : Nat) (s : State) : Host.Outcome State Fault Refusal :=
  .next (s.startCmd cmd 3 fun c s => s.deadlineCmd c)

/-! ### HARVEST (R74) -/

/-- Dirty pages of a range that leaves with D set cover. -/
def dirtyPages (ls : List Leaf2) (base n : Nat) : List Bool :=
  (List.range n).map fun k => ls.any fun l => overlap l.base l.bytes (base + 4096 * k) 4096

/-- Bits as bytes, bit 0 first. -/
def bitBytes (bs : List Bool) : List Byte :=
  (List.range ((bs.length + 7) / 8)).map fun k =>
    BitVec.ofNat 8 (((bs.drop (8 * k)).take 8).foldr (fun b a => b2n b + 2 * a) 0)

/-- HARVEST (R74). -/
def State.harvest (s : State) (c : Cmd) : State :=
  let base := (c.q_ 1).toNat
  let len := (c.q_ 2).toNat
  if c.fn ≠ 0 then s.finish c.id 3 0 0 0
  else if base % 4096 ≠ 0 ∨ len % 4096 ≠ 0 ∨ len = 0 ∨ 2 ^ 36 < len ∨ 2 ^ 52 ≤ base ∨
      (6 * 2 ^ 48 < base + len ∧ base < 7 * 2 ^ 48) then s.finish c.id 2 0 0 0
  else
    let ls := s.leavesOf base len
    let bits := dirtyPages (ls.filter fun l => bit (s.rd64 l.entryPa) 7) base (len / 4096)
    ((ls.foldl State.clearD s).hostWrite (c.q_ 3).toNat (bitBytes bits)).finish c.id 0 0 (word (bits.filter id).length) 0

/-- HARVEST (R74). -/
def execHarvest (cmd : Nat) (s : State) : Host.Outcome State Fault Refusal :=
  .next (s.startCmd cmd 4 fun c s => s.harvest c)

/-! ### RESET-FUNCTION (R53, R76) -/

/-- RESET-FUNCTION: the physical function's command completes when the reset has; a function that resets itself posts its
record first (R53). -/
def State.resetCmd (s : State) (c : Cmd) : State :=
  let f := fld (c.q_ 1) 0 11
  if f = 0 ∨ 1024 < f ∨ fld (c.q_ 1) 11 53 ≠ 0 then s.finish c.id 2 0 0 0
  else if c.fn ≠ 0 ∧ c.fn ≠ f then s.finish c.id 3 0 0 0
  else if c.fn = 0 then (s.cmdRunning c.id).beginReset f none
  else match s.postRec c 0 0 0 0 with
    | none => s
    | some s1 => s1.beginReset f none

/-- RESET_FUNCTION (R76). -/
def execResetFunction (cmd : Nat) (s : State) : Host.Outcome State Fault Refusal :=
  .next (s.startCmd cmd 7 fun c s => s.resetCmd c)

/-! ### ATTEST (R60) -/

/-- What a report says of the function's partition (R60). -/
structure Attested where
  part : Nat
  base : Nat
  len : Nat
  n : Nat
  head : BitVec 256
  seals : List Seal
  deriving DecidableEq, Repr

/-- The partition's values; for the physical function, which has no partition, the spec states none, and they are free
values (notes/assumptions/4.md). -/
def State.attested (s : State) (part : Option Nat) : Attested × State :=
  match part with
  | some p =>
    let x := s.partition p
    (⟨p, x.base, x.len, x.audN, x.audH, x.seals⟩, s)
  | none =>
    let (a, s1) := s.free
    let (b, s2) := s1.free
    let (h0, s3) := s2.free
    let (h1, s4) := s3.free
    let (h2, s5) := s4.free
    let (h3, s6) := s5.free
    (⟨fld a 0 4, fld a 16 12, fld a 32 13, b.toNat, h3 ++ h2 ++ h1 ++ h0, []⟩, s6)

/-- The report before its signature (R60). -/
def State.reportBytes (s : State) (c : Cmd) (x : Attested) : List Byte :=
  let m := x.seals.length
  leBytes (144 + 48 * m + 17088) 8 ++ leBytes (c.record.toNat >>> 128) 32 ++ beBytes s.image.digest.toNat 32 ++
    leBytes s.image.version.toNat 4 ++ leBytes (c.fn + x.part * 2 ^ 16) 4 ++ leBytes (x.base + x.len * 2 ^ 16) 8 ++
    leBytes s.wall 8 ++ leBytes x.n 8 ++ beBytes x.head.toNat 32 ++ leBytes m 8 ++
    (x.seals.map fun e => leBytes e.base.toNat 8 ++ leBytes e.len.toNat 8 ++ beBytes e.sha.toNat 32).flatten

/-- ATTEST (R60). -/
def State.attest (s : State) (c : Cmd) : State :=
  let a := (c.q_ 1).toNat
  if a % 4096 ≠ 0 then s.finish c.id 2 0 0 0
  else
    let (x, s1) := s.attested (if c.fn = 0 then none else s.fnPart c.fn)
    let r := s1.reportBytes c x
    let sig := leBytes (Config.signature r).toNat 17088
    (s1.hostWrite a (r ++ sig)).finish c.id 0 0 (word (r.length + 17088)) 0

/-- ATTEST (R60). -/
def execAttest (cmd : Nat) (s : State) : Host.Outcome State Fault Refusal :=
  .next (s.startCmd cmd 8 fun c s => s.attest c)

end Sys2Proof.Machine
end

