-- ==== Sys2Proof/Machine/Firmware.lean ====
section
/-! DEFINITION. Start-up, firmware images and power (R37–R41), temperature (R97, R98), scrubbing (R35) and signed audit heads
(R59). -/

namespace Sys2Proof.Machine

/-! ### Start-up (R39–R41) -/

/-- DETAIL of step 1 for an image that the boot ROM does not accept; 0 when it accepts (R40, R42). -/
def State.imageFault (s : State) (i : FwImage) : Nat :=
  if sha256 (beBytes i.key.toNat 32) ≠ s.fuseKey then 1
  else if ¬ i.sigVerifies then 2
  else if i.version.toNat < s.fuseMin.toNat then 3
  else 0

/-- What survives a start: the part, its fuses, its image, time, host memory, temperatures, the keys drawn and the model's
own fields; everything else is as after reset (R39, R41). -/
def State.restart (s : State) : State :=
  { State.reset with
    part := s.part, farSz := s.farSz, farUneq := s.farUneq, image := s.image, fuseKey := s.fuseKey, fuseMin := s.fuseMin,
    tripped := s.tripped, wall := s.wall, temps := s.temps, keyCount := s.keyCount + 1,
    pmKey := s.keyCount + 1, agenda := s.agenda, fresh := s.fresh,
    mem := s.mem.filter fun (c : Host.Cell) => c.1 / 2 ^ 48 = 8 }

/-- Link ports after training: up where it succeeded, down otherwise (R39, R43). -/
def State.trainLinks (s : State) (up : BitVec 16) : State :=
  (List.range s.part.ports).foldl (fun (s : State) k => s.setLink k ⟨if bit up k then 2 else 0, 0⟩) s

/-- Start with an accepted image: a higher version raises the fused minimum; a failing step leaves the boot-failed state
(R39, R40). -/
def State.boot (s : State) (hw : StartUp) : State :=
  let s1 := s.restart.trainLinks hw.linksUp
  let s2 := { s1 with fuseMin := BitVec.ofNat 32 (max s.fuseMin.toNat s.image.version.toNat) }
  if hw.failStep = 0 then { s2 with power := .running }
  else { s2 with power := .bootFailed, bootStep := hw.failStep, bootDetail := hw.detail }

/-- POWER_ON: from off; after an update that power was lost in, the recovery state (R39, R41). A start in the recovery state
trains the device links, and a failing step of the start does not show there: the spec says neither (DESIGN CHOICE,
notes/assumptions/148.md). -/
def State.powerOn (s : State) (hw : StartUp) : State :=
  if s.power ≠ .off then s
  else if s.updateLost then { s.restart.trainLinks hw.linksUp with power := .recovery, updateLost := true }
  else
    let d := s.imageFault s.image
    if d ≠ 0 then { s.restart with power := .bootFailed, bootStep := 1, bootDetail := BitVec.ofNat 8 d } else s.boot hw

/-- POWER_ON (R39). -/
def execPowerOn (hw : StartUp) (s : State) : Host.Outcome State Fault Refusal := .next (s.powerOn hw)

/-- FIRMWARE_LOAD: an accepted image restarts the device, another puts it into the recovery state (R40, R41). -/
def State.loadImage (s : State) (i : FwImage) (hw : StartUp) : State :=
  if ¬ s.awake then s
  else if s.imageFault i = 0 then { s with image := i }.boot hw
  else { s.restart.trainLinks hw.linksUp with power := .recovery, image := i, updateLost := true }

/-- FIRMWARE_LOAD (R41). -/
def execFirmwareLoad (img : FwImage) (hw : StartUp) (s : State) : Host.Outcome State Fault Refusal := .next (s.loadImage img hw)

/-- POWER_LOSS (R41). -/
def execPowerLoss (imageBeingWritten : Bool) (s : State) : Host.Outcome State Fault Refusal :=
  .next { s with power := .off, pick := none, updateLost := s.updateLost || imageBeingWritten }

/-- THERMAL_TRIP: at 115 °C every core stops and the package turns off; `tripped` is its report to the physical function,
which reaches it through the auxiliary power domain and so outlasts the next start (R38). -/
def execThermalTrip (_die tempC : Nat) (s : State) : Host.Outcome State Fault Refusal :=
  .next (if 115 ≤ tempC ∧ s.awake = true then { s with power := .off, pick := none, tripped := true } else s)

/-- What may happen to a package that is off: its power returns, or it is lost again (R38, R39, R41). -/
def whileOff : Instr → Bool
  | .powerOn _ | .powerLoss _ => true
  | _ => false

/-! ### Power (R37) -/

/-- The power limit of the part in mW. -/
def Part.limit : Part → Nat
  | .hx1024d => 650_000
  | .hx4096p => 2_400_000
  | .hx4096m => 2_600_000

/-- Change one cluster's clock by a step of 100 MHz: the first of the list that a test admits. -/
def State.clock (s : State) (cs : List Nat) (may : Nat → Bool) (f : Nat → Nat) : State :=
  match cs.find? fun k => may (s.cluster k).mhz with
  | some k => s.modCluster k fun x => { x with mhz := f x.mhz }
  | none => s

/-- POWER_LIMIT_CHECK: above the limit the hottest cluster that still can is slowed; below 95% of it the coolest that was
slowed is raised (R37). -/
def State.powerCheck (s : State) (mw : Nat) (hottest : List Nat) : State :=
  if s.part.limit < mw then s.clock hottest (fun x => decide (1100 ≤ x)) (· - 100)
  else if mw * 100 < s.part.limit * 95 then s.clock hottest.reverse (fun x => decide (x ≤ 1900)) (· + 100)
  else s

/-- POWER_LIMIT_CHECK (R37). -/
def execPowerLimitCheck (milliwatts : Nat) (hottestFirst : List Nat) (s : State) : Host.Outcome State Fault Refusal :=
  .next (s.powerCheck milliwatts hottestFirst)

/-! ### Temperature (R97, R98) -/

/-- Slots of a core that a thermal check may disable: enabled ones with a thread. -/
def State.hotSlots (s : State) (d : Nat) : List Nat :=
  (List.range 16).filter fun k => (s.inSlot d k).isSome && ¬ (s.core d).disabled.contains k && ¬ (s.core d).disableNext.contains k

/-- THERMAL_CHECK (R98). -/
def State.thermal (s0 : State) (d : Nat) (t : Int) : State :=
  let s := { s0 with temps := s0.temps.put d t }
  match s.partOf d with
  | none => s
  | some p =>
    let thot : Int := (s.partition p).thot
    if thot < t then (match (s.hotSlots d).getLast? with
      | some k => s.modCore d fun c => { c with disableNext := insertNat c.disableNext k }
      | none => s)
    else if t < thot - 5 then (match (s.core d).disabled.find? fun k => ¬ (s.core d).enableNext.contains k with
      | some k => s.modCore d fun c => { c with enableNext := insertNat c.enableNext k }
      | none => s)
    else s

/-- THERMAL_CHECK (R98). -/
def execThermalCheck (core : Nat) (tempC : Int) (s : State) : Host.Outcome State Fault Refusal := .next (s.thermal core tempC)

/-- THERMAL_RANKING_UPDATE: the partition's cores, coolest first (R97). -/
def State.rankCores (s : State) (p : Nat) (l : List Nat) : State :=
  let cs := (l.filter fun d => s.partOf d = some p).take 4096
  s.modPart p fun x => { x with rank := cs.zipIdx.map fun (e : Nat × Nat) => (e.2, 0x8000 ||| BitVec.ofNat 16 e.1) }

/-- THERMAL_RANKING_UPDATE (R97). -/
def execThermalRankingUpdate (part : Nat) (coolestFirst : List Nat) (s : State) : Host.Outcome State Fault Refusal :=
  .next (s.rankCores part coolestFirst)

/-! ### Scrubbing (R35) -/

/-- PATROL_SCRUB: a corrected word is rewritten unchanged, so that no later read finds its error; an uncorrectable one stays as it
is; both are counted. -/
def State.scrub (s : State) (pa : Nat) (correctable : Bool) : State :=
  let s1 := s.countEcc 11 correctable
  if correctable then { s1 with soft := s1.soft.filter fun a => a ≠ dwOf pa } else { s1 with ue := insertNat s1.ue (dwOf pa) }

/-- PATROL_SCRUB (R35). -/
def execPatrolScrub (pa : Nat) (correctable : Bool) (s : State) : Host.Outcome State Fault Refusal := .next (s.scrub pa correctable)

/-! ### Audit heads (R59) -/

/-- A head record (R59). -/
def headRecord (p n wall : Nat) (h : BitVec 256) : List Byte :=
  leBytes p 8 ++ leBytes n 8 ++ leBytes wall 8 ++ beBytes h.toNat 32 ++ leBytes 0 8

/-- AUDIT_HEAD_SIGN: the signing period has passed; if n has grown in it, the head is signed into the next slot (R59). -/
def State.signHead (s : State) (p : Nat) : State :=
  let x := s.partition p
  if x.st ≠ 1 ∨ s.wall < x.audPeriodFrom + s.audsig * 1_000_000 then s
  else if x.audN ≤ x.audSigned then s.modPart p fun x => { x with audPeriodFrom := s.wall }
  else
    let r := headRecord p x.audN s.wall x.audH
    let slot := r ++ leBytes (Config.signature r).toNat 17088 ++ leBytes 0 256
    let at_ := x.audAt + 64 * x.audEntries + 0x4400 * (x.audHeads % 16)
    ((s.zeroAll at_ slot.length).homeLines at_ (slot.length / 64) (bytesNat slot)).modPart p fun x =>
      { x with audPeriodFrom := s.wall, audSigned := x.audN, audHeads := x.audHeads + 1 }

/-- AUDIT_HEAD_SIGN (R59). -/
def execAuditHeadSign (part : Nat) (s : State) : Host.Outcome State Fault Refusal := .next (s.signHead part)

end Sys2Proof.Machine
end

