-- ==== Sys2Proof/Machine/Scalar.lean ====
section
/-! DEFINITION. Integer and address arithmetic, compares, skips and constants (R252–R259). -/

namespace Sys2Proof.Machine

/-- An integer as a register value, modulo 2^64. -/
def ofInt (x : Int) : Word := BitVec.ofInt 64 x

/-- An integer clamped to the signed 64-bit range (R252, R253). -/
def clamp64 (x : Int) : Word := ofInt (max (-(2 ^ 63)) (min (2 ^ 63 - 1) x))

/-- Signed quotient, truncated toward zero (R253). -/
def divWord (a b : Word) : Word := if b = 0 then -1 else a.sdiv b

/-- Unsigned quotient (R253). -/
def divuWord (a b : Word) : Word := if b = 0 then -1 else a / b

/-- Signed remainder, taking the sign of a (R253). -/
def remWord (a b : Word) : Word := if b = 0 then a else a.srem b

/-- Unsigned remainder (R253). -/
def remuWord (a b : Word) : Word := if b = 0 then a else a % b

/-- Leading zero bits (R253). -/
def clzWord (a : Word) : Word := if a = 0 then 64 else word (63 - a.toNat.log2)

/-- Trailing zero bits (R253). -/
def ctzWord (a : Word) : Word := word (((List.range 64).find? fun k => bit a k).getD 64)

/-- Number of 1 bits (R253). -/
def popcWord (a : Word) : Word := word ((List.range 64).filter fun k => bit a k).length

/-- The signed immediate of R254. -/
def imm13s (imm : BitVec 13) : Word := sext imm

/-- add: a + b (R252). -/
def execAdd (rd ra rb : Reg) (s : State) : Host.Outcome State Fault Refusal :=
  .next (s.compute rd [ra, rb] (s.src ra + s.src rb))

/-- sub: a − b (R252). -/
def execSub (rd ra rb : Reg) (s : State) : Host.Outcome State Fault Refusal :=
  .next (s.compute rd [ra, rb] (s.src ra - s.src rb))

/-- and (R252). -/
def execAnd (rd ra rb : Reg) (s : State) : Host.Outcome State Fault Refusal :=
  .next (s.compute rd [ra, rb] (s.src ra &&& s.src rb))

/-- or (R252). -/
def execOr (rd ra rb : Reg) (s : State) : Host.Outcome State Fault Refusal :=
  .next (s.compute rd [ra, rb] (s.src ra ||| s.src rb))

/-- xor (R252). -/
def execXor (rd ra rb : Reg) (s : State) : Host.Outcome State Fault Refusal :=
  .next (s.compute rd [ra, rb] (s.src ra ^^^ s.src rb))

/-- shl: by b[5:0] (R252). -/
def execShl (rd ra rb : Reg) (s : State) : Host.Outcome State Fault Refusal :=
  .next (s.compute rd [ra, rb] (s.src ra <<< fld (s.src rb) 0 6))

/-- shr: by b[5:0], zeros in (R252). -/
def execShr (rd ra rb : Reg) (s : State) : Host.Outcome State Fault Refusal :=
  .next (s.compute rd [ra, rb] (s.src ra >>> fld (s.src rb) 0 6))

/-- sra: by b[5:0], copies of a[63] in (R252). -/
def execSra (rd ra rb : Reg) (s : State) : Host.Outcome State Fault Refusal :=
  .next (s.compute rd [ra, rb] ((s.src ra).sshiftRight (fld (s.src rb) 0 6)))

/-- mul: low half of the product (R252). -/
def execMul (rd ra rb : Reg) (s : State) : Host.Outcome State Fault Refusal :=
  .next (s.compute rd [ra, rb] (s.src ra * s.src rb))

/-- mulh: high half of the signed product (R252). -/
def execMulh (rd ra rb : Reg) (s : State) : Host.Outcome State Fault Refusal :=
  .next (s.compute rd [ra, rb] (ofInt (sint (s.src ra) * sint (s.src rb) / 2 ^ 64)))

/-- mulhu: high half of the unsigned product (R252). -/
def execMulhu (rd ra rb : Reg) (s : State) : Host.Outcome State Fault Refusal :=
  .next (s.compute rd [ra, rb] (word ((s.src ra).toNat * (s.src rb).toNat / 2 ^ 64)))

/-- min, signed (R252). -/
def execMin (rd ra rb : Reg) (s : State) : Host.Outcome State Fault Refusal :=
  .next (s.compute rd [ra, rb] (if (s.src rb).slt (s.src ra) then s.src rb else s.src ra))

/-- max, signed (R252). -/
def execMax (rd ra rb : Reg) (s : State) : Host.Outcome State Fault Refusal :=
  .next (s.compute rd [ra, rb] (if (s.src ra).slt (s.src rb) then s.src rb else s.src ra))

/-- minu (R252). -/
def execMinu (rd ra rb : Reg) (s : State) : Host.Outcome State Fault Refusal :=
  .next (s.compute rd [ra, rb] (if (s.src rb).ult (s.src ra) then s.src rb else s.src ra))

/-- maxu (R252). -/
def execMaxu (rd ra rb : Reg) (s : State) : Host.Outcome State Fault Refusal :=
  .next (s.compute rd [ra, rb] (if (s.src ra).ult (s.src rb) then s.src rb else s.src ra))

/-- adds: clamped signed sum (R252). -/
def execAdds (rd ra rb : Reg) (s : State) : Host.Outcome State Fault Refusal :=
  .next (s.compute rd [ra, rb] (clamp64 (sint (s.src ra) + sint (s.src rb))))

/-- div (R253). -/
def execDiv (rd ra rb : Reg) (s : State) : Host.Outcome State Fault Refusal :=
  .next (s.compute rd [ra, rb] (divWord (s.src ra) (s.src rb)))

/-- divu (R253). -/
def execDivu (rd ra rb : Reg) (s : State) : Host.Outcome State Fault Refusal :=
  .next (s.compute rd [ra, rb] (divuWord (s.src ra) (s.src rb)))

/-- rem (R253). -/
def execRem (rd ra rb : Reg) (s : State) : Host.Outcome State Fault Refusal :=
  .next (s.compute rd [ra, rb] (remWord (s.src ra) (s.src rb)))

/-- remu (R253). -/
def execRemu (rd ra rb : Reg) (s : State) : Host.Outcome State Fault Refusal :=
  .next (s.compute rd [ra, rb] (remuWord (s.src ra) (s.src rb)))

/-- subs: clamped signed difference (R253). -/
def execSubs (rd ra rb : Reg) (s : State) : Host.Outcome State Fault Refusal :=
  .next (s.compute rd [ra, rb] (clamp64 (sint (s.src ra) - sint (s.src rb))))

/-- csel: RD := a when b is not 0; it also reads RD (R253). -/
def execCsel (rd ra rb : Reg) (s : State) : Host.Outcome State Fault Refusal :=
  .next (s.compute rd [ra, rb, rd] (if s.src rb ≠ 0 then s.src ra else s.src rd))

/-- clz (R253). -/
def execClz (rd ra : Reg) (s : State) : Host.Outcome State Fault Refusal :=
  .next (s.compute rd [ra] (clzWord (s.src ra)))

/-- ctz (R253). -/
def execCtz (rd ra : Reg) (s : State) : Host.Outcome State Fault Refusal :=
  .next (s.compute rd [ra] (ctzWord (s.src ra)))

/-- popc (R253). -/
def execPopc (rd ra : Reg) (s : State) : Host.Outcome State Fault Refusal :=
  .next (s.compute rd [ra] (popcWord (s.src ra)))

/-- sxb (R253). -/
def execSxb (rd ra : Reg) (s : State) : Host.Outcome State Fault Refusal :=
  .next (s.compute rd [ra] (sext ((s.src ra).setWidth 8)))

/-- sxh (R253). -/
def execSxh (rd ra : Reg) (s : State) : Host.Outcome State Fault Refusal :=
  .next (s.compute rd [ra] (sext ((s.src ra).setWidth 16)))

/-- sxw (R253). -/
def execSxw (rd ra : Reg) (s : State) : Host.Outcome State Fault Refusal :=
  .next (s.compute rd [ra] (sext ((s.src ra).setWidth 32)))

/-- add with a signed immediate (R254). -/
def execAddImm (rd ra : BitVec 6) (imm : BitVec 13) (s : State) : Host.Outcome State Fault Refusal :=
  .next (s.compute (g rd) [g ra] (s.src (g ra) + imm13s imm))

/-- and with a signed immediate (R254). -/
def execAndImm (rd ra : BitVec 6) (imm : BitVec 13) (s : State) : Host.Outcome State Fault Refusal :=
  .next (s.compute (g rd) [g ra] (s.src (g ra) &&& imm13s imm))

/-- or with an unsigned immediate (R254). -/
def execOrImm (rd ra : BitVec 6) (imm : BitVec 13) (s : State) : Host.Outcome State Fault Refusal :=
  .next (s.compute (g rd) [g ra] (s.src (g ra) ||| zext imm))

/-- xor with an unsigned immediate (R254). -/
def execXorImm (rd ra : BitVec 6) (imm : BitVec 13) (s : State) : Host.Outcome State Fault Refusal :=
  .next (s.compute (g rd) [g ra] (s.src (g ra) ^^^ zext imm))

/-- shl by an immediate (R254). -/
def execShlImm (rd ra : BitVec 6) (sh : BitVec 6) (s : State) : Host.Outcome State Fault Refusal :=
  .next (s.compute (g rd) [g ra] (s.src (g ra) <<< sh.toNat))

/-- shr by an immediate (R254). -/
def execShrImm (rd ra : BitVec 6) (sh : BitVec 6) (s : State) : Host.Outcome State Fault Refusal :=
  .next (s.compute (g rd) [g ra] (s.src (g ra) >>> sh.toNat))

/-- sra by an immediate (R254). -/
def execSraImm (rd ra : BitVec 6) (sh : BitVec 6) (s : State) : Host.Outcome State Fault Refusal :=
  .next (s.compute (g rd) [g ra] ((s.src (g ra)).sshiftRight sh.toNat))

/-- mul by a signed immediate (R254). -/
def execMulImm (rd ra : BitVec 6) (imm : BitVec 13) (s : State) : Host.Outcome State Fault Refusal :=
  .next (s.compute (g rd) [g ra] (s.src (g ra) * imm13s imm))

/-- add with a signed immediate into an h or q register (R254). -/
def execAddImmX (rd : Reg) (ra : BitVec 6) (imm : BitVec 13) (s : State) : Host.Outcome State Fault Refusal :=
  .next (s.compute rd [g ra] (s.src (g ra) + imm13s imm))

/-- sett: IMM13 << 51 (R255). -/
def execSett (rd : BitVec 6) (imm : BitVec 13) (s : State) : Host.Outcome State Fault Refusal :=
  .next (s.compute (g rd) [] (zext imm <<< 51))

/-- setm: bits [31:13] of RD (R255). -/
def execSetm (rd : BitVec 6) (imm : BitVec 19) (s : State) : Host.Outcome State Fault Refusal :=
  .next (s.compute (g rd) [g rd] ((s.src (g rd) &&& 0xFFFF_FFFF_0000_1FFF) ||| (zext imm <<< 13)))

/-- seth: bits [50:32] of RD (R255). -/
def execSeth (rd : BitVec 6) (imm : BitVec 19) (s : State) : Host.Outcome State Fault Refusal :=
  .next (s.compute (g rd) [g rd] ((s.src (g rd) &&& 0xFFF8_0000_FFFF_FFFF) ||| (zext imm <<< 32)))

/-- cset (R259). -/
def execCset (c : ICond) (rd : BitVec 6) (ra rb : Reg) (s : State) : Host.Outcome State Fault Refusal :=
  .next (s.compute (g rd) [ra, rb] (if icond c (s.src ra) (s.src rb) then 1 else 0))

/-- fcset (R259). -/
def execFcset (c : FCond) (rd : BitVec 6) (ra rb : Reg) (s : State) : Host.Outcome State Fault Refusal :=
  .next (s.compute (g rd) [ra, rb] (if fcond c (lo32 (s.src ra)) (lo32 (s.src rb)) then 1 else 0))

/-- cmp: −1, 0 or 1, signed (R259). -/
def execCmp (rd : BitVec 6) (ra rb : Reg) (s : State) : Host.Outcome State Fault Refusal :=
  .next (s.compute (g rd) [ra, rb]
    (if (s.src ra).slt (s.src rb) then -1 else if s.src ra = s.src rb then 0 else 1))

/-- Skip := SK when the condition holds (R257). -/
def State.skipIf (s : State) (srcs : List Reg) (t : Bool) (k : SkipCount) : State :=
  s.operands srcs [] fun s' => if t then s'.modCtx s'.iss.tid fun c => { c with skip := skipValue k } else s'

/-- sk, register form (R257). -/
def execSk (c : ICond) (k : SkipCount) (ra rb : Reg) (s : State) : Host.Outcome State Fault Refusal :=
  .next (s.skipIf [ra, rb] (icond c (s.src ra) (s.src rb)) k)

/-- fsk (R257). -/
def execFsk (c : FCond) (k : SkipCount) (ra rb : Reg) (s : State) : Host.Outcome State Fault Refusal :=
  .next (s.skipIf [ra, rb] (fcond c (lo32 (s.src ra)) (lo32 (s.src rb))) k)

/-- skf tests a full/empty bit without parking (R257). -/
def execSkf (c : FeCond) (k : SkipCount) (ra : Reg) (s : State) : Host.Outcome State Fault Refusal :=
  .next (s.skipIf [] (match c with | .full => s.skfFull ra | .empty => ¬ s.skfFull ra) k)

/-- The comparand of the immediate form: a bit number for .bs and .bc, otherwise sign-extended (R257). -/
def comparand : ICond → BitVec 13 → Word
  | .bs, imm | .bc, imm => zext imm
  | .eq, imm | .ne, imm | .lt, imm | .ge, imm | .ltu, imm | .geu, imm => sext imm

/-- sk, immediate form (R257). -/
def execSkImm (c : ICond) (k : SkipCount) (ra : BitVec 6) (imm : BitVec 13) (s : State) : Host.Outcome State Fault Refusal :=
  .next (s.skipIf [g ra] (icond c (s.src (g ra)) (comparand c imm)) k)

end Sys2Proof.Machine
end

