-- ==== Sys2Proof/Machine/Dispatch.lean ====
section
/-! DEFINITION. The one match from an instruction or device step to its meaning. -/

namespace Sys2Proof.Machine

def exec (i : Instr) (s : State) : Host.Outcome State Fault Refusal :=
  match i with
  | .br imm => Sys2Proof.Machine.execBr imm s
  | .bl imm => Sys2Proof.Machine.execBl imm s
  | .nestEnd imm => Sys2Proof.Machine.execNestEnd imm s
  | .bz ra imm => Sys2Proof.Machine.execBz ra imm s
  | .bnz ra imm => Sys2Proof.Machine.execBnz ra imm s
  | .sk c k ra rb => Sys2Proof.Machine.execSk c k ra rb s
  | .fsk c k ra rb => Sys2Proof.Machine.execFsk c k ra rb s
  | .skf c k ra => Sys2Proof.Machine.execSkf c k ra s
  | .skImm c k ra imm => Sys2Proof.Machine.execSkImm c k ra imm s
  | .jr ra => Sys2Proof.Machine.execJr ra s
  | .jlr rd ra => Sys2Proof.Machine.execJlr rd ra s
  | .nest rd ra => Sys2Proof.Machine.execNest rd ra s
  | .ld sz rd ra imm => Sys2Proof.Machine.execLd sz rd ra imm s
  | .ldX sz rd ra imm => Sys2Proof.Machine.execLdX sz rd ra imm s
  | .st sz rd ra imm => Sys2Proof.Machine.execSt sz rd ra imm s
  | .ldWf sz rd ra rb => Sys2Proof.Machine.execLdWf sz rd ra rb s
  | .ldTk sz rd ra rb => Sys2Proof.Machine.execLdTk sz rd ra rb s
  | .stFl sz rd ra rb => Sys2Proof.Machine.execStFl sz rd ra rb s
  | .feWf rd ra rb => Sys2Proof.Machine.execFeWf rd ra rb s
  | .feTk rd ra rb => Sys2Proof.Machine.execFeTk rd ra rb s
  | .feFl rd ra rb => Sys2Proof.Machine.execFeFl rd ra rb s
  | .feq rd ra => Sys2Proof.Machine.execFeq rd ra s
  | .fence sc => Sys2Proof.Machine.execFence sc s
  | .sfence sc => Sys2Proof.Machine.execSfence sc s
  | .lfence sc => Sys2Proof.Machine.execLfence sc s
  | .amoAdd d sc rd ra rb => Sys2Proof.Machine.execAmoAdd d sc rd ra rb s
  | .amoAnd d sc rd ra rb => Sys2Proof.Machine.execAmoAnd d sc rd ra rb s
  | .amoOr d sc rd ra rb => Sys2Proof.Machine.execAmoOr d sc rd ra rb s
  | .amoXor d sc rd ra rb => Sys2Proof.Machine.execAmoXor d sc rd ra rb s
  | .amoSwap d sc rd ra rb => Sys2Proof.Machine.execAmoSwap d sc rd ra rb s
  | .amoCas d sc rd ra rb => Sys2Proof.Machine.execAmoCas d sc rd ra rb s
  | .amoMin d sc rd ra rb => Sys2Proof.Machine.execAmoMin d sc rd ra rb s
  | .amoMax d sc rd ra rb => Sys2Proof.Machine.execAmoMax d sc rd ra rb s
  | .amoMinu d sc rd ra rb => Sys2Proof.Machine.execAmoMinu d sc rd ra rb s
  | .amoMaxu d sc rd ra rb => Sys2Proof.Machine.execAmoMaxu d sc rd ra rb s
  | .amoFadd sc rd ra rb => Sys2Proof.Machine.execAmoFadd sc rd ra rb s
  | .amoLd d sc rd ra => Sys2Proof.Machine.execAmoLd d sc rd ra s
  | .syncInit rd ra rb => Sys2Proof.Machine.execSyncInit rd ra rb s
  | .acq rd ra => Sys2Proof.Machine.execAcq rd ra s
  | .tryacq rd ra => Sys2Proof.Machine.execTryacq rd ra s
  | .rel ra => Sys2Proof.Machine.execRel ra s
  | .syncCall rd ra rb => Sys2Proof.Machine.execSyncCall rd ra rb s
  | .arrive rd ra rb => Sys2Proof.Machine.execArrive rd ra rb s
  | .arriveWait rd ra => Sys2Proof.Machine.execArriveWait rd ra s
  | .syncMode rd ra rb => Sys2Proof.Machine.execSyncMode rd ra rb s
  | .syncPol rd ra rb => Sys2Proof.Machine.execSyncPol rd ra rb s
  | .sbExpect rd ra rb => Sys2Proof.Machine.execSbExpect rd ra rb s
  | .sbWait rd ra rb => Sys2Proof.Machine.execSbWait rd ra rb s
  | .ringOpen rd ra rb => Sys2Proof.Machine.execRingOpen rd ra rb s
  | .ringResv rd ra rb => Sys2Proof.Machine.execRingResv rd ra rb s
  | .ringPub rd ra rb => Sys2Proof.Machine.execRingPub rd ra rb s
  | .ringWait rd ra rb => Sys2Proof.Machine.execRingWait rd ra rb s
  | .ringFree rd ra rb => Sys2Proof.Machine.execRingFree rd ra rb s
  | .ringAdv ra rb => Sys2Proof.Machine.execRingAdv ra rb s
  | .spawn rd ra rb => Sys2Proof.Machine.execSpawn rd ra rb s
  | .join ra => Sys2Proof.Machine.execJoin ra s
  | .go ra => Sys2Proof.Machine.execGo ra s
  | .msgSend ra rb => Sys2Proof.Machine.execMsgSend ra rb s
  | .yield => Sys2Proof.Machine.execYield s
  | .exit ra rb => Sys2Proof.Machine.execExit ra rb s
  | .engClaim rd => Sys2Proof.Machine.execEngClaim rd s
  | .engRel => Sys2Proof.Machine.execEngRel s
  | .cp1d rd ra rb => Sys2Proof.Machine.execCp1d rd ra rb s
  | .cp2d rd ra rb => Sys2Proof.Machine.execCp2d rd ra rb s
  | .cpGather rd ra rb => Sys2Proof.Machine.execCpGather rd ra rb s
  | .cpScatter rd ra rb => Sys2Proof.Machine.execCpScatter rd ra rb s
  | .cpLink rd ra => Sys2Proof.Machine.execCpLink rd ra s
  | .cpWait rd ra => Sys2Proof.Machine.execCpWait rd ra s
  | .plBind rd ra => Sys2Proof.Machine.execPlBind rd ra s
  | .plQuery rd ra rb => Sys2Proof.Machine.execPlQuery rd ra rb s
  | .plDetach rd ra => Sys2Proof.Machine.execPlDetach rd ra s
  | .plEnd rd ra => Sys2Proof.Machine.execPlEnd rd ra s
  | .partPost rd ra rb => Sys2Proof.Machine.execPartPost rd ra rb s
  | .partQuery rd ra rb => Sys2Proof.Machine.execPartQuery rd ra rb s
  | .dgFold ra => Sys2Proof.Machine.execDgFold ra s
  | .dgClose rd => Sys2Proof.Machine.execDgClose rd s
  | .eret => Sys2Proof.Machine.execEret s
  | .ctlRd rd c => Sys2Proof.Machine.execCtlRd rd c s
  | .ctlWr c ra => Sys2Proof.Machine.execCtlWr c ra s
  | .tlbInv ra rb => Sys2Proof.Machine.execTlbInv ra rb s
  | .step rd ra rb => Sys2Proof.Machine.execStep rd ra rb s
  | .wpSet ra rb => Sys2Proof.Machine.execWpSet ra rb s
  | .wpClr ra => Sys2Proof.Machine.execWpClr ra s
  | .halt => Sys2Proof.Machine.execHalt s
  | .ctlRdx rd c rb => Sys2Proof.Machine.execCtlRdx rd c rb s
  | .ctlWrx c ra rb => Sys2Proof.Machine.execCtlWrx c ra rb s
  | .eretx rd ra rb => Sys2Proof.Machine.execEretx rd ra rb s
  | .sys imm => Sys2Proof.Machine.execSys imm s
  | .brk imm => Sys2Proof.Machine.execBrk imm s
  | .add rd ra rb => Sys2Proof.Machine.execAdd rd ra rb s
  | .sub rd ra rb => Sys2Proof.Machine.execSub rd ra rb s
  | .and rd ra rb => Sys2Proof.Machine.execAnd rd ra rb s
  | .or rd ra rb => Sys2Proof.Machine.execOr rd ra rb s
  | .xor rd ra rb => Sys2Proof.Machine.execXor rd ra rb s
  | .shl rd ra rb => Sys2Proof.Machine.execShl rd ra rb s
  | .shr rd ra rb => Sys2Proof.Machine.execShr rd ra rb s
  | .sra rd ra rb => Sys2Proof.Machine.execSra rd ra rb s
  | .mul rd ra rb => Sys2Proof.Machine.execMul rd ra rb s
  | .mulh rd ra rb => Sys2Proof.Machine.execMulh rd ra rb s
  | .mulhu rd ra rb => Sys2Proof.Machine.execMulhu rd ra rb s
  | .min rd ra rb => Sys2Proof.Machine.execMin rd ra rb s
  | .max rd ra rb => Sys2Proof.Machine.execMax rd ra rb s
  | .minu rd ra rb => Sys2Proof.Machine.execMinu rd ra rb s
  | .maxu rd ra rb => Sys2Proof.Machine.execMaxu rd ra rb s
  | .adds rd ra rb => Sys2Proof.Machine.execAdds rd ra rb s
  | .div rd ra rb => Sys2Proof.Machine.execDiv rd ra rb s
  | .divu rd ra rb => Sys2Proof.Machine.execDivu rd ra rb s
  | .rem rd ra rb => Sys2Proof.Machine.execRem rd ra rb s
  | .remu rd ra rb => Sys2Proof.Machine.execRemu rd ra rb s
  | .clz rd ra => Sys2Proof.Machine.execClz rd ra s
  | .ctz rd ra => Sys2Proof.Machine.execCtz rd ra s
  | .popc rd ra => Sys2Proof.Machine.execPopc rd ra s
  | .sxb rd ra => Sys2Proof.Machine.execSxb rd ra s
  | .sxh rd ra => Sys2Proof.Machine.execSxh rd ra s
  | .sxw rd ra => Sys2Proof.Machine.execSxw rd ra s
  | .subs rd ra rb => Sys2Proof.Machine.execSubs rd ra rb s
  | .csel rd ra rb => Sys2Proof.Machine.execCsel rd ra rb s
  | .addImm rd ra imm => Sys2Proof.Machine.execAddImm rd ra imm s
  | .addImmX rd ra imm => Sys2Proof.Machine.execAddImmX rd ra imm s
  | .andImm rd ra imm => Sys2Proof.Machine.execAndImm rd ra imm s
  | .orImm rd ra imm => Sys2Proof.Machine.execOrImm rd ra imm s
  | .xorImm rd ra imm => Sys2Proof.Machine.execXorImm rd ra imm s
  | .shlImm rd ra sh => Sys2Proof.Machine.execShlImm rd ra sh s
  | .shrImm rd ra sh => Sys2Proof.Machine.execShrImm rd ra sh s
  | .sraImm rd ra sh => Sys2Proof.Machine.execSraImm rd ra sh s
  | .mulImm rd ra imm => Sys2Proof.Machine.execMulImm rd ra imm s
  | .cset c rd ra rb => Sys2Proof.Machine.execCset c rd ra rb s
  | .fcset c rd ra rb => Sys2Proof.Machine.execFcset c rd ra rb s
  | .cmp rd ra rb => Sys2Proof.Machine.execCmp rd ra rb s
  | .sett rd imm => Sys2Proof.Machine.execSett rd imm s
  | .setm rd imm => Sys2Proof.Machine.execSetm rd imm s
  | .seth rd imm => Sys2Proof.Machine.execSeth rd imm s
  | .vadd rm vd va vb => Sys2Proof.Machine.execVadd rm vd va vb s
  | .vsub rm vd va vb => Sys2Proof.Machine.execVsub rm vd va vb s
  | .vmul rm vd va vb => Sys2Proof.Machine.execVmul rm vd va vb s
  | .vfma rm vd va vb => Sys2Proof.Machine.execVfma rm vd va vb s
  | .vmin vd va vb => Sys2Proof.Machine.execVmin vd va vb s
  | .vmax vd va vb => Sys2Proof.Machine.execVmax vd va vb s
  | .vabs vd va => Sys2Proof.Machine.execVabs vd va s
  | .vneg vd va => Sys2Proof.Machine.execVneg vd va s
  | .vand vd va vb => Sys2Proof.Machine.execVand vd va vb s
  | .vor vd va vb => Sys2Proof.Machine.execVor vd va vb s
  | .vxor vd va vb => Sys2Proof.Machine.execVxor vd va vb s
  | .vshl vd va rs => Sys2Proof.Machine.execVshl vd va rs s
  | .vshr vd va rs => Sys2Proof.Machine.execVshr vd va rs s
  | .vcvt rm vd va rs => Sys2Proof.Machine.execVcvt rm vd va rs s
  | .vcmp vd va vb rs => Sys2Proof.Machine.execVcmp vd va vb rs s
  | .vsel vd va vb => Sys2Proof.Machine.execVsel vd va vb s
  | .vbcast vd rs => Sys2Proof.Machine.execVbcast vd rs s
  | .vld vd rs => Sys2Proof.Machine.execVld vd rs s
  | .vst va rs => Sys2Proof.Machine.execVst va rs s
  | .vsum rm vd va => Sys2Proof.Machine.execVsum rm vd va s
  | .vrmax vd va => Sys2Proof.Machine.execVrmax vd va s
  | .vshuf vd va vb => Sys2Proof.Machine.execVshuf vd va vb s
  | .vpack rm vd va vb => Sys2Proof.Machine.execVpack rm vd va vb s
  | .vunpack vd va rs => Sys2Proof.Machine.execVunpack vd va rs s
  | .viota vd rs => Sys2Proof.Machine.execViota vd rs s
  | .vmov vd va => Sys2Proof.Machine.execVmov vd va s
  | .sfRcp rd ra => Sys2Proof.Machine.execSfRcp rd ra s
  | .sfSqrt rd ra => Sys2Proof.Machine.execSfSqrt rd ra s
  | .sfRsqrt rd ra => Sys2Proof.Machine.execSfRsqrt rd ra s
  | .sfExp2 rd ra => Sys2Proof.Machine.execSfExp2 rd ra s
  | .sfLog2 rd ra => Sys2Proof.Machine.execSfLog2 rd ra s
  | .sfSinpi rd ra => Sys2Proof.Machine.execSfSinpi rd ra s
  | .sfCospi rd ra => Sys2Proof.Machine.execSfCospi rd ra s
  | .mma ty ka kb ad ta tb rs => Sys2Proof.Machine.execMma ty ka kb ad ta tb rs s
  | .pmm ty ad ta tb => Sys2Proof.Machine.execPmm ty ad ta tb s
  | .tld t rs => Sys2Proof.Machine.execTld t rs s
  | .tst t rs => Sys2Proof.Machine.execTst t rs s
  | .tdescWr t rs => Sys2Proof.Machine.execTdescWr t rs s
  | .tdescRd t rs => Sys2Proof.Machine.execTdescRd t rs s
  | .accZero ad => Sys2Proof.Machine.execAccZero ad s
  | .accSt ad rs => Sys2Proof.Machine.execAccSt ad rs s
  | .accLd ad rs => Sys2Proof.Machine.execAccLd ad rs s
  | .accCvt ty ka ad t rs => Sys2Proof.Machine.execAccCvt ty ka ad t rs s
  | .srSeed rs => Sys2Proof.Machine.execSrSeed rs s
  | .phCvt k vd va => Sys2Proof.Machine.execPhCvt k vd va s
  | .phMul vd va vb => Sys2Proof.Machine.execPhMul vd va vb s
  | .phRed vd va rs => Sys2Proof.Machine.execPhRed vd va rs s
  | .phCmp vd va vb => Sys2Proof.Machine.execPhCmp vd va vb s
  | .phCos vd va => Sys2Proof.Machine.execPhCos vd va s
  | .phSin vd va => Sys2Proof.Machine.execPhSin vd va s
  | .qhist vd va rs => Sys2Proof.Machine.execQhist vd va rs s
  | .qclip vd va rs => Sys2Proof.Machine.execQclip vd va rs s
  | .qnt rm vd va vb rs => Sys2Proof.Machine.execQnt rm vd va vb rs s
  | .dq vd va rs => Sys2Proof.Machine.execDq vd va rs s
  | .packetReady fn queue index => Sys2Proof.Machine.execPacketReady fn queue index s
  | .placerChoose part => Sys2Proof.Machine.execPlacerChoose part s
  | .placementAgeLimit fn queue => Sys2Proof.Machine.execPlacementAgeLimit fn queue s
  | .rotationBoundary core => Sys2Proof.Machine.execRotationBoundary core s
  | .serveTurn core => Sys2Proof.Machine.execServeTurn core s
  | .taskRetire task => Sys2Proof.Machine.execTaskRetire task s
  | .idleSlotTakeWork core slot => Sys2Proof.Machine.execIdleSlotTakeWork core slot s
  | .stealRequestArrive msg => Sys2Proof.Machine.execStealRequestArrive msg s
  | .stealReplyArrive msg => Sys2Proof.Machine.execStealReplyArrive msg s
  | .stealBackoffExpire core => Sys2Proof.Machine.execStealBackoffExpire core s
  | .contextMessageArrive msg => Sys2Proof.Machine.execContextMessageArrive msg s
  | .contextMessageResend msg => Sys2Proof.Machine.execContextMessageResend msg s
  | .messageArrive msg => Sys2Proof.Machine.execMessageArrive msg s
  | .messageResend msg => Sys2Proof.Machine.execMessageResend msg s
  | .preempt core slot => Sys2Proof.Machine.execPreempt core slot s
  | .contextResume tid core slot => Sys2Proof.Machine.execContextResume tid core slot s
  | .chuckEvict core => Sys2Proof.Machine.execChuckEvict core s
  | .slotBoundary part => Sys2Proof.Machine.execSlotBoundary part s
  | .slotHandover core slot => Sys2Proof.Machine.execSlotHandover core slot s
  | .handoverNoTurnTimeout core slot => Sys2Proof.Machine.execHandoverNoTurnTimeout core slot s
  | .handoverWindowClose core => Sys2Proof.Machine.execHandoverWindowClose core s
  | .threadStop tid => Sys2Proof.Machine.execThreadStop tid s
  | .powerOn hw => Sys2Proof.Machine.execPowerOn hw s
  | .firmwareLoad img hw => Sys2Proof.Machine.execFirmwareLoad img hw s
  | .thermalTrip die tempC => Sys2Proof.Machine.execThermalTrip die tempC s
  | .powerLimitCheck milliwatts hottestFirst => Sys2Proof.Machine.execPowerLimitCheck milliwatts hottestFirst s
  | .thermalCheck core tempC => Sys2Proof.Machine.execThermalCheck core tempC s
  | .thermalRankingUpdate part coolestFirst => Sys2Proof.Machine.execThermalRankingUpdate part coolestFirst s
  | .patrolScrub pa correctable => Sys2Proof.Machine.execPatrolScrub pa correctable s
  | .auditHeadSign part => Sys2Proof.Machine.execAuditHeadSign part s
  | .ptpEventMessage port time => Sys2Proof.Machine.execPtpEventMessage port time s
  | .ptpSourceLost => Sys2Proof.Machine.execPtpSourceLost s
  | .ptpSourceReturn => Sys2Proof.Machine.execPtpSourceReturn s
  | .ptpSet time => Sys2Proof.Machine.execPtpSet time s
  | .linkFlitCrcFail port => Sys2Proof.Machine.execLinkFlitCrcFail port s
  | .linkRetrain port value => Sys2Proof.Machine.execLinkRetrain port value s
  | .linkTrainingComplete port up => Sys2Proof.Machine.execLinkTrainingComplete port up s
  | .cpLinkLineArrive asid va data => Sys2Proof.Machine.execCpLinkLineArrive asid va data s
  | .sqDoorbell fn q value => Sys2Proof.Machine.execSqDoorbell fn q value s
  | .cqDoorbell fn q value => Sys2Proof.Machine.execCqDoorbell fn q value s
  | .queueEnable fn q value => Sys2Proof.Machine.execQueueEnable fn q value s
  | .queueDisable fn q value => Sys2Proof.Machine.execQueueDisable fn q value s
  | .qstatClear fn q value => Sys2Proof.Machine.execQstatClear fn q value s
  | .sqFetch fn q => Sys2Proof.Machine.execSqFetch fn q s
  | .seqRetry fn q => Sys2Proof.Machine.execSeqRetry fn q s
  | .cqPost cmd => Sys2Proof.Machine.execCqPost cmd s
  | .launch cmd => Sys2Proof.Machine.execLaunch cmd s
  | .seal cmd => Sys2Proof.Machine.execSeal cmd s
  | .deadline cmd => Sys2Proof.Machine.execDeadline cmd s
  | .harvest cmd => Sys2Proof.Machine.execHarvest cmd s
  | .copyIn cmd => Sys2Proof.Machine.execCopyIn cmd s
  | .copyOut cmd => Sys2Proof.Machine.execCopyOut cmd s
  | .resetFunction cmd => Sys2Proof.Machine.execResetFunction cmd s
  | .attest cmd => Sys2Proof.Machine.execAttest cmd s
  | .registerWrite offset value => Sys2Proof.Machine.execRegisterWrite offset value s
  | .eccCounterClear cls value => Sys2Proof.Machine.execEccCounterClear cls value s
  | .partitionConfigure part value => Sys2Proof.Machine.execPartitionConfigure part value s
  | .partitionTeardown part value => Sys2Proof.Machine.execPartitionTeardown part value s
  | .teardownComplete part => Sys2Proof.Machine.execTeardownComplete part s
  | .vfmapEnable fn value => Sys2Proof.Machine.execVfmapEnable fn value s
  | .vfmapDisable fn value => Sys2Proof.Machine.execVfmapDisable fn value s
  | .asidMakeLive asid value => Sys2Proof.Machine.execAsidMakeLive asid value s
  | .asidRemove asid value => Sys2Proof.Machine.execAsidRemove asid value s
  | .s2invAll value => Sys2Proof.Machine.execS2invAll value s
  | .s2invRange value => Sys2Proof.Machine.execS2invRange value s
  | .s2invComplete => Sys2Proof.Machine.execS2invComplete s
  | .fgownGrant value => Sys2Proof.Machine.execFgownGrant value s
  | .frameZeroComplete frame => Sys2Proof.Machine.execFrameZeroComplete frame s
  | .rturnWrite core turn value => Sys2Proof.Machine.execRturnWrite core turn value s
  | .deadlineReopen part entry value => Sys2Proof.Machine.execDeadlineReopen part entry value s
  | .mboxWrite part value => Sys2Proof.Machine.execMboxWrite part value s
  | .routerPacketReceive msg hdr => Sys2Proof.Machine.execRouterPacketReceive msg hdr s
  | .escapeTimeout msg => Sys2Proof.Machine.execEscapeTimeout msg s
  | .combineArrive msg => Sys2Proof.Machine.execCombineArrive msg s
  | .combineReply msg => Sys2Proof.Machine.execCombineReply msg s
  | .homeAgentAccess msg => Sys2Proof.Machine.execHomeAgentAccess msg s
  | .probeAtBank msg => Sys2Proof.Machine.execProbeAtBank msg s
  | .storeAckArrive msg => Sys2Proof.Machine.execStoreAckArrive msg s
  | .replyFill msg => Sys2Proof.Machine.execReplyFill msg s
  | .fenceComplete tid => Sys2Proof.Machine.execFenceComplete tid s
  | .fabricResponseTimeout tid => Sys2Proof.Machine.execFabricResponseTimeout tid s
  | .boundedWaitExpire tid => Sys2Proof.Machine.execBoundedWaitExpire tid s
  | .waitCancelAtHome msg => Sys2Proof.Machine.execWaitCancelAtHome msg s
  | .tlbWalkComplete walk => Sys2Proof.Machine.execTlbWalkComplete walk s
  | .cellAcquireAtBank msg => Sys2Proof.Machine.execCellAcquireAtBank msg s
  | .cellReleaseAtBank msg => Sys2Proof.Machine.execCellReleaseAtBank msg s
  | .barrierArrivalAtBank msg => Sys2Proof.Machine.execBarrierArrivalAtBank msg s
  | .counterArrivalAtBank msg => Sys2Proof.Machine.execCounterArrivalAtBank msg s
  | .sbExpectAtBank msg => Sys2Proof.Machine.execSbExpectAtBank msg s
  | .byteBarrierDelivery msg => Sys2Proof.Machine.execByteBarrierDelivery msg s
  | .sectionStart msg => Sys2Proof.Machine.execSectionStart msg s
  | .trapDeliver tid => Sys2Proof.Machine.execTrapDeliver tid s
  | .mailboxPost part => Sys2Proof.Machine.execMailboxPost part s
  | .engineFault core unit => Sys2Proof.Machine.execEngineFault core unit s
  | .stopBroadcastArrive core => Sys2Proof.Machine.execStopBroadcastArrive core s
  | .engineInstructionEnd core unit => Sys2Proof.Machine.execEngineInstructionEnd core unit s
  | .matrixStepEnd core => Sys2Proof.Machine.execMatrixStepEnd core s
  | .engineSpillComplete core => Sys2Proof.Machine.execEngineSpillComplete core s
  | .copyCommandStart core => Sys2Proof.Machine.execCopyCommandStart core s
  | .copyLineWrite core => Sys2Proof.Machine.execCopyLineWrite core s
  | .copyCommandEnd core => Sys2Proof.Machine.execCopyCommandEnd core s
  | .sfuRequestServe cluster => Sys2Proof.Machine.execSfuRequestServe cluster s
  | .mandrelBind msg => Sys2Proof.Machine.execMandrelBind msg s
  | .pipelineLeave part pipe => Sys2Proof.Machine.execPipelineLeave part pipe s
  | .drainComplete part pipe => Sys2Proof.Machine.execDrainComplete part pipe s
  | .instanceFail part inst => Sys2Proof.Machine.execInstanceFail part inst s
  | .mandrelEventWrite part pipe => Sys2Proof.Machine.execMandrelEventWrite part pipe s
  | .partingTick part entry => Sys2Proof.Machine.execPartingTick part entry s
  | .partingCutoff part entry => Sys2Proof.Machine.execPartingCutoff part entry s
  | .checkpointImagesWritten part entry unit => Sys2Proof.Machine.execCheckpointImagesWritten part entry unit s
  | .powerLoss imageBeingWritten => Sys2Proof.Machine.execPowerLoss imageBeingWritten s
  | .functionResetComplete fn => Sys2Proof.Machine.execFunctionResetComplete fn s
  | .hostPostedWrite => Sys2Proof.Machine.execHostPostedWrite s

end Sys2Proof.Machine
end

