-- ==== Sys2Proof/Machine/Step.lean ====
section
/-! DEFINITION. One step of the device: the unit of a thread that a turn was given to, else the next due event, else a
turn of the rotation (notes/assumptions/1.md). -/

namespace Sys2Proof.Machine

/-- Word 1 of a pair after word 0 completed in `t0`: the pair takes effect as a whole or not at all (R204, R238). Word 1 is
tried on the state before the pair; what only word 0's effect makes it trap on is a claim that eng.rel frees. -/
def runSecond (a : Instr) (s t0 : State) (i1 : Issue) : Host.Outcome State Fault Refusal :=
  match exec a { s with iss := i1 } with
  | .next t1 =>
    if t1.iss.res = .done then (match exec a { t0 with iss := i1 } with
      | .next t2 => if t2.iss.res = .done then .next (t2.noteUndo t0 i1.tid) else .next (({ s with iss := i1 }).claimFault)
      | .fault f => .fault f
      | .refused r => .refused r)
    else .next t1
  | .fault f => .fault f
  | .refused r => .refused r

/-- A pair: both words read the registers as they stood before it (R238). A thread that its first word discarded has no
second. -/
def runPair (c a : Instr) (s : State) (i1 : Issue) : Host.Outcome State Fault Refusal :=
  match exec c s with
  | .next t0 => if t0.iss.res = .done ∧ (t0.ctxs.look i1.tid).isSome = true then runSecond a s t0 i1 else .next t0
  | .fault f => .fault f
  | .refused r => .refused r

/-- Issue the next unit of a thread. -/
def runUnit (s : State) (t : Nat) : Host.Outcome State Fault Refusal :=
  match s.fetch t with
  | .stop s' => .next s'
  | .lone i s' => exec i s'
  | .pair c a s' i1 => runPair c a s' i1

/-- An event that is due `dt` ns after the last: PTP time advances, then the event (R18). An instruction of a thread is no
event: it runs only when its thread issues. A package that is off does nothing until its power returns (R38, R39). -/
def runEvent (dt : Nat) (e : Instr) (s : State) : Host.Outcome State Fault Refusal :=
  if (encodeWord 0 e).isSome then .next s
  else if s.awake || whileOff e then exec e (s.pass dt) else .next (s.pass dt)

/-- One step: a thread that was given its turn issues; else an instruction held in M1 moves on; else the next event is due,
or the next turn of the rotation. -/
def step (s : State) : Host.Outcome State Fault Refusal :=
  match s.pick with
  | some t => runUnit s t
  | none => match (if s.awake then s.movesOn else none) with
    | some t => .next (s.moveOn t)
    | none => match s.agenda with
      | (dt, e) :: rest => runEvent dt e { s with agenda := rest }
      | [] => if s.awake then exec (.serveTurn s.focus) s else .fault .poweredOff

/-- `s` with the instruction of bits `w` where the next step fetches: thread 0 in slot 0 of core 0, its PC in the TCM part
of its private window (R139), word 1 of a lone doubleword when bit 31 is 0 and word 0 otherwise (R237). -/
def State.withFetchWord (s : State) (nbits w : Nat) : State := s.seatWord nbits w

end Sys2Proof.Machine
end

