-- ==== Sys2Proof/Safety.lean ====
section
/-! DEFINITION. What counts as a safe run, and the terms the statements use: what a step that only writes a register, or
only changes the issuing context, leaves unchanged. -/

namespace Sys2Proof.Machine

/-- An outcome is a next state. -/
def completes (o : Host.Outcome State Fault Refusal) : Prop := ∃ s, o = .next s

/-- A state from which `k` steps end in neither a fault nor a refusal. -/
def safeFor (k : Nat) (s : State) : Prop := completes (Sys2Proof.core.run k s)

/-- A property that every step keeps: if it holds before a step that gives a next state, it holds after it. -/
def kept (inv : State → Prop) : Prop := ∀ s s', inv s → step s = .next s' → inv s'

/-- `exec i s` answers a next state of which `p` holds. -/
def gives (i : Instr) (s : State) (p : State → Prop) : Prop := ∃ t, exec i s = .next t ∧ p t

/-- Stage OP lets the unit issue: its sources are full and its destinations await no fill (R127, R130). -/
def State.issues (s : State) (srcs dsts : List Reg) : Prop := s.opStop srcs dsts = none

/-- The unit's thread. -/
abbrev State.me (s : State) : Nat := s.iss.tid

/-- A context but for its PC, its registers, its park state, the link into its core and the value last taken from it: the
control registers, the trap registers, the accumulated counts and all else. -/
def Ctx.rest (c : Ctx) : Ctx :=
  { c with pc := 0, park := .none, regs := [], empt := [], chain := [], undo := { c.undo with link := none } }

/-- A core but for its delayed writes. -/
def Core.rest (c : Core) : Core := { c with delayed := [] }

/-- Everything but contexts, cores and the issue record is as before: memory with its full/empty bits, marks and errors,
messages, partitions, functions, tasks, and every register of the package. -/
def sameElse (s t : State) : Prop := { t with ctxs := s.ctxs, cores := s.cores, iss := s.iss } = s

/-- The result of a unit that writes `v` to `rd`. Register 0 stays 0 (R127); h registers are written by the core six
cycles later (R129). -/
def holdsResult (s t : State) (rd : Reg) (v : Word) : Prop :=
  match rd with
  | .g n => t.peek s.me (.g n) = (if n = 0 then 0 else v) ∧ t.whyEmpty s.me (.g n) = none
  | .q n => t.peek s.me (.q n) = v ∧ t.whyEmpty s.me (.q n) = none
  | .i n => t.peek s.me (.i n) = v ∧ t.whyEmpty s.me (.i n) = none
  | .h n => (t.core (s.ctx s.me).core).delayed = (s.core (s.ctx s.me).core).delayed ++
      [.hVal (s.core (s.ctx s.me).core).issueCycle (s.ctx s.me).fn n.toNat v]

/-- The link into a context's core after a unit that reads `srcs` and writes `v` to `rd` (R130). -/
def linkAfter (s : State) (srcs : List Reg) (rd : Reg) (v : Word) (u : Nat) : List Word :=
  if u = s.me then (if srcs.contains (.g 60) then (s.ctx u).chain.tail else (s.ctx u).chain)
  else if rd = .g 61 ∧ s.partner s.me ((s.ctx s.me).vcore + 1) = some u then (s.ctx u).chain ++ [v]
  else (s.ctx u).chain

/-- The context after its unit read `srcs`: a read of g60 takes the oldest value of its link, kept aside while the unit could
still be taken back (R130, R238). -/
def Ctx.popped (c : Ctx) (srcs : List Reg) : Ctx :=
  if srcs.contains (.g 60) then { c with chain := c.chain.tail, undo := { c.undo with link := c.chain.head? } } else c

/-- `t` is `s` after a unit that reads `srcs` and writes `v` to `rd` and does nothing else. -/
structure Wrote (s t : State) (srcs : List Reg) (rd : Reg) (v : Word) : Prop where
  done : t.iss = { s.iss with res := .done }
  result : holdsResult s t rd v
  pc : (t.ctx s.me).pc = if s.iss.snap.isSome then (s.ctx s.me).pc else s.iss.next
  regs : ∀ u r, (u ≠ s.me ∨ r ≠ rd) → t.peek u r = s.peek u r ∧ t.whyEmpty u r = s.whyEmpty u r
  link : ∀ u, (t.ctx u).chain = linkAfter s srcs rd v u
  taken : ∀ u, (t.ctx u).undo = if u = s.me then ((s.ctx u).popped srcs).undo else (s.ctx u).undo
  otherPc : ∀ u, u ≠ s.me → (t.ctx u).pc = (s.ctx u).pc ∧ (t.ctx u).park = (s.ctx u).park
  ctxRest : ∀ u, (t.ctx u).rest = (s.ctx u).rest
  cores : ∀ d, (t.core d).rest = (s.core d).rest
  delayed : ∀ d, (d ≠ (s.ctx s.me).core ∨ ∀ n, rd ≠ .h n) → (t.core d).delayed = (s.core d).delayed
  memory : ∀ a, t.byte a = s.byte a
  rest : sameElse s t

/-- `t` is `s` after a lone unit that changes only its own context, by `f`. -/
def Changed (s t : State) (f : Ctx → Ctx) : Prop :=
  t = { s with ctxs := s.ctxs.put s.me (f (s.ctx s.me)), iss := { s.iss with res := .done } }

/-- The context of a unit that goes on at NextUnit, having read `srcs` (R130, R251). -/
def Ctx.passed (c : Ctx) (s : State) (srcs : List Reg) : Ctx :=
  { c with pc := s.iss.next, park := .none }.popped srcs

/-- The unit is a lone one or word 0 of a pair: not word 1 of a pair (R237, R238). -/
def State.leads (s : State) : Prop := s.iss.snap = none

/-- The instruction reads `srcs`, writes `v` to `rd` and does nothing else. -/
def writes (i : Instr) (s : State) (srcs : List Reg) (rd : Reg) (v : Word) : Prop := gives i s fun t => Wrote s t srcs rd v

/-- The instruction changes its own context by `f` and does nothing else. -/
def changes (i : Instr) (s : State) (f : Ctx → Ctx) : Prop := gives i s fun t => Changed s t f

/-- A context after a register of its own was written: full, with the value (R127). -/
def Ctx.withReg (c : Ctx) (r : Reg) (v : Word) : Ctx :=
  { c with regs := c.regs.put r.code.toNat v, empt := c.empt.del r.code.toNat }

/-! ### Memory and messages -/

/-- An address passes the checks of its instruction: aligned, translated without a fault or a walk, of a legal layout, with
full/empty bits where they are needed (R136, R165, R280). `d` is the stage-2 leaf, none in the TCM part of the private
window; a write sets D in it when it is performed (R74). -/
def State.reaches (s : State) (va : Word) (n : Nat) (k : Kind) (sync : Bool) (pa : Nat) (tg : Target)
    (d : Option Nat) : Prop :=
  s.iss.leaf = none ∧ va.toNat % n = 0 ∧ s.translate s.me va k = .ok pa d ∧ s.target pa = some tg ∧ (sync = true → tg.hasFe = true)

/-- The next message number has been taken by a request that is held back (R166, R289). -/
def State.tookNumber (s : State) : State := { s with nextMsg := s.nextMsg + 1 }

/-- The request of the issuing thread for an address of the leaf `d` (R74, R126). -/
def State.asks (s : State) (d : Option Nat) (op : HomeOp) (va : Word) (pa : Nat) : Msg :=
  (s.withLeaf d).request s.me op va pa none

/-- An access passes its destination's checks and meets no watchpoint (R36, R57, R75, R146, R212). -/
def State.passes (s : State) (m : Msg) (x : Touch) : Prop :=
  s.refusal m x = (s, none) ∧ s.watch m.pa x.n m.op.watchClass m.va m.tid m.core m.slot m.issued = (s, none)

/-- A context whose register awaits a fill (R126). -/
def Ctx.awaiting (c : Ctx) (dst : Option Reg) : Ctx :=
  match dst with
  | some (.g n) => if n = 0 then c else { c with empt := c.empt.put (Reg.g n).code.toNat .fill }
  | some (.q n) => { c with empt := c.empt.put (Reg.q n).code.toNat .fill }
  | some (.i n) => { c with empt := c.empt.put (Reg.i n).code.toNat .fill }
  | some (.h _) | none => c

/-- A core one of whose h registers will await a fill for thread `t` (R129). -/
def Core.awaiting (k : Core) (t fn : Nat) (dst : Option Reg) : Core :=
  match dst with
  | some (.h n) => { k with delayed := k.delayed ++ [.hEmpty k.issueCycle fn n.toNat t] }
  | some (.g _) | some (.q _) | some (.i _) | none => k

/-- The cores after a destination of the issuing thread was emptied for a fill. -/
def State.coresAwaiting (s : State) (dst : Option Reg) : SMap Core :=
  match dst with
  | some (.h _) => s.cores.put (s.ctx s.me).core ((s.core (s.ctx s.me).core).awaiting s.me (s.ctx s.me).fn dst)
  | some (.g _) | some (.q _) | some (.i _) | none => s.cores

/-- `t` is `s` after the unit sent the message `m`, to fill `dst` if it names a register; its own context changes by `f`. -/
def Sent (s t : State) (m : Msg) (dst : Option Reg) (f : Ctx → Ctx) : Prop :=
  t = { s with
    flights := s.flights ++ [{ m with id := s.nextMsg, born := s.sentAt m }]
    nextMsg := s.nextMsg + 1
    cores := s.coresAwaiting dst
    ctxs := s.ctxs.put s.me ((f (s.ctx s.me)).awaiting dst)
    iss := { s.iss with res := .done } }

/-- The unit put a checked own-TCM access into its pipeline, to meet its word in stage WB (R169, R290). -/
def State.withAccess (s : State) (m : Msg) : State :=
  { s with cores := s.cores.put m.core { s.core m.core with delayed := (s.core m.core).delayed ++ [.wb (s.core m.core).issueCycle m] } }

/-- A context that waits for the reply to the message about to be sent, with a bounded wait that counts from stage WB (R286). -/
def Ctx.waits (c : Ctx) (s : State) (lim : Word) : Ctx :=
  { c with park := .reply s.nextMsg, waitFrom := s.startOf s.me,
           limit := if lim = 0 then none else some lim.toNat, limitFrom := s.wbTime s.me }

/-- A context with one more unacknowledged store at a scope (R173). -/
def Ctx.counted (c : Ctx) (scope : Nat) : Ctx := { c with sub := c.sub.put scope (c.subCount scope + 1) }

/-- `t` is `s` after a unit that emptied `dst` for a fill and changed its own context by `f`. -/
def Parked (s t : State) (dst : Option Reg) (f : Ctx → Ctx) : Prop :=
  t = { s with
    cores := s.coresAwaiting dst
    ctxs := s.ctxs.put s.me ((f (s.ctx s.me)).awaiting dst)
    iss := { s.iss with res := .done } }

/-- The state from which a fence of a scope goes on: the wider ones probe each bank that the thread wrote (R174). -/
def State.probing (s : State) (form : FenceForm) (scope : Nat) : State :=
  if form ≠ .lfence ∧ 3 ≤ scope then s.sendProbes s.me else s

/-- A context parked in a fence (R174). -/
def Ctx.fencing (c : Ctx) (s : State) (form : FenceForm) (scope : Nat) (after : After) : Ctx :=
  { c with park := .fence form scope after, waitFrom := s.startOf s.me }

/-- A context with the limit of a bounded wait running, counted from stage WB (R286). -/
def Ctx.limited (c : Ctx) (s : State) (lim : Word) : Ctx :=
  { c with limit := if lim = 0 then none else some lim.toNat, limitFrom := s.wbTime s.me }

/-- A context that waits for the reply to the message about to be sent. -/
def Ctx.asked (c : Ctx) (s : State) : Ctx := { c with park := .reply s.nextMsg, waitFrom := s.startOf s.me }

/-- The reply of a unit that has acted at once, on its way to the thread that waits for it. -/
def State.replyMsg (s : State) (v : Word) (dst : Option Reg) : Msg :=
  { s.request s.me .none 0 0 none with loc := .back (.value v), dst := dst }

/-! ### Cells at their bank -/

/-- A request stands at the home bank of a cell of a kind, at the cell's address, first in its order, with D set already, and
its destination takes it (R74, R142, R146, R292); nothing was combined. -/
def State.atCell (s : State) (m : Msg) (kind : Nat) : Prop :=
  s.msg m.id = some m ∧ m.loc = .home ∧ m.pa % 32 = 0 ∧ m.leaf = none ∧ s.mustWait m = false ∧ s.waitBufs = [] ∧
    s.refusal m ⟨32, true, true, false⟩ = (s, none) ∧ s.isCell m.pa = true ∧ s.cellKind m.pa = kind ∧
    Memory.wf s.mem = true

/-- Memory is as before but in [a, a+n). -/
def sameOutside (s t : State) (a n : Nat) : Prop := ∀ b, (b < a ∨ a + n ≤ b) → t.byte b = s.byte b

/-- Where a message stands. -/
def State.locOf (s : State) (id : Nat) : Option Loc := (s.msg id).map (·.loc)

/-! ### Numbers -/

/-- The value of an FP32 pattern, times 2^149 (R186); none for a NaN, and for an infinity a number beyond every finite one. -/
def fp32Value (x : BitVec 32) : Option Int :=
  let e := x.toNat / 2 ^ 23 % 2 ^ 8
  let f := x.toNat % 2 ^ 23
  let m : Nat := if e = 0 then f else if e = 255 then 2 ^ 300 else (2 ^ 23 + f) * 2 ^ (e - 1)
  if e = 255 ∧ f ≠ 0 then none else some (if x.toNat / 2 ^ 31 = 1 then -(m : Int) else m)

/-- The fields of a pattern of an IEEE format: sign, exponent and fraction (R186). -/
def IFmt.sign (f : IFmt) (x : Nat) : Bool := x / 2 ^ (f.p - 1 + f.expBits) % 2 = 1
def IFmt.expo (f : IFmt) (x : Nat) : Nat := x / 2 ^ (f.p - 1) % 2 ^ f.expBits
def IFmt.frac (f : IFmt) (x : Nat) : Nat := x % 2 ^ (f.p - 1)

/-- A pattern of the format that is a number, and one that is a NaN (R186). -/
def IFmt.finite (f : IFmt) (x : Nat) : Bool := x < 2 ^ (f.p + f.expBits) && f.expo x ≠ 2 ^ f.expBits - 1
def IFmt.nanCode (f : IFmt) (x : Nat) : Bool := f.expo x = 2 ^ f.expBits - 1 && f.frac x ≠ 0

/-- The magnitude of a finite pattern, from its fields; the smallest subnormal is 2^qmin (R186). -/
def IFmt.mag (f : IFmt) (x : Nat) : ℚ :=
  if f.expo x = 0 then f.frac x * 2 ^ f.qmin else (2 ^ (f.p - 1) + f.frac x) * 2 ^ (f.qmin + f.expo x - 1)

/-- The number that a finite pattern stands for. -/
def IFmt.value (f : IFmt) (x : Nat) : ℚ := if f.sign x then -f.mag x else f.mag x

/-- The number that an exact value is; 0 where it is none. -/
def Num.value : Num → ℚ
  | .fin neg m e => if neg then -(m * 2 ^ e) else m * 2 ^ e
  | .nan | .inf _ => 0

/-- Whether a magnitude v between lo × 2^q and (lo + 1) × 2^q, not the first of them, takes the second (R188, R189): `d` is v / 2^q − lo. -/
def awayFromZero (rm : Rm) (sr : Nat) (neg : Bool) (lo : Nat) (d : ℚ) : Bool :=
  match rm with
  | .rne => 1 / 2 < d || (d = 1 / 2 && lo % 2 = 1)
  | .rtz => false
  | .ru => 0 < d && ¬ neg
  | .rd => 0 < d && neg
  | .sr => sr < d * 2 ^ 32

/-- The engine context that an engine instruction ends with (R332). -/
def State.engineLeaves (s : State) (e : QEntry) (x : Eng) : Eng :=
  match (s.engineRun e x).2 with
  | .ok r => r.eng
  | .error _ => x

end Sys2Proof.Machine
end

