-- ==== Sys2Proof/Certificates/Slice0/Obligations.lean ====
section
/-! DEFINITION. The statements about the model. Each names the rules of spec/ that it rests on. -/

open Sys2Proof Sys2Proof.Machine

/-! ### Computing instructions -/

/-- The register forms of OP 0x20 (R252): the result of each, and everything else unchanged. The register forms of OP
0x21 (R253): quotients and remainders with their corners, counts, extensions, subs, csel. -/
def Obligations.IntegerForms : Prop :=
  (∀ (s : State) (rd ra rb : Reg), s.issues [ra, rb] [rd] →
  let a := s.src ra
  let b := s.src rb
  let out (i : Instr) (v : Word) : Prop := writes i s [ra, rb] rd v
  out (.add rd ra rb) (a + b) ∧
  out (.sub rd ra rb) (a - b) ∧
  out (.and rd ra rb) (a &&& b) ∧
  out (.or rd ra rb) (a ||| b) ∧
  out (.xor rd ra rb) (a ^^^ b) ∧
  out (.shl rd ra rb) (a <<< (b.toNat % 64)) ∧
  out (.shr rd ra rb) (a >>> (b.toNat % 64)) ∧
  out (.sra rd ra rb) (a.sshiftRight (b.toNat % 64)) ∧
  out (.mul rd ra rb) (a * b) ∧
  out (.mulh rd ra rb) (BitVec.ofInt 64 (a.toInt * b.toInt / 2 ^ 64)) ∧
  out (.mulhu rd ra rb) (BitVec.ofNat 64 (a.toNat * b.toNat / 2 ^ 64)) ∧
  out (.min rd ra rb) (BitVec.ofInt 64 (min a.toInt b.toInt)) ∧
  out (.max rd ra rb) (BitVec.ofInt 64 (max a.toInt b.toInt)) ∧
  out (.minu rd ra rb) (BitVec.ofNat 64 (min a.toNat b.toNat)) ∧
  out (.maxu rd ra rb) (BitVec.ofNat 64 (max a.toNat b.toNat)) ∧
  out (.adds rd ra rb) (BitVec.ofInt 64 (max (-2 ^ 63) (min (2 ^ 63 - 1) (a.toInt + b.toInt))))) ∧
  (∀ (s : State) (rd ra rb : Reg),
  let a := s.src ra
  let b := s.src rb
  (s.issues [ra, rb] [rd] →
    writes (.div rd ra rb) s [ra, rb] rd (if b = 0 then BitVec.allOnes 64 else BitVec.ofInt 64 (a.toInt.tdiv b.toInt)) ∧
    writes (.divu rd ra rb) s [ra, rb] rd (if b = 0 then BitVec.allOnes 64 else BitVec.ofNat 64 (a.toNat / b.toNat)) ∧
    writes (.rem rd ra rb) s [ra, rb] rd (if b = 0 then a else BitVec.ofInt 64 (a.toInt.tmod b.toInt)) ∧
    writes (.remu rd ra rb) s [ra, rb] rd (if b = 0 then a else BitVec.ofNat 64 (a.toNat % b.toNat)) ∧
    writes (.subs rd ra rb) s [ra, rb] rd (BitVec.ofInt 64 (max (-2 ^ 63) (min (2 ^ 63 - 1) (a.toInt - b.toInt))))) ∧
  (s.issues [ra, rb, rd] [rd] →
    writes (.csel rd ra rb) s [ra, rb, rd] rd (if b ≠ 0 then a else s.src rd)) ∧
  (s.issues [ra] [rd] →
    writes (.clz rd ra) s [ra] rd (BitVec.ofNat 64 ((List.range 64).countP fun k => a.toNat < 2 ^ k)) ∧
    writes (.ctz rd ra) s [ra] rd (BitVec.ofNat 64 ((List.range 64).countP fun k => a.toNat % 2 ^ (k + 1) = 0)) ∧
    writes (.popc rd ra) s [ra] rd (BitVec.ofNat 64 ((List.range 64).countP fun k => a.getLsbD k)) ∧
    writes (.sxb rd ra) s [ra] rd ((a.setWidth 8).signExtend 64) ∧
    writes (.sxh rd ra) s [ra] rd ((a.setWidth 16).signExtend 64) ∧
    writes (.sxw rd ra) s [ra] rd ((a.setWidth 32).signExtend 64)))

/-- The immediate forms (R254) and the wide constants (R255). cset, fcset and cmp (R259), with the integer conditions
of R256 written out. -/
def Obligations.ImmediatesAndSets : Prop :=
  (∀ (s : State) (rd ra sh : BitVec 6) (imm : BitVec 13) (wide : BitVec 19),
  let a := s.src (.g ra)
  let d := s.src (.g rd)
  (s.issues [.g ra] [.g rd] →
    let out (i : Instr) (v : Word) : Prop := writes i s [.g ra] (.g rd) v
    out (.addImm rd ra imm) (a + BitVec.ofInt 64 imm.toInt) ∧
    out (.andImm rd ra imm) (a &&& BitVec.ofInt 64 imm.toInt) ∧
    out (.orImm rd ra imm) (a ||| BitVec.ofNat 64 imm.toNat) ∧
    out (.xorImm rd ra imm) (a ^^^ BitVec.ofNat 64 imm.toNat) ∧
    out (.shlImm rd ra sh) (a <<< sh.toNat) ∧
    out (.shrImm rd ra sh) (a >>> sh.toNat) ∧
    out (.sraImm rd ra sh) (a.sshiftRight sh.toNat) ∧
    out (.mulImm rd ra imm) (a * BitVec.ofInt 64 imm.toInt)) ∧
  (∀ x : Reg, s.issues [.g ra] [x] →
    writes (.addImmX x ra imm) s [.g ra] x (a + BitVec.ofInt 64 imm.toInt)) ∧
  (s.issues [] [.g rd] → writes (.sett rd imm) s [] (.g rd) (BitVec.ofNat 64 (imm.toNat * 2 ^ 51))) ∧
  (s.issues [.g rd] [.g rd] →
    writes (.setm rd wide) s [.g rd] (.g rd) (d.extractLsb' 32 32 ++ wide ++ d.extractLsb' 0 13) ∧
    writes (.seth rd wide) s [.g rd] (.g rd) (d.extractLsb' 51 13 ++ wide ++ d.extractLsb' 0 32))) ∧
  (∀ (s : State) (rd : BitVec 6) (ra rb : Reg), s.issues [ra, rb] [.g rd] →
  let a := s.src ra
  let b := s.src rb
  let set (c : ICond) (p : Prop) : Prop := (p → writes (.cset c rd ra rb) s [ra, rb] (.g rd) 1) ∧
    (¬ p → writes (.cset c rd ra rb) s [ra, rb] (.g rd) 0)
  set .eq (a = b) ∧ set .ne (a ≠ b) ∧ set .lt (a.toInt < b.toInt) ∧ set .ge (b.toInt ≤ a.toInt) ∧
  set .ltu (a.toNat < b.toNat) ∧ set .geu (b.toNat ≤ a.toNat) ∧
  set .bs (a.getLsbD (b.toNat % 64) = true) ∧ set .bc (a.getLsbD (b.toNat % 64) = false) ∧
  (∀ c : FCond, writes (.fcset c rd ra rb) s [ra, rb] (.g rd) (if fcond c (a.setWidth 32) (b.setWidth 32) then 1 else 0)) ∧
  writes (.cmp rd ra rb) s [ra, rb] (.g rd)
    (if a.toInt < b.toInt then BitVec.allOnes 64 else if a = b then 0 else 1))

/-- The skip compares (R257): Skip := SK when the condition holds, and nothing else; skf never parks. Branches and
jumps (R260, R261): where PC goes and what links; jr and jlr to a target whose bits [1:0] are not zero raise an
alignment fault instead (R250). -/
def Obligations.SkipsBranchesAndJumps : Prop :=
  (∀ (s : State) (k : SkipCount) (ra rb : Reg) (rg : BitVec 6) (imm : BitVec 13),
  s.leads →
  let n : BitVec 2 := match k with
    | .one => 1
    | .two => 2
    | .three => 3
  let out (i : Instr) (srcs : List Reg) (t : Bool) : Prop :=
    changes i s fun c => { c.passed s srcs with skip := if t then n else c.skip }
  (s.issues [ra, rb] [] →
    (∀ c, out (.sk c k ra rb) [ra, rb] (icond c (s.src ra) (s.src rb))) ∧
    (∀ c, out (.fsk c k ra rb) [ra, rb] (fcond c ((s.src ra).setWidth 32) ((s.src rb).setWidth 32)))) ∧
  out (.skf .full k ra) [] (s.skfFull ra) ∧
  out (.skf .empty k ra) [] (! s.skfFull ra) ∧
  (s.issues [.g rg] [] → ∀ c, out (.skImm c k rg imm) [.g rg] (icond c (s.src (.g rg))
    (if c = .bs ∨ c = .bc then BitVec.ofNat 64 imm.toNat else BitVec.ofInt 64 imm.toInt)))) ∧
  (∀ (s : State) (imm : BitVec 19) (rg : BitVec 6) (ra rd : Reg), s.leads →
  let target : Word := s.iss.w + BitVec.ofInt 64 (4 * imm.toInt)
  changes (.br imm) s (fun c => { c.passed s [] with pc := target }) ∧
  (s.issues [] [.g 62] → changes (.bl imm) s fun c => { (c.passed s []).withReg (.g 62) s.iss.next with pc := target }) ∧
  (s.issues [.g rg] [] →
    changes (.bz rg imm) s (fun c => { c.passed s [.g rg] with pc := if s.src (.g rg) = 0 then target else s.iss.next }) ∧
    changes (.bnz rg imm) s (fun c => { c.passed s [.g rg] with pc := if s.src (.g rg) ≠ 0 then target else s.iss.next })) ∧
  (s.issues [ra] [] → (s.src ra).toNat % 4 = 0 → changes (.jr ra) s fun c => { c.passed s [ra] with pc := s.src ra }) ∧
  (s.issues [ra] [rd] → (s.src ra).toNat % 4 = 0 → gives (.jlr rd ra) s fun t => ∃ t0, Wrote s t0 [ra] rd s.iss.next ∧
    t = t0.modCtx s.me fun c => { c with pc := s.src ra }) ∧
  (s.issues [ra] [] → (s.src ra).toNat % 4 ≠ 0 → gives (.jr ra) s fun t => t = s.advance.raise 0x04 (s.src ra) 4) ∧
  (s.issues [ra] [rd] → (s.src ra).toNat % 4 ≠ 0 → gives (.jlr rd ra) s fun t => t = s.advance.raise 0x04 (s.src ra) 4))

/-! ### Memory -/

/-- Accesses to the own core's TCM (R169, R282–R285). At the instruction: a load, and a synchronising access that only reads,
reads its value in the pipeline, or waits for its word's bit; a checked store, st.fl, ld.tk, fe.tk and fe.fl go on, to meet
their word in stage WB. Stage WB: a store writes its bytes and nothing else; a st.fl that finds its word empty writes it and
fills it; ld.tk and fe.tk empty a full word, fe.fl fills an empty one, and the register has the value read, or 0. -/
def Obligations.OwnTcmAccesses : Prop :=
  (∀ (s : State) (sz : Size) (rd : Reg) (rg ra rb : BitVec 6) (imm : BitVec 13) (pa off : Nat) (x : Option Nat), s.leads →
  let n := sizeBytes sz
  let own : Target := .tcm (s.ctx s.me).core off
  let ea : Word := s.src (.g ra) + BitVec.ofInt 64 imm.toInt
  let va := s.src (.g ra)
  let lim := s.src (.g rb)
  let limit : Option Nat := if lim = 0 then none else some lim.toNat
  let req (op : HomeOp) (a : Word) (dst : Option Reg) : Msg := { s.asks x op a pa with dst := dst }
  let later (i : Instr) (srcs : List Reg) (m : Msg) (y : Touch) : Prop := s.refusal m y = (s, none) →
    gives i s fun t => Changed (s.withAccess m) t fun c => c.passed s srcs
  let waits (i : Instr) (m : Msg) : Prop := gives i s fun t =>
    Sent s t { m with loc := .waiting } (some rd) fun c => (c.passed s [.g ra, .g rb]).waits s lim
  (s.reaches ea n .read false pa own x →
    (s.issues [.g ra] [.g rg] → s.passes (req (.load n) ea (some (.g rg))) ⟨n, false, true, false⟩ →
      gives (.ld sz rg ra imm) s fun t => Wrote s t [.g ra] (.g rg) (word (s.rd pa n))) ∧
    (s.issues [.g ra] [rd] → s.passes (req (.load n) ea (some rd)) ⟨n, false, true, false⟩ →
      gives (.ldX sz rd ra imm) s fun t => Wrote s t [.g ra] rd (word (s.rd pa n)))) ∧
  (s.reaches ea n .write false pa own x → s.issues [.g ra, .g rg] [] →
    later (.st sz rg ra imm) [.g ra, .g rg] (req (.store n (s.src (.g rg))) ea none) ⟨n, true, false, true⟩) ∧
  (s.reaches va n .read true pa own x → s.issues [.g ra, .g rb] [rd] →
    let m := req (.loadSync n false) va (some rd)
    (s.isFull pa = true → s.passes m ⟨n, false, true, true⟩ →
      gives (.ldWf sz rd ra rb) s fun t => Wrote (s.unmark pa) t [.g ra, .g rb] rd (word (s.rd pa n))) ∧
    (s.isFull pa = false → s.refusal m ⟨n, false, true, true⟩ = (s, none) → waits (.ldWf sz rd ra rb) m) ∧
    later (.ldTk sz rd ra rb) [.g ra, .g rb] { req (.loadSync n true) va (some rd) with limit := limit } ⟨n, true, true, true⟩) ∧
  (s.reaches va n .write true pa own x → s.issues [.g ra, rd, .g rb] [] →
    later (.stFl sz rd ra rb) [.g ra, rd, .g rb]
      { req (.storeFill n (s.src rd)) va none with limit := limit, aux := word (s.wbTime s.me) } ⟨n, true, false, true⟩) ∧
  (s.issues [.g ra, .g rb] [rd] →
    let m := req (.fe 1) va (some rd)
    (s.reaches va 8 .read true pa own x → s.isFull pa = true → s.passes m ⟨8, false, false, true⟩ →
      gives (.feWf rd ra rb) s fun t => Wrote (s.unmark pa) t [.g ra, .g rb] rd 0) ∧
    (s.reaches va 8 .read true pa own x → s.isFull pa = false → s.refusal m ⟨8, false, false, true⟩ = (s, none) →
      waits (.feWf rd ra rb) m) ∧
    (s.reaches va 8 .write true pa own x →
      later (.feTk rd ra rb) [.g ra, .g rb] { req (.fe 2) va (some rd) with limit := limit } ⟨8, true, false, true⟩ ∧
      later (.feFl rd ra rb) [.g ra, .g rb] { req (.fe 3) va (some rd) with limit := limit } ⟨8, true, false, true⟩)) ∧
  (s.reaches va 8 .read true pa own x → s.passes (req .feq va (some rd)) ⟨8, false, false, false⟩ → s.issues [.g ra] [rd] →
    gives (.feq rd ra) s fun t => Wrote s t [.g ra] rd (if s.isFull pa then 1 else 0))) ∧
  (∀ (s : State) (m : Msg) (core issued n : Nat) (v : Word) (rd : BitVec 6), m.leaf = none → Memory.wf s.mem = true →
    s.watch m.pa n m.op.watchClass m.va m.tid m.core m.slot m.issued = (s, none) → s.wordWaiters m.pa = [] →
    let t := s.settleOne core (.wb issued m)
    let holds (w : Word) : Prop := t.peek m.tid (.g rd) = w ∧ t.whyEmpty m.tid (.g rd) = none
    let stored : Prop := t.rd m.pa n = v.toNat % 256 ^ n ∧ sameOutside s t m.pa n
    (m.op = .store n v → stored) ∧
    (m.op = .storeFill n v → s.isFull m.pa = false → stored ∧ t.isFull m.pa = true) ∧
    (m.dst = some (.g rd) → rd ≠ 0 → rd ≠ 61 →
      (m.op = .loadSync n true → s.isFull m.pa = true → t.isFull m.pa = false ∧ holds (word (s.rd m.pa n)) ∧ t.mem = s.mem) ∧
      (m.op = .fe 2 → n = 8 → s.isFull m.pa = true → t.isFull m.pa = false ∧ holds 0 ∧ t.mem = s.mem) ∧
      (m.op = .fe 3 → n = 8 → s.isFull m.pa = false → t.isFull m.pa = true ∧ holds 0 ∧ t.mem = s.mem)))

/-- Accesses of every other target are sent to their home (R126, R166, R173, R282–R286): the message, what the thread
waits for, and nothing else; a load of device control space counts until its refusal returns (R172). A load that its
core's data cache holds completes at once (R138). An access of a doubleword that an earlier access of the thread still has on
its way is held in M1, with its register empty (R166). -/
def Obligations.SentAccesses : Prop := ∀ (s : State) (sz : Size) (rd : Reg) (rg ra rb : BitVec 6) (imm : BitVec 13)
    (pa : Nat) (tg : Target) (x : Option Nat), s.leads → s.ownTcm tg = false →
  let n := sizeBytes sz
  let ea : Word := s.src (.g ra) + BitVec.ofInt 64 imm.toInt
  let va := s.src (.g ra)
  let lim := s.src (.g rb)
  let req (op : HomeOp) (a : Word) : Msg := s.asks x op a pa
  let past : State := s.uncache (s.ctx s.me).core pa
  let cached := s.cacheHit (req (.load n) ea).accessor (s.ctx s.me).core pa n tg
  let fills (i : Instr) (srcs : List Reg) (s2 : State) (m : Msg) (d : Reg) : Prop :=
    gives i s fun t => Sent s2 t { m with dst := some d } (some d) fun c => c.passed s srcs
  let loads (i : Instr) (d : Reg) : Prop :=
    ((∀ o, tg ≠ .control o) → fills i [.g ra] s (req (.load n) ea) d) ∧
    (∀ o, tg = .control o → gives i s fun t => Sent s t { req (.load n) ea with dst := some d, counted := true } (some d) fun c =>
      (c.passed s [.g ra]).counted (req (.load n) ea).scope)
  let parks (i : Instr) (srcs : List Reg) (m : Msg) (d : Reg) : Prop :=
    gives i s fun t => Sent past t { m with dst := some d } (some d) fun c => (c.passed s srcs).waits s lim
  let held (i : Instr) (srcs : List Reg) (m : Msg) (d : Option Reg) (how : Send) : Prop := gives i s fun t =>
    Parked s.tookNumber t d fun c =>
      { c.passed s srcs with park := .held { m with dst := d, id := s.nextMsg } n how }
  (s.holder s.me pa n = none →
    (s.reaches ea n .read false pa tg x → cached = none →
      (s.issues [.g ra] [.g rg] → loads (.ld sz rg ra imm) (.g rg)) ∧ (s.issues [.g ra] [rd] → loads (.ldX sz rd ra imm) rd)) ∧
    (∀ v, s.reaches ea n .read false pa tg x → cached = some v →
      let hit (i : Instr) (d : Reg) : Prop := s.issues [.g ra] [d] → gives i s fun t =>
        Wrote (s.touchLine (s.ctx s.me).core pa) t [.g ra] d (word v)
      hit (.ld sz rg ra imm) (.g rg) ∧ hit (.ldX sz rd ra imm) rd) ∧
    (s.reaches ea n .write false pa tg x → s.issues [.g ra, .g rg] [] → gives (.st sz rg ra imm) s fun t =>
      let m := req (.store n (s.src (.g rg))) ea
      (∀ o, tg = .sram (s.coreDie (s.ctx s.me).core) o → Sent s t m none fun c =>
        { c.passed s [.g ra, .g rg] with touched := c.touched ||| (1#128 <<< (o / 64 % 128)) }) ∧
      ((∀ o, tg ≠ .sram (s.coreDie (s.ctx s.me).core) o) →
        Sent s t { m with counted := true } none fun c => (c.passed s [.g ra, .g rg]).counted m.scope)) ∧
    (s.reaches va n .read true pa tg x → s.issues [.g ra, .g rb] [rd] →
      parks (.ldWf sz rd ra rb) [.g ra, .g rb] (req (.loadSync n false) va) rd ∧
      parks (.ldTk sz rd ra rb) [.g ra, .g rb] (req (.loadSync n true) va) rd) ∧
    (s.reaches va n .write true pa tg x → s.issues [.g ra, rd, .g rb] [] → gives (.stFl sz rd ra rb) s fun t =>
      let m := req (.storeFill n (s.src rd)) va
      Sent past t { m with counted := true, limit := if lim = 0 then none else some lim.toNat, aux := word (s.wbTime s.me) }
        none fun c => (c.passed s [.g ra, rd, .g rb]).counted m.scope)) ∧
  (s.holder s.me pa 8 = none →
    (s.issues [.g ra, .g rb] [rd] →
      (s.reaches va 8 .read true pa tg x → parks (.feWf rd ra rb) [.g ra, .g rb] (req (.fe 1) va) rd) ∧
      (s.reaches va 8 .write true pa tg x → parks (.feTk rd ra rb) [.g ra, .g rb] (req (.fe 2) va) rd ∧
        parks (.feFl rd ra rb) [.g ra, .g rb] (req (.fe 3) va) rd)) ∧
    (s.reaches va 8 .read true pa tg x → s.issues [.g ra] [rd] → fills (.feq rd ra) [.g ra] past (req .feq va) rd)) ∧
  (∀ k, s.holder s.me pa n = some k →
    (s.reaches ea n .read false pa tg x → s.issues [.g ra] [rd] →
      held (.ldX sz rd ra imm) [.g ra] (req (.load n) ea) (some rd) .load) ∧
    (s.reaches ea n .write false pa tg x → s.issues [.g ra, .g rg] [] →
      held (.st sz rg ra imm) [.g ra, .g rg] (req (.store n (s.src (.g rg))) ea) none .store))

/-- Fences (R174, R291): at .thr they complete at once; elsewhere the thread parks until they complete, the wider ones
having probed each shared-SRAM bank that the thread wrote. The atomics (R287–R290), all twelve: a checked one of the
own TCM at .thr goes on, to read and write in the one cycle of its stage WB; elsewhere at .thr the request is sent; at
a wider scope it waits behind a store fence. Stage WB of one: the new value stands in memory and rd holds the old. What each
function writes at either width, the floating-point sum by its rounding of sums that show it (R186–R188, R288). -/
def Obligations.FencesAndAtomics : Prop :=
  (∀ (s : State) (sc : Scope), s.leads →
  let out (i : Instr) (form : FenceForm) : Prop := gives i s fun t =>
    if sc = .thr then Changed s t fun c => c.passed s []
    else Changed (s.probing form (scopeCode sc)) t fun c => (c.passed s []).fencing s form (scopeCode sc) .done
  out (.fence sc) .fence ∧ out (.sfence sc) .sfence ∧ out (.lfence sc) .lfence) ∧
  (∀ (s : State) (d : Bool) (sc : Scope) (rd ra rb : BitVec 6) (pa : Nat) (tg : Target) (x : Option Nat),
  s.leads →
  let va := s.src (.g ra)
  let past : State := s.uncache (s.ctx s.me).core pa
  let out (i : Instr) (f : AmoFn) (dw : Bool) (srcs : List Reg) (b e : Word) : Prop :=
    let n := if dw then 8 else 4
    let m : Msg := { s.asks x (.amo f n b e) va pa with dst := some (.g rd), aux := word (scopeCode sc), counted := true }
    s.issues srcs [.g rd] → s.reaches va n .write true pa tg x →
    (s.ownTcm tg = true → sc = .thr → s.refusal m ⟨n, true, true, true⟩ = (s, none) → gives i s fun t =>
      Changed (s.withAccess m) t fun c => c.passed s srcs) ∧
    (s.ownTcm tg = false → s.holder s.me pa n = none → sc = .thr → gives i s fun t =>
      Sent past t m (some (.g rd)) fun c => (c.passed s srcs).counted m.scope) ∧
    ((s.ownTcm tg = true ∨ s.holder s.me pa n = none) → sc ≠ .thr → gives i s fun t =>
      Parked (past.tookNumber.probing .sfence (scopeCode sc)) t (some (.g rd)) fun c =>
        (c.passed s srcs).fencing s .sfence (scopeCode sc) (.send { m with id := s.nextMsg } true))
  let two : List Reg := [.g ra, .g rb]
  let b := s.src (.g rb)
  let e := s.src (.g rd)
  out (.amoAdd d sc rd ra rb) .add d two b e ∧ out (.amoAnd d sc rd ra rb) .and d two b e ∧
  out (.amoOr d sc rd ra rb) .or d two b e ∧ out (.amoXor d sc rd ra rb) .xor d two b e ∧
  out (.amoSwap d sc rd ra rb) .swap d two b e ∧ out (.amoCas d sc rd ra rb) .cas d [.g ra, .g rb, .g rd] b e ∧
  out (.amoMin d sc rd ra rb) .min d two b e ∧ out (.amoMax d sc rd ra rb) .max d two b e ∧
  out (.amoMinu d sc rd ra rb) .minu d two b e ∧ out (.amoMaxu d sc rd ra rb) .maxu d two b e ∧
  out (.amoFadd sc rd ra rb) .fadd false two b e ∧
  out (.amoLd d sc rd ra) .ld d [.g ra] 0 e) ∧
  (∀ (s : State) (m : Msg) (core issued n : Nat) (f : AmoFn) (b e : Word) (rd : BitVec 6), m.op = .amo f n b e → f ≠ .ld →
    m.leaf = none → m.dst = some (.g rd) → rd ≠ 0 → rd ≠ 61 → Memory.wf s.mem = true →
    s.watch m.pa n (false, false, true) m.va m.tid m.core m.slot m.issued = (s, none) →
    let old := s.rd m.pa n
    let t := s.settleOne core (.wb issued m)
    t.rd m.pa n = amoNew f n old (b.toNat % 2 ^ (8 * n)) (e.toNat % 2 ^ (8 * n)) % 256 ^ n ∧
    t.peek m.tid (.g rd) = word old ∧ t.whyEmpty m.tid (.g rd) = none ∧ sameOutside s t m.pa n) ∧
  (∀ (dw : Bool) (old b e : Nat),
  let n := if dw then 8 else 4
  let top := 2 ^ (8 * n)
  let signed (v : Nat) : Int := if v < top / 2 then v else v - top
  old < top → b < top → e < top →
    amoNew .add n old b e % top = (old + b) % top ∧ amoNew .and n old b e % top = (BitVec.ofNat 64 old &&& BitVec.ofNat 64 b).toNat ∧
    amoNew .or n old b e % top = (BitVec.ofNat 64 old ||| BitVec.ofNat 64 b).toNat ∧
    amoNew .xor n old b e % top = (BitVec.ofNat 64 old ^^^ BitVec.ofNat 64 b).toNat ∧ amoNew .swap n old b e % top = b ∧
    amoNew .cas n old b e % top = (if old = e then b else old) ∧ amoNew .ld n old b e % top = old ∧
    (signed old ≤ signed b → amoNew .min n old b e % top = old ∧ amoNew .max n old b e % top = b) ∧
    (signed b < signed old → amoNew .min n old b e % top = b ∧ amoNew .max n old b e % top = old) ∧
    amoNew .minu n old b e % top = min old b ∧ amoNew .maxu n old b e % top = max old b ∧
    amoNew .fadd 4 old b e = (f32Add (BitVec.ofNat 32 old) (BitVec.ofNat 32 b)).toNat) ∧
  f32Add 0x3F800000 0x40000000 = 0x40400000 ∧ f32Add 1 1 = 2 ∧ f32Add 0x4B800000 0x3F800000 = 0x4B800000 ∧
  f32Add 0x4B800001 0x3F800000 = 0x4B800002 ∧ f32Add 0x7F7FFFFF 0x7F7FFFFF = 0x7F800000 ∧
  f32Add 0x7F800000 0xFF800000 = 0x7FC00000 ∧ f32Add 0x3F800000 0x7F800001 = 0x7FC00000

/-! ### Loop nests -/

/-- nest sends its claim and empties rd and i0–i3 for the reply; nest.end steps to the next iteration and jumps back,
or leaves the nest that has ended (R262–R264). -/
def Obligations.LoopNests : Prop := ∀ (s : State) (rd ra : Reg) (imm : BitVec 13) (pa die off : Nat) (x : Nest)
    (y : Option Nat), s.leads →
  s.claimOut s.me = none →
  ((s.ctx s.me).nest = none → (s.src ra).toNat % 32 = 0 → s.issues [ra] [rd] →
    s.reaches (s.src ra) 1 .read false pa (.sram die off) y → s.holder s.me pa 32 = none →
    gives (.nest rd ra) s fun t => ∃ t0,
      Sent (s.uncache (s.ctx s.me).core pa) t0 { s.asks y (.claim true) (s.src ra) pa with dst := some rd } (some rd)
        (fun c => c.passed s [ra]) ∧
      t = (((t0.pend (.i 0)).pend (.i 1)).pend (.i 2)).pend (.i 3)) ∧
  ((s.ctx s.me).nest = some x → x.ended = false → x.n ≠ x.last → gives (.nestEnd imm) s fun t =>
    let n := (x.n + 1).toNat
    Changed (if x.fresh then s else s.noteIter s.me) t fun c =>
      { ((((c.passed s []).withReg (.i 0) (word (n % x.e0))).withReg (.i 1) (word (n / x.e0 % x.e1))).withReg (.i 2)
          (word (n / (x.e0 * x.e1) % x.e2))).withReg (.i 3) (word (n / (x.e0 * x.e1 * x.e2))) with
        nest := some { x with n := x.n + 1, fresh := false }, pc := s.iss.w + BitVec.ofInt 64 (4 * imm.toInt) }) ∧
  ((s.ctx s.me).nest = some x → x.ended = true → changes (.nestEnd imm) s fun c => { c.passed s [] with nest := none })

/-! ### Cells and rings at their instructions -/

/-- The cell instructions (R292–R294): the request that goes to the cell's home bank, after the fence of the cell's
scope where the instruction releases, and whether the thread parks or rd is filled later. A release whose cell's scope the
core does not remember first reads the scope at the bank (R293); an arrival for the cell of a TREE barrier may be combined on
its way where the bank lies on the requester's die (R158). -/
def Obligations.CellInstructions : Prop := ∀ (s : State) (rd ra rb : Reg) (pa die off : Nat) (x : Option Nat), s.leads →
  (s.src ra).toNat % 32 = 0 → s.reaches (s.src ra) 1 .write false pa (.sram die off) x →
  let req (op : HomeOp) : Msg := s.asks x op (s.src ra) pa
  let fills (i : Instr) (srcs : List Reg) (op : HomeOp) : Prop := s.issues srcs [rd] → gives i s fun t =>
    Sent s t { req op with dst := some rd } (some rd) fun c => c.passed s srcs
  let parks (i : Instr) (srcs : List Reg) (op : HomeOp) (lim : Word) : Prop := s.issues srcs [rd] → gives i s fun t =>
    Sent s t { req op with dst := some rd } (some rd) fun c => (c.passed s srcs).waits s lim
  let releases (i : Instr) (srcs dsts : List Reg) (dst : Option Reg) (op : HomeOp) (park : Bool) (lim : Word) : Prop :=
    s.issues srcs dsts →
    let m : Msg := { req op with dst := dst, counted := true, id := s.nextMsg }
    (∀ v, (s.ctx s.me).knows pa = some v → gives i s fun t =>
      let a : Word := if v / 8 = 2 ∧ die = s.coreDie (s.ctx s.me).core then 1 else 0
      Parked (s.tookNumber.probing .fence (v % 8)) t dst fun c =>
        ((c.passed s srcs).limited s lim).fencing s .fence (v % 8) (.send { m with aux := a } park)) ∧
    ((s.ctx s.me).knows pa = none → gives i s fun t => ∃ t0,
      Parked s.tookNumber t0 dst (fun c => { c.passed s srcs with
        park := .scope (s.nextMsg + 1) m park lim, waitFrom := s.startOf s.me }) ∧
      t = t0.post (s.asks x .scopeRead (s.src ra) pa))
  fills (.syncInit rd ra rb) [ra, rb] (.cellInit (s.src rb)) ∧
  fills (.syncMode rd ra rb) [ra, rb] (.mode (s.src rb)) ∧
  fills (.syncPol rd ra rb) [ra, rb] (.pol (s.src rb)) ∧
  parks (.acq rd ra) [ra, rd] .acq (s.src rd) ∧
  parks (.tryacq rd ra) [ra] .tryacq 0 ∧
  parks (.sbWait rd ra rb) [ra, rb, rd] (.sbWait (s.src rb)) (s.src rd) ∧
  releases (.rel ra) [ra] [] none .rel false 0 ∧
  releases (.syncCall rd ra rb) [ra, rb, rd] [rd] (some rd) (.call (s.src rb)) true (s.src rd) ∧
  releases (.arrive rd ra rb) [ra, rb] [rd] (some rd) (.arrive (s.src rb)) false 0 ∧
  releases (.arriveWait rd ra) [ra, rd] [rd] (some rd) .arriveWait true (s.src rd) ∧
  releases (.sbExpect rd ra rb) [ra, rb] [rd] (some rd) (.expect (s.src rb)) false 0

/-- A cell's address is checked at each of the eleven cell instructions: unaligned, it raises an access fault with cause 7
(R142, R292). A ring handle in any other register is an illegal instruction (R299), and a descriptor that is no multiple of 64
an access fault with cause 1 (R298). A load or store, synchronising or not, or an atomic whose address is no multiple of its
size takes the alignment fault (R165, R206, R280). -/
def Obligations.AddressAndHandleFaults : Prop :=
  (∀ (s : State) (rd ra rb : Reg), (s.src ra).toNat % 32 ≠ 0 →
  let bad (i : Instr) (srcs dsts : List Reg) : Prop := s.issues srcs dsts → exec i s = .next (s.advance.raise 0x03 (s.src ra) 7)
  bad (.syncInit rd ra rb) [ra, rb] [rd] ∧ bad (.acq rd ra) [ra, rd] [rd] ∧ bad (.tryacq rd ra) [ra] [rd] ∧ bad (.rel ra) [ra] [] ∧
  bad (.syncCall rd ra rb) [ra, rb, rd] [rd] ∧ bad (.arrive rd ra rb) [ra, rb] [rd] ∧ bad (.arriveWait rd ra) [ra, rd] [rd] ∧
  bad (.syncMode rd ra rb) [ra, rb] [rd] ∧ bad (.syncPol rd ra rb) [ra, rb] [rd] ∧ bad (.sbExpect rd ra rb) [ra, rb] [rd] ∧
  bad (.sbWait rd ra rb) [ra, rb, rd] [rd]) ∧
  (∀ (s : State) (rd ra rb : Reg), isQ ra = false →
  exec (.ringResv rd ra rb) s = .next s.illegal ∧ exec (.ringPub rd ra rb) s = .next s.illegal ∧
  exec (.ringWait rd ra rb) s = .next s.illegal ∧ exec (.ringFree rd ra rb) s = .next s.illegal ∧
  exec (.ringAdv ra rb) s = .next s.illegal ∧ exec (.ringOpen ra rd rb) s = .next s.illegal) ∧
  (∀ (s : State) (n : BitVec 4) (ra rb : Reg), (s.src ra).toNat % 64 ≠ 0 → s.issues [ra, rb] [.q n] →
  exec (.ringOpen (.q n) ra rb) s = .next (s.advance.raise 0x03 (s.src ra) 1)) ∧
  (∀ (s : State) (sz : Size) (d : Bool) (sc : Scope) (rd : Reg) (rg ra rb : BitVec 6) (imm : BitVec 13),
  let n := sizeBytes sz
  let ea : Word := s.src (.g ra) + BitVec.ofInt 64 imm.toInt
  let va := s.src (.g ra)
  let bad (i : Instr) (srcs dsts : List Reg) (a : Word) (n : Nat) : Prop := a.toNat % n ≠ 0 → s.issues srcs dsts →
    exec i s = .next (s.advance.raise 0x04 a (word n))
  let two (i : Instr) (dsts : List Reg) (n : Nat) : Prop := bad i [.g ra, .g rb] dsts va n
  let w := if d then 8 else 4
  bad (.ld sz rg ra imm) [.g ra] [.g rg] ea n ∧ bad (.ldX sz rd ra imm) [.g ra] [rd] ea n ∧
  bad (.st sz rg ra imm) [.g ra, .g rg] [] ea n ∧
  two (.ldWf sz rd ra rb) [rd] n ∧ two (.ldTk sz rd ra rb) [rd] n ∧ bad (.stFl sz rd ra rb) [.g ra, rd, .g rb] [] va n ∧
  two (.feWf rd ra rb) [rd] 8 ∧ two (.feTk rd ra rb) [rd] 8 ∧ two (.feFl rd ra rb) [rd] 8 ∧ bad (.feq rd ra) [.g ra] [rd] va 8 ∧
  two (.amoAdd d sc rg ra rb) [.g rg] w ∧ two (.amoAnd d sc rg ra rb) [.g rg] w ∧ two (.amoOr d sc rg ra rb) [.g rg] w ∧
  two (.amoXor d sc rg ra rb) [.g rg] w ∧ two (.amoSwap d sc rg ra rb) [.g rg] w ∧
  bad (.amoCas d sc rg ra rb) [.g ra, .g rb, .g rg] [.g rg] va w ∧ two (.amoMin d sc rg ra rb) [.g rg] w ∧
  two (.amoMax d sc rg ra rb) [.g rg] w ∧ two (.amoMinu d sc rg ra rb) [.g rg] w ∧ two (.amoMaxu d sc rg ra rb) [.g rg] w ∧
  two (.amoFadd sc rg ra rb) [.g rg] 4 ∧ bad (.amoLd d sc rg ra) [.g ra] [.g rg] va w)

/-- The ring instructions (R299–R302): a handle is a q register; the acquiring ones park until their reply, ring.pub
and ring.adv wait behind a fence of the ring's scope first. -/
def Obligations.RingInstructions : Prop := ∀ (s : State) (rd ra rb : Reg) (n : BitVec 4) (pa : Nat) (tg : Target)
    (x : Option Nat), s.leads → (∃ a b, tg = .sram a b ∨ tg = .scratch a b) →
  let q : Reg := .q n
  let va := s.src q &&& ~~~63#64
  let req (op : HomeOp) : Msg := { s.asks x op va pa with aux := s.src q }
  let parks (i : Instr) (op : HomeOp) : Prop := s.issues [q, rb, rd] [rd] → gives i s fun t =>
    Sent s t { req op with dst := some rd } (some rd) fun c => (c.passed s [q, rb, rd]).waits s (s.src rd)
  let releases (i : Instr) (srcs : List Reg) (form : FenceForm) (op : HomeOp) : Prop := s.issues srcs [] → gives i s fun t =>
    let m := req op
    Parked (s.tookNumber.probing form m.scope) t none fun c =>
      (c.passed s srcs).fencing s form m.scope (.send { m with counted := true, id := s.nextMsg } false)
  (s.reaches va 1 .write false pa tg x →
    parks (.ringResv rd q rb) (.ringResv (s.src rb)) ∧ parks (.ringWait rd q rb) (.ringWait (s.src rb)) ∧
    parks (.ringFree rd q rb) (.ringFree (s.src rb)) ∧
    releases (.ringPub rd q rb) [q, rb, rd] .sfence (.ringPub (s.src rb) (s.src rd)) ∧
    releases (.ringAdv q rb) [q, rb] .fence (.ringAdv (s.src rb))) ∧
  ((s.src ra).toNat % 64 = 0 → s.reaches (s.src ra) 1 .write false pa tg x → s.issues [ra, rb] [q] →
    gives (.ringOpen q ra rb) s fun t =>
      Sent s t { s.asks x (.ringOpen (s.src rb)) (s.src ra) pa with dst := some q } (some q) fun c =>
        (c.passed s [ra, rb]).asked s)

/-! ### Threads -/

/-- spawn without a join word, with room on chip: the child, a new thread, runs in the slot at the entry with the stack
pointer; the thread that spawned goes on as the newest entry of the deque, at NextUnit with its registers (R308).
yield: the context leaves its slot for the oldest end of its task's deque, or, where that end lies in the spill buffer,
first waits for everything of it (R178, R312). That older spilled entries make it go there too is the model's reading (log
entry 43), and so is what parent and child keep beside what R308 names (log entry 35). -/
def Obligations.SpawnAndYield : Prop :=
  (∀ (s : State) (rd ra rb : Reg), s.leads → s.issues [ra, rb, rd] [] →
  (s.src ra).toNat % 4 = 0 → (s.ctx s.me).claim = none → s.fillsOut s.me = false → s.src rb = 0 → s.me < s.nextTid →
  let d := (s.ctx s.me).core
  let q := (s.core d).deque (s.ctx s.me).task
  s.dequeRoom d (s.ctx s.me).task (s.ctx s.me).fn = true → q.chip.length + s.dequeHeld d (s.ctx s.me).task < 16 →
  gives (.spawn rd ra rb) s fun t =>
    let k := s.nextTid
    (t.ctx k).pc = s.src ra ∧ t.peek k (.g 63) = s.src rd ∧ t.whyEmpty k (.g 63) = none ∧
    (t.ctx k).place = (s.ctx s.me).place ∧ (t.ctx k).task = (s.ctx s.me).task ∧ (t.ctx k).lvl = (s.ctx s.me).lvl ∧
    (t.ctx k).nest = none ∧ (∀ n : BitVec 6, n ≠ 63 → t.peek k (.g n) = s.peek s.me (.g n)) ∧
    (t.ctx s.me).pc = s.iss.next ∧ (t.ctx s.me).place = .deque d ∧ (t.ctx s.me).regs = (s.ctx s.me).regs ∧
    (t.ctx s.me).empt = (s.ctx s.me).empt ∧ (t.ctx s.me).lvl = (s.ctx s.me).lvl ∧ (t.ctx s.me).nest = (s.ctx s.me).nest ∧
    (t.core d).deque (s.ctx s.me).task = { q with chip := q.chip ++ [s.me] } ∧
    t.nextTid = k + 1 ∧ (∀ a, t.byte a = s.byte a) ∧
    { t with ctxs := s.ctxs, cores := s.cores, nextTid := s.nextTid, iss := s.iss } = s) ∧
  (∀ (s : State), s.leads →
  let d := (s.ctx s.me).core
  let q := (s.core d).deque (s.ctx s.me).task
  s.dequeRoom d (s.ctx s.me).task (s.ctx s.me).fn = true →
  (q.chip.length + s.dequeHeld d (s.ctx s.me).task < 16 → q.spill = [] → gives .yield s fun t =>
    let s1 := s.advance.finishTcm s.me
    t = { s1 with
      ctxs := s1.ctxs.put s.me { s1.ctx s.me with timeAcc := s1.ctlTime s.me, place := .deque d, chuckAt := (s1.core d).cycle }
      cores := s1.cores.put d { s1.core d with
        deques := (s1.core d).deques.put (s.ctx s.me).task { q with chip := s.me :: q.chip } } } ∧
    (t.ctx s.me).pc = s.iss.next ∧ ((s.core d).delayed = [] → (t.ctx s.me).regs = (s.ctx s.me).regs ∧ ∀ a, t.byte a = s.byte a)) ∧
  (q.spill ≠ [] → s.dequeSpilled (s.ctx s.me).fn d < 448 → gives .yield s fun t =>
    Changed (s.probing .fence 5) t fun c => (c.passed s []).fencing s .fence 5 (.leave d)))

/-- spawn with a join word, join, exit, go and msg.send (R308, R310, R311, R313, R314): what each sends or waits for. -/
def Obligations.ThreadInstructions : Prop := ∀ (s : State) (rd ra rb : Reg) (pa d : Nat) (tg : Target)
    (x : Option Nat), s.leads →
  let past : State := s.uncache (s.ctx s.me).core pa
  (s.issues [ra, rb, rd] [] → (s.src ra).toNat % 4 = 0 → (s.ctx s.me).claim = none → s.fillsOut s.me = false →
    s.dequeRoom (s.ctx s.me).core (s.ctx s.me).task (s.ctx s.me).fn = true →
    ((s.core (s.ctx s.me).core).deque (s.ctx s.me).task).chip.length + s.dequeHeld (s.ctx s.me).core (s.ctx s.me).task < 16 →
    s.src rb ≠ 0 → s.holder s.me pa 8 = none →
    s.reaches (s.src rb) 8 .write true pa tg x → gives (.spawn rd ra rb) s fun t =>
    Sent past t (s.asks x (.joinInc (s.src ra) (s.src rd)) (s.src rb) pa) none fun c =>
      (c.passed s [ra, rb, rd]).waits s 0) ∧
  (s.issues [ra] [] → s.holder s.me pa 8 = none → s.reaches (s.src ra) 8 .read true pa tg x → gives (.join ra) s fun t =>
    Sent past t (s.asks x .joinWait (s.src ra) pa) none fun c => (c.passed s [ra]).waits s 0) ∧
  (s.issues [ra, rb] [] → gives (.exit ra rb) s fun t => Changed (s.probing .fence 5) t fun c =>
    (c.passed s [ra, rb]).fencing s .fence 5 (.exitWait (s.src ra) (s.src rb))) ∧
  (s.issues [ra] [] → (s.ctx s.me).claim = none → s.reaches (s.src ra) 1 .read false pa tg x → s.goOwner tg = some d →
    gives (.go ra) s fun t =>
      if d = (s.ctx s.me).core then Changed s t fun c => c.passed s [ra]
      else if (s.spanCores (s.ctx s.me).task).contains d then
        Changed (s.probing .fence 5) t fun c => (c.passed s [ra]).fencing s .fence 5 (.leave d)
      else t = s.advance.raise 0x03 (s.src ra) 4) ∧
  (s.issues [ra, rb] [] → bit (s.src ra) 31 = false →
    s.partOf ((s.src ra).extractLsb' 4 12).toNat = some (s.ctx s.me).part → gives (.msgSend ra rb) s fun t =>
    let core := ((s.src ra).extractLsb' 4 12).toNat
    let m : Msg := { s.request s.me (.message ((s.src ra).extractLsb' 24 3).toNat (s.src rb) core
      ((s.src ra).extractLsb' 0 4).toNat) 0 (s.corePa 5 core 0) none with
        aux := word (s.ctx s.me).task, counted := true, id := s.nextMsg }
    Changed (s.tookNumber.probing .sfence m.scope) t fun c => (c.passed s [ra, rb]).fencing s .sfence m.scope (.send m false)) ∧
  (s.issues [ra, rb] [] → bit (s.src ra) 31 = true → (s.core (s.ctx s.me).core).msgBuf = [] →
    (∀ j < 8, s.whyEmpty s.me (.g (BitVec.ofNat 6 (j + 1))) ≠ some .fill) → gives (.msgSend ra rb) s fun t =>
    (∀ j < 8, t.whyEmpty s.me (.g (BitVec.ofNat 6 (j + 1))) =
      if bit (s.src ra) (16 + j) then some .armed else s.whyEmpty s.me (.g (BitVec.ofNat 6 (j + 1)))) ∧
    (∀ u r, t.peek u r = s.peek u r) ∧ t.mem = s.mem ∧ t.flights = s.flights)

/-! ### Engines and copies at their instructions -/

/-- eng.claim binds a free engine context, context 0 first, cleared, and gives its number; a thread that holds one
gets its number again (R131, R316); while its context is spilled, that number is a free value (log entry 52). eng.rel frees it once its work has ended (R317). The copy instructions put their
command at the end of the core's copy queue and make its tag busy (R318, R319); cp.wait reads the status of an ended
tag, or of all, frees it, and makes the core's data cache fresh (R321). -/
def Obligations.ClaimsAndCopies : Prop :=
  (∀ (s : State) (rd : Reg) (k : Nat), s.leads →
  let d := (s.ctx s.me).core
  (s.issues [] [rd] → (s.ctx s.me).claim = some (.bound k) → writes (.engClaim rd) s [] rd (word k)) ∧
  (s.issues [] [rd] → (s.ctx s.me).claim = none → (k = 0 ∨ k = 1 ∧ (s.core d).eng0.owner ≠ none) →
    ((s.core d).eng k).owner = none → gives (.engClaim rd) s fun t =>
      Wrote ((s.modEng d k fun _ => { Eng.reset with owner := some s.me }).modCtx s.me fun c => { c with claim := some (.bound k) })
        t [] rd (word k)) ∧
  (∀ r, s.issues [] [rd] → (s.ctx s.me).claim = some (.spilled r) → gives (.engClaim rd) s fun t =>
    Wrote { s with fresh := s.fresh + 1 } t [] rd (Config.freeValue s.fresh &&& 1)) ∧
  ((s.ctx s.me).claim = none → changes .engRel s fun c => c.passed s []) ∧
  ((s.ctx s.me).claim = some (.bound k) → (s.core d).engineWork s.me = false → ((s.core d).cq.any fun x => x.tid = s.me) = false →
    gives .engRel s fun t => (t.ctx s.me).claim = none ∧ (t.ctx s.me).pc = s.iss.next ∧ (t.ctx s.me).regs = (s.ctx s.me).regs ∧
      t.mem = s.mem ∧ t.flights = s.flights)) ∧
  (∀ (s : State) (rd ra rb : Reg) (k : Nat), s.leads →
  (s.ctx s.me).claim = some (.bound k) →
  let d := (s.ctx s.me).core
  let tag := ((s.src rd).extractLsb' 0 4).toNat
  let queues (i : Instr) (srcs : List Reg) (kind : CopyKind) (cell : Option Word) : Prop := s.issues srcs [] →
    ((s.core d).cq.any fun x => x.tid = s.me && x.tag = tag) = false → gives i s fun t =>
      Changed ((s.modEng d k fun e => { e with tags := e.tags.put tag .busy }).modCore d fun c =>
        { c with cq := c.cq ++ [⟨kind, k, s.me, tag, s.src ra, cell, none, 0, 0, none, none⟩] }) t fun c => c.passed s srcs
  let cell : Option Word := if rb = .g 0 then none else some (s.src rb)
  queues (.cp1d rd ra rb) [ra, rb, rd] .d1 cell ∧ queues (.cp2d rd ra rb) [ra, rb, rd] .d2 cell ∧
  queues (.cpGather rd ra rb) [ra, rb, rd] .gather cell ∧ queues (.cpScatter rd ra rb) [ra, rb, rd] .scatter cell ∧
  queues (.cpLink rd ra) [ra, rd] .link none ∧
  (s.issues [ra] [rd] → ((s.core d).cq.any fun x => x.tid = s.me) = false → gives (.cpWait rd ra) s fun t =>
    let w := s.src ra
    let one := (w.extractLsb' 0 4).toNat
    let tags := ((s.core d).eng k).tags
    if bit w 4 then
      Wrote ((s.modEng d k fun e => { e with tags := [] }).invalidateCache d) t [ra] rd
        ((((List.range 16).map fun j => tagStatus (tags.look j)).find? fun (v : Word) => v ≠ 63 && fld v 0 6 ≠ 0).getD 0)
    else
      Wrote ((s.modEng d k fun e => { e with tags := e.tags.del one }).invalidateCache d) t [ra] rd (tagStatus (tags.look one))))

/-- What an engine instruction of unit `unit` (0 matrix, 1 vector) that reads `srcs`, `x` among them, does at its issue:
with a claim and a legal shape it enters its queue with what it read, and a store counts until it is written (R132,
R182, R332). -/
def queuesEngine (s : State) (k unit : Nat) (i : Instr) (srcs : List Reg) (x : Word) (dst : Option Reg) : Prop :=
  s.issues srcs dst.toList → engineOk i s.opCtx.vshape x = true → gives i s fun t =>
    let c := s.ctx s.me
    let e : QEntry := ⟨s.nextMsg, i, k, s.me, c.slotNo, c.part, c.fn, c.asid, s.iss.w, s.iss.word, x, c.vshape,
      [c.fmt0, c.fmt1, c.fmt2, c.fmt3], 0, c.issued⟩
    Parked ({ s with nextMsg := s.nextMsg + 1 }.modCore c.core fun q => q.setQueue unit (q.queue unit ++ [e])) t dst fun c =>
      if engineWrites i then (c.passed s srcs).counted 1 else c.passed s srcs

/-- The vector instructions at their issue (R332, R343–R346). The phasor and quantisation instructions at their issue
(R332, R348–R352). The matrix instructions at their issue (R332, R336–R341): tdesc.rd empties its g register for the
value. -/
def Obligations.EngineInstructions : Prop :=
  (∀ (s : State) (k : Nat) (rm : Rm) (vd va vb : BitVec 4) (rs : BitVec 6), s.leads →
  (s.ctx s.me).claim = some (.bound k) →
  let plain (i : Instr) : Prop := queuesEngine s k 1 i [] 0 none
  let withRs (i : Instr) : Prop := queuesEngine s k 1 i [.g rs] (s.src (.g rs)) none
  plain (.vadd rm vd va vb) ∧ plain (.vsub rm vd va vb) ∧ plain (.vmul rm vd va vb) ∧ plain (.vfma rm vd va vb) ∧
  plain (.vmin vd va vb) ∧ plain (.vmax vd va vb) ∧ plain (.vabs vd va) ∧ plain (.vneg vd va) ∧
  plain (.vand vd va vb) ∧ plain (.vor vd va vb) ∧ plain (.vxor vd va vb) ∧ withRs (.vshl vd va rs) ∧
  withRs (.vshr vd va rs) ∧ withRs (.vcvt rm vd va rs) ∧ withRs (.vcmp vd va vb rs) ∧ plain (.vsel vd va vb) ∧
  withRs (.vbcast vd rs) ∧ withRs (.vld vd rs) ∧ withRs (.vst va rs) ∧ plain (.vsum rm vd va) ∧ plain (.vrmax vd va) ∧
  plain (.vshuf vd va vb) ∧ plain (.vpack rm vd va vb) ∧ withRs (.vunpack vd va rs) ∧ withRs (.viota vd rs) ∧
  plain (.vmov vd va)) ∧
  (∀ (s : State) (k : Nat) (rm : Rm) (cv : Cvk) (vd va vb : BitVec 4)
    (rs : BitVec 6), s.leads → (s.ctx s.me).claim = some (.bound k) →
  let plain (i : Instr) : Prop := queuesEngine s k 1 i [] 0 none
  let withRs (i : Instr) : Prop := queuesEngine s k 1 i [.g rs] (s.src (.g rs)) none
  plain (.phCvt cv vd va) ∧ plain (.phMul vd va vb) ∧ withRs (.phRed vd va rs) ∧ plain (.phCmp vd va vb) ∧
  plain (.phCos vd va) ∧ plain (.phSin vd va) ∧ withRs (.qhist vd va rs) ∧ withRs (.qclip vd va rs) ∧
  withRs (.qnt rm vd va vb rs) ∧ withRs (.dq vd va rs)) ∧
  (∀ (s : State) (k : Nat) (ty : MmaTy) (pt : PmmTy) (ct : CvtTy)
    (ka kb ad : BitVec 2) (ta tb : BitVec 3) (rs : BitVec 6), s.leads → (s.ctx s.me).claim = some (.bound k) →
  let plain (i : Instr) : Prop := queuesEngine s k 0 i [] 0 none
  let withRs (i : Instr) : Prop := queuesEngine s k 0 i [.g rs] (s.src (.g rs)) none
  withRs (.mma ty ka kb ad ta tb rs) ∧ plain (.pmm pt ad ta tb) ∧ withRs (.tld ta rs) ∧ withRs (.tst ta rs) ∧
  withRs (.tdescWr ta rs) ∧ queuesEngine s k 0 (.tdescRd ta rs) [] 0 (some (.g rs)) ∧ plain (.accZero ad) ∧
  withRs (.accSt ad rs) ∧ withRs (.accLd ad rs) ∧ withRs (.accCvt ct ka ad ta rs) ∧ withRs (.srSeed rs))

/-- The special functions (R133, R347): the low 32 bits of ra go to the cluster's unit, and the thread parks until rd
is filled. The special cases of their results (R199), and exact ones: reciprocals, roots and logarithms of powers of two,
powers of two with whole exponents, sines and cosines at whole and half arguments. -/
def Obligations.SpecialFunctions : Prop :=
  (∀ (s : State) (rd ra : Reg), s.leads → s.issues [ra] [rd] →
  let asks (i : Instr) (f : Nat) : Prop := gives i s fun t =>
    Sent s t { s.request s.me (.sfu f ((s.src ra).setWidth 32)) 0 0 none with loc := .home, dst := some rd } (some rd) fun c =>
      (c.passed s [ra]).asked s
  asks (.sfRcp rd ra) 0 ∧ asks (.sfSqrt rd ra) 1 ∧ asks (.sfRsqrt rd ra) 2 ∧ asks (.sfExp2 rd ra) 3 ∧ asks (.sfLog2 rd ra) 4 ∧
  asks (.sfSinpi rd ra) 5 ∧ asks (.sfCospi rd ra) 6) ∧
  (let inf : BitVec 32 := 0x7F800000
   let nan : BitVec 32 := 0x7FC00000
   let minus : BitVec 32 := 0x80000000
   let pow (neg : Bool) (k : Nat) : BitVec 32 := (if neg then minus else 0) + BitVec.ofNat 32 ((127 + k) * 2 ^ 23)
   let small (neg : Bool) (k : Nat) : BitVec 32 := (if neg then minus else 0) + BitVec.ofNat 32 ((127 - k) * 2 ^ 23)
   (∀ fn x, IFmt.f32.nanCode x.toNat = true → sfEval fn x = nan) ∧
   (∀ x, IFmt.f32.finite x.toNat = true → x.toNat % 2 ^ 31 ≠ 0 → x.getLsbD 31 = true →
     sfEval 1 x = nan ∧ sfEval 2 x = nan ∧ sfEval 4 x = nan) ∧
   [sfEval 0 0, sfEval 0 minus, sfEval 0 inf, sfEval 0 (minus + inf)] = [inf, minus + inf, 0, minus] ∧
   [sfEval 1 0, sfEval 1 minus, sfEval 1 inf, sfEval 1 (minus + inf)] = [0, minus, inf, nan] ∧
   [sfEval 2 0, sfEval 2 minus, sfEval 2 inf, sfEval 2 (minus + inf)] = [inf, minus + inf, 0, nan] ∧
   [sfEval 3 0, sfEval 3 minus, sfEval 3 inf, sfEval 3 (minus + inf)] = [pow false 0, pow false 0, inf, 0] ∧
   [sfEval 4 0, sfEval 4 minus, sfEval 4 inf, sfEval 4 (minus + inf)] = [minus + inf, minus + inf, inf, nan] ∧
   [sfEval 5 0, sfEval 5 minus, sfEval 5 inf, sfEval 5 (minus + inf)] = [0, minus, nan, nan] ∧
   [sfEval 6 0, sfEval 6 minus, sfEval 6 inf, sfEval 6 (minus + inf)] = [pow false 0, pow false 0, nan, nan] ∧
   (∀ neg k, k ≤ 126 → sfEval 0 (pow neg k) = small neg k ∧ sfEval 0 (small neg k) = pow neg k) ∧
   (∀ k ≤ 63, sfEval 1 (pow false (2 * k)) = pow false k ∧ sfEval 1 (small false (2 * k)) = small false k ∧
     sfEval 2 (pow false (2 * k)) = small false k ∧ sfEval 2 (small false (2 * k)) = pow false k) ∧
   -- the exponents 1, 2, 4, 8, 16, 32 and 64, and their negatives
   (∀ k ≤ 6, sfEval 3 (pow false k) = pow false (2 ^ k) ∧ sfEval 3 (pow true k) = small false (2 ^ k) ∧
     sfEval 4 (pow false (2 ^ k)) = pow false k ∧ sfEval 4 (small false (2 ^ k)) = pow true k) ∧
   sfEval 4 (pow false 0) = 0 ∧
   -- sin π and cos π at 1/2, 1, 3/2 and 2, and at their negatives
   [0x3F000000, 0x3F800000, 0x3FC00000, 0x40000000].map (sfEval 5) = [pow false 0, 0, pow true 0, 0] ∧
   [0xBF000000, 0xBF800000, 0xBFC00000, 0xC0000000].map (sfEval 5) = [pow true 0, minus, pow false 0, minus] ∧
   [0x3F000000, 0x3F800000, 0x3FC00000, 0x40000000].map (sfEval 6) = [0, pow true 0, 0, pow false 0] ∧
   [0xBF000000, 0xBF800000, 0xBFC00000, 0xC0000000].map (sfEval 6) = [0, pow true 0, 0, pow false 0])

/-! ### System instructions -/

/-- ctl.rd (R266–R268): what each control register reads as, the formats by their number. ctl.wr (R140, R267): what a
write of each control register changes, at the levels that may make it. -/
def Obligations.ControlRegisters : Prop :=
  (∀ (s : State) (rd : Reg), s.issues [] [rd] →
  let out (c : CtlReg) (v : Word) : Prop := writes (.ctlRd rd c) s [] rd v
  let c := s.opCtx
  out .status (c.trapf ++ 0#3 ++ BitVec.ofNat 12 c.core ++ BitVec.ofNat 4 c.slotNo ++ BitVec.ofNat 4 c.part ++
    BitVec.ofNat 11 c.fn ++ 0#9 ++ c.skip ++ c.lvl.code) ∧
  out .seg c.seg ∧ out .tvec c.tvec ∧ out .tdeleg c.tdeleg ∧ out .tinfo c.tinfo ∧ out .taddr c.taddr ∧
  out .time (word (s.ctlTime s.me)) ∧ out .wall (word s.wall) ∧ out (.fmt 0) (c.fmt0.setWidth 64) ∧
  out (.fmt 1) (c.fmt1.setWidth 64) ∧ out (.fmt 2) (c.fmt2.setWidth 64) ∧ out (.fmt 3) (c.fmt3.setWidth 64) ∧
  out .scl c.scl ∧ out .vshape c.vshape ∧ out .asid (c.asid.setWidth 64) ∧ out .skid c.skid) ∧
  (∀ (s : State) (ra : Reg), s.leads → s.issues [ra] [] →
  let v := s.src ra
  let out (c : CtlReg) (f : Ctx → Ctx) : Prop := changes (.ctlWr c ra) s fun k => f (k.passed s [ra])
  out .status id ∧ out .time id ∧ out .wall id ∧ out .skid id ∧
  out .tvec (fun k => { k with tvec := v &&& ~~~3#64 }) ∧
  out .tdeleg (fun k => { k with tdeleg := v &&& 0x3EFFFE#64 }) ∧
  out .tinfo (fun k => { k with tinfo := v }) ∧ out .taddr (fun k => { k with taddr := v }) ∧
  out (.fmt 0) (fun k => { k with fmt0 := v.setWidth 16 }) ∧ out (.fmt 1) (fun k => { k with fmt1 := v.setWidth 16 }) ∧
  out (.fmt 2) (fun k => { k with fmt2 := v.setWidth 16 }) ∧ out (.fmt 3) (fun k => { k with fmt3 := v.setWidth 16 }) ∧
  out .scl (fun k => { k with scl := v }) ∧ out .vshape (fun k => { k with vshape := v }) ∧
  ((s.ctx s.me).lvl ≠ .u → (v.extractLsb' 8 6).toNat + (v.extractLsb' 20 7).toNat ≤ 64 →
    out .seg fun k => { k with seg := v &&& 0xFFFFFF0007F03F00#64 }) ∧
  ((s.ctx s.me).lvl = .f → out .asid fun k => { k with asid := v.setWidth 10 }))

/-- The privileged writes and forms below their level take the privilege fault in stage IS, whatever their operands, with
nothing else done (R9, R206, R249, R267, R271, R325). eret in a delegated handler (R207, R270): back to the address in ctl.tvec with the saved skip
count, INTRAP clear; the address of the eret left in ctl.tvec is the model's reading (log entry 16). Elsewhere it is
an illegal instruction. sys hands a service message with g1 to g4 to the partition's mailbox and parks the thread until an
eretx names it (R269), and parks for an empty one of the four (R127); halt parks it until a message or a trap wakes it
(R279). -/
def Obligations.SystemInstructions : Prop :=
  (∀ (s : State) (rd ra rb : Reg) (c : CtlReg),
  let trap : Host.Outcome State Fault Refusal := .next s.privilege
  ((s.ctx s.me).lvl = .u → exec (.ctlWr .seg ra) s = trap ∧ exec (.ctlRdx rd c rb) s = trap ∧ exec (.ctlWrx c ra rb) s = trap ∧
    exec (.eretx rd ra rb) s = trap ∧ exec (.step rd ra rb) s = trap ∧ exec (.partPost rd ra rb) s = trap) ∧
  ((s.ctx s.me).lvl ≠ .f → exec (.ctlWr .asid ra) s = trap)) ∧
  (∀ (s : State), s.leads →
  ((s.ctx s.me).intrap = true → changes .eret s fun c =>
    { c with pc := c.tvec, park := .none, tvec := s.iss.w &&& ~~~3#64, skip := c.trapf.extractLsb' 3 2,
             trapf := c.trapf &&& ~~~0x20#17 }) ∧
  ((s.ctx s.me).intrap = false → exec .eret s = .next s.advance.illegal)) ∧
  (∀ (s : State) (imm : BitVec 13), s.leads →
  (s.issues [.g 1, .g 2, .g 3, .g 4] [] → gives (.sys imm) s fun t =>
    let c := s.ctx s.me
    let d := word (c.core * 2 ^ 32 + c.slotNo * 2 ^ 28 + c.asid.toNat * 2 ^ 16 + c.fn % 2 ^ 11)
    t = { s with
      ctxs := s.ctxs.put s.me { (s.ctx s.me).passed s [] with park := .sys }
      parts := s.parts.put (s.ctx s.me).part { s.partition (s.ctx s.me).part with
        mail := (s.partition (s.ctx s.me).part).mail ++ [⟨d, s.iss.w, s.src (.g 1), imm.setWidth 64, word s.wall, s.src (.g 2), s.src (.g 3), s.src (.g 4)⟩] }
      iss := { s.iss with res := .done } }) ∧
  (∀ k < 4, (∀ j < k, s.srcEmpty (.g (BitVec.ofNat 6 (j + 1))) = none) → s.srcEmpty (.g (BitVec.ofNat 6 (k + 1))) = some .fill →
    gives (.sys imm) s fun t => t = { s with
      ctxs := s.ctxs.put s.me { s.ctx s.me with park := .reg (k + 1), pc := s.iss.pc }
      iss := { s.iss with res := .parked } }) ∧
  changes .halt s fun c => { c.passed s [] with park := .halted })

/-- tlb.inv (R69, R274): every entry of the ASID that overlaps the range leaves the TLBs of the partition, and the
thread waits for the accesses in flight through them: among these every request of the ASID for the range that has not been
performed, in flight or held back by its instruction, and none of another ASID; with none it goes on. That it acts at its issue
is the model's reading (log entry 26). Watchpoints (R212, R277): wp.set arms watchpoint [1:0] of the own cluster on a word of its
memories, or disarms it where it names no class of access; at level U not one with the stop action, nor over another
address space's. wp.clr disarms it. -/
def Obligations.TlbAndWatchpoints : Prop :=
  (∀ (s : State) (ra rb : Reg), s.leads → s.issues [ra, rb] [] →
  gives (.tlbInv ra rb) s fun t => ∃ ms ds,
    let c := s.ctx s.me
    let first := (s.src ra).toNat / 4096
    let n := (s.src rb).toNat
    let all : Bool := n = 0 || 2 ^ 36 < n
    let known := s.flights ++ s.advance.unsent
    let pending (m : Msg) : Prop := m.asid = c.asid.toNat ∧ m.op.translated = true ∧ m.answered = false ∧ m.loc ≠ .lost
    Changed (s.dropTlb c.part fun e => e.asid = c.asid.toNat &&
      (all || e.vpage < first + n && first < e.vpage + e.pages)) t (fun c =>
        { c.passed s [ra, rb] with park := if ms = [] ∧ ds = [] then .none else .inval ms ds }) ∧
    (∀ m ∈ known, pending m → (all = true ∨ first ≤ m.va.toNat / 4096 ∧ m.va.toNat / 4096 < first + n) → m.id ∈ ms) ∧
    (∀ k ∈ ms, ∃ m ∈ known, m.id = k ∧ pending m) ∧
    (∀ e ∈ ds, ∃ k ∈ s.cores, k.1 = e.1 ∧ e.2 ∈ k.2.delayed)) ∧
  (∀ (s : State) (ra rb : Reg) (pa : Nat) (tg : Target) (x : Option Nat), s.leads →
  let cl := s.clusterOf (s.ctx s.me).core
  let w := s.src rb
  let wp := (w.extractLsb' 0 2).toNat
  let c := s.ctx s.me
  let own : Prop := c.lvl = .u → ∀ e, (s.cluster cl).wps.look wp = some e → e.stopAct = false ∧ e.asid = c.asid.toNat
  let disarms (i : Instr) (k : Nat) (srcs : List Reg) : Prop := gives i s fun t =>
    Changed (s.modCluster cl fun x => { x with wps := x.wps.del k }) t fun c => c.passed s srcs
  (s.issues [ra, rb] [] → own → (c.lvl = .u → w.getLsbD 8 = false) → s.reaches (s.src ra) 8 .read false pa tg x →
    s.watchCluster pa = some cl → s.violation ⟨c.fn, c.part, c.lvl⟩ pa 8 = 0 →
    (w.extractLsb' 2 3 ≠ 0 → gives (.wpSet ra rb) s fun t =>
      Changed (s.modCluster cl fun x => { x with wps := x.wps.put wp ⟨pa, s.src ra, c.asid.toNat, c.fn, c.lvl, c.part,
        w.getLsbD 2, w.getLsbD 3, w.getLsbD 4, w.getLsbD 8⟩ }) t fun c => c.passed s [ra, rb]) ∧
    (w.extractLsb' 2 3 = 0 → disarms (.wpSet ra rb) wp [ra, rb])) ∧
  (s.issues [ra, rb] [] → c.lvl = .u → (w.getLsbD 8 = true ∨ ¬ own) → exec (.wpSet ra rb) s = .next s.advance.privilege) ∧
  (s.issues [ra] [] → (c.lvl = .u → ∀ e, (s.cluster cl).wps.look ((s.src ra).extractLsb' 0 2).toNat = some e →
    e.stopAct = false ∧ e.asid = c.asid.toNat) → disarms (.wpClr ra) ((s.src ra).extractLsb' 0 2).toNat [ra]))

/-- The instructions that act on another thread, at a level that may use them (R271–R273, R276): ctl.rdx, ctl.wrx,
eretx and step on a target of the own partition, held or frozen, or not, or not there; step with a count of 0 releases the
target's cluster (R215). That they act at their issue and the reply follows is the model's reading (log entry 26). -/
def Obligations.ActingOnAnotherThread : Prop := ∀ (s : State) (rd ra rb : Reg) (c : CtlReg), s.leads →
  (s.ctx s.me).lvl ≠ .u →
  let core := ((s.src rb).extractLsb' 4 12).toNat
  let slot := ((s.src rb).extractLsb' 0 4).toNat
  s.partOf core = some (s.ctx s.me).part →
  let asks (s1 t : State) (v : Word) (dst : Option Reg) (srcs : List Reg) : Prop :=
    Sent s1 t (s1.replyMsg v dst) dst fun c => (c.passed s srcs).asked s
  (∀ u, s.advance.named core slot = some u → u ≠ s.me →
    (s.issues [rb] [rd] → (s.ctx u).held = true → gives (.ctlRdx rd c rb) s fun t =>
      asks s t (s.ctlRead u (s.ctx u) c) (some rd) [rb]) ∧
    (∀ k, s.issues [ra, rb] [] → (s.ctx u).held = true → (s.ctx u).ctlWrite .s c (s.src ra) = .done k →
      gives (.ctlWrx c ra rb) s fun t => asks (s.setCtx u k) t 0 none [ra, rb]) ∧
    (s.issues [ra, rb] [rd] → ((s.ctx u).park = .sys ∨ (s.ctx u).park = .halted) → gives (.eretx rd ra rb) s fun t =>
      asks ((s.fillReg u (.g 1) (s.src ra)).modCtx u fun c => { c with park := .none }) t 0 (some rd) [ra, rb]) ∧
    (s.issues [ra, rb] [rd] → (s.ctx u).park = .trapped → (s.src ra).toNat % 4 = 0 → gives (.eretx rd ra rb) s fun t =>
      asks (s.modCtx u fun c => if s.src ra = 0 then { c with park := .none }
        else { c with park := .none, pc := s.src ra, skip := 0 }) t 0 (some rd) [ra, rb]) ∧
    (s.issues [ra, rb] [rd] → s.src ra ≠ 0 → (s.ctx u).frozen = true → (s.ctx u).stepLeft = none → gives (.step rd ra rb) s fun t =>
      let s1 := (s.resumeLimits u).modCtx u fun c =>
        { c with stepLeft := some (min 4095 (s.src ra).toNat), stepper := some s.nextMsg }
      Sent s1 t { s1.request s.me .none 0 0 none with loc := .home, dst := some rd } (some rd) fun c => (c.passed s [ra, rb]).asked s)) ∧
  ((∀ u, s.advance.named core slot = some u → (s.advance.ctx u).held = false) →
    (s.issues [rb] [rd] → gives (.ctlRdx rd c rb) s fun t => asks s t 0 (some rd) [rb]) ∧
    (s.issues [ra, rb] [] → gives (.ctlWrx c ra rb) s fun t => asks s t 0 none [ra, rb]) ∧
    (s.issues [ra, rb] [rd] → gives (.eretx rd ra rb) s fun t => asks s t 1 (some rd) [ra, rb])) ∧
  (s.issues [ra, rb] [rd] → s.src ra ≠ 0 → (∀ u, s.advance.named core slot = some u → (s.ctx u).frozen = false) →
    writes (.step rd ra rb) s [ra, rb] rd 1) ∧
  (s.issues [ra, rb] [rd] → s.src ra = 0 → gives (.step rd ra rb) s fun t =>
    let cores := (List.range 8).map (s.clusterCore (s.clusterOf core))
    Wrote (cores.foldl (fun s d => s.modCore d fun c => { c with release := true }) s) t [ra, rb] rd 0)

/-! ### Pipelines, deadlines and digests at their instructions -/

/-- pl.bind, pl.query, pl.detach and pl.end (R322–R324, R356). part.query reads the report of a queue, of the own
function at level U (R326); part.post posts a deadline, which takes the first free entry with ORIGIN 1 and runs its first tick
(with no unit in its interval it is vacant at once), reopens a vacant entry, or refuses with 1, 2 or 3 (R113, R119, R325); dg.fold sends one line to the digest engine
(R327); dg.close writes the next entry of the audit log, with its digest, and starts afresh (R58, R328). That pl.query, pl.detach and part.post act at their issue, and pl.end at its own marks the pipeline, is the
model's reading (log entry 26). -/
def Obligations.PipelinesDeadlinesAndDigests : Prop :=
  (∀ (s : State) (rd ra rb : Reg) (k : Nat) (x : Pipe), s.leads →
  let asks (s1 t : State) (v : Word) (srcs : List Reg) : Prop :=
    Sent s1 t (s1.replyMsg v (some rd)) (some rd) fun c => (c.passed s srcs).asked s
  let p := (s.ctx s.me).part
  (s.issues [ra] [rd] → gives (.plBind rd ra) s fun t =>
    Parked (s.tookNumber.probing .fence 4) t (some rd) fun c => (c.passed s [ra]).fencing s .fence 4
      (.send { s.request s.me (.bind (s.src ra) none) (s.src ra) 0 (some rd) with loc := .home, id := s.nextMsg } true)) ∧
  (s.issues [ra, rb] [rd] → s.pipeOf (s.src ra) = some (k, x) → gives (.plQuery rd ra rb) s fun t =>
    asks s t (if s.src rb = 0 then word (x.nstg * 2 ^ 24 + x.readCur * 2 ^ 16 + x.depth * 2 ^ 8 + (if x.st = .bound then 0 else 1))
      else if s.src rb = 1 then x.readRingVa ||| word (x.readCur + 1) else 0) [ra, rb]) ∧
  (s.issues [ra] [rd] → s.pipeOf (s.src ra) = none →
    gives (.plDetach rd ra) s (fun t => asks s t 1 [ra]) ∧ gives (.plEnd rd ra) s fun t => asks s t 1 [ra]) ∧
  (s.issues [ra] [rd] → s.pipeOf (s.src ra) = some (k, x) → x.st = .bound →
    s.drained { x with st := .draining (word (s.ringPub x.ownRing)) } = false → gives (.plDetach rd ra) s fun t =>
    asks (s.modPipe p k fun x => { x with st := .draining (word (s.ringPub x.ownRing)) }) t 0 [ra]) ∧
  (s.issues [ra] [rd] → s.pipeOf (s.src ra) = some (k, x) → gives (.plEnd rd ra) s fun t =>
    Sent (s.modPipe p k fun x => { x with st := .ending s.nextMsg }) t
      { s.request s.me .none 0 0 none with loc := .home, dst := some rd } (some rd) fun c => (c.passed s [ra]).asked s)) ∧
  (∀ (s : State) (rd ra rb : Reg) (pa : Nat) (tg : Target) (x : Option Nat), s.leads →
  let asks (s1 t : State) (v : Word) (srcs : List Reg) (f : Ctx → Ctx) : Prop :=
    Sent s1 t (s1.replyMsg v (some rd)) (some rd) fun c => f ((c.passed s srcs).asked s)
  let c := s.ctx s.me
  let p := s.partition c.part
  (s.issues [ra, rb] [rd] → gives (.partQuery rd ra rb) s fun t =>
    let fn := if c.lvl = .u then c.fn else ((s.src ra).extractLsb' 8 11).toNat
    let v : Word := match p.reports.look (fn * 64 + ((s.src ra).extractLsb' 0 6).toNat) with
      | some x => if s.src rb = 0 then word ((if x.origin then 256 else 0) + x.entry * 16 + x.out)
          else if s.src rb = 1 then word x.decided else 0
      | none => 0
    asks s t v [ra, rb] id) ∧
  (s.issues [ra, rb] [rd] → c.lvl ≠ .u → bit (s.src ra) 63 = true →
    let e := ((s.src ra).extractLsb' 0 2).toNat
    let d := s.deadlineOf c.part e
    (d.v = true ∧ d.vacant = true ∧ d.origin = true → gives (.partPost rd ra rb) s fun t =>
      ∃ s2, s2 = s.advance.reopen c.part e ∧ t = (s2.unitReply rd 0).takeLink [ra, rb]) ∧
    (¬ (d.v = true ∧ d.vacant = true ∧ d.origin = true) → gives (.partPost rd ra rb) s fun t =>
      asks s t (word (2 ^ 63 + 3)) [ra, rb] id)) ∧
  (s.issues [ra, rb] [rd] → c.lvl ≠ .u → bit (s.src ra) 63 = false →
    let base := ((s.src ra).extractLsb' 16 12).toNat
    let len := ((s.src ra).extractLsb' 32 13).toNat
    let time := (s.src rb).toNat
    let lies : Prop := 1 ≤ len ∧ len ≤ 4096 ∧ p.base ≤ base ∧ base + len ≤ p.base + p.len
    let clash : Prop := ∃ e < 4, (s.deadlineOf c.part e).v = true ∧ (s.deadlineOf c.part e).base < base + len ∧
      base < (s.deadlineOf c.part e).base + (s.deadlineOf c.part e).len
    let takes (k : Nat) : Prop := k < 4 ∧ (s.deadlineOf c.part k).v = false ∧ ∀ e < k, (s.deadlineOf c.part e).v = true
    (¬ lies → gives (.partPost rd ra rb) s fun t => asks s t (word (2 ^ 63 + 2)) [ra, rb] id) ∧
    (lies → clash ∨ (∀ e < 4, (s.deadlineOf c.part e).v = true) → gives (.partPost rd ra rb) s fun t =>
      asks s t (word (2 ^ 63 + 1)) [ra, rb] id) ∧
    (∀ k, lies → ¬ clash → takes k → s.unitsOf c.part base len = [] → s.wall + 32 < time → gives (.partPost rd ra rb) s fun t =>
      ∃ s2, t.deadlineOf c.part k = ⟨true, true, true, base, len, time, [], none, some s.wall, false⟩ ∧
        (∀ e, e ≠ k → t.deadlineOf c.part e = s.deadlineOf c.part e) ∧
        Sent s s2 (s.replyMsg (word k) (some rd)) (some rd) (fun c => (c.passed s [ra, rb]).asked s) ∧
        { t with parts := s.parts } = { s2 with parts := s.parts }) ∧
    (∀ k, lies → ¬ clash → takes k → gives (.partPost rd ra rb) s fun t =>
      t = ((s.advance.unitReply rd (word k)).accept c.part k base len time true none).takeLink [ra, rb])) ∧
  (s.issues [ra] [] → s.reaches (s.src ra &&& ~~~63#64) 64 .read false pa tg x → gives (.dgFold ra) s fun t =>
    Sent s t (s.asks x .fold (s.src ra &&& ~~~63#64) pa) none fun c => (c.passed s [ra]).asked s) ∧
  (s.issues [] [rd] → p.audEntries ≤ p.audN → gives (.dgClose rd) s fun t => t = s.advance.raise 0x03 0 5) ∧
  (s.issues [] [rd] → p.audN < p.audEntries → gives (.dgClose rd) s fun t =>
    let n := p.audN + 1
    let e := auditEntry n s.wall c.core c.slotNo c.asid.toNat (shaClose c.sha c.folded [])
    let s2 := ((s.zeroFirst (p.audAt + 64 * p.audN) 64).homeWrite none (p.audAt + 64 * p.audN) 64 (bytesNat e)).modPart c.part fun x =>
      { x with audN := n, audH := sha256 (beBytes p.audH.toNat 32 ++ e) }
    asks s2 t (word n) [] fun c => { c with sha := (Ctx.cleared c.place).sha, folded := 0 }))

/-! ### The fabric and the home agents -/

/-- Routers (R21–R24, R26, R27, R29): a packet whose header fails its CRC or names no class is dropped whole and logged; the
flits of a good one enter by the input of the router's own core, where a buffer is free to each. In its virtual network's turn for
the output link a flit takes one hop, the header to the next router and a body flit into the buffer that the flit before it took;
an escape flit leaves 15 slots in 16 of the link to others. At its last router the packet's flits leave one by one, and the
packet has left the grid with the last. The oldest blocked packet that has waited longer than the escape timeout moves to the
escape network, an earlier one not. A hop is minimal: it lowers the distance to the destination by one; on the escape network X
comes first (R27, R29). -/
def Obligations.RoutersAndHops : Prop :=
  (∀ (s : State) (id : Nat) (m : Msg) (hdr : BitVec 96) (x y : Nat), s.msg id = some m → m.router = some (x, y) →
  let crcOk : Prop := crc16 (hdr.setWidth 80) = hdr.extractLsb' 80 16
  let classOk : Prop := (hdr.extractLsb' 35 3).toNat ≤ 4
  let out (t : State) : Prop := exec (.routerPacketReceive id hdr) s = .next t
  let turn (e : Flit) (q : Nat) : Nat := (q + 31 - (s.served.look (linkNo (e.x, e.y) e.port)).getD 15) % 16
  let first (e : Flit) : Prop := ∀ o ∈ s.flights, ∀ f ∈ s.readyFlits o, (f.2.x, f.2.y, f.2.port) = (e.x, e.y, e.port) →
    turn e m.part ≤ turn e o.part
  let hops (e : Flit) (n : Msg) : Prop := out { (s.corrects 6 m.id).setMsg n with
    served := s.served.put (linkNo (e.x, e.y) e.port) m.part
    escFrom := if e.esc then s.escFrom.put (linkNo (e.x, e.y) e.port) (s.wall + 8) else s.escFrom }
  (¬ crcOk → out ((s.setMsg { m with loc := .lost, held := [], track := [] }).logFabric hdr x y m.port 1)) ∧
  (crcOk → ¬ classOk → out ((s.setMsg { m with loc := .lost, held := [], track := [] }).logFabric hdr x y m.port 2)) ∧
  (crcOk → classOk →
    (∀ g, s.leaveGrid m (x, y) = some g → m.len < m.entered → m.held.length ≤ 1 → out (s.moveLast g)) ∧
    (∀ g a b l, s.leaveGrid m (x, y) = some g → m.held = a :: b :: l → b.x = x → b.y = y → out (s.setMsg { m with held := a :: l })) ∧
    (s.leaveGrid m (x, y) = none →
      (m.held = [] → m.track = [] → m.entered = 0 → m.esc = false →
        (s.freeBufs (x, y) 4 m.part m.cls = 0 → out s) ∧
        (0 < s.freeBufs (x, y) 4 m.part m.cls → out (s.setMsg { m with
          held := [⟨x, y, 4, false⟩], track := [⟨x, y, 4, false⟩], entered := 1 }))) ∧
      (∀ a l x' y' p, m.held = a :: l → s.hop m (x, y) (s.goal m (x, y)) = some ((x', y'), p) →
        let e : Flit := ⟨x', y', p, m.esc⟩
        first e → hops e { m with
          loc := (match m.loc with
            | .back r => .back r
            | _ => .grid x' y')
          ret := (match m.loc with
            | .back _ => some (.router x' y')
            | _ => m.ret)
          port := p, since := s.wall, held := e :: l, track := e :: m.track }) ∧
      (∀ a b e l, m.held = [a, b] → m.track = e :: b :: l → e ≠ b → e.esc = false → 0 < s.freeBufs (e.x, e.y) e.port m.part m.cls →
        s.hop m (x, y) (s.goal m (x, y)) = none → first e → hops e { m with held := [a, e] }) ∧
      (m.len < m.entered → (∀ f ∈ s.readyFlits m, ¬ first f.2) → out s))) ∧
  (m.esc = false → m.held ≠ [] → s.leaveGrid m (x, y) = none → s.hop m (x, y) (s.goal m (x, y)) = none →
    (∀ o ∈ s.flights, o.router = some (x, y) → o.esc = false → s.stuck o = true → m.since ≤ o.since) →
    exec (.escapeTimeout id) s =
      .next (if s.esct < s.wall - m.since then s.setMsg { m with esc := true, since := s.wall } else s))) ∧
  (∀ (s : State) (m : Msg) (x y dx dy x' y' p : Nat),
  s.hop m (x, y) (dx, dy) = some ((x', y'), p) →
  ((x' : Int) - dx).natAbs + ((y' : Int) - dy).natAbs + 1 = ((x : Int) - dx).natAbs + ((y : Int) - dy).natAbs ∧
  (m.esc = true → x ≠ dx → y' = y))

/-- Switches (R30, R31, R33): a request that meets no other of its partition for its address and none of its input for its
doubleword goes on; two fetch-and-adds of one word combine, the first carrying both addends; on the way back, at that
switch, the second receives the value that it would have read after the first. -/
def Obligations.CombiningFetchAndAdds : Prop := ∀ (s : State) (m w : Msg) (die st ix n : Nat) (b b' e e' v : Word),
  s.msg m.id = some m → m.loc = .switch die st ix →
  let ahead := s.flights.takeWhile fun x => x.id ≠ m.id
  let here : Way := .switch die st ix
  let merged : Msg := { m with loc := .merged, path := here :: m.path }
  ((∀ x ∈ ahead, x.loc = m.loc → s.behind m x = false ∧ combinable x m = false) →
    exec (.combineArrive m.id) s = .next (s.moveLast (s.nextSwitch m die st ix))) ∧
  (∀ x ∈ ahead, s.behind m x = true → combinable x m = false → ahead.find? (fun y => y.loc = m.loc && combinable y m) = none →
    exec (.combineArrive m.id) s = .next s) ∧
  (m.op = .amo .add n b e → w.op = .amo .add n b' e' → w.loc = m.loc → w.pa = m.pa → w.part = m.part → ahead = [w] →
    s.probeBehind w = false → s.waitBufs = [] → exec (.combineArrive m.id) s = .next
      { (s.setMsg { w with op := .amo .add n (b' + b) e' }).setMsg merged with waitBufs := [⟨die, st, ix, w.id, m.id, b'⟩] }) ∧
  (∀ (t : State) (x : Msg), m.op = .amo .add n b e → t.msg w.id = some x → x.loc = .back (.value v) → x.ret = some here →
    t.msg m.id = some merged → t.waitBufs = [⟨die, st, ix, w.id, m.id, b'⟩] →
    exec (.combineReply w.id) t = .next
      { (t.setMsg { merged with
          loc := .back (.value (word ((v.toNat + b'.toNat) % 2 ^ (8 * n)))), ret := some here, held := [], track := [], entered := 0, esc := false,
          since := t.wall }).setMsg
            { x with path := x.path.tail, ret := x.path.tail.head?, port := 4, since := t.wall } with waitBufs := [] })

/-- Accesses of shared SRAM at their home agent (R36, R164, R171, R173, R285, R288), where no other request waits
there: the reply and what changes in memory, its full/empty bits and its check bits; nothing else does. A
synchronising access whose word is not as it awaits joins the end of the word's wait list (R171, R285), and an access
that its destination refuses is answered with the trap (R75, R281). What amoNew computes, FencesAndAtomics pins for each function. -/
def Obligations.HomeAgents : Prop :=
  (∀ (s : State) (m : Msg) (x : Touch) (die off : Nat), s.msg m.id = some m →
  m.loc = .home → m.hit = none → m.leaf = none → s.mustWait m = false → s.waitBufs = [] → (∀ y ∈ s.flights, y.loc ≠ .waiting) →
  s.target m.pa = some (.sram die off) → s.isCell m.pa = false → m.op.touch = some x → s.passes m x →
  let pa := m.pa
  let back (m : Msg) (r : Reply) : List Msg := (s.setMsg { m.reply r with since := s.wall }).flights
  let reply (v : Word) : List Msg := back m (.value v)
  let acked (m : Msg) : List Msg := if m.counted then back m .ack else (s.dropMsg m.id).flights
  let mended (n : Nat) (l : List Nat) : List Nat := l.filter fun a => ¬ (pa ≤ a && a + 8 ≤ pa + n)
  let out (t : State) : Prop := exec (.homeAgentAccess m.id) s = .next t
  (∀ n, m.op = .load n → out { s with flights := reply (word (s.rd pa n)) }) ∧
  (∀ n v, m.op = .store n v → out { s with
    mem := writeN s.mem pa n v.toNat, ue := mended n s.ue, soft := mended n s.soft, perfs := s.perfs + 1,
    flights := acked { m with perf := s.perfs + 1 } }) ∧
  (∀ n take, m.op = .loadSync n take → s.isFull pa = true → out { s with
    empt := if take then insertNat s.empt (dwOf pa) else s.empt, flights := reply (word (s.rd pa n)) }) ∧
  (∀ n v, m.op = .storeFill n v → s.isFull pa = false → out { s with
    mem := writeN s.mem pa n v.toNat, ue := mended n s.ue, soft := mended n s.soft,
    empt := s.empt.filter fun a => a ≠ dwOf pa, flights := acked m }) ∧
  (m.op = .fe 1 → s.isFull pa = true → out { s with flights := reply 0 }) ∧
  (m.op = .fe 2 → s.isFull pa = true → out { s with empt := insertNat s.empt (dwOf pa), flights := reply 0 }) ∧
  (m.op = .fe 3 → s.isFull pa = false → out { s with empt := s.empt.filter fun a => a ≠ dwOf pa, flights := reply 0 }) ∧
  (m.op = .feq → out { s with flights := reply (if s.isFull pa then 1 else 0) }) ∧
  (∀ f n b e, m.op = .amo f n b e → f ≠ .ld →
    let old := s.rd pa n
    out { s with
      mem := writeN s.mem pa n (amoNew f n old (b.toNat % 2 ^ (8 * n)) (e.toNat % 2 ^ (8 * n)))
      ue := mended n s.ue
      soft := mended n s.soft
      flights := reply (word old) }) ∧
  (∀ n b e, m.op = .amo .ld n b e → out { s with flights := reply (word (s.rd pa n)) })) ∧
  (∀ (s s1 : State) (m : Msg) (x : Touch) (r : TrapRec), s.msg m.id = some m →
  m.loc = .home → s.mustWait m = false → s.waitBufs = [] → (∀ y ∈ s.flights, y.loc ≠ .waiting) → s.isCell m.pa = false →
  m.op.touch = some x →
  (s.refusal m x = (s, none) → m.op.admits (s.isFull m.pa) = false → exec (.homeAgentAccess m.id) s =
    .next { s with flights := (s.flights.filter fun y => y.id ≠ m.id) ++ [{ m with loc := .waiting }] }) ∧
  (s.refusal m x = (s1, some r) → s1.msg m.id = some m → (∀ y ∈ s1.flights, y.loc ≠ .waiting) →
    exec (.homeAgentAccess m.id) s = .next (s1.setMsg { m.reply (.error r) with since := s1.wall })) ∧
  (∀ k, s.violation m.accessor m.pa x.n = k → k ≠ 0 → ∃ t, exec (.homeAgentAccess m.id) s = .next t ∧
    t.mem = s.mem ∧ t.empt = s.empt ∧ (t.msg m.id).map (·.loc) =
      some (.back (.error (TrapRec.make 0x07 m.va (word (k + s.avSeq * 2 ^ 32)) 0))) ∧
    t.avSeq = (s.avSeq + 1) % 2 ^ 32 ∧ t.msix = s.msix ++ [(0, 64)]))

/-- Acknowledgements, probes, replies and cancels (R126, R138, R162, R166, R173, R175, R281): what each does when it has
come back to its requester, or to its bank. An acknowledged store changes a byte of a cached line unless a later store of
it was acknowledged before, which is the model's choice (log entry 10). -/
def Obligations.RepliesAndAcknowledgements : Prop := ∀ (s : State) (m : Msg) (rd : Reg) (v : Word), s.msg m.id = some m →
  (s.ctxs.look m.tid).isSome = true → m.hit = none → m.ret = none → s.waitBufs = [] →
  (∀ n, m.op = .store n v → m.loc = .back .ack → m.counted = true → exec (.storeAckArrive m.id) s =
    .next (((s.dropMsg m.id).uncountStore m.tid m.scope).modCore m.core fun c =>
      c.storeCached m.pa n v.toNat m.perf)) ∧
  (∀ n r, m.op = .store n v → m.loc = .back (.error r) → m.counted = true → m.dst = none → (s.ctx m.tid).waitsFor m = false →
    exec (.storeAckArrive m.id) s = .next (((s.dropMsg m.id).uncountStore m.tid m.scope).modCtx m.tid fun c =>
      { c with errAcks := c.errAcks ++ [{ r with orig := 1 }] })) ∧
  (∀ b, m.op = .probe b → m.loc = .home → (∀ y ∈ s.flights, y.id ≠ m.id → y.op.touch = none ∧ y.op.translated = false) →
    exec (.probeAtBank m.id) s = .next (s.dropMsg m.id)) ∧
  (∀ b, m.op = .probe b → m.loc ≠ .home → exec (.probeAtBank m.id) s = .next s) ∧
  (∀ n, m.op = .load n → m.loc = .back (.value v) → m.counted = false → m.dst = some rd → rd ≠ .g 61 →
    (s.ctx m.tid).waitsFor m = false →
    exec (.replyFill m.id) s = .next (((s.dropMsg m.id).deliver m.tid m.core m.fn rd v).alsoDone m.tid m.id)) ∧
  (∀ n take, m.op = .loadSync n take → m.loc = .back (.value v) → m.counted = false → m.dst = some rd → rd ≠ .g 61 →
    (s.ctx m.tid).waitsFor m = true → exec (.replyFill m.id) s = .next
      (((((s.dropMsg m.id).deliver m.tid m.core m.fn rd v).invalidateCache (s.ctx m.tid).core).modCtx m.tid fun c =>
        { c with park := .none, limit := none }).alsoDone m.tid m.id)) ∧
  (∀ (c : Msg) n take, c.op = .cancel m.id → s.msg c.id = some c → c.id ≠ m.id → c.loc = .home → s.mustWait c = false →
    m.op = .loadSync n take → m.loc = .waiting → exec (.waitCancelAtHome c.id) s = .next ((s.dropMsg c.id).setMsg
      { m.reply (.error (TrapRec.make 0x0B m.va (if take then 2 else 1) 0)) with since := s.wall })) ∧
  (∀ (l : CacheLine) (k perf : Nat) (b : Byte), l.store k perf b =
    if l.vers.getD k 0 < perf then { l with data := l.data.set k b, vers := l.vers.set k perf } else l)

/-- Fences that complete or time out, requests that time out, waits that expire, and walks that end (R25, R68, R138, R162,
R174, R214, R281). A trap of a parked fence is taken at it, with nothing of its unit done; a frozen thread takes it later. -/
def Obligations.FencesWaitsAndWalks : Prop := ∀ (s : State) (u : Nat) (form : FenceForm) (sc : Nat),
  let c := s.ctx u
  let lateTrap (from_ : Start) (scope : Nat) : TrapRec := TrapRec.make 0x09 c.ipc (word (s.feSince from_.wall + scope * 2 ^ 32)) 0
  let waits : Bool := c.frozen && c.stepLeft.isNone
  let done : Prop := c.undo = ⟨[], c.skip, none, false, none⟩ ∧ c.also = none
  let back (c : Ctx) : Ctx := { c with pc := c.ipc, park := .none, limit := none }
  (c.park = .fence form sc .done → s.fenceReady u form sc = true → c.errAcks = [] → exec (.fenceComplete u) s =
    .next (let s1 := if form ≠ .lfence ∧ 3 ≤ sc then s.modCtx u fun c => { c with touched := 0 } else s
      (if form ≠ .sfence ∧ 2 ≤ sc then s1.invalidateCache c.core else s1).modCtx u fun c => { c with park := .none })) ∧
  (∀ e l, c.park = .fence form sc .done → s.fenceReady u form sc = true → c.errAcks = e :: l → form ≠ .lfence → done →
    exec (.fenceComplete u) s = .next (
      let s1 := (s.buryAll u fun r _ => c.errAcks.contains r).modCtx u fun c =>
        back { c with errAcks := [], touched := if 3 ≤ sc then 0 else c.touched }
      if waits then s1.pendTrap u { e with orig := 1 } else s1.takeTrap u { e with orig := 1 } c.iwpos)) ∧
  (∀ after, c.park = .fence form sc after → s.fenceReady u form sc = false → exec (.fenceComplete u) s = .next s) ∧
  (c.park = .fence form sc .done → form ≠ .lfence → s.storesDone u sc = false → waits = false →
    s.timedOut u c.core c.waitFrom = true → (∀ m ∈ s.flights, m.tid ≠ u) → done → exec (.fabricResponseTimeout u) s =
      .next ((s.modCtx u back).takeTrap u (lateTrap c.waitFrom sc) c.iwpos)) ∧
  (∀ m rd, c.park = .fence form sc (.send m true) → m.dst = some (.g rd) → form ≠ .lfence → s.storesDone u sc = false →
    waits = false → s.timedOut u c.core c.waitFrom = true → (s.ctxs.look u).isSome = true → c.undo.regs = [] →
    m.op ≠ .claim true → gives (.fabricResponseTimeout u) s fun t => t.whyEmpty u (.g rd) = none ∧ (t.ctx u).limit = none) ∧
  (∀ m, (∀ form sc after, c.park ≠ .fence form sc after) → waits = false → s.lateRequest u = some m →
    exec (.fabricResponseTimeout u) s =
      .next ((s.dropMsg m.id).refuse m (lateTrap m.born m.scope) (c.waitsFor m))) ∧
  (waits = true → exec (.fabricResponseTimeout u) s = .next s) ∧
  (∀ (m : Msg) (n : Nat), waits = false → c.park = .reply m.id → c.limit = some n → n ≤ s.ctlTime u - c.limitFrom →
    s.msg m.id = some m → m.tid = u → exec (.boundedWaitExpire u) s =
      .next ((s.modCtx u fun c => { c with limit := none }).post (s.request u (.cancel m.id) m.va m.pa none))) ∧
  (∀ (cl d : Nat) (w : Walk) (e : TlbEntry) (x : Cluster), s.clusters = [(cl, x)] → x.walks = [w] → w.tids = [(u, d)] →
    s.walk w.asid w.va.toNat w.ia = .ok e → c.park = .walk w.id → exec (.tlbWalkComplete w.id) s =
      .next (((s.modCluster cl fun x => { x with walks := [] }).modCore d fun k => { k with tlb := tlbAdd k.tlb e }).modCtx u
        fun c => { c with walkFault := none, park := .none }))

/-! ### Cells at their home bank -/

/-- Locks (R144, R149, R150): a free lock is granted, a held one makes the acquire wait and refuses a try; the
holder's release frees a lock without waiters and hands it to the oldest waiter of a FLAG lock; another's release is a
sync-state fault. Only the cell's record changes in memory. -/
def Obligations.LocksAtTheirBank : Prop := ∀ (s : State) (m w : Msg) (l : List Msg), s.atCell m 0 → s.cMode m.pa = 0 →
  let b := m.pa
  let mine : Prop := s.cHeld b = true ∧ bit (s.cw b 2) 62 = false ∧ s.holders.look b = some m.tid ∧ s.cPin b = true ∧ s.pins = []
  (m.op = .acq → s.cHeld b = false → gives (.cellAcquireAtBank m.id) s fun t =>
    t.cHeld b = true ∧ t.holders.look b = some m.tid ∧ t.cf b 2 16 12 = m.core % 2 ^ 12 ∧ t.cf b 2 12 4 = m.slot % 2 ^ 4 ∧
    t.locOf m.id = some (.back (.value 0xFFFFFFFF)) ∧ sameOutside s t b 32) ∧
  (m.op = .acq → s.cHeld b = true → gives (.cellAcquireAtBank m.id) s fun t =>
    t.cHeld b = true ∧ t.holders = s.holders ∧ t.locOf m.id = some .waiting ∧ sameOutside s t b 32) ∧
  (m.op = .tryacq → s.cHeld b = true → gives (.cellAcquireAtBank m.id) s fun t =>
    t.locOf m.id = some (.back (.value 0)) ∧ t.mem = s.mem ∧ t.holders = s.holders) ∧
  (m.op = .rel → mine → s.lockWaiters b = [] → gives (.cellReleaseAtBank m.id) s fun t =>
    t.cHeld b = false ∧ t.holders.look b = none ∧ t.locOf m.id = some (.back .ack) ∧ sameOutside s t b 32) ∧
  (m.op = .rel → mine → s.lockWaiters b = w :: l → w.op = .acq → w.ticket = none → s.msg w.id = some w →
    gives (.cellReleaseAtBank m.id) s fun t =>
    t.cHeld b = true ∧ t.holders.look b = some w.tid ∧ t.locOf w.id = some (.back (.value 0xFFFFFFFF)) ∧
    t.locOf m.id = some (.back .ack) ∧ sameOutside s t b 32) ∧
  (m.op = .rel → s.holders.look b ≠ some m.tid → gives (.cellReleaseAtBank m.id) s fun t =>
    t.locOf m.id = some (.back (.error (TrapRec.make 0x0D m.va 3 0))) ∧ t.mem = s.mem ∧ t.holders = s.holders)

/-- Barriers, counters and byte barriers (R157–R160) whose mode is pinned: what an arrival counts and answers, the
phase that the last one completes, the counter's sum, the bytes awaited and delivered. A delegated section starts in
its slot as a new context: the registered task, level and control registers, the entry, the argument, the cell's
address, the counter's value and the requester's place (R153, R155). -/
def Obligations.ArrivalsAndSections : Prop :=
  (∀ (s : State) (m : Msg), (∀ y ∈ s.flights, y.loc ≠ .waiting) → s.cPin m.pa = true →
  let b := m.pa
  let answers (t : State) (v : Nat) : Prop := t.locOf m.id = some (.back (.value (word v))) ∧ sameOutside s t b 32
  (∀ a, s.atCell m 1 → m.op = .arrive a → s.cArrived b + 1 < s.cParties b → gives (.barrierArrivalAtBank m.id) s fun t =>
    t.cArrived b = s.cArrived b + 1 ∧ t.cPhase b = s.cPhase b ∧ answers t (s.cPhase b)) ∧
  (∀ a, s.atCell m 1 → m.op = .arrive a → s.cArrived b + 1 = s.cParties b → gives (.barrierArrivalAtBank m.id) s fun t =>
    t.cArrived b = 0 ∧ t.cPhase b = (s.cPhase b + 1) % 2 ^ 32 ∧ answers t (s.cPhase b)) ∧
  (∀ a, s.atCell m 2 → m.op = .arrive a → s.cBusy b = false → gives (.counterArrivalAtBank m.id) s fun t =>
    t.cw b 1 = s.cw b 1 + a ∧ answers t (s.cw b 1).toNat) ∧
  (s.atCell m 2 → m.op = .arriveWait → s.cw b 1 ≠ 0 → gives (.counterArrivalAtBank m.id) s fun t =>
    t.cw b 1 = s.cw b 1 ∧ t.locOf m.id = some .waiting ∧ sameOutside s t b 32) ∧
  (∀ n : Word, s.atCell m 3 → m.op = .expect n → n ≠ 0 → s.cf b 2 24 40 + n.toNat < 2 ^ 40 → s.cArrived b + 1 < 2 ^ 16 →
    gives (.sbExpectAtBank m.id) s fun t =>
    t.cf b 2 24 40 = s.cf b 2 24 40 + n.toNat ∧ t.cArrived b = s.cArrived b + 1 ∧ answers t (s.cPhase b)) ∧
  (∀ d, s.atCell m 3 → m.op = .deliver d → d < s.cf b 2 24 40 → gives (.byteBarrierDelivery m.id) s fun t =>
    t.cf b 2 24 40 = s.cf b 2 24 40 - d ∧ t.cPhase b = s.cPhase b ∧ t.locOf m.id = some (.back .ack) ∧
    sameOutside s t b 32) ∧
  (∀ d, s.atCell m 3 → m.op = .deliver d → d = s.cf b 2 24 40 → s.cArrived b = s.cParties b →
    gives (.byteBarrierDelivery m.id) s fun t =>
    t.cf b 2 24 40 = 0 ∧ t.cArrived b = 0 ∧ t.cPhase b = (s.cPhase b + 1) % 2 ^ 32 ∧ t.locOf m.id = some (.back .ack) ∧
    sameOutside s t b 32)) ∧
  (∀ (s : State) (m : Msg) (arg : Word) (x : Delegate), s.msg m.id = some m →
  m.op = .call arg → m.aux = 1 →
  let b := m.pa
  let d := s.cf b 3 51 12
  let k := s.cf b 3 47 4
  (s.core d).sections = [m.id] → (s.core d).delegates.look k = some x → s.inSlot d k = none →
  gives (.sectionStart m.id) s fun t =>
    let c := t.ctx s.nextTid
    c.place = .slot d k ∧ c.task = x.task ∧ c.lvl = x.lvl ∧ c.fn = x.fn ∧ c.part = x.part ∧ c.asid = x.asid ∧ c.seg = x.seg ∧
    c.pc = ((s.cw b 3).extractLsb' 0 45 ++ 0#3).signExtend 64 ∧ c.caller = some m.id ∧ c.empt = [] ∧
    t.peek s.nextTid (.g 1) = arg ∧ t.peek s.nextTid (.g 2) = m.va ∧
    t.peek s.nextTid (.g 3) = (if s.cellKind b = 2 then s.cw b 1 else 0) ∧ t.peek s.nextTid (.g 4) = word (m.core * 16 + m.slot) ∧
    t.nextTid = s.nextTid + 1 ∧ (t.core d).sections = [] ∧ t.mem = s.mem)

/-! ### Traps, mail, engines, copies and the Mandrel: the device's own steps -/

/-- TRAP_DELIVER, MAILBOX_POST and MBOX_WRITE (R57, R204, R207, R208): a pending trap is taken before the thread's next
issue; a message is written, with fill, where the indexed one has been taken, but to no sealed frame; a legal MBOX write
opens the mailbox. That a message for a sealed frame is kept, and that all eight doublewords are written in one step, is the
model's reading (log entry 101). -/
def Obligations.TrapsAndMail : Prop := ∀ (s : State) (u p : Nat) (r : TrapRec) (m : Mail) (rest : List Mail) (w : Word),
  ((s.ctx u).sectionDead = false → (s.ctx u).pending = some r → s.mayTake u = true → exec (.trapDeliver u) s =
    .next ((s.modCtx u Ctx.dropPending).takeTrap u r (wordPos (s.ctx u).pc))) ∧
  (∀ pa, pa = (s.partition p).mailPa → Memory.wf s.mem = true → s.marks = [] → (∀ y ∈ s.flights, y.loc ≠ .waiting) → pa % 64 = 0 →
    (s.partition p).mail = m :: rest → (s.partition p).mboxV = true → s.isFull pa = false →
    (s.sealedAt pa 64 = true → exec (.mailboxPost p) s = .next s) ∧
    (s.sealedAt pa 64 = false → s.zeroingAt pa 64 = false → gives (.mailboxPost p) s fun t =>
      [0, 1, 2, 3, 4, 5, 6, 7].map (fun k => t.rd64 (pa + 8 * k)) = [m.dw0, m.pc, m.taddr, m.tinfo, m.time, m.x5, m.x6, m.x7] ∧
      t.isFull pa = true ∧ sameOutside s t pa 64 ∧
      t.partition p = { s.partition p with
        mail := rest
        mboxIdx := ((s.partition p).mboxIdx + 1) % 2 ^ (s.partition p).mboxLog })) ∧
  (w.getLsbD 63 = true → s.mboxOk p w = true → (s.partition p).mboxV = false → exec (.mboxWrite p w) s =
    .next (s.modPart p fun x => { x with
      mboxV := true
      mboxLog := (w.extractLsb' 56 4).toNat
      mboxBase := (w.extractLsb' 6 46).toNat * 64
      mboxIdx := 0 })) ∧
  (w.getLsbD 63 = true → s.mboxOk p w = false → exec (.mboxWrite p w) s = .next s)

/-- A stop broadcast freezes the threads of its core that are not about to issue (R206, R212, R213, R359): here the one thread
that stands there, parked on a message. The hitting thread has the address that it used and a debug-stop message, unless its hit
mark came before; another has the address of wp.set. ctl.skid has the cycles since the hit, whether it is the thread's own, and
the instructions that it issued since. A thread that stays frozen keeps all of it; a later hit of its own posts its message. -/
def Obligations.StopsFreeze : Prop := ∀ (s : State) (core u : Nat) (c : Ctx) (x : StopCast) (y : Cluster),
  let cl := s.clusterOf core
  let hits : Prop := u = x.tid
  let base := if hits then x.issued else (x.counts.look u).getD c.issued
  let mailed (t : State) : Nat := (t.partition c.part).mail.length - (s.partition c.part).mail.length
  s.clusters = [(cl, y)] → y.stops = [x] → x.core = core → s.ctxs = [(u, c)] → c.place.resident = true → c.core = core →
  c.park = .halted → c.freezeDue = [] → c.stepLeft = none → c.told.contains x.num = false →
  gives (.stopBroadcastArrive core) s fun t => (t.cluster cl).stops = [] ∧ t.mem = s.mem ∧ (t.ctx u).frozen = true ∧
    (t.ctx u).pc = c.pc ∧ (t.ctx u).park = c.park ∧ mailed t = (if hits then 1 else 0) ∧
    (c.frozen = false → (t.ctx u).taddr = (if hits then x.hitVa else x.va) ∧ (t.ctx u).tinfo = x.tinfo ∧
      (t.ctx u).skid = word (min ((s.core core).cycle - x.at_) (2 ^ 32 - 1) * 2 ^ 32 + (if hits then 2 ^ 16 else 0) +
        min (c.issued - base) 0xFFFF)) ∧
    (c.frozen = true → (t.ctx u).skid = c.skid ∧ (¬ hits → t.ctx u = c))

/-- The element-wise vector instructions and ph.mul on their registers (R333, R343, R344, R201): vadd, vsub, vmul and vfma for F
types (the exact result rounded under RM, with the generator's state of the element) and, but for vfma, for I types, vmin, vmax,
vabs, vneg, vand, vor, vxor, vshl, vshr, vcvt, vcmp, vsel, vbcast, viota: elements 0 to n − 1 of the destination are the function
of the elements of the sources, and every other bit of the engine context is as before. qhist of one element (R197, R351). The
formats of F (R185–R189): what a pattern stands for, exact sums and products, and their rounding. -/
def Obligations.VectorElements : Prop :=
  (∀ (s : State) (e : QEntry) (x : Eng) (vd va vb : BitVec 4) (rs : BitVec 6) (k : Nat), etAny (etOf e.vshape) = true →
  let w := e.ew
  let f := etFmt e.et
  let elem (r : BitVec 4) : Nat := fld (x.vec r) (k * w) w
  let steps (n : Nat) : BitVec 32 := srStep^[n] x.gen
  let ends (i : Instr) (v n : Nat) (rm : Rm) (p : Nat → Prop) : Prop := e.instr = i → k < n →
    let y := s.engineLeaves e x
    s.engineRun e x = (s, .ok ⟨y, none⟩) ∧ p (fld (y.vec vd) (k * v) v) ∧
    (y.vec vd).toNat / 2 ^ (n * v) = (x.vec vd).toNat / 2 ^ (n * v) ∧ (∀ r, r ≠ vd → y.vec r = x.vec r) ∧
    y.gen = (if rm = .sr then steps n else x.gen) ∧ { y with v := x.v, gen := x.gen } = x
  let out (i : Instr) (v : Nat) : Prop := ends i w e.len .rne (· = v)
  let rounds (i : Instr) (rm : Rm) (v : Machine.Num) : Prop :=
    ends i w e.len rm (· = f.encode (f.round rm (steps (k + 1)).toNat v))
  let a := elem va
  let b := elem vb
  let sgn (v : Nat) : Int := (BitVec.ofNat w v).toInt
  let top (v : Nat) : Nat := v / 2 ^ (w - 1)
  let mag (v : Nat) : Nat := v % 2 ^ (w - 1)
  let nan : Prop := f.nanCode a = true ∨ f.nanCode b = true
  let before (a b : Nat) : Prop := top b < top a ∨ top a = top b ∧ (if top a = 1 then mag b < mag a else mag a < mag b)
  let lt : Prop := before a b ∧ ¬ (mag a = 0 ∧ mag b = 0)
  let same : Prop := a = b ∨ mag a = 0 ∧ mag b = 0
  e.len ≤ etCap (etOf e.vshape) →
  out (.vand vd va vb) (a &&& b) ∧ out (.vor vd va vb) (a ||| b) ∧ out (.vxor vd va vb) (a ^^^ b) ∧
  out (.vbcast vd rs) (e.rs.toNat % 2 ^ w) ∧ out (.vsel vd va vb) (if elem vd ≠ 0 then a else b) ∧
  (etI e.et = true →
    (∀ rm, out (.vadd rm vd va vb) ((a + b) % 2 ^ w) ∧ out (.vsub rm vd va vb) ((a + 2 ^ w - b) % 2 ^ w) ∧
      out (.vmul rm vd va vb) (a * b % 2 ^ w)) ∧
    out (.vmin vd va vb) (if sgn a ≤ sgn b then a else b) ∧ out (.vmax vd va vb) (if sgn a ≤ sgn b then b else a) ∧
    out (.vabs vd va) ((sgn a).natAbs % 2 ^ w) ∧ out (.vneg vd va) ((2 ^ w - a) % 2 ^ w) ∧
    out (.vshl vd va rs) (if w ≤ e.rs.toNat then 0 else a * 2 ^ e.rs.toNat % 2 ^ w) ∧
    out (.vshr vd va rs) ((BitVec.ofNat w a).sshiftRight (min e.rs.toNat w)).toNat ∧
    out (.viota vd rs) ((e.rs.toNat + k) % 2 ^ w) ∧
    (let holds (p : Prop) [Decidable p] (c : Nat) : Prop :=
       e.rs.toNat % 8 = c → out (.vcmp vd va vb rs) (if p then 2 ^ w - 1 else 0)
     holds (a = b) 0 ∧ holds (a ≠ b) 1 ∧ holds (sgn a < sgn b) 2 ∧ holds (sgn b ≤ sgn a) 3 ∧ holds (a < b) 4 ∧ holds (b ≤ a) 5)) ∧
  (etF e.et = true →
    (∀ rm, rounds (.vadd rm vd va vb) rm ((f.decode a).add rm (f.decode b)) ∧
      rounds (.vsub rm vd va vb) rm ((f.decode a).add rm (f.decode b).neg) ∧
      rounds (.vmul rm vd va vb) rm ((f.decode a).mul (f.decode b)) ∧
      rounds (.vfma rm vd va vb) rm (((f.decode a).mul (f.decode b)).add rm (f.decode (elem vd)))) ∧
    (nan → out (.vmin vd va vb) (f.encode .nan) ∧ out (.vmax vd va vb) (f.encode .nan)) ∧
    (¬ nan → (before b a → out (.vmin vd va vb) b ∧ out (.vmax vd va vb) a) ∧
      (¬ before b a → out (.vmin vd va vb) a ∧ out (.vmax vd va vb) b)) ∧
    out (.vabs vd va) (if f.nanCode a = true then f.encode .nan else mag a) ∧
    out (.vneg vd va) (if f.nanCode a = true then f.encode .nan else (a + 2 ^ (w - 1)) % 2 ^ w) ∧
    (let holds (p : Prop) (c : Nat) : Prop := e.rs.toNat % 8 = c →
       (p → out (.vcmp vd va vb rs) (2 ^ w - 1)) ∧ (¬ p → out (.vcmp vd va vb rs) 0)
     holds (¬ nan ∧ same) 0 ∧ holds (nan ∨ ¬ same) 1 ∧ holds (¬ nan ∧ lt) 2 ∧ holds (¬ nan ∧ ¬ lt) 3 ∧ holds nan 4 ∧ holds (¬ nan) 5)) ∧
  (let src := e.rs.toNat % 8
   let v := fld (x.vec va) (k * etWidth src) (etWidth src)
   let n := shapeLen e.vshape (min (etCap e.et) (etCap src))
   let ties (z : ℚ) (q : Int) : Prop := |(q : ℚ) - z| < 1 / 2 ∨ |(q : ℚ) - z| = 1 / 2 ∧ q % 2 = 0
   let clamped (q : Int) (r : Nat) : Prop := r = (max (-(2 ^ (w - 1))) (min (2 ^ (w - 1) - 1) q) % 2 ^ w).toNat
   n ≤ min (etCap e.et) (etCap src) → src ≤ 4 → ∀ rm,
   (etI e.et = true → etI src = true → ends (.vcvt rm vd va rs) w n .rne (clamped (BitVec.ofNat (etWidth src) v).toInt)) ∧
   (etI e.et = true → etF src = true →
     ((etFmt src).nanCode v = true → ends (.vcvt rm vd va rs) w n .rne (· = 0)) ∧
     ((etFmt src).finite v = true → ∀ q, ties ((etFmt src).value v) q → ends (.vcvt rm vd va rs) w n .rne (clamped q))) ∧
   (etF e.et = true → ends (.vcvt rm vd va rs) w n rm (· = f.encode (f.round rm (steps (k + 1)).toNat
     (if etI src = true then Num.ofInt (BitVec.ofNat (etWidth src) v).toInt else (etFmt src).decode v))))) ∧
  (etPh e.et = true → out (.phMul vd va vb) (if top a = 1 ∨ top b = 1 then 2 ^ (w - 1) else (a + b) % 2 ^ (w - 1))) ∧
  (e.et = 0 → e.len = 1 → e.instr = .qhist vd va rs →
    let bins := elems 32 64 (x.vec vd)
    let after (l : List Nat) : Prop := elems 32 64 ((s.engineLeaves e x).vec vd) = l
    let c := fld (x.vec va) 0 32
    (c = 0x7F800000 ∨ c = 0xFF800000 → after (bins.modify 63 fun n => min (n + 1) (2 ^ 32 - 1))) ∧
    (c % 2 ^ 31 = 0 ∨ IFmt.f32.nanCode c = true → after bins))) ∧
  (∀ f : IFmt, f = .f32 ∨ f = .f16 ∨ f = .bf16 →
    (∀ z, f.finite z = true → (f.decode z).value = f.value z ∧ ∃ m ex, f.decode z = .fin (f.sign z) m ex) ∧
    (∀ z, f.nanCode z = true → f.decode z = .nan) ∧
    (∀ neg, f.decode (f.encode (.inf neg)) = .inf neg) ∧
    (∀ neg m ex, m ≤ 2 ^ f.p → f.qmin ≤ ex → (m ≠ 0 → ex + Nat.log2 m ≤ f.emax) →
      let z := f.encode (.fin neg m ex)
      f.finite z = true ∧ f.sign z = neg ∧ f.mag z = m * 2 ^ ex) ∧
    (∀ (rm : Rm) (sr : Nat) (neg : Bool) (m : Nat) (ex te : Int), m ≠ 0 →
      let v : ℚ := m * 2 ^ ex
      let most : ℚ := f.maxSig * 2 ^ f.maxExp
      let big : Machine.Num := .fin neg f.maxSig f.maxExp
      let q : Int := max (te - f.p + 1) f.qmin
      let lo := ⌊v / 2 ^ q⌋₊
      let r := if awayFromZero rm sr neg lo (v / 2 ^ q - lo) = true then lo + 1 else lo
      (2 ^ te ≤ v → v < 2 ^ (te + 1) → v ≤ most → f.round rm sr (.fin neg m ex) = .fin neg r q) ∧
      (most < v → f.round rm sr (.fin neg m ex) = match rm with
        | .rne => if v < most + 2 ^ f.maxExp / 2 then big else .inf neg
        | .rtz => big
        | .ru => if neg then big else .inf neg
        | .rd => if neg then .inf neg else big
        | .sr => if sr * 2 ^ f.maxExp < (v - most) * 2 ^ 32 then .inf neg else big))) ∧
  (∀ (rm : Rm) (na : Bool) (ma : Nat) (ea : Int) (nb : Bool) (mb : Nat) (eb : Int),
    let a := Num.fin na ma ea
    let b := Num.fin nb mb eb
    (∃ n m ex, a.add rm b = .fin n m ex ∧ (a.add rm b).value = a.value + b.value ∧
      (m = 0 → n = if na = nb then na else rm = .rd)) ∧
    (∃ m ex, a.mul b = .fin (na != nb) m ex ∧ (a.mul b).value = a.value * b.value) ∧
    (∀ n, (Num.inf n).add rm b = .inf n ∧ b.add rm (.inf n) = .inf n ∧ (Num.inf n).add rm (.inf !n) = .nan ∧
      (Num.inf n).add rm (.inf n) = .inf n ∧ (mb ≠ 0 → (Num.inf n).mul b = .inf (n != nb)) ∧ (mb = 0 → (Num.inf n).mul b = .nan))) ∧
  (∀ (rm : Rm) (v : Machine.Num), Machine.Num.add rm .nan v = .nan ∧ v.add rm .nan = .nan ∧ Machine.Num.mul .nan v = .nan ∧ v.mul .nan = .nan) ∧
  IFmt.f32.encode .nan = 0x7FC00000 ∧ IFmt.f16.encode .nan = 0x7E00 ∧ IFmt.bf16.encode .nan = 0x7FC0 ∧
  IFmt.f32.encode (.inf true) = 0xFF800000 ∧ IFmt.f16.encode (.inf true) = 0xFC00 ∧ IFmt.bf16.encode (.inf true) = 0xFF80

/-- The device's steps of the engines (R88, R131, R133, R209, R332): an instruction ends with its registers written
and leaves its queue, or faults and its claimant takes the fault with TORIG 2; a matrix step counts; a spilled context
is kept in its record; the cluster's special-function unit answers its oldest request. The INT8 matrix product of one group onto zero accumulators (R198,
R340): each element of the rows and columns is the exact sum of products, and no other changes. -/
def Obligations.EngineSteps : Prop := (∀ (s s1 : State) (d unit : Nat) (e : QEntry) (r : EngRes) (f : TrapRec) (k : Nat),
  (s.endable d unit = some e → s.engineRun e ((s.core d).eng e.ctx) = (s1, .ok r) → gives (.engineInstructionEnd d unit) s fun t =>
    t = (s1.engineDone d unit e r).kick d ∧ (∀ y ∈ (t.core d).queue unit, y.seq ≠ e.seq)) ∧
  (s.endable d unit = some e → s.engineRun e ((s.core d).eng e.ctx) = (s1, .error f) → (s1.ctxs.look e.tid).isSome = true →
    (s1.ctx e.tid).pend2 = none → engineDst e.instr = none → gives (.engineFault d unit) s fun t =>
    (t.ctx e.tid).pend2 = some { f with orig := 2, eng := BitVec.ofNat 2 (unit + 1) } ∧ t.mem = s1.mem ∧
    (∀ y ∈ (t.core d).queue unit, ¬ (y.ctx = e.ctx ∧ e.seq ≤ y.seq))) ∧
  ((s.core d).stepping = some k → (headOf (s.core d).mq k).map (·.seq) = some e.seq → gives (.matrixStepEnd d) s fun t =>
    (t.core d).mq = (s.core d).mq.map (fun y => if y.seq = e.seq then { y with steps := y.steps + 1 } else y) ∧
    (t.core d).lastStep = k ∧ t.mem = s.mem ∧ t.ctxs = s.ctxs) ∧
  (∀ rec_ u, (s.core d).eng0.spillTo = some rec_ → (s.core d).eng0.owner = some u → (s.core d).eng0.next = none →
    (s.core d).engineWork u = false → ((s.core d).cq.any fun x => x.tid = u) = false → s.saveOk (s.ctx u).fn d = true →
    gives (.engineSpillComplete d) s fun t =>
    (t.ctx u).claim = some (.spilled rec_) ∧ (t.core d).eng0 = Eng.reset ∧
    (t.core d).spills.look rec_ = some { (s.core d).eng0 with spillTo := none, next := none }) ∧
  (∀ m fn x, (s.flights.find? fun m => m.loc = .home && s.clusterOf m.core = d && (match m.op with
      | .sfu _ _ => true
      | _ => false)) = some m → m.op = .sfu fn x →
    exec (.sfuRequestServe d) s = .next (s.setMsg { m.reply (.value ((sfEval fn x).setWidth 64)) with since := s.wall }))) ∧
  (∀ (s : State) (e : QEntry) (x : Eng) (ad : BitVec 2) (ta tb : BitVec 3) (i j : Nat),
  e.instr = .mma .i8 0 0 ad ta tb 0 → tdescOk (x.tdesc ta) = true → tdescOk (x.tdesc tb) = true →
  let a := Tdesc.of (x.tdesc ta)
  let b := Tdesc.of (x.tdesc tb)
  a.ew = 1 → b.ew = 1 → a.cols = b.cols → a.cols ≤ 32 →
  let y := s.engineLeaves e x
  let at_ (z : Eng) (i j : Nat) : Nat := fld (z.acc ad) ((i * 32 + j) * 32) 32
  let el (t : BitVec 16384) (r k : Nat) : Int := (t.extractLsb' ((r * a.cols + k) * 8) 8).toInt
  s.engineRun e x = (s, .ok ⟨y, none⟩) ∧ { y with a := x.a } = x ∧ (∀ r, r ≠ ad → y.acc r = x.acc r) ∧
  (i < a.rows → j < b.rows → at_ x i j = 0 → IFmt.f32.finite (at_ y i j) = true ∧
    IFmt.f32.value (at_ y i j) = (((List.range a.cols).map fun k => el (x.tile ta) i k * el (x.tile tb) j k).sum : Int)) ∧
  (i < 32 → j < 32 → ¬ (i < a.rows ∧ j < b.rows) → at_ y i j = at_ x i j))

/-- A piece of a copy (R36, R165, R184, R319): the bytes at the source stand at the destination, whose doublewords are
full, and no other byte changes. The start and the end of copy commands, and lines from other packages (R318–R321):
the fields of the record, the status that an ended command leaves in its tag (a thread that waits in exit ends with its
last command), and the bytes of a line. -/
def Obligations.CopyEngine : Prop :=
  (∀ (s : State) (d : Nat) (x : CopyCmd) (rest : List CopyCmd) (r : CopyRec)
    (spa dpa : Nat) (ls ld : Option Nat), (s.core d).cq = x :: rest → x.record = some r → x.stat = none → x.kind ≠ .link →
  x.cell = none → Memory.wf s.mem = true → s.marks = [] → (∀ y ∈ s.flights, y.loc ≠ .waiting) →
  let sva := (r.rowAt x.kind x.row).1 + word x.off
  let dva := (r.rowAt x.kind x.row).2 + word x.off
  let n := min (r.len - x.off) (64 - dva.toNat % 64)
  0 < n → sva.toNat % 64 + n ≤ 64 → spa + n ≤ dpa ∨ dpa + n ≤ spa →
  s.threadReach x.tid sva .read = .ok (spa, ls) → s.threadReach x.tid dva .write = .ok (dpa, ld) →
  s.dirty (s.copyMsg x dva dpa).core ld = s →
  (∀ o, s.target spa ≠ some (.host o)) → (∀ o, s.target dpa ≠ some (.host o)) →
  s.refusal (s.copyMsg x sva spa) ⟨n, false, true, false⟩ = (s, none) → s.lineRefused (s.copyMsg x dva dpa) n = (s, none) →
  gives (.copyLineWrite d) s fun t =>
    (∀ k < n, t.byte (dpa + k) = s.byte (spa + k)) ∧ sameOutside s t dpa n ∧ (∀ k < n, t.isFull (dpa + k) = true) ∧
    (t.core d).cq = x.moved r n :: rest ∧ t.flights = s.flights) ∧
  (∀ (s s1 : State) (d : Nat) (x : CopyCmd) (rest : List CopyCmd) (bs : List Byte)
    (w : Word), (s.core d).cq = x :: rest →
  (x.record = none → x.stat = none → x.kind = .d2 → x.cell = none → s.copyHeld d x = false → x.recVa.toNat % 64 = 0 →
    s.copyRead x x.recVa 64 = (s1, .ok bs) → copyRecBad .d2 (bs.foldr (fun b a => b.toNat + 256 * a) 0) = false →
    gives (.copyCommandStart d) s fun t =>
    let n := bs.foldr (fun b a => b.toNat + 256 * a) 0
    t = s1.setCopy d { x with record := some ⟨word (n % 2 ^ 64), word (n / 2 ^ 64 % 2 ^ 64), n / 2 ^ 128 % 2 ^ 32,
      n / 2 ^ 160 % 2 ^ 32, word (n / 2 ^ 192 % 2 ^ 64), word (n / 2 ^ 256 % 2 ^ 64), [], n / 2 ^ 384 % 2 ^ 8, n / 2 ^ 400 % 2 ^ 10⟩ }) ∧
  (x.record = none → x.stat = none → s.copyHeld d x = false → x.recVa.toNat % 64 ≠ 0 → gives (.copyCommandStart d) s fun t =>
    t = s.setCopy d { x with stat := some ((x.recVa &&& ~~~63#64) ||| 1) }) ∧
  (x.stat = some w → (∀ j v, (s.ctx x.tid).park ≠ .copies j v) → gives (.copyCommandEnd d) s fun t =>
    (t.core d).cq = rest ∧ ((t.core d).eng x.ctx).tags.look x.tag = some (.ended w) ∧ t.mem = s.mem ∧ t.ctxs = s.ctxs) ∧
  (∀ v, x.stat = some w → (s.ctxs.look x.tid).isSome = true → (s.ctx x.tid).core = d → (s.ctx x.tid).park = .copies 0 v →
    (s.ctx x.tid).pending = none →
    let s2 := (s.modCore d fun c => { c with cq := rest }).modEng d x.ctx fun e => { e with tags := e.tags.put x.tag (.ended w) }
    exec (.copyCommandEnd d) s = .next (if (rest.any fun y => y.tid = x.tid) = true then s2 else s2.exitEnd x.tid v)) ∧
  (∀ asid va pa die off data, Memory.wf s1.mem = true → s1.marks = [] → (∀ y ∈ s1.flights, y.loc ≠ .waiting) →
    s.agentReach asid va 1 .write = .ok (pa, s1) → s1.target pa = some (.sram die off) → pa % 64 + data.length ≤ 64 →
    s1.lineRefused (s1.agentMsg (s.asidOwner asid).1 (s.asidOwner asid).2 asid .none va pa) data.length = (s1, none) →
    gives (.cpLinkLineArrive asid va data) s fun t =>
    t.rdBytes pa data.length = data ∧ sameOutside s1 t pa data.length))

/-- The Mandrel (R100, R103–R111, R322, R355, R356): a bind, whose record was read as it was sent, answers its handle, INVALID, or why it is refused, and sets the D bits
of what it writes (R74); a pipeline that has drained or ended leaves, and with the last pipeline its instances; an instance
whose task has ended fails and loses its cursor; a held event is written, with fill, when its word is empty. -/
def Obligations.MandrelSteps : Prop := ∀ (s s1 s2 : State) (m : Msg) (p k i : Nat) (va : Word) (lines : Option (List Nat))
    (x : Pipe) (y : Inst),
  (s.msg m.id = some m → m.op = .bind va lines → m.loc = .home → (s.partition m.part).busyEnding = false →
    s.resetting.contains m.fn = false →
    let answers (t : State) (v : Word) : Prop :=
      exec (.mandrelBind m.id) s = .next (t.setMsg { m.reply (.value v) with since := t.wall })
    (lines.bind (s.bindRec m) = none → answers s (word (2 ^ 63 + 1))) ∧
    (∀ r, lines.bind (s.bindRec m) = some r → 256 ≤ (s.partition m.part).pipes.length → answers s (word (2 ^ 63 + 4))) ∧
    (∀ r c, lines.bind (s.bindRec m) = some r → (s.partition m.part).pipes.length < 256 → s.bindAt m r r.nstg = .error c →
      answers s (word (2 ^ 63 + c))) ∧
    (∀ r a, lines.bind (s.bindRec m) = some r → (s.partition m.part).pipes.length < 256 → s.bindAt m r r.nstg = .ok (a, s2) →
      let joined := ((a.inst.bind (s2.partition m.part).insts.look).map fun x => x.stage.rdesc).getD r.src
      answers (((r.stages.drop a.depth).map fun e => e.1.rdesc).foldl (fun (s : State) va => s.dirtyVa m.asid va)
        ((s2.bound m r a).1.dirtyVa m.asid joined)) (s2.bound m r a).2 ∧
      ((List.range 256).find? (fun k => ((s2.partition m.part).pipes.look k).isNone) = some k →
        (s2.bound m r a).2 = word (k + (s2.partition m.part).bindSeq % 2 ^ 32 * 2 ^ 8)))) ∧
  ((s.partition p).pipes.look k = some x → x.chain = [i] → x.event = 0 → x.held = [] → (s.partition p).insts.look i = some y →
    y.task = none → ((s.partition p).pipes.filter fun e => e.2.chain.contains i && e.1 ≠ k) = [] → s.flights = [] →
    ((∀ stop, x.st = .draining stop → s.ringCval x.readRing x.readCur = true →
        (stop.toNat : Int) ≤ s.ringCur x.readRing x.readCur → gives (.drainComplete p k) s fun t =>
      (t.partition p).pipes.look k = none ∧ (t.partition p).insts.look i = none) ∧
    (∀ id, x.st = .ending id → gives (.pipelineLeave p k) s fun t =>
      (t.partition p).pipes.look k = none ∧ (t.partition p).insts.look i = none))) ∧
  (∀ kind, Memory.wf s.mem = true → s.flights = [] → (s.partition p).insts.look i = some y → y.st = .over kind →
    (s.partition p).pipes.look y.owner = none → y.inCur < 8 → s.sealedAt y.inRing 64 = false → s.dirtyVa y.asid ((s.partition p).inputVa y) = s → gives (.instanceFail p i) s fun t =>
    (t.partition p).insts.look i = some { y with st := .failed } ∧ t.ringCval y.inRing y.inCur = false ∧
    sameOutside s t (y.inRing + 63) 1) ∧
  (∀ w rest pa die off, (s.partition p).pipes.look k = some x → x.held = w :: rest → s.agentReach x.asid x.event 8 .write = .ok (pa, s1) →
    s1.target pa = some (.sram die off) → s1.isCell pa = false → s1.isFull pa = false → (∀ z ∈ s1.flights, z.loc ≠ .waiting) →
    let v := if x.ovf then w ||| 0x80000000000000#64 else w
    s1.refusal (s1.agentMsg x.fn p x.asid (.storeFill 8 v) x.event pa) ⟨8, true, false, true⟩ = (s1, none) →
    gives (.mandrelEventWrite p k) s fun t =>
    t.mem = writeN s1.mem pa 8 v.toNat ∧ t.isFull pa = true ∧
    ((s1.partition p).pipes.look k = some x → (t.partition p).pipes.look k = some { x with held := rest, ovf := false }))

/-! ### Partitions, functions, ownership and registers -/

/-- Partitions (R63, R73, R77): the write that sets EN makes a partition active with an empty log, a key of its own and the
TCM and scratchpad shares of its slot table zero (which of them are zeroed then is the model's reading, log entry 145), or is
refused with PCERR; the write that clears it, with no function assigned, begins a teardown, which ends with the audit log and the
sealed frames zeroed and the key discarded; the interval of a partition in teardown stays as it was until then. -/
def Obligations.PartitionsStartAndStop : Prop := ∀ (s : State) (p : Nat) (w : Word),
  let x := s.partition p
  let base := (w.extractLsb' 16 12).toNat
  let len := (w.extractLsb' 32 13).toNat
  let log := (w.extractLsb' 8 5).toNat
  let bad : Prop := len = 0 ∨ s.part.cores < base + len ∨ log < 10 ∨ 24 < log ∨ s.partOverlap p base len = true ∨ x.st = 2 ∨
    s.auditOk p log = false ∨ x.slotsOk = false
  (w.getLsbD 63 = true → w.getLsbD 62 = false → x.en = false → ¬ bad → gives (.partitionConfigure p w) s fun t =>
    let y := t.partition p
    y.en = true ∧ y.st = 1 ∧ y.base = base ∧ y.len = len ∧ y.audlog = log ∧ y.audN = 0 ∧ y.audH = 0 ∧ y.seals = [] ∧
    y.audAt = x.audbase.toNat ∧ y.audLen = auditBytes log ∧ y.bindSeq = 1 ∧ y.key = s.keyCount + 1 ∧ t.keyCount = s.keyCount + 1 ∧ t.ctxs = s.ctxs ∧
    let shared (a : Nat) : Prop := ∃ j < x.slcnt, t.inShare p (x.slotFn j) a = true
    ∀ a, t.byte a = if shared a then 0 else s.byte a) ∧
  (w.getLsbD 63 = true → w.getLsbD 62 = false → x.en = false → bad → exec (.partitionConfigure p w) s =
    .next (s.modPart p fun x => { x with pcerr := true })) ∧
  (w.getLsbD 63 = false → w.getLsbD 62 = false → x.en = true → base = x.base → len = x.len → log = x.audlog →
    (∀ f ≤ 1024, s.fnPart f ≠ some p) → exec (.partitionTeardown p w) s =
    .next (s.modPart p fun x => { x with
      en := false
      st := 2 })) ∧
  (x.st = 2 → s.partBusy p = false → gives (.teardownComplete p) s fun t =>
    let inLog (a : Nat) : Prop := x.audAt ≤ a ∧ a < x.audAt + x.audLen
    let wasSealed (a : Nat) : Prop := ∃ e ∈ x.seals, a / 4096 ∈ e.frames
    (t.partition p).st = 0 ∧ (t.partition p).seals = [] ∧ (t.partition p).audN = 0 ∧ (t.partition p).key = 0 ∧
    (∀ a, t.byte a = if inLog a ∨ wasSealed a then 0 else s.byte a) ∧
    (∀ f, f ∈ t.sealed ↔ f ∈ s.sealed ∧ ∀ e ∈ x.seals, f ∉ e.frames)) ∧
  (x.en = false → x.st = 2 → w.getLsbD 63 = false → w.getLsbD 62 = false → exec (.partitionTeardown p w) s =
    .next (s.modPart p fun x => { x with rewritten := some (base, len, log) })) ∧
  (s.partBusy p = true → exec (.teardownComplete p) s = .next s)

/-- Functions and ASIDs (R65, R66, R69, R76): a function is enabled in an active partition with a key of its own and
taken out with a reset of its tenant, which ends with every unsealed frame of the function zero, and all of them the manager's; an ASID
becomes live, and its removal drops its TLB entries. The moments of READY (it is set exactly while no reset runs), the full bits
after a reset, and that TLB entries are gone at once are the model's readings (log entries 76, 78 and 81). -/
def Obligations.FunctionsAndAsids : Prop := ∀ (s : State) (f a : Nat) (w : Word),
  let old := (s.vfmap.look f).getD 0
  let p := (w.extractLsb' 0 4).toNat
  (w.getLsbD 63 = true → 1 ≤ f → f ≤ 1024 → old.getLsbD 63 = false → (s.partition p).st = 1 → gives (.vfmapEnable f w) s fun t =>
    t.fnPart f = some p ∧ (t.function f).key = s.keyCount + 1 ∧ ((t.function f).ready = true ↔ f ∉ s.resetting) ∧
    t.keyCount = s.keyCount + 1 ∧ t.mem = s.mem) ∧
  (w.getLsbD 63 = true → old.getLsbD 63 = false → (s.partition p).st ≠ 1 → exec (.vfmapEnable f w) s = .next s) ∧
  (w.getLsbD 63 = false → 1 ≤ f → f ≤ 1024 → old.getLsbD 63 = true → old.toNat % 16 = p → (∀ e ∈ s.ctxs, e.2.fn ≠ f) →
    (∀ e ∈ s.parts, e.2.pipes = []) → gives (.vfmapDisable f w) s fun t =>
    t.fnPart f = none ∧ (t.function f).ready = false ∧ (∀ q, (t.qpair f q).en = false) ∧ f ∈ t.resetting ∧ t.mem = s.mem) ∧
  (w.getLsbD 63 = true → s.asidLive a = false → (w.extractLsb' 0 11).toNat ≤ 1024 →
    ((w.extractLsb' 0 11) = 0 ∨ vfmapEn ((s.vfmap.look (w.extractLsb' 0 11).toNat).getD 0) = true) →
    gives (.asidMakeLive a w) s fun t => t = { s with asids := s.asids.put a (w &&& 0x800F_FFFF_FFFF_F7FF#64) } ∧
      t.asidLive a = true) ∧
  (w.getLsbD 63 = false → s.asidLive a = true → (w.extractLsb' 0 11).toNat ≤ 1024 → gives (.asidRemove a w) s fun t =>
    t.asidLive a = false ∧ (∀ e ∈ t.cores, ∀ x ∈ e.2.tlb, x.asid ≠ a) ∧ t.mem = s.mem ∧ t.ctxs = s.ctxs) ∧
  (f ∈ s.resetting → s.tenantGone f = true → (∀ e ∈ s.tasks, e.2.fn ≠ f) → (∀ e ∈ s.parts, ∀ y ∈ e.2.pipes, y.2.fn ≠ f) → gives (.functionResetComplete f) s fun t =>
    f ∉ t.resetting ∧ (∀ b, t.owner b ≠ .fn f) ∧ (∀ b, s.owner b = .fn f → b / 4096 ∉ s.sealed → t.byte b = 0) ∧
    (∀ b, b % 8 = 0 → s.owner b = .fn f → b / 4096 ∉ s.sealed → t.isFull b = true) ∧ (t.function f).key = s.keyCount + 1 ∧
    t.keyCount = s.keyCount + 1) ∧
  (s.tenantGone f = false → exec (.functionResetComplete f) s = .next s)

/-- Stage-2 invalidations, frames and rotation tables (R69, R72, R84): matching entries leave every TLB; a grant
changes the owner and makes the frames read zero and full; a frame is not held back once it is zeroed; a write of
RTURN waits for the rotation boundary, or sets RTERR where it would put two turns of one slot too near. That frames read zero
from the grant itself on, and that the distance of turns is checked against the writes still pending, are the model's readings
(log entries 79 and 82). -/
def Obligations.InvalidationsGrantsAndTurns : Prop := ∀ (s : State) (w : Word) (o : Owner) (f d k : Nat) (x : Inval),
  let asid := (w.extractLsb' 52 10).toNat
  let first := (w.extractLsb' 12 40).toNat
  let n := (w.extractLsb' 0 12).toNat + 1
  let base := s.fgbase.toNat
  let len := s.fglen.toNat
  (w.getLsbD 62 = true → s.inval = none → gives (.s2invAll w) s fun t =>
    (∀ e ∈ t.cores, ∀ y ∈ e.2.tlb, y.asid ≠ asid) ∧ t.inval.isSome = true ∧ t.mem = s.mem) ∧
  (w.getLsbD 62 = false → s.inval = none → gives (.s2invRange w) s fun t =>
    (∀ e ∈ t.cores, ∀ y ∈ e.2.tlb, y.asid = asid → y.ipage + y.pages ≤ first ∨ first + n ≤ y.ipage) ∧
    t.inval.isSome = true ∧ t.mem = s.mem) ∧
  (s.inval = some x → s.passing x.msgs x.tcm = false → exec .s2invComplete s = .next { s with inval := none }) ∧
  (s.inval = some x → ((∃ m ∈ s.flights, m.id ∈ x.msgs ∧ m.loc = .home) ∨ (∃ m ∈ s.unsent, m.id ∈ x.msgs) ∨
    ∃ e ∈ x.tcm, e.2 ∈ (s.core e.1).delayed) → exec .s2invComplete s = .next s) ∧
  (fgOwner w = some o → s.grantOk base len = true → gives (.fgownGrant w) s fun t =>
    (∀ a, base ≤ a → a < base + len → t.owner a = o ∧ t.byte a = 0 ∧ t.isFull a = true) ∧
    sameOutside s t base len ∧ t.fgown = w) ∧
  (s.grantOk base len = false → exec (.fgownGrant w) s = .next { s with fgown := s.fgown ||| 0x8000_0000_0000_0000#64 }) ∧
  (f ∈ s.zeroing → (∀ e ∈ s.asids, e.2.getLsbD 63 = false) → gives (.frameZeroComplete f) s fun t =>
    (∀ g, g ∈ t.zeroing ↔ g ∈ s.zeroing ∧ g ≠ f) ∧ (∀ a, t.byte a = if a / 4096 = f then 0 else s.byte a)) ∧
  (let c := { s.core d with turnWrites := (s.core d).turnWrites ++ [(k, w)] }
   exec (.rturnWrite d k w) s =
     .next (s.setCore d (if turnsClash c.applyWrites then { s.core d with rterr := true } else c)))

/-- Registers by their offset (R42, R61, R63, R65, R66, R69, R72, R84, R208, R44): FABCFG takes legal values only; a
write at the offset of a register with a step of its own is that step; the MSI-X pending-bit array and what lies behind
the MSI-X table ignore writes. The offset 2^32 + 64 KiB × f + o of the registers of function f is the model's choice (log entry
18), and the pending-bit array that ignores writes its presumption (log entry 131). -/
def Obligations.RegistersByOffset : Prop := ∀ (s : State) (w : Word) (i k : Nat),
  (let e := (w.extractLsb' 16 16).toNat
   let r := (w.extractLsb' 0 5).toNat
   exec (.registerWrite 0x100 w) s = .next (if 256 ≤ e ∧ e ≤ 64000 ∧ 16 ≤ r ∧ r ≤ 26 then { s with
     esct := e
     rtolog := r } else s)) ∧
  exec (.registerWrite 0x120 w) s = .next { s with selfpkg := w.setWidth 8 } ∧
  exec (.registerWrite 0x110 w) s = exec (.ptpSet w) s ∧
  (i < 12 → exec (.registerWrite (0x1000 + 8 * i) w) s = .next { s with ecc := s.ecc.del i } ∧
    exec (.eccCounterClear i w) s = .next { s with ecc := s.ecc.del i }) ∧
  (i < 16 → exec (.registerWrite (0x180 + 8 * i) w) s = exec (.linkRetrain i w) s ∧
    exec (.registerWrite (0x10_0000 + 8 * i) w) s =
      exec (if w.getLsbD 63 then .partitionConfigure i w else .partitionTeardown i w) s ∧
    exec (.registerWrite (0x1D_0000 + 8 * i) w) s = exec (.mboxWrite i w) s) ∧
  (1 ≤ i → i ≤ 1024 → exec (.registerWrite (0x11_0000 + 8 * i) w) s =
    exec (if w.getLsbD 63 then .vfmapEnable i w else .vfmapDisable i w) s) ∧
  (i < 1024 → exec (.registerWrite (0x12_0000 + 8 * i) w) s =
    exec (if w.getLsbD 63 then .asidMakeLive i w else .asidRemove i w) s) ∧
  exec (.registerWrite 0x13_0000 w) s = exec (if w.getLsbD 62 then .s2invAll w else .s2invRange w) s ∧
  exec (.registerWrite 0x13_0018 w) s = exec (.fgownGrant w) s ∧
  (i < s.part.cores → k < 32 → exec (.registerWrite (0x100_0000 + 0x1000 * i + 8 * k) w) s = exec (.rturnWrite i k w) s) ∧
  (i ≤ 1024 → k < 64 →
    exec (.registerWrite (2 ^ 32 + 0x1_0000 * i + 0x1000 + 64 * k + 0x20) w) s = exec (.sqDoorbell i k w) s ∧
    exec (.registerWrite (2 ^ 32 + 0x1_0000 * i + 0x1000 + 64 * k + 0x28) w) s = exec (.cqDoorbell i k w) s ∧
    exec (.registerWrite (2 ^ 32 + 0x1_0000 * i + 0x1000 + 64 * k + 0x10) w) s =
      exec (if w.getLsbD 0 then .queueEnable i k w else .queueDisable i k w) s ∧
    exec (.registerWrite (2 ^ 32 + 0x1_0000 * i + 0x1000 + 64 * k + 0x18) w) s = exec (.qstatClear i k w) s) ∧
  (i ≤ 1024 → 0x8420 ≤ k → k < 0x1_0000 → exec (.registerWrite (2 ^ 32 + 0x1_0000 * i + k) w) s = .next s)

/-! ### Time, links, power -/

/-- PTP time and device links (R16, R18, R42, R43): a backward or a small forward correction is slewed, a forward one
of 1 ms or more is one step (here with no partition to reach a cutoff or boundary in); the 16th failure of one flit
takes its port down with the copy commands over it. Power, temperature, scrubbing and signed audit heads (R35, R37,
R59, R97, R98). That an audit period without a new entry starts anew, and that one check changes the clock by one step of
100 MHz, are the model's reading and its choice (log entries 98 and 96). -/
def Obligations.TimeLinksPowerAndHeat : Prop :=
  (∀ (s : State) (w : Word) (port time : Nat) (up : Bool),
  let l := s.link port
  (s.ptpcfg.getLsbD 4 = true → w.toNat < s.wall + 1000000 →
    exec (.ptpSet w) s = .next { s with slew := (w.toNat : Int) - s.wall }) ∧
  (s.ptpcfg.getLsbD 4 = true → s.wall + 1000000 ≤ w.toNat → s.parts = [] → exec (.ptpSet w) s = .next { s with
    wall := w.toNat
    slew := 0 }) ∧
  (s.ptpcfg.getLsbD 4 = false → exec (.ptpSet w) s = .next s) ∧
  (s.ptpcfg.getLsbD 4 = false → s.ptpcfg.toNat % 16 = port → l.st = 2 → time < s.wall + 1000000 →
    exec (.ptpEventMessage port time) s = .next { s with slew := (time : Int) - s.wall }) ∧
  (s.ptpcfg.toNat % 16 ≠ port → exec (.ptpEventMessage port time) s = .next s) ∧
  exec .ptpSourceLost s = .next { s with hold := true } ∧ exec .ptpSourceReturn s = .next { s with hold := false } ∧
  (l.st = 2 → l.fails < 15 → gives (.linkFlitCrcFail port) s fun t => t = { s with links := s.links.put port ⟨2, l.fails + 1⟩ }) ∧
  (l.st = 2 → 15 ≤ l.fails → gives (.linkFlitCrcFail port) s fun t =>
    t.link port = ⟨0, 0⟩ ∧ (∀ d, (t.core d).cq = (s.core d).cq.map (CopyCmd.linkDown port)) ∧ t.mem = s.mem ∧ t.ctxs = s.ctxs) ∧
  (w.getLsbD 2 = true → port < s.part.ports → l.st ≠ 1 → exec (.linkRetrain port w) s =
    .next { s with links := s.links.put port ⟨1, 0⟩ }) ∧
  (l.st = 1 → exec (.linkTrainingComplete port up) s = .next { s with links := s.links.put port ⟨if up then 2 else 0, 0⟩ }) ∧
  (l.st ≠ 1 → exec (.linkTrainingComplete port up) s = .next s)) ∧
  (∀ (s : State) (mw k d p pa : Nat) (temp : Int) (l : List Nat),
  let x := s.partition p
  (s.part.limit < mw → 1100 ≤ (s.cluster k).mhz → exec (.powerLimitCheck mw [k]) s =
    .next (s.modCluster k fun y => { y with mhz := y.mhz - 100 })) ∧
  (mw * 100 < s.part.limit * 95 → (s.cluster k).mhz ≤ 1900 → exec (.powerLimitCheck mw [k]) s =
    .next (s.modCluster k fun y => { y with mhz := y.mhz + 100 })) ∧
  (mw ≤ s.part.limit → s.part.limit * 95 ≤ mw * 100 → exec (.powerLimitCheck mw l) s = .next s) ∧
  (s.partOf d = some p → (x.thot : Int) < temp → (s.hotSlots d).getLast? = some k → gives (.thermalCheck d temp) s fun t =>
    t.temps.look d = some temp ∧ (∀ j, j ∈ (t.core d).disableNext ↔ j = k ∨ j ∈ (s.core d).disableNext) ∧
    (t.core d).disabled = (s.core d).disabled ∧ t.ctxs = s.ctxs) ∧
  (s.partOf d = some p → temp ≤ x.thot → (x.thot : Int) - 5 ≤ temp → gives (.thermalCheck d temp) s fun t =>
    t = { s with temps := s.temps.put d temp }) ∧
  (gives (.thermalRankingUpdate p l) s fun t =>
    ∀ j e, j < 4096 → (l.filter fun d => s.partOf d = some p)[j]? = some e →
      (t.partition p).rank.look j = some (0x8000#16 ||| BitVec.ofNat 16 e)) ∧
  (gives (.patrolScrub pa true) s fun t => t.mem = s.mem ∧ t.ue = s.ue ∧
    (t.ecc.look 11).map (fun w => fld w 32 32) = some (min (fld ((s.ecc.look 11).getD 0) 32 32 + 1) (2 ^ 32 - 1))) ∧
  (gives (.patrolScrub pa false) s fun t => t.mem = s.mem ∧ (∀ a, a ∈ t.ue ↔ a = pa - pa % 8 ∨ a ∈ s.ue)) ∧
  (x.st = 1 → x.audPeriodFrom + s.audsig * 1000000 ≤ s.wall → x.audSigned < x.audN → Memory.wf s.mem = true →
    s.marks = [] →
    gives (.auditHeadSign p) s fun t =>
    let slot := x.audAt + 64 * x.audEntries + 0x4400 * (x.audHeads % 16)
    t.rdBytes slot 64 = headRecord p x.audN s.wall x.audH ∧ sameOutside s t slot 0x4400 ∧
    (t.partition p).audSigned = x.audN ∧ (t.partition p).audHeads = x.audHeads + 1 ∧
    (t.partition p).audPeriodFrom = s.wall) ∧
  (x.st = 1 → x.audN ≤ x.audSigned → x.audPeriodFrom + s.audsig * 1000000 ≤ s.wall → exec (.auditHeadSign p) s =
    .next (s.modPart p fun y => { y with audPeriodFrom := s.wall })))

/-- Start-up and firmware (R38–R41): an accepted image runs, with every memory but the host's zero and full, no
context, no core state, the fused minimum raised to its version and the trained links up; the three reasons to refuse
one in their order; an update that power was lost in leads to the recovery state. What survives a restart, PTP time among it, and that the package
stays in the recovery state until a good image comes, is the model's choice (log entry 95). -/
def Obligations.StartUpAndFirmware : Prop := ∀ (s : State) (i : FwImage) (hw : StartUp) (b : Bool) (die temp : Nat),
  let keyOk (j : FwImage) : Prop := sha256 (beBytes j.key.toNat 32) = s.fuseKey
  let good (j : FwImage) : Prop := keyOk j ∧ j.sigVerifies = true ∧ s.fuseMin.toNat ≤ j.version.toNat
  let fails (n : Nat) : Prop := gives (.powerOn hw) s fun t => t.power = .bootFailed ∧ t.bootStep = 1 ∧ t.bootDetail = BitVec.ofNat 8 n
  let fresh (j : FwImage) (t : State) : Prop := t.power = .running ∧ t.image = j ∧ t.ctxs = [] ∧ t.cores = [] ∧ t.empt = [] ∧
    t.parts = [] ∧ t.flights = [] ∧ t.fuseMin.toNat = max s.fuseMin.toNat j.version.toNat ∧ t.wall = s.wall ∧
    (∀ a, a / 2 ^ 48 ≠ 8 → t.byte a = 0) ∧ (∀ k < s.part.ports, t.link k = ⟨if hw.linksUp.getLsbD k then 2 else 0, 0⟩)
  (s.power = .off → s.updateLost = false →
    (good s.image → hw.failStep = 0 → gives (.powerOn hw) s (fresh s.image)) ∧
    (good s.image → hw.failStep ≠ 0 → gives (.powerOn hw) s fun t =>
      t.power = .bootFailed ∧ t.bootStep = hw.failStep ∧ t.bootDetail = hw.detail) ∧
    (¬ keyOk s.image → fails 1) ∧ (keyOk s.image → s.image.sigVerifies = false → fails 2) ∧
    (keyOk s.image → s.image.sigVerifies = true → s.image.version.toNat < s.fuseMin.toNat → fails 3)) ∧
  (s.power = .off → s.updateLost = true → gives (.powerOn hw) s fun t => t.power = .recovery) ∧
  (s.awake = true → good i → hw.failStep = 0 → gives (.firmwareLoad i hw) s (fresh i)) ∧
  (s.awake = true → ¬ good i → gives (.firmwareLoad i hw) s fun t => t.power = .recovery) ∧
  exec (.powerLoss b) s = .next { s with
    power := .off
    pick := none
    updateLost := s.updateLost || b } ∧
  (s.awake = true → 115 ≤ temp → exec (.thermalTrip die temp) s = .next { s with
    power := .off
    pick := none
    tripped := true }) ∧
  (temp < 115 → exec (.thermalTrip die temp) s = .next s)

/-! ### The host interface -/

/-- Queue pairs (R44–R47): enabling and disabling, the status bits, the doorbells, the fetch of a record by its tag, a
second read 1 µs after a mismatch, and the end of fetching after the 64th. -/
def Obligations.HostQueues : Prop := ∀ (s : State) (f q : Nat) (w : Word),
  let x := s.qpair f q
  let sl := (w.extractLsb' 4 4).toNat
  let cl := (w.extractLsb' 8 4).toNat
  let sizesOk : Prop := 4 ≤ sl ∧ sl ≤ 12 ∧ 4 ≤ cl ∧ cl ≤ 12
  let v := (w.extractLsb' 0 12).toNat
  let r := s.sqRecord x
  let taken (t : State) : Prop := t.cmds = s.cmds ++ [⟨s.nextCmd, f, q, r, .pending⟩] ∧ t.nextCmd = s.nextCmd + 1 ∧
    t.qpair f q = { x with
      sqhead := (x.sqhead + 1) % 2 ^ x.sqlog
      expseq := x.expseq + 1
      mismatch := false
      retries := 0 } ∧ t.mem = s.mem
  let open_ : Prop := x.en = true ∧ s.power = .running ∧ (s.function f).ready = true
  (w.getLsbD 0 = true → sizesOk → x.en = false → exec (.queueEnable f q w) s = .next (s.setQpair f q { x with
    sqlog := sl
    cqlog := cl
    ien := w.getLsbD 1
    en := true
    sqhead := 0
    sqtail := 0
    cqhead := 0
    cqtail := 0
    expseq := 0
    phase := true
    cqused := 0
    retries := 0
    mismatch := false
    stopped := false })) ∧
  (w.getLsbD 0 = true → ¬ sizesOk → exec (.queueEnable f q w) s = .next (s.setQpair f q { x with cfgerr := true })) ∧
  (x.en = true → (sl ≠ x.sqlog ∨ cl ≠ x.cqlog) → w.getLsbD 0 = false → exec (.queueDisable f q w) s = .next (s.setQpair f q { x with cfgerr := true })) ∧
  (sl = x.sqlog → cl = x.cqlog → w.getLsbD 0 = false → exec (.queueDisable f q w) s = .next (s.setQpair f q { x with
    ien := w.getLsbD 1
    en := false
    mismatch := false
    retries := 0 })) ∧
  exec (.qstatClear f q w) s = .next (s.setQpair f q { x with
    cfgerr := x.cfgerr && ! w.getLsbD 2
    dberr := x.dberr && ! w.getLsbD 1
    seqerr := x.seqerr && ! w.getLsbD 0 }) ∧
  exec (.sqDoorbell f q w) s = .next (s.setQpair f q (if v < 2 ^ x.sqlog then { x with sqtail := v } else { x with dberr := true })) ∧
  exec (.cqDoorbell f q w) s = .next (s.setQpair f q (if v < 2 ^ x.cqlog then { x with
    cqhead := v
    cqused := x.cqused - (v + 2 ^ x.cqlog - x.cqhead) % 2 ^ x.cqlog } else { x with dberr := true })) ∧
  (open_ → x.stopped = false → x.mismatch = false → x.sqhead ≠ x.sqtail → r.extractLsb' 16 16 = x.expseq →
    gives (.sqFetch f q) s taken) ∧
  (open_ → x.stopped = false → x.mismatch = false → x.sqhead ≠ x.sqtail → r.extractLsb' 16 16 ≠ x.expseq → x.retries < 63 →
    exec (.sqFetch f q) s = .next (s.setQpair f q { x with
      mismatch := true
      retries := x.retries + 1
      readAt := s.wall })) ∧
  (x.sqhead = x.sqtail ∨ x.stopped = true → exec (.sqFetch f q) s = .next s) ∧
  (open_ → x.mismatch = true → x.readAt + 1000 ≤ s.wall → r.extractLsb' 16 16 = x.expseq → gives (.seqRetry f q) s taken) ∧
  (open_ → x.mismatch = true → x.readAt + 1000 ≤ s.wall → r.extractLsb' 16 16 ≠ x.expseq → x.retries = 63 →
    gives (.seqRetry f q) s fun t => (t.qpair f q).seqerr = true ∧ (t.qpair f q).stopped = true ∧ (t.qpair f q).mismatch = false ∧
      t.msix = s.msix ++ [(f, 64)] ∧ t.cmds = s.cmds) ∧
  (s.wall < x.readAt + 1000 → exec (.seqRetry f q) s = .next s)

/-- What the host reads back of a queue pair after each of its steps, and what the step leaves alone (R44–R47): the
doorbells, the write that enables the pair or disables it, the write that clears status bits, and the fetch of a record
whose tag is the expected one, at once or at a second read. -/
def Obligations.QueuePairSteps : Prop := ∀ (s : State) (f q : Nat) (w : Word), f ≤ 1024 → q < 64 →
  let x := s.qpair f q
  let v := (w.extractLsb' 0 12).toNat
  let sl := (w.extractLsb' 4 4).toNat
  let cl := (w.extractLsb' 8 4).toNat
  let ctl := 0x1000 + 64 * q + 0x10
  let stat := 0x1000 + 64 * q + 0x18
  let errs (y : QPair) : Nat := b2n y.cfgerr * 4 + b2n y.dberr * 2 + b2n y.seqerr
  let alone (t : State) : Prop := (∀ g r, (g ≠ f ∨ r ≠ q) → t.qpair g r = s.qpair g r) ∧ t.mem = s.mem ∧ t.ctxs = s.ctxs ∧
    t.cores = s.cores ∧ t.parts = s.parts ∧ t.flights = s.flights ∧ t.queues = s.queues ∧ t.msix = s.msix
  let fetched (t : State) : Prop := alone t ∧ t.cmds = s.cmds ++ [⟨s.nextCmd, f, q, s.sqRecord x, .pending⟩] ∧
    t.barRead f ctl = s.barRead f ctl ∧
    t.barRead f stat = word ((x.expseq + 1).toNat * 2 ^ 16 + (x.sqhead + 1) % 2 ^ x.sqlog * 2 ^ 4 + errs x)
  let open_ : Prop := x.en = true ∧ s.power = .running ∧ (s.function f).ready = true
  (∃ t, exec (.sqDoorbell f q w) s = .next t ∧ alone t ∧ t.cmds = s.cmds ∧
    (t.qpair f q).sqtail = (if v < 2 ^ x.sqlog then v else x.sqtail) ∧
    t.barRead f stat = word (x.expseq.toNat * 2 ^ 16 + x.sqhead * 2 ^ 4 +
      errs { x with dberr := x.dberr || decide (2 ^ x.sqlog ≤ v) })) ∧
  (∃ t, exec (.cqDoorbell f q w) s = .next t ∧ alone t ∧ t.cmds = s.cmds ∧
    (t.qpair f q).cqhead = (if v < 2 ^ x.cqlog then v else x.cqhead) ∧
    t.barRead f stat = word (x.expseq.toNat * 2 ^ 16 + x.sqhead * 2 ^ 4 +
      errs { x with dberr := x.dberr || decide (2 ^ x.cqlog ≤ v) })) ∧
  (w.getLsbD 0 = true → x.en = false → 4 ≤ sl → sl ≤ 12 → 4 ≤ cl → cl ≤ 12 →
    ∃ t, exec (.queueEnable f q w) s = .next t ∧ alone t ∧ t.cmds = s.cmds ∧ t.barRead f stat = word (errs x) ∧
    t.barRead f ctl = word (cl * 2 ^ 8 + sl * 2 ^ 4 + b2n (w.getLsbD 1) * 2 + 1)) ∧
  (w.getLsbD 0 = false → (x.en = false ∨ (sl = x.sqlog ∧ cl = x.cqlog)) →
    ∃ t, exec (.queueDisable f q w) s = .next t ∧ alone t ∧ t.cmds = s.cmds ∧ t.barRead f stat = s.barRead f stat ∧
    t.barRead f ctl = word (cl * 2 ^ 8 + sl * 2 ^ 4 + b2n (w.getLsbD 1) * 2)) ∧
  (∃ t, exec (.qstatClear f q w) s = .next t ∧ alone t ∧ t.cmds = s.cmds ∧ t.barRead f ctl = s.barRead f ctl ∧
    t.barRead f stat = word (x.expseq.toNat * 2 ^ 16 + x.sqhead * 2 ^ 4 + b2n (x.cfgerr && ! w.getLsbD 2) * 4 +
      b2n (x.dberr && ! w.getLsbD 1) * 2 + b2n (x.seqerr && ! w.getLsbD 0))) ∧
  (open_ → x.stopped = false → x.mismatch = false → x.sqhead ≠ x.sqtail → (s.sqRecord x).extractLsb' 16 16 = x.expseq →
    ∃ t, exec (.sqFetch f q) s = .next t ∧ fetched t) ∧
  (open_ → x.mismatch = true → x.readAt + 1000 ≤ s.wall → (s.sqRecord x).extractLsb' 16 16 = x.expseq →
    ∃ t, exec (.seqRetry f q) s = .next t ∧ fetched t)

/-- Completion records (R46, R48, R52): a finished command's record stands at the tail of its completion queue, the
tail moves, the vector is raised where IEN is set, and the command is over; with no slot released nothing happens.
HOST_POSTED_WRITE (R180): the oldest store of the outbound queue reaches host memory. -/
def Obligations.CompletionsAndHostWrites : Prop :=
  (∀ (s : State) (c : Cmd) (st : BitVec 8) (addr r0 r1 : Word), s.cmd c.id = some c →
  c.st = .finished st addr r0 r1 →
  let x := s.qpair c.fn c.q
  let pa := 8 * 2 ^ 48 + (x.cqbase.toNat + 32 * x.cqtail) % 2 ^ 48
  (x.cqused < 2 ^ x.cqlog → s.hostOut = [] → Memory.wf s.mem = true → gives (.cqPost c.id) s fun t =>
    t.rd pa 32 = (r1 ++ r0 ++ addr ++ 0#15 ++ BitVec.ofBool x.phase ++ st ++ (c.record.extractLsb' 0 8) ++
      (c.record.extractLsb' 16 16) ++ 0#4 ++ BitVec.ofNat 12 x.sqhead : BitVec 256).toNat ∧ sameOutside s t pa 32 ∧
    (t.qpair c.fn c.q).cqtail = (x.cqtail + 1) % 2 ^ x.cqlog ∧ (t.qpair c.fn c.q).cqused = x.cqused + 1 ∧
    (t.qpair c.fn c.q).phase = (if (x.cqtail + 1) % 2 ^ x.cqlog = 0 then ! x.phase else x.phase) ∧
    t.msix = s.msix ++ (if x.ien then [(c.fn, c.q)] else []) ∧ t.cmd c.id = none) ∧
  (2 ^ x.cqlog ≤ x.cqused → exec (.cqPost c.id) s = .next s)) ∧
  (∀ (s : State) (pa n v : Nat) (rest : List (Nat × Nat × Nat)),
  (s.hostOut = (pa, n, v) :: rest → Memory.wf s.mem = true → gives .hostPostedWrite s fun t =>
    t.hostOut = rest ∧ t.rd pa n = v % 2 ^ (8 * n) ∧ sameOutside s t pa n ∧ t.ctxs = s.ctxs ∧ t.flights = s.flights) ∧
  (s.hostOut = [] → exec .hostPostedWrite s = .next s))

/-- The commands (R41, R49–R60, R74, R76, R113) of a command that may start and is well formed, as their effect and
their status; one in the recovery state ends with status 8, a malformed one with 2. That status 8 comes before 2 is the model's
reading (log entry 90), and status 4 with ADDR the start, for a COPY-OUT whose range starts in the function's own log and runs
past its end, its choice (log entry 134). -/
def Obligations.HostCommands : Prop := ∀ (s s1 : State) (c : Cmd) (p k : Nat) (bs : List Byte) (fs : List Nat),
  s.cmd c.id = some c → s.mayStart c = true → s.hostOut = [] →
  let ends (t : State) (st : BitVec 8) (addr r0 r1 : Word) : Prop := t.cmd c.id = some { c with st := .finished st addr r0 r1 }
  let runs (opc : Nat) : Prop := c.opc = opc ∧ s.power = .running ∧ c.wellFormed = true
  let named : Prop := s.asidLive c.asid = true ∧ (c.fn = 0 ∨ fld (s.asidEntry c.asid) 0 11 = c.fn)
  let f := (s.actor c).fn
  let n := ((c.q_ 2).extractLsb' 0 13).toNat
  let q := ((c.q_ 2).extractLsb' 16 6).toNat
  let rs := s.packetsAt (c.q_ 1).toNat n
  let len := (c.q_ 3).toNat
  let hostAt (w : Word) : Nat := 8 * 2 ^ 48 + w.toNat % 2 ^ 48
  (c.opc = 1 → s.power = .recovery → gives (.launch c.id) s fun t => ends t 8 0 0 0) ∧
  (c.opc = 1 → s.power = .running → c.wellFormed = false → gives (.launch c.id) s fun t => ends t 2 0 0 0) ∧
  (runs 1 → named → (s.actor c).part = some p → (c.q_ 1).toNat % 64 = 0 → 1 ≤ n → n ≤ 4096 → (c.q_ 2).extractLsb' 13 3 = 0 →
    (c.q_ 2).extractLsb' 22 42 = 0 → (∀ r ∈ rs, packetBad r (s.clustersOf p).length = false) → gives (.launch c.id) s fun t =>
    (t.tqueue f q).pkts = (s.tqueue f q).pkts ++ rs.map (fun r => ⟨packetOf r, c.asid, .waiting, none, none, none, false⟩) ∧
    ends t 0 0 (word n) 0 ∧ t.mem = s.mem) ∧
  (runs 1 → ¬ named → gives (.launch c.id) s fun t => ends t 3 0 0 0 ∧ t.queues = s.queues) ∧
  (runs 2 → (c.q_ 1).toNat % 4096 = 0 → (c.q_ 2).toNat % 4096 = 0 → 0 < (c.q_ 2).toNat → (c.q_ 2).toNat ≤ 2 ^ 40 →
    (c.phys = false ∧ named ∨ c.phys = true ∧ c.fn = 0) → (s.actor c).part = some p → (s.partition p).st = 1 → s.sealFrames c ((c.q_ 2).toNat / 4096) (c.q_ 1) = (s, .ok fs) →
    (s.partition p).seals.length < 64 → (∀ e ∈ (s.partition p).seals, ∀ g ∈ fs, g ∉ e.frames) → (∀ g ∈ fs, s.hasBank g = true) →
    gives (.seal c.id) s fun t =>
    (t.partition p).seals = (s.partition p).seals ++ [⟨c.q_ 1, c.q_ 2, s.measure (c.q_ 1) (c.q_ 2) fs, fs⟩] ∧
    (∀ g, g ∈ t.sealed ↔ g ∈ s.sealed ∨ g ∈ fs) ∧ ends t 0 0 (word (s.partition p).seals.length) 0 ∧ t.mem = s.mem) ∧
  (let w := c.q_ 1
   let e := (w.extractLsb' 0 4).toNat
   let base := (w.extractLsb' 16 12).toNat
   let wide := (w.extractLsb' 32 13).toNat
   runs 3 → c.fn = 0 → w.extractLsb' 4 12 = 0 → w.extractLsb' 28 4 = 0 → w.extractLsb' 45 19 = 0 → (s.partition e).st = 1 →
    s.intervalOk e base wide = true → s.freeEntry e base wide = some k → s.tasks = [] → gives (.deadline c.id) s fun t =>
    (t.deadlineOf e k).v = true ∧ (t.deadlineOf e k).vacant = true ∧ (t.deadlineOf e k).base = base ∧
    (t.deadlineOf e k).len = wide ∧ (t.deadlineOf e k).units = [] ∧ ends t 0 0 0 (word s.wall)) ∧
  (let base := (c.q_ 1).toNat
   let size := (c.q_ 2).toNat
   runs 4 → c.fn = 0 → base % 4096 = 0 → size % 4096 = 0 → 0 < size → size ≤ 2 ^ 36 → (base + size ≤ 6 * 2 ^ 48 ∨ 7 * 2 ^ 48 ≤ base) → base < 2 ^ 52 →
    (∀ e ∈ s.asids, e.2.getLsbD 63 = false) → Memory.wf s.mem = true → gives (.harvest c.id) s fun t =>
    ends t 0 0 0 0 ∧ (∀ j < (size / 4096 + 7) / 8, t.byte (hostAt (c.q_ 3) + j) = 0) ∧
    sameOutside s t (hostAt (c.q_ 3)) ((size / 4096 + 7) / 8)) ∧
  (runs 5 → 0 < len → (c.q_ 2).toNat % 64 + len ≤ 64 →
    (c.phys = false ∧ named ∨ c.phys = true ∧ c.fn = 0 ∧ (c.q_ 2).toNat / 2 ^ 48 ≠ 6) →
    s.cmdWrite c (c.q_ 2) (s.rdBytes (hostAt (c.q_ 1)) len) = (s1, none) →
    exec (.copyIn c.id) s = .next (s1.finish c.id 0 0 (word len) 0)) ∧
  (runs 5 → c.phys = true → c.fn = 0 → (c.q_ 2).toNat / 2 ^ 48 = 6 → (c.q_ 2).toNat % 8 = 0 → len = 8 →
    exec (.copyIn c.id) s = .next ((s.ctrlWrite ((c.q_ 2).toNat % 2 ^ 48) (s.rd64 (hostAt (c.q_ 1)))).finish c.id 0 0 8 0)) ∧
  (runs 6 → 0 < len → (c.q_ 1).toNat % 64 + len ≤ 64 →
    (c.phys = false ∧ named ∨ c.phys = true ∧ c.fn = 0 ∧ (c.q_ 1).toNat / 2 ^ 48 ≠ 6) → s1.hostOut = [] → bs.length = len →
    Memory.wf s1.mem = true → s.cmdRead c (c.q_ 1) len = (s1, .ok bs) → s1.cmds = s.cmds → gives (.copyOut c.id) s fun t =>
    t.rdBytes (hostAt (c.q_ 2)) len = bs ∧ sameOutside s1 t (hostAt (c.q_ 2)) len ∧ ends t 0 0 (word len) 0) ∧
  (runs 6 → 0 < len → len ≤ 2 ^ 32 → c.phys = true → c.fn ≠ 0 → s.ownAudit c (c.q_ 1) len = false →
    gives (.copyOut c.id) s fun t => ends t 4 (c.q_ 1) 0 0) ∧
  (let g := ((c.q_ 1).extractLsb' 0 11).toNat
   (runs 7 → c.fn = 0 → 1 ≤ g → g ≤ 1024 → (c.q_ 1).extractLsb' 11 53 = 0 → (∀ e ∈ s.ctxs, e.2.fn ≠ g) →
    (∀ e ∈ s.parts, e.2.pipes = []) → gives (.resetFunction c.id) s fun t =>
    g ∈ t.resetting ∧ (t.function g).ready = false ∧ (∀ j, (t.qpair g j).en = false) ∧ t.cmd c.id = some { c with st := .running } ∧
    t.mem = s.mem) ∧
   (runs 7 → 1 ≤ g → g ≤ 1024 → (c.q_ 1).extractLsb' 11 53 = 0 → c.fn ≠ 0 → c.fn ≠ g →
    gives (.resetFunction c.id) s fun t => ends t 3 0 0 0)) ∧
  (runs 8 → c.fn ≠ 0 → s.fnPart c.fn = some p → (c.q_ 1).toNat % 4096 = 0 → Memory.wf s.mem = true → gives (.attest c.id) s fun t =>
    let y := s.partition p
    let r := s.reportBytes c ⟨p, y.base, y.len, y.audN, y.audH, y.seals⟩
    t.rdBytes (hostAt (c.q_ 1)) (r.length + 17088) = r ++ leBytes (Config.signature r).toNat 17088 ∧
    ends t 0 0 (word (r.length + 17088)) 0)

/-! ### The Parting unit -/

/-- Deadlines (R113, R119–R121): a tick decides a unit that can end before the cutoff to run on; between ticks and
before the cutoff nothing happens; with every unit final the cutoff leaves the entry vacant and completes its command;
a unit whose threads are gone is saved; a vacant entry reopens. -/
def Obligations.PartingSteps : Prop := ∀ (s : State) (p e n id : Nat) (w : Word) (d : Deadline) (u : DUnit) (k : Task),
  s.deadlineOf p e = d → d.v = true → d.vacant = false →
  (∀ est, d.cut = false → d.lastTick = some n → n + 5000 ≤ s.wall → d.units = [u] → u.st = .run → s.estUnit u = some est →
    s.wall * 1000 + est + (((s.partition p).ptcfg.extractLsb' 32 10).toNat) * 1000000 ≤ (d.time - 32) * 1000 →
    gives (.partingTick p e) s fun t => t.deadlineOf p e = { d with
      units := [{ u with decided := s.wall }]
      lastTick := some s.wall } ∧ t.ctxs = s.ctxs ∧ t.mem = s.mem ∧ t.tasks = s.tasks) ∧
  (d.lastTick = some n → s.wall < n + 5000 → exec (.partingTick p e) s = .next s) ∧
  (s.wall < d.time - 32 → exec (.partingCutoff p e) s = .next s) ∧
  (d.cut = false → d.time - 32 ≤ s.wall → (∀ x ∈ d.units, x.st ≠ .run ∧ x.st ≠ .saving) → d.cmd = some id →
    gives (.partingCutoff p e) s fun t =>
    t.deadlineOf p e = { d with
      cut := true
      vacant := true
      cmd := none } ∧
    (∀ c, s.cmd id = some c → t.cmd id = some { c with st := .finished 0 0 d.counts (word s.wall) }) ∧ t.ctxs = s.ctxs) ∧
  (d.units = [u] → u.st = .saving → u.cursorForm = false → u.shared = none → u.tasks = [id] → s.tasks.look id = some k → id ≠ 0 →
    (∀ x ∈ s.ctxs, x.2.task ≠ id) → k.inst = none → d.cmd = none → (∀ c, (s.core c).delayed = []) →
    gives (.checkpointImagesWritten p e 0) s fun t =>
    t.tasks.look id = some { k with ckptd := true } ∧ (t.deadlineOf p e).vacant = true ∧
    (t.deadlineOf p e).units = [{ u with st := .saved }] ∧ (∀ c, ∀ r ∈ (t.core c).reserved, r.2 ≠ id)) ∧
  (∀ d2, s.deadlineOf p n = d2 → d2.v = true → d2.vacant = true → w.getLsbD 60 = true → gives (.deadlineReopen p n w) s fun t =>
    t.deadlineOf p n = { d2 with
      v := false
      vacant := false
      units := [] } ∧ t.ctxs = s.ctxs ∧ t.mem = s.mem) ∧
  (w.getLsbD 60 = true → exec (.deadlineReopen p e w) s = .next s)

/-! ### From packets to threads -/

/-- What the dispatcher starts (R82, R106, R140): the registers, control registers and place of a thread of a span.
Packets and tasks (R79, R80, R83): a packet without a DEPA becomes ready, a job only behind retired packets; the
placer chooses a queue whose c is largest and either places a packet of it or notes that it tried; the age limit; a
task without threads retires: its packet, its slots and its room go. -/
def Obligations.DispatchAndPlacement : Prop :=
  (∀ (folded : Bool) (x : QPkt) (fn part queue task : Nat) (kd : Kernel) (fm : Word) (flt : Option TrapRec)
    (crew core thread d k base cycle : Nat), crew < 512 → core < 8 → thread < 16 → base < 64 → kd.tcmsz ≤ 64 →
  let c := dispatchCtx folded x fn part queue task kd fm flt [] crew core thread d k base cycle
  let n := (crew * x.pkt.cores + core) * x.pkt.threads + thread
  c.pc = x.pkt.entry ∧ c.place = .slot d k ∧ c.task = task ∧ c.lvl = .u ∧ c.fn = fn ∧ c.part = part ∧ c.park = .start ∧
  c.asid.toNat = x.asid % 2 ^ 10 ∧ c.scl = x.pkt.sclp ∧ c.empt = [] ∧ c.trapf = 0 ∧ c.claim = none ∧
  c.lane = (if folded then some thread else none) ∧ c.regs.look 1 = some x.pkt.argp ∧ c.regs.look 2 = some (word thread) ∧ c.regs.look 3 = some (word core) ∧
  c.regs.look 4 = some (word crew) ∧ c.regs.look 63 = some 0xFFFFFF0001000000#64 ∧
  (∀ r, r ≠ 1 → r ≠ 2 → r ≠ 3 → r ≠ 4 → r ≠ 63 → c.regs.look r = none) ∧
  c.seg.extractLsb' 40 24 = BitVec.ofNat 24 (kd.pbase + n) ∧ c.seg.extractLsb' 20 7 = BitVec.ofNat 7 kd.tcmsz ∧
  c.seg.extractLsb' 8 6 = BitVec.ofNat 6 base ∧
  c.fmt0 ++ c.fmt1 ++ c.fmt2 ++ c.fmt3 = fm.extractLsb' 0 16 ++ fm.extractLsb' 16 16 ++ fm.extractLsb' 32 16 ++ fm.extractLsb' 48 16 ∧
  (c.root = true ↔ crew = 0 ∧ core = 0 ∧ thread = 0) ∧ c.pend0 = (if c.root then flt else none)) ∧
  (∀ (s s1 s2 : State) (f q i p key : Nat) (x : QPkt) (cs : List Wrr) (id : Nat) (k : Task),
  (s.packet f q i = some x → x.st = .waiting → x.pkt.depa = 0 → s.depaMsg f q i = none →
    (x.pkt.job = false → gives (.packetReady f q i) s fun t =>
      t.packet f q i = some { x with st := .ready s.wall } ∧ (∀ j, j ≠ i → t.packet f q j = s.packet f q j) ∧ t.ctxs = s.ctxs) ∧
    (∀ y ∈ ((s.tqueue f q).pkts.take i), x.pkt.job = true → y.st ≠ .retired → exec (.packetReady f q i) s = .next s)) ∧
  (let cands := (s.readyQueues p).map fun e => (⟨e.1, e.2.weight, if e.2.inQ then e.2.wrr else 0⟩ : Wrr)
   (s.readyQueues p = [] → exec (.placerChoose p) s = .next s) ∧
   (chooseWrr cands = some (key, cs) → ∃ c ∈ cands, c.key = key ∧ ∀ y ∈ cands, y.c + y.w ≤ c.c + c.w) ∧
   ((s.partition p).st = 1 → (s.partition p).tried = [] → chooseWrr cands = some (key, cs) →
    s1 = { s with queues := s.queues.map (s.keepWrr p cs) } →
    (((s1.candidates (s1.tqueue (key / 64) (key % 64))).findSome? fun e => s1.tryPlace p (key / 64) (key % 64) e.1 e.2) = none →
      gives (.placerChoose p) s fun t => (t.partition p).tried = [key] ∧ t.ctxs = s.ctxs ∧ t.tasks = s.tasks) ∧
    (((s1.candidates (s1.tqueue (key / 64) (key % 64))).findSome? fun e => s1.tryPlace p (key / 64) (key % 64) e.1 e.2) = some s2 →
      gives (.placerChoose p) s fun t => (t.partition p).tried = [] ∧ t.ctxs = s2.ctxs ∧ t.tasks = s2.tasks ∧ t.cores = s2.cores))) ∧
  (∀ n, x ∈ (s.tqueue f q).pkts → x.st = .ready n → n + 1000000 ≤ s.wall → gives (.placementAgeLimit f q) s fun t =>
    t.tqueue f q = { s.tqueue f q with aged := true } ∧ t.ctxs = s.ctxs) ∧
  (s.tasks.look id = some k → (∃ e ∈ s.ctxs, e.2.task = id ∧ e.2.caller = none) → exec (.taskRetire id) s = .next s) ∧
  (s.tasks.look id = some k → (∀ e ∈ s.ctxs, e.2.task ≠ id) → k.pkt.done = 0 → (∀ e ∈ s.cores, e.2.delegates = []) →
    (s.partition k.part).dls = [] → gives (.taskRetire id) s fun t =>
    t.tasks.look id = none ∧ (∀ d, ∀ r ∈ (t.core d).reserved, r.2 ≠ id) ∧ (∀ d, ∀ r ∈ (t.core d).tcm, r.1 ≠ id) ∧
    (∀ y, s.packet k.fn k.queue k.index = some y → t.packet k.fn k.queue k.index = some { y with st := .retired }) ∧
    t.mem = s.mem ∧ t.ctxs = s.ctxs))

/-! ### Turns, slots and contexts -/

/-- Turns (R70, R71, R84–R86): RTURN writes take effect at a rotation boundary and keep SLOT and EN otherwise; an
owned turn goes to its slot's thread where that is ready and has not issued in the last 7 cycles; a core without threads only counts its cycle; a new
slot-table position opens the handover windows where FN changes. Handovers (R71): a slot hands over in its first owned
turn, or, owning none, 32 cycles after the boundary; an outgoing thread goes through the Chuck to the save area, once
everything of it has completed, and only then has its slot handed over (with a full Chuck it stops and waits, and issues in no turn);
the window closes once every slot has handed over and nothing outgoing is left in the Chuck or in an engine context. -/
def Obligations.TurnsAndHandovers : Prop :=
  (∀ (s : State) (d p i j t : Nat),
  let c := s.core d
  let x := c.turn (c.cycle % 32)
  (c.cycle % 32 ≠ 0 → exec (.rotationBoundary d) s = .next s) ∧
  (c.cycle % 32 = 0 → c.disabled = [] → c.disableNext = [] → gives (.rotationBoundary d) s fun u =>
    (u.core d).turns.map (fun y => (y.tslot, y.ten)) = c.applyWrites.map (fun y => (y.tslot, y.ten)) ∧
    (u.core d).turnWrites = [] ∧ (u.core d).cycle = c.cycle ∧ u.mem = s.mem ∧ (c.release = false → u.flights = s.flights)) ∧
  (c.cycle % 32 ≠ 0 → s.settle d = s → (s.cluster (s.clusterOf d)).stops = [] → c.handover = none → s.ctxs = [] → gives (.serveTurn d) s fun u =>
    u = { s with
      cores := u.cores
      focus := (d + 1) % s.part.cores } ∧ u.core d = { c with cycle := c.cycle + 1 } ∧ ∀ e, e ≠ d → u.core e = s.core e) ∧
  (c.cycle % 32 ≠ 0 → s.settle d = s → (s.cluster (s.clusterOf d)).stops = [] → c.handover = none → x.ov = true → s.inSlot d x.tslot = some t →
    s.slotReady d x.tslot = true → 8 ≤ c.since x.tslot → (s.ctx t).stop = false → s.savingTask (s.ctx t).task = false → (s.ctx t).freezeDue = [] →
    gives (.serveTurn d) s fun u => u.pick = some t ∧ (u.core d).cycle = c.cycle + 1 ∧ u.focus = (d + 1) % s.part.cores ∧
      u.ctxs = s.ctxs ∧ u.mem = s.mem) ∧
  (s.slotPos p = none → exec (.slotBoundary p) s = .next s) ∧
  ((s.partition p).st = 1 → s.slotPos p = some j → (s.partition p).slotNow = some i → i ≠ j →
    ((s.partition p).slotFn i = (s.partition p).slotFn j → gives (.slotBoundary p) s fun u =>
      u = s.modPart p fun y => { y with
        slotNow := some j
        tried := [] }) ∧
    ((s.partition p).slotFn i ≠ (s.partition p).slotFn j → gives (.slotBoundary p) s fun u =>
      (u.partition p).slotNow = some j ∧ u.ctxs = s.ctxs ∧ u.mem = s.mem ∧
      ∀ e, (s.partition p).base ≤ e → e < (s.partition p).base + (s.partition p).len →
        (u.core e).handover = some ⟨(s.partition p).slotFn i, (s.partition p).slotFn j, (s.core e).cycle, [], []⟩))) ∧
  (∀ (s : State) (d k t : Nat) (h : Handover), k < 16 →
  let c := s.core d
  c.handover = some h →
  let handed (u : State) : Prop := ∃ h', (u.core d).handover = some h' ∧ h'.outFn = h.outFn ∧ h'.inFn = h.inFn ∧ h'.at_ = h.at_ ∧
    ∀ j, j ∈ h'.done ↔ j = k ∨ j ∈ h.done
  let owns : Prop := (c.turn (c.cycle % 32)).ov = true ∧ (c.turn (c.cycle % 32)).tslot = k
  let never : Prop := ∀ y ∈ c.turns, y.ov = false ∨ y.tslot ≠ k
  (k ∉ h.done → owns → s.handing d k = none → s.inSlot d k = none → gives (.slotHandover d k) s fun u => handed u ∧ u.ctxs = s.ctxs) ∧
  (k ∉ h.done → owns → s.handing d k = none → s.inSlot d k = some t → h.outgoing (s.ctx t) = false → gives (.slotHandover d k) s fun u =>
    handed u ∧ u.ctxs = s.ctxs) ∧
  (k ∉ h.done → k ∉ h.stopped → owns → s.inSlot d k = some t → (s.ctx t).place = .slot d k → h.outgoing (s.ctx t) = true →
    s.saveOk (s.ctx t).fn d = true → s.chuckUsed d < 32 → (s.ctx t).touched ≠ 0 → gives (.slotHandover d k) s fun u =>
    (u.core d).handover = some h ∧ (u.ctx t).place = .chuck d k ∧ (u.ctx t).regs = (s.ctx t).regs ∧ (u.ctx t).pc = (s.ctx t).pc ∧
    (u.core d).chuck = c.chuck ++ [t]) ∧
  (k ∉ h.done → owns → s.inSlot d k = some t → (s.ctx t).place = .slot d k → h.outgoing (s.ctx t) = true → s.saveOk (s.ctx t).fn d = true →
    s.chuckUsed d < 32 → (s.toChuck t).settled t = true → (s.toChuck t).saveUsed (s.ctx t).fn d < 64 → (s.ctx t).errAcks = [] →
    t ∉ c.chuck → gives (.slotHandover d k) s fun u =>
    handed u ∧ (u.ctx t).place = .save d k ∧ (u.ctx t).regs = (s.ctx t).regs ∧ (u.ctx t).pc = (s.ctx t).pc ∧
    (u.core d).chuck = c.chuck) ∧
  (k ∉ h.done → owns → s.inSlot d k = some t → h.outgoing (s.ctx t) = true → s.saveOk (s.ctx t).fn d = true →
    32 ≤ s.chuckUsed d → gives (.slotHandover d k) s fun u =>
    (∃ h', (u.core d).handover = some h' ∧ h'.done = h.done ∧ k ∈ h'.stopped) ∧ u.ctxs = s.ctxs ∧
    ((s.ctx t).place = .slot d k → ∀ e, u.wouldIssue e t = false)) ∧
  (¬ owns → exec (.slotHandover d k) s = .next s) ∧
  (k ∉ h.done → never → h.at_ + 32 ≤ c.cycle → s.handing d k = none → s.inSlot d k = none → gives (.handoverNoTurnTimeout d k) s fun u =>
    handed u ∧ u.ctxs = s.ctxs) ∧
  (c.cycle < h.at_ + 32 → exec (.handoverNoTurnTimeout d k) s = .next s) ∧
  (k ∉ h.done → h.stopped = [] → (∀ j, s.handing d j = none) → exec (.handoverWindowClose d) s = .next s) ∧
  ((∀ j < 16, j ∈ h.done) → c.chuck = [] → c.eng0.owner = none → c.eng1.owner = none →
    exec (.handoverWindowClose d) s = .next (s.modCore d fun c => { c with handover := none })))

/-- Contexts leave and take slots (R93, R95, R361): pre-emption puts a context of a thread that may stop into the
Chuck, with room, once what it has in the pipeline has completed (an instruction held in M1 is to be issued again); a full Chuck writes its least recently used context to the save area; a saved context takes a slot
of its core at a rotation boundary; a thread that is to stop is discarded. -/
def Obligations.ContextSteps : Prop := ∀ (s : State) (d k t : Nat), t ≠ 0 →
  let c := s.ctx t
  (s.inSlot d k = some t → c.place = .slot d k → s.mayStop t = true → s.chuckUsed d < 32 → gives (.preempt d k) s fun u =>
    let v := (s.finishTcm t).unhold t
    u = { v with
      ctxs := v.ctxs.put t { v.ctx t with
        timeAcc := v.ctlTime t
        place := .chuck d k
        chuckAt := (v.core d).cycle }
      cores := v.cores.put d { v.core d with chuck := (v.core d).chuck ++ [t] } } ∧
    ((s.core d).delayed = [] → c.park = .none → (u.ctx t).regs = c.regs ∧ (u.ctx t).empt = c.empt ∧ (u.ctx t).pc = c.pc ∧
      ∀ a, u.byte a = s.byte a)) ∧
  (s.inSlot d k = some t → s.mayStop t = false → exec (.preempt d k) s = .next s) ∧
  (32 ≤ s.chuckUsed d → exec (.preempt d k) s = .next s) ∧
  (32 ≤ s.chuckUsed d → s.leastRecent (((s.core d).chuck ++ (s.core d).inbound.filter fun v => ! (s.core d).inboundSpill.contains v) ++
      s.asideIn d) = some t → c.place = .chuck d k → s.settled t = true → s.saveOk c.fn d = true → s.saveUsed c.fn d < 64 → c.errAcks = [] →
    Memory.wf s.mem = true → gives (.chuckEvict d) s fun u =>
    (u.ctx t).place = .save d k ∧ (u.ctx t).regs = c.regs ∧ (u.ctx t).pc = c.pc ∧
    (u.core d).chuck = (s.core d).chuck.filter (fun v => v ≠ t) ∧ sameOutside s u (s.saveBase c.fn d) 0x1_0000) ∧
  (s.chuckUsed d < 32 → exec (.chuckEvict d) s = .next s) ∧
  (∀ e, c.place = .chuck d e ∨ c.place = .save d e → (s.core d).cycle % 32 = 0 → s.slotFor t d k = true → s.closed d = false →
    gives (.contextResume t d k) s fun u =>
    (u.ctx t).place = .slot d k ∧ (u.ctx t).regs = c.regs ∧ (u.ctx t).empt = c.empt ∧ (u.ctx t).pc = c.pc ∧
    (u.ctx t).timeAcc = c.timeAcc ∧ (u.ctx t).seatedAt = (s.core d).cycle ∧ t ∉ (u.core d).chuck ∧ u.mem = s.mem) ∧
  ((s.core d).cycle % 32 ≠ 0 → exec (.contextResume t d k) s = .next s) ∧
  (c.stop = true → s.mayStop t = true → c.claim = none → c.nest = none → (∀ m ∈ s.flights, m.tid ≠ t) → gives (.threadStop t) s fun u =>
    u.ctxs.look t = none ∧ (∀ v, v ≠ t → u.ctxs.look v = s.ctxs.look v) ∧ u.mem = s.mem ∧ u.flights = s.flights) ∧
  (c.stop = false → exec (.threadStop t) s = .next s)

/-! ### Stealing, context messages and messages -/

/-- Work for idle slots (R90, R93): a slot takes its task's newest entry of the deque, or steals: the victim answers
with its oldest entry; an empty answer is counted, and after as many as the span has other cores the core waits 1,024
cycles. -/
def Obligations.IdleSlotsTakeWork : Prop := ∀ (s : State) (m : Msg) (d k f task t v o : Nat) (l : List Nat),
  let q := (s.core d).deque task
  let atTcm (m : Msg) : Prop := s.msg m.id = some m ∧ m.loc = .home ∧ s.target m.pa = some (.tcm d o)
  (s.slotTask d k = some (f, task) → (s.core d).inbound = [] → q.chip = l ++ [t] → t ∉ l → (s.ctx t).place = .deque d →
    gives (.idleSlotTakeWork d k) s fun u =>
    (u.ctx t).place = .slot d k ∧ (u.ctx t).regs = (s.ctx t).regs ∧ (u.ctx t).pc = (s.ctx t).pc ∧
    t ∉ ((u.core d).deque task).chip ∧ u.mem = s.mem) ∧
  (s.slotTask d k = some (f, task) → (s.core d).inbound = [] → q.chip = [] → q.spill = [] → (s.core d).stealBusy = false →
    (s.core d).stealWaitFrom = none → s.victim d task = some v → gives (.idleSlotTakeWork d k) s fun u =>
    (∃ m, u.flights = s.flights ++ [m] ∧ m.op = .stealReq task ∧ m.core = d ∧ m.slot = k) ∧ (u.core d).stealBusy = true ∧
    (u.core d).lastVictim = some v ∧ u.ctxs = s.ctxs) ∧
  (s.slotTask d k = none → exec (.idleSlotTakeWork d k) s = .next s) ∧
  (atTcm m → m.op = .stealReq task → s.closed d = false → q.chip = [] → q.spill = [] → gives (.stealRequestArrive m.id) s fun u =>
    ∃ r, u.flights = (s.dropMsg m.id).flights ++ [r] ∧ r.op = .stealRep none ∧ u.ctxs = s.ctxs) ∧
  (atTcm m → m.op = .stealReq task → s.closed d = false → q.spill = [] → q.chip = t :: l → t ∉ l → (s.ctx t).place = .deque d →
    s.settled t = true → gives (.stealRequestArrive m.id) s fun u =>
    (∃ r, u.flights = (s.dropMsg m.id).flights ++ [r] ∧ r.op = .stealRep (some t)) ∧ (u.ctx t).place = .transit d 0 ∧
    (u.ctx t).regs = (s.ctx t).regs ∧ ((u.core d).deque task).chip = l) ∧
  (atTcm m → m.op = .stealReq task → s.closed d = true → exec (.stealRequestArrive m.id) s =
    .next (s.setMsg { m with
      loc := .refused
      ticket := some (s.core m.core).cycle })) ∧
  (atTcm m → m.op = .stealRep none → (s.core d).reserved.look (m.fn * 16 + m.slot) = some task →
    gives (.stealReplyArrive m.id) s fun u =>
    let others := ((s.spanCores task).filter fun e => e ≠ d).length
    u.flights = (s.dropMsg m.id).flights ∧ (u.core d).stealBusy = false ∧
    (u.core d).stealWaitFrom = (if others ≤ (s.core d).emptyReplies + 1 then some (s.core d).cycle else (s.core d).stealWaitFrom) ∧
    (u.core d).emptyReplies = (if others ≤ (s.core d).emptyReplies + 1 then 0 else (s.core d).emptyReplies + 1)) ∧
  (atTcm m → m.op = .stealRep (some t) → (s.ctxs.look t).isSome = true → (s.ctx t).stop = false → s.closed d = false →
    s.idleSlot (s.ctx t).task (s.ctx t).fn d = some k → gives (.stealReplyArrive m.id) s fun u =>
    (u.ctx t).place = .slot d k ∧ (u.ctx t).regs = (s.ctx t).regs ∧ (u.core d).stealBusy = false ∧ (u.core d).emptyReplies = 0 ∧
    u.flights = (s.dropMsg m.id).flights) ∧
  (∀ n, (s.core d).stealWaitFrom = some n → exec (.stealBackoffExpire d) s =
    .next (if n + 1024 ≤ (s.core d).cycle then s.modCore d fun c => { c with stealWaitFrom := none } else s))

/-- Context messages and messages (R93, R279, R314, R315): a context is seated in an idle slot of its task or refused
by a closed core; a message fills a register that awaits one, wakes a halted target and is acknowledged, waits in the
buffer otherwise, or is refused by a full one; a refused one is sent again 1,024 cycles later. -/
def Obligations.MessagesArrive : Prop := ∀ (s : State) (m : Msg) (d k t r o : Nat) (v : Word), s.msg m.id = some m →
  let atTcm : Prop := m.loc = .home ∧ s.target m.pa = some (.tcm d o)
  let reg : Reg := .g (BitVec.ofNat 6 (r + 1))
  (atTcm → m.op = .context t → (s.ctxs.look t).isSome = true → (s.ctx t).stop = false →
    (s.closed d = false → s.idleSlot (s.ctx t).task (s.ctx t).fn d = some k → gives (.contextMessageArrive m.id) s fun u =>
      (u.ctx t).place = .slot d k ∧ (u.ctx t).regs = (s.ctx t).regs ∧ (u.ctx t).pc = (s.ctx t).pc ∧
      u.flights = (s.dropMsg m.id).flights ∧ u.mem = s.mem) ∧
    (s.closed d = true → exec (.contextMessageArrive m.id) s = .next (s.setMsg { m with
      loc := .refused
      ticket := some (s.core m.core).cycle }))) ∧
  (∀ n, m.loc = .refused → m.ticket = some n →
    let sent : State := s.setMsg { m with
      loc := s.startLoc m.core m.pa
      since := s.wall
      ticket := none }
    ((∃ w, m.op = .context w ∨ m.op = .stealReq w) → exec (.contextMessageResend m.id) s =
      .next (if n + 1024 ≤ (s.core m.core).cycle then sent else s)) ∧
    (m.op = .message r v d k → exec (.messageResend m.id) s =
      .next (if n + 1024 ≤ (s.core m.core).cycle then sent else s))) ∧
  (m.op = .message r v d k → m.loc = .home → r < 8 →
    (s.messageTarget m d k = some t → s.takesMessage t reg = true → s.messageAhead m d t r = false →
      gives (.messageArrive m.id) s fun u =>
      u.peek t reg = v ∧ u.whyEmpty t reg = none ∧ (u.ctx t).park = (if (s.ctx t).park = .halted then .none else (s.ctx t).park) ∧
      (u.ctx t).pc = (s.ctx t).pc ∧ (∀ q : Reg, q ≠ reg → u.peek t q = s.peek t q) ∧ u.flights = (s.answer m .ack).flights ∧
      u.mem = s.mem) ∧
    (s.messageTarget m d k = some t → s.takesMessage t reg = false → (s.core d).msgBuf.length < 32 →
      gives (.messageArrive m.id) s fun u =>
      (u.core d).msgBuf = (s.core d).msgBuf ++ [m.id] ∧ u.flights = (s.setMsg { m with loc := .waiting }).flights ∧ u.ctxs = s.ctxs) ∧
    (s.messageTarget m d k = some t → s.takesMessage t reg = false → 32 ≤ (s.core d).msgBuf.length →
      exec (.messageArrive m.id) s = .next (s.setMsg { m with
        loc := .refused
        ticket := some (s.core m.core).cycle })) ∧
    (s.messageTarget m d k = none → gives (.messageArrive m.id) s fun u => ∃ a,
      u.flights = (s.answer m (.error (TrapRec.make 0x03 a 1 1))).flights ∧ u.ctxs = s.ctxs ∧ u.mem = s.mem))

/-! ### The machine as a whole -/

/-- R4: bit i of a word is bit i of its number, a field is its bits from the lowest on, and multi-byte values stand
little-endian, as they are written and as they are read. -/
def Obligations.LittleEndian : Prop := ∀ (s : State) (pa n v : Nat) (w : Word), Memory.wf s.mem = true →
  (∀ i < 64, w.getLsbD i = decide (w.toNat / 2 ^ i % 2 = 1)) ∧ (∀ lo len, fld w lo len = w.toNat / 2 ^ lo % 2 ^ len) ∧
  (∀ k < n, (s.wr pa n v).byte (pa + k) = BitVec.ofNat 8 (v / 256 ^ k)) ∧ sameOutside s (s.wr pa n v) pa n ∧
  (∀ k < n, s.rd pa n / 256 ^ k % 256 = (s.byte (pa + k)).toNat) ∧ s.rd pa n < 256 ^ n

/-- The conditions (R242, R256): which condition each value of COND is for sk, cset, fsk, fcset and skf, the values
that are refused, when each holds, and that fcset and fsk take bits [31:0] of their operands. -/
def Obligations.Conditions : Prop :=
  (∀ (n : BitVec 3) (k : SkipCount) (ra rb : Reg) (rd : BitVec 6),
    let ic := [ICond.eq, .ne, .lt, .ge, .ltu, .geu, .bs, .bc][n.toNat]?
    let fc_ := [FCond.eq, .ne, .lt, .ge, .un, .or][n.toNat]?
    let sc := [FeCond.full, .empty][n.toNat]?
    decodeWord (fs 0 n k.code ra.code rb.code 0) = ic.map (fun c => .sk c k ra rb) ∧
    decodeWord (fs 0 n k.code ra.code rb.code 1) = fc_.map (fun c => .fsk c k ra rb) ∧
    decodeWord (fs 0 n k.code ra.code 0 2) = sc.map (fun c => .skf c k ra) ∧
    decodeWord (fc 0 rd ra.code rb.code n 0) = ic.map (fun c => .cset c rd ra rb) ∧
    decodeWord (fc 0 rd ra.code rb.code n 1) = fc_.map (fun c => .fcset c rd ra rb)) ∧
  (∀ a b : Word, (icond .eq a b = true ↔ a = b) ∧ (icond .ne a b = true ↔ a ≠ b) ∧
    (icond .lt a b = true ↔ a.toInt < b.toInt) ∧ (icond .ge a b = true ↔ b.toInt ≤ a.toInt) ∧
    (icond .ltu a b = true ↔ a.toNat < b.toNat) ∧ (icond .geu a b = true ↔ b.toNat ≤ a.toNat) ∧
    (icond .bs a b = true ↔ a.getLsbD (b.toNat % 64) = true) ∧ (icond .bc a b = true ↔ a.getLsbD (b.toNat % 64) = false)) ∧
  (∀ x y : BitVec 32,
    let nan : Prop := fp32Value x = none ∨ fp32Value y = none
    let both (p : Int → Int → Prop) : Prop := ∃ u v, fp32Value x = some u ∧ fp32Value y = some v ∧ p u v
    (fcond .eq x y = true ↔ both (· = ·)) ∧ (fcond .ne x y = true ↔ nan ∨ both (· ≠ ·)) ∧
    (fcond .lt x y = true ↔ both (· < ·)) ∧ (fcond .ge x y = true ↔ both (· ≥ ·)) ∧
    (fcond .un x y = true ↔ nan) ∧ (fcond .or x y = true ↔ ¬ nan)) ∧
  (∀ (s : State) (ra : Reg), ra ≠ .g 60 → ra ≠ .g 61 → (s.skfFull ra = true ↔ s.srcEmpty ra = none)) ∧
  (∀ (s : State) (c : FCond) (k : SkipCount) (rd : BitVec 6) (ra rb : Reg),
    let holds : Bool := fcond c ((s.src ra).setWidth 32) ((s.src rb).setWidth 32)
    (s.issues [ra, rb] [.g rd] → writes (.fcset c rd ra rb) s [ra, rb] (.g rd) (if holds then 1 else 0)) ∧
    (s.leads → s.issues [ra, rb] [] → changes (.fsk c k ra rb) s fun x =>
      { x.passed s [ra, rb] with skip := if holds then BitVec.ofNat 2 k.code.toNat else x.skip }))

/-- R275: brk's encoding, lone only, and its effect: the breakpoint trap at its own address with IMM13, and nothing
else. -/
def Obligations.BreakpointTraps : Prop :=
  (∀ (l : BitVec 1) (rd ra : BitVec 6) (imm : BitVec 13), decodeWord (fi l 0x1F rd ra imm) =
    if rd = 0 ∧ ra = 0 then some (.brk imm) else none) ∧
  decodeWord 0x3E000012#32 = some (.brk 0x12) ∧
  (∀ dw : Word, dw.getLsbD 31 = false → (dw.extractLsb' 25 6 = 0x1F#6 ∨ dw.extractLsb' 57 6 = 0x1F#6) →
    ∃ b, decodeUnit dw false = .illegal b) ∧
  (∀ (s : State) (imm : BitVec 13), exec (.brk imm) s = .next (s.advance.raise 0x14 s.iss.w (imm.setWidth 64)))

/-- Taking a trap of origin 0 (R204–R208): with its bit set, INTRAP clear and a delegable code, or at level F with
INTRAP clear, the thread goes to ctl.tvec; otherwise at level U it parks and a message goes to the mailbox, and at
levels S and F it stops and vector 64 of the physical function is raised. -/
def Obligations.TakingATrap : Prop := ∀ (s : State) (code : Nat) (taddr tinfo : Word), 1 ≤ code → code ≤ 0x16 →
  let c := s.ctx s.me
  let r := TrapRec.make code taddr tinfo 0
  let handler : Prop := c.intrap = false ∧ (c.lvl = .f ∨ (delegable r = true ∧ c.tdeleg.getLsbD code = true))
  let fields (intrap : Bool) : BitVec 17 :=
    BitVec.ofNat 8 code ++ 0#2 ++ BitVec.ofBool s.iss.wpos ++ BitVec.ofBool intrap ++ c.skip ++ 0#2 ++ 0#1
  let iss : Issue := { s.iss with res := .trapped }
  let parked (p : Park) : Ctx := { c with
    pc := s.iss.pc
    trapf := fields c.intrap
    taddr := taddr
    tinfo := tinfo
    park := p }
  (handler → s.raise code taddr tinfo = { s with
    ctxs := s.ctxs.put s.me { c with
      pc := c.tvec
      tvec := s.iss.pc
      trapf := fields true
      taddr := taddr
      tinfo := tinfo
      skip := 0
      park := .none }
    iss := iss }) ∧
  (¬ handler → c.lvl = .u → c.core < 4096 → c.slotNo < 16 → s.raise code taddr tinfo = { s with
    ctxs := s.ctxs.put s.me (parked .trapped)
    parts := s.parts.put c.part { s.partition c.part with
      mail := (s.partition c.part).mail ++ [⟨fields c.intrap ++ 0#3 ++ BitVec.ofNat 12 c.core ++ BitVec.ofNat 4 c.slotNo ++ 0#2 ++
        c.asid ++ 0#5 ++ BitVec.ofNat 11 c.fn, s.iss.pc, taddr, tinfo, word s.wall, 0, 0, 0⟩] }
    iss := iss }) ∧
  (¬ handler → c.lvl ≠ .u → s.raise code taddr tinfo = { s with
    ctxs := s.ctxs.put s.me (parked .stopped)
    msix := s.msix ++ [(0, 64)]
    iss := iss })

/-- Full/empty bits at stage OP (R126, R127, R314): a source that awaits a fill or a message, or that a thread that is gone
emptied, or a destination that awaits one, parks the unit with no effect but the park state, its PC still at the unit: for every
instruction that names one or two registers as its operands, for the accesses, and for every instruction of the engines with a
g operand. g0 reads zero and is full. -/
def Obligations.EmptyOperandsPark : Prop := ∀ (s : State) (rd ra rb : Reg) (r1 r2 r3 : BitVec 6) (imm : BitVec 13) (wide : BitVec 19)
    (sz : Size) (sc : Scope) (dw : Bool) (sk : SkipCount) (ic : ICond) (fc : FCond) (rm : Rm) (vd va vb : BitVec 4)
    (ta tb : BitVec 3) (ka kb ad : BitVec 2) (ty : MmaTy) (ct : CvtTy) (k : Nat),
  let parked (r : Reg) (i : Instr) : Prop := exec i s = .next { s with
    ctxs := s.ctxs.put s.me { s.ctx s.me with
      park := .reg r.code.toNat
      pc := s.iss.pc }
    iss := { s.iss with res := .parked } }
  let source (r : Reg) : Prop := r ≠ .g 60 ∧ (s.srcEmpty r = some .fill ∨ s.srcEmpty r = some .armed ∨ s.srcEmpty r = some .dead)
  let dest (r : Reg) : Prop := r ≠ .g 61 ∧ (s.srcEmpty r = some .fill ∨ s.srcEmpty r = some .armed)
  let two : List Instr := [.add rd ra rb, .sub rd ra rb, .and rd ra rb, .or rd ra rb, .xor rd ra rb, .shl rd ra rb,
    .shr rd ra rb, .sra rd ra rb, .mul rd ra rb, .mulh rd ra rb, .mulhu rd ra rb, .min rd ra rb, .max rd ra rb, .minu rd ra rb,
    .maxu rd ra rb, .adds rd ra rb, .subs rd ra rb, .div rd ra rb, .divu rd ra rb, .rem rd ra rb, .remu rd ra rb,
    .syncInit rd ra rb, .syncCall rd ra rb, .arrive rd ra rb, .syncMode rd ra rb, .syncPol rd ra rb, .sbExpect rd ra rb,
    .sbWait rd ra rb, .spawn rd ra rb, .partQuery rd ra rb, .plQuery rd ra rb]
  let one : List Instr := [.clz rd ra, .ctz rd ra, .popc rd ra, .sxb rd ra, .sxh rd ra, .sxw rd ra, .acq rd ra, .tryacq rd ra,
    .arriveWait rd ra, .plBind rd ra, .plDetach rd ra, .plEnd rd ra, .jlr rd ra, .nest rd ra, .sfRcp rd ra, .sfSqrt rd ra,
    .sfRsqrt rd ra, .sfExp2 rd ra, .sfLog2 rd ra, .sfSinpi rd ra, .sfCospi rd ra]
  let both : List Instr := [.sk ic sk ra rb, .fsk fc sk ra rb, .msgSend ra rb, .exit ra rb, .tlbInv ra rb,
    .wpSet ra rb, .cset ic r2 ra rb, .fcset fc r2 ra rb, .cmp r2 ra rb]
  let alone : List Instr := [.jr ra, .rel ra, .join ra, .go ra, .wpClr ra, .dgFold ra, .ctlWr .tvec ra, .ctlWr .tdeleg ra,
    .ctlWr .tinfo ra, .ctlWr .taddr ra, .ctlWr (.fmt ka) ra, .ctlWr .scl ra, .ctlWr .vshape ra]
  let system : List Instr := [.ctlWr .seg ra, .ctlWrx .tvec ra rb, .eretx rd ra rb, .step rd ra rb]
  let opens : List Instr := [.ringOpen (.q va) ra rb]
  let rings : List Instr := [.ringResv rd (.q va) rb, .ringPub rd (.q va) rb, .ringWait rd (.q va) rb, .ringFree rd (.q va) rb]
  let adv : List Instr := [.ringAdv (.q va) rb]
  let immediate : List Instr := [.ld sz r2 r1 imm, .addImm r2 r1 imm, .andImm r2 r1 imm, .orImm r2 r1 imm, .xorImm r2 r1 imm,
    .mulImm r2 r1 imm]
  let atomic : List Instr := [.amoAdd dw sc r2 r1 r3, .amoAnd dw sc r2 r1 r3, .amoOr dw sc r2 r1 r3, .amoXor dw sc r2 r1 r3,
    .amoSwap dw sc r2 r1 r3, .amoCas dw sc r2 r1 r3, .amoMin dw sc r2 r1 r3, .amoMax dw sc r2 r1 r3, .amoMinu dw sc r2 r1 r3,
    .amoMaxu dw sc r2 r1 r3, .amoFadd sc r2 r1 r3]
  let extended : List Instr := [.ldX sz rd r1 imm, .addImmX rd r1 imm, .feq rd r1]
  let shifts : List Instr := [.shlImm r2 r1 r3, .shrImm r2 r1 r3, .sraImm r2 r1 r3]
  let timed : List Instr := [.ldWf sz rd r1 r3, .ldTk sz rd r1 r3, .feWf rd r1 r3, .feTk rd r1 r3]
  let other : List Instr := [.amoLd dw sc r2 r1, .st sz r2 r1 imm, .bz r1 wide, .bnz r1 wide, .skImm ic sk r1 imm,
    .setm r1 wide, .seth r1 wide, .stFl sz rd r1 r3, .feFl rd r1 r3]
  let engine : List Instr := [.vshl vd va r1, .vshr vd va r1, .vcvt rm vd va r1, .vcmp vd va vb r1, .vbcast vd r1, .vld vd r1,
    .vst va r1, .vunpack vd va r1, .viota vd r1, .mma ty ka kb ad ta tb r1, .tld ta r1, .tst ta r1, .tdescWr ta r1,
    .accSt ad r1, .accLd ad r1, .accCvt ct ka ad ta r1, .srSeed r1, .phRed vd va r1, .qhist vd va r1, .qclip vd va r1,
    .qnt rm vd va vb r1, .dq vd va r1]
  let park (r : Reg) (l : List Instr) : Prop := ∀ i ∈ l, parked r i
  s.src (.g 0) = 0 ∧ s.srcEmpty (.g 0) = none ∧
  (source ra → park ra two ∧ park ra one ∧ park ra both ∧ park ra alone ∧ park ra [.csel rd ra rb] ∧ park ra opens ∧
    ((s.ctx s.me).lvl = .s → park ra system)) ∧
  (s.issues [ra] [] → source rb → park rb two ∧ park rb both ∧ park rb [.csel rd ra rb] ∧ park rb opens) ∧
  (source (.q va) → park (.q va) rings ∧ park (.q va) adv) ∧ (s.issues [.q va] [] → source rb → park rb rings ∧ park rb adv) ∧
  (s.issues [ra, rb] [] → source rd → park rd [.csel rd ra rb]) ∧
  (s.issues [ra, rb] [] → dest rd → park rd two) ∧ (s.issues [ra, rb] [] → dest (.q va) → park (.q va) opens) ∧
  (s.issues [.q va, rb] [] → dest rd → park rd rings) ∧
  (s.issues [ra] [] → dest rd → park rd one) ∧
  (dest rd → (∀ c, parked rd (.ctlRd rd c)) ∧ park rd [.engClaim rd, .dgClose rd]) ∧
  (source (.g r1) → park (.g r1) immediate ∧ park (.g r1) atomic ∧ park (.g r1) extended ∧ park (.g r1) shifts ∧
    park (.g r1) timed ∧ park (.g r1) other) ∧
  (s.issues [.g r1] [] → source (.g r2) → park (.g r2) [.st sz r2 r1 imm]) ∧
  (s.issues [.g r1] [] → source (.g r3) → park (.g r3) atomic ∧ park (.g r3) timed) ∧
  (s.issues [.g r1] [] → dest (.g r2) → park (.g r2) immediate ∧ park (.g r2) shifts ∧ park (.g r2) [.amoLd dw sc r2 r1]) ∧
  (s.issues [.g r1] [] → dest rd → park rd extended) ∧
  ((s.ctx s.me).claim = some (.bound k) → source (.g r1) → park (.g r1) engine) ∧
  ((s.ctx s.me).claim = some (.bound k) → dest (.g r1) → park (.g r1) [.tdescRd ta r1])

/-- The instructions that compute one register from registers and immediates, with the registers each reads. -/
def computing (rd r1 : BitVec 6) (ra rb : Reg) (imm : BitVec 13) (wide : BitVec 19) (sh : BitVec 6) (ic : ICond) (fc : FCond) :
    List (Instr × List Reg) :=
  [(.add (.g rd) ra rb, [ra, rb]), (.sub (.g rd) ra rb, [ra, rb]), (.and (.g rd) ra rb, [ra, rb]),
   (.or (.g rd) ra rb, [ra, rb]), (.xor (.g rd) ra rb, [ra, rb]), (.shl (.g rd) ra rb, [ra, rb]),
   (.shr (.g rd) ra rb, [ra, rb]), (.sra (.g rd) ra rb, [ra, rb]), (.mul (.g rd) ra rb, [ra, rb]),
   (.mulh (.g rd) ra rb, [ra, rb]), (.mulhu (.g rd) ra rb, [ra, rb]), (.min (.g rd) ra rb, [ra, rb]),
   (.max (.g rd) ra rb, [ra, rb]), (.minu (.g rd) ra rb, [ra, rb]), (.maxu (.g rd) ra rb, [ra, rb]),
   (.adds (.g rd) ra rb, [ra, rb]), (.subs (.g rd) ra rb, [ra, rb]), (.div (.g rd) ra rb, [ra, rb]),
   (.divu (.g rd) ra rb, [ra, rb]), (.rem (.g rd) ra rb, [ra, rb]), (.remu (.g rd) ra rb, [ra, rb]), (.clz (.g rd) ra, [ra]),
   (.ctz (.g rd) ra, [ra]), (.popc (.g rd) ra, [ra]), (.sxb (.g rd) ra, [ra]), (.sxh (.g rd) ra, [ra]),
   (.sxw (.g rd) ra, [ra]), (.cset ic rd ra rb, [ra, rb]), (.fcset fc rd ra rb, [ra, rb]), (.cmp rd ra rb, [ra, rb]),
   (.addImm rd r1 imm, [.g r1]), (.andImm rd r1 imm, [.g r1]), (.orImm rd r1 imm, [.g r1]), (.xorImm rd r1 imm, [.g r1]),
   (.mulImm rd r1 imm, [.g r1]), (.shlImm rd r1 sh, [.g r1]), (.shrImm rd r1 sh, [.g r1]), (.sraImm rd r1 sh, [.g r1]),
   (.csel (.g rd) ra rb, [ra, rb, .g rd]), (.sett rd imm, []), (.setm rd wide, [.g rd]), (.seth rd wide, [.g rd])]

/-- The words of a pair (R125, R238): with word 0 a ctl.rd of any control register, or a branch, and word 1 any instruction
that computes one register from registers and immediates, word 1 reads the registers as they stood before the pair (what it
writes is what it would write alone in that state), both results are written, and PC moves on once. -/
def Obligations.PairsReadTheOldRegisters : Prop := ∀ (s : State) (rd1 rd r1 : BitVec 6) (ra rb : Reg) (imm : BitVec 13) (wide : BitVec 19)
    (sh : BitVec 6) (ic : ICond) (fc : FCond) (w1 : BitVec 32), s.leads →
  let i1 : Issue := { s.iss with
    w := s.iss.pc + 4
    word := w1
    wpos := true
    snap := some (s.ctx s.me, (s.core (s.ctx s.me).core).bank (s.ctx s.me).fn) }
  rd ≠ 0 → rd ≠ 61 → ∀ a ∈ computing rd r1 ra rb imm wide sh ic fc, ∀ v, writes a.1 { s with iss := i1 } a.2 (.g rd) v →
  (∀ x v0, rd1 ≠ 0 → rd1 ≠ 61 → rd ≠ rd1 → writes (.ctlRd (.g rd1) x) s [] (.g rd1) v0 →
    ∃ t, runPair (.ctlRd (.g rd1) x) a.1 s i1 = .next t ∧ t.peek s.me (.g rd1) = v0 ∧ t.peek s.me (.g rd) = v ∧
      (∀ n : BitVec 6, n ≠ rd → n ≠ rd1 → t.peek s.me (.g n) = s.peek s.me (.g n)) ∧ (t.ctx s.me).pc = s.iss.next) ∧
  (∃ t, runPair (.br wide) a.1 s i1 = .next t ∧ t.peek s.me (.g rd) = v ∧
    (∀ n : BitVec 6, n ≠ rd → t.peek s.me (.g n) = s.peek s.me (.g n)) ∧
    (t.ctx s.me).pc = s.iss.w + BitVec.ofInt 64 (4 * wide.toInt))

/-- A step runs the decoded instruction (R86, R125, R237, R251): the unit at the PC of the thread that has the turn,
with its own address, NextUnit and word as the issue, or the refusal of its fetch; else an instruction held in M1 whose
earlier access has completed, and which moves on, its access sent as it was issued; else the next due event after its time has passed, with the part of a correction that is
slewed in that time, a package that is off waiting for its power; else a turn of the rotation. -/
def Obligations.StepRunsTheDecodedUnit : Prop := ∀ (s : State) (t pa : Nat) (d : Option Nat) (dt : Nat) (e : Instr)
    (rest : List (Nat × Instr)),
  let pc := (s.ctx t).pc
  let s0 := (({ s with pick := none }).corrects 0 t).setIssue t pc 0
  let dw := s.rd64 pa
  let next : Word := if dw.getLsbD 31 = true ∧ pc.getLsbD 2 = false then pc + 4 else (pc &&& ~~~7#64) + 8
  let issued (w : BitVec 32) : State := (s0.startIssue t next w).countStep t
  (s.pick = some t → (s.ctx t).regErr = none → (s.ctx t).pending = none → (s.ctx t).skip = 0 → s0.translate t (pc &&& ~~~7#64) .fetch = .ok pa d →
    (s0.target pa).isSome = true → s0.refusal (s0.request t .none pc pa none) ⟨8, false, true, false⟩ = (s0, none) →
    (∀ i, decodeUnit dw (pc.getLsbD 2) = .lone i → ∀ w, w = (if pc.getLsbD 2 then dw.extractLsb' 32 32 else dw.extractLsb' 0 32) →
      step s = exec i (issued w) ∧ (issued w).iss = ⟨t, pc, pc, next, w, pc.getLsbD 2, none, .done, none⟩) ∧
    (∀ c a, decodeUnit dw (pc.getLsbD 2) = .pair c a → ∀ s2, s2 = issued (dw.extractLsb' 0 32) →
      step s = runPair c a s2 { s2.iss with
        w := pc + 4
        word := dw.extractLsb' 32 32
        wpos := true
        snap := some (s2.ctx t, (s2.core (s2.ctx t).core).bank (s2.ctx t).fn) }) ∧
    (∀ b, decodeUnit dw (pc.getLsbD 2) = .illegal b → ∀ s2, s2 = issued (if b then dw.extractLsb' 32 32 else dw.extractLsb' 0 32) →
      step s = .next ({ s2 with iss := { s2.iss with wpos := b } }).illegal)) ∧
  (s.pick = some t → (s.ctx t).regErr = none → (s.ctx t).pending = none → (s.ctx t).skip = 0 →
    s0.translate t (pc &&& ~~~7#64) .fetch = .ok pa d → (s0.target pa).isSome = true →
    ∀ s1 r, s0.refusal (s0.request t .none pc pa none) ⟨8, false, true, false⟩ = (s1, some r) →
    step s = .next (s1.raise r.code.toNat pc r.tinfo)) ∧
  (s.pick = none → s.awake = true → s.movesOn = some t → step s = .next (s.moveOn t) ∧
    ∃ m n how, (s.ctx t).park = .held m n how ∧
      s.moveOn t = (s.modCtx t fun c => { c with park := .none }).sendNow t m how (s.ctlTime t + 2)) ∧
  (s.pick = none → (s.awake = true → s.movesOn = none) → s.agenda = (dt, e) :: rest → encodeWord 0 e = none → ∀ later, later = { s with
      agenda := rest
      wall := ((s.wall + dt : Nat) + (s.slew - slewLeft s.slew dt) : Int).toNat
      slew := slewLeft s.slew dt } →
    step s = if s.awake = true ∨ whileOff e = true then exec e later else .next later) ∧
  (s.pick = none → s.movesOn = none → s.agenda = [] → s.awake = true → step s = exec (.serveTurn s.focus) s) ∧
  (s.pick = none → s.agenda = [] → s.awake = false → step s = .fault .poweredOff)

/-- Words written out from the spec's own encodings decode to their instructions (R245, R255, R257, R261, R275 and the
chapters' examples). -/
def Obligations.WordsDecode : Prop :=
  decodeWord 0x0A20E000#32 = some (.sk .eq .two (.g 7) (.g 0)) ∧ decodeWord 0x0D90E005#32 = some (.skImm .bs .one 7 5) ∧
  decodeWord 0x0E01F000#32 = some (.jr (.g 62)) ∧ decodeWord 0x3E000012#32 = some (.brk 0x12) ∧
  decodeWord 0x58280000#32 = some (.sett 5 0) ∧ decodeWord 0x5C280040#32 = some (.seth 5 0x40) ∧
  decodeWord 0x5A280091#32 = some (.setm 5 0x91) ∧ decodeWord 0x4A28B456#32 = some (.orImm 5 5 0x1456) ∧
  decodeUnit 0x5C280040D8280000#64 false = .lone (.sett 5 0) ∧ decodeUnit 0x5C280040D8280000#64 true = .lone (.seth 5 0x40)

/-- Decoding and encoding agree (R237–R249): every well-formed instruction's word, at either value of L, decodes to it
with every operand; every word that decodes stands for one well-formed instruction, whose encoding it is. -/
def Obligations.EncodingRoundTrip : Prop :=
  (∀ (i : Instr) (l : BitVec 1) (w : BitVec 32), i.wellFormed = true → encodeWord l i = some w →
    decodeWord w = some i ∧ w.extractLsb' 31 1 = l) ∧
  (∀ (i : Instr) (w : BitVec 32), decodeWord w = some i → i.wellFormed = true ∧ encodeWord (w.extractLsb' 31 1) i = some w)

/-- Every step keeps memory in its canonical form (R4, R72): addresses strictly rising and no zero byte listed, so
that equal memories are equal data. -/
def Obligations.StepsKeepMemoryCanonical : Prop := kept fun s => Memory.wf s.mem = true

/-- The device after start-up (R39, R42, R44, R63, R84, R97, R112, R114): memory in its canonical form, every byte
zero and every word full, and the registers at the reset values that the spec gives. -/
def Obligations.ResetState : Prop :=
  let s := State.reset
  Memory.wf s.mem = true ∧ (∀ a, s.byte a = 0 ∧ s.isFull a = true) ∧ s.power = .running ∧ s.awake = true ∧
  (s.function 0).ready = true ∧ (∀ f, f ≠ 0 → (s.function f).ready = false) ∧ (∀ f q, (s.qpair f q).en = false) ∧
  s.esct = 0x07D0 ∧ s.rtolog = 0x15 ∧ s.audsig = 100 ∧ s.ptpcfg = 0x10 ∧ s.selfpkg = 0 ∧ s.bootstat = 0 ∧
  (∀ k < 16, s.link k = ⟨0, 0⟩) ∧
  (∀ p < 16, (s.partition p).en = false ∧ (s.partition p).st = 0 ∧ (s.partition p).thot = 95 ∧ (s.partition p).share = true ∧
    (s.partition p).mboxV = false ∧ (s.partition p).ptcfg = 0x00000014008001F4#64) ∧
  (∀ d, ∀ k < 32, (s.core d).turn k = ⟨if k < 16 then k else 0, decide (k < 16), false, none⟩) ∧
  (∀ a, s.owner a = .pm) ∧ (∀ f, s.fnPart f = none) ∧ (∀ a, s.asidLive a = false) ∧ (∀ cl, (s.cluster cl).mhz = 2000) ∧
  s.ctxs = [] ∧ s.tasks = [] ∧ s.flights = []
end

