-- ==== Sys2Proof/Laws/Codes.lean ====
section
/-! SUPPORT. Each code of an operand names its operand again. -/

namespace Sys2Proof

@[simp] theorem ofCode_code (r : Reg) : Reg.ofCode r.code = some r := by
  cases r with
  | g n => revert n; decide
  | h n => revert n; decide
  | q n => revert n; decide
  | i n => revert n; decide

theorem code_injective {r r' : Reg} (h : r.code = r'.code) : r = r' := by
  have := ofCode_code r
  rw [h, ofCode_code] at this
  exact (Option.some.inj this).symm

theorem code_toNat_injective {r r' : Reg} (h : r.code.toNat = r'.code.toNat) : r = r' :=
  code_injective (BitVec.eq_of_toNat_eq h)

theorem ofDstCode_code {r : Reg} (h : r.dstOk = true) : Reg.ofDstCode r.code = some r := by
  simp [Reg.ofDstCode, h]

theorem ofXcode_xcode {r : Reg} (h : r.xOk = true) : Reg.ofXcode r.xcode = some r := by
  cases r with
  | g n => cases h
  | h n => revert n; decide
  | q n => revert n; decide
  | i n => cases h

@[simp] theorem ctlReg_ofCode_code (c : CtlReg) : CtlReg.ofCode c.code = some c := by
  cases c with
  | fmt k => revert k; decide
  | _ => rfl

@[simp] theorem size_ofCode_code (x : Size) : Size.ofCode x.code = some x := by cases x <;> rfl
@[simp] theorem scope_ofCode_code (x : Scope) : Scope.ofCode x.code = some x := by cases x <;> rfl
@[simp] theorem skipCount_ofCode_code (x : SkipCount) : SkipCount.ofCode x.code = some x := by cases x <;> rfl
@[simp] theorem rm_ofCode_code (x : Rm) : Rm.ofCode x.code = some x := by cases x <;> rfl
@[simp] theorem icond_ofCode_code (x : ICond) : ICond.ofCode x.code = some x := by cases x <;> rfl
@[simp] theorem fcond_ofCode_code (x : FCond) : FCond.ofCode x.code = some x := by cases x <;> rfl
@[simp] theorem feCond_ofCode_code (x : FeCond) : FeCond.ofCode x.code = some x := by cases x <;> rfl
@[simp] theorem mmaTy_ofCode_code (x : MmaTy) : MmaTy.ofCode x.code = some x := by cases x <;> rfl
@[simp] theorem pmmTy_ofCode_code (x : PmmTy) : PmmTy.ofCode x.code = some x := by cases x <;> rfl
@[simp] theorem cvtTy_ofCode_code (x : CvtTy) : CvtTy.ofCode x.code = some x := by cases x <;> rfl
@[simp] theorem cvk_ofCode_code (x : Cvk) : Cvk.ofCode x.code = some x := by cases x <;> rfl

end Sys2Proof
end

