-- ==== Sys2Proof/Laws/Maps.lean ====
section
/-! SUPPORT. Looking up, inserting and removing in the maps of the state. -/

namespace Sys2Proof.Machine

variable {α : Type}

@[simp] theorem look_nil (k : Nat) : SMap.look ([] : SMap α) k = none := rfl

@[simp] theorem look_put_same (m : SMap α) (k : Nat) (v : α) : (m.put k v).look k = some v := by
  induction m with
  | nil => simp [SMap.put, SMap.look]
  | cons e m ih =>
    obtain ⟨k', v'⟩ := e
    simp only [SMap.put]
    split
    · simp [SMap.look]
    · split
      · simp [SMap.look]
      · rename_i _ h
        simp [SMap.look, Ne.symm h, ih]

theorem look_put_ne (m : SMap α) {k j : Nat} (v : α) (h : j ≠ k) : (m.put k v).look j = m.look j := by
  induction m with
  | nil => simp [SMap.put, SMap.look, Ne.symm h]
  | cons e m ih =>
    obtain ⟨k', v'⟩ := e
    simp only [SMap.put]
    split
    · simp [SMap.look, Ne.symm h]
    · split
      · rename_i _ h'
        subst h'
        simp [SMap.look, Ne.symm h]
      · simp only [SMap.look, ih]

theorem look_put (m : SMap α) (k j : Nat) (v : α) : (m.put k v).look j = if j = k then some v else m.look j := by
  split
  · rename_i h
    rw [h, look_put_same]
  · exact look_put_ne m v ‹_›

@[simp] theorem put_put (m : SMap α) (k : Nat) (a b : α) : (m.put k a).put k b = m.put k b := by
  induction m with
  | nil => simp [SMap.put]
  | cons e m ih =>
    obtain ⟨k', v'⟩ := e
    simp only [SMap.put]
    split
    · simp [SMap.put]
    · split
      · simp [SMap.put]
      · simp only [SMap.put, ih]
        simp_all

@[simp] theorem look_del_same (m : SMap α) (k : Nat) : (m.del k).look k = none := by
  induction m with
  | nil => rfl
  | cons e m ih =>
    obtain ⟨k', v'⟩ := e
    by_cases h : k' = k <;> simp_all [SMap.del, SMap.look]

theorem look_del_ne (m : SMap α) {k j : Nat} (h : j ≠ k) : (m.del k).look j = m.look j := by
  induction m with
  | nil => rfl
  | cons e m ih =>
    obtain ⟨k', v'⟩ := e
    by_cases h' : k' = k
    · subst h'
      simpa [SMap.del, SMap.look, Ne.symm h] using ih
    · by_cases h'' : k' = j <;> simp_all [SMap.del, SMap.look]

end Sys2Proof.Machine
end

