-- ==== Sys2Proof/Laws/State.lean ====
section
/-! SUPPORT. What each basic update of the state leaves in each field: one lemma per field per update. -/

namespace Sys2Proof.Machine

variable (s : State)

/-! ### setCtx -/

@[simp] theorem setCtx_part (t : Nat) (c : Ctx) : (s.setCtx t c).part = s.part := rfl
@[simp] theorem setCtx_farSz (t : Nat) (c : Ctx) : (s.setCtx t c).farSz = s.farSz := rfl
@[simp] theorem setCtx_farUneq (t : Nat) (c : Ctx) : (s.setCtx t c).farUneq = s.farUneq := rfl
@[simp] theorem setCtx_power (t : Nat) (c : Ctx) : (s.setCtx t c).power = s.power := rfl
@[simp] theorem setCtx_bootStep (t : Nat) (c : Ctx) : (s.setCtx t c).bootStep = s.bootStep := rfl
@[simp] theorem setCtx_bootDetail (t : Nat) (c : Ctx) : (s.setCtx t c).bootDetail = s.bootDetail := rfl
@[simp] theorem setCtx_image (t : Nat) (c : Ctx) : (s.setCtx t c).image = s.image := rfl
@[simp] theorem setCtx_fuseKey (t : Nat) (c : Ctx) : (s.setCtx t c).fuseKey = s.fuseKey := rfl
@[simp] theorem setCtx_fuseMin (t : Nat) (c : Ctx) : (s.setCtx t c).fuseMin = s.fuseMin := rfl
@[simp] theorem setCtx_tripped (t : Nat) (c : Ctx) : (s.setCtx t c).tripped = s.tripped := rfl
@[simp] theorem setCtx_updateLost (t : Nat) (c : Ctx) : (s.setCtx t c).updateLost = s.updateLost := rfl
@[simp] theorem setCtx_ecc (t : Nat) (c : Ctx) : (s.setCtx t c).ecc = s.ecc := rfl
@[simp] theorem setCtx_ue (t : Nat) (c : Ctx) : (s.setCtx t c).ue = s.ue := rfl
@[simp] theorem setCtx_soft (t : Nat) (c : Ctx) : (s.setCtx t c).soft = s.soft := rfl
@[simp] theorem setCtx_softIn (t : Nat) (c : Ctx) : (s.setCtx t c).softIn = s.softIn := rfl
@[simp] theorem setCtx_wall (t : Nat) (c : Ctx) : (s.setCtx t c).wall = s.wall := rfl
@[simp] theorem setCtx_slew (t : Nat) (c : Ctx) : (s.setCtx t c).slew = s.slew := rfl
@[simp] theorem setCtx_hold (t : Nat) (c : Ctx) : (s.setCtx t c).hold = s.hold := rfl
@[simp] theorem setCtx_temps (t : Nat) (c : Ctx) : (s.setCtx t c).temps = s.temps := rfl
@[simp] theorem setCtx_ptpcfg (t : Nat) (c : Ctx) : (s.setCtx t c).ptpcfg = s.ptpcfg := rfl
@[simp] theorem setCtx_esct (t : Nat) (c : Ctx) : (s.setCtx t c).esct = s.esct := rfl
@[simp] theorem setCtx_rtolog (t : Nat) (c : Ctx) : (s.setCtx t c).rtolog = s.rtolog := rfl
@[simp] theorem setCtx_audsig (t : Nat) (c : Ctx) : (s.setCtx t c).audsig = s.audsig := rfl
@[simp] theorem setCtx_selfpkg (t : Nat) (c : Ctx) : (s.setCtx t c).selfpkg = s.selfpkg := rfl
@[simp] theorem setCtx_links (t : Nat) (c : Ctx) : (s.setCtx t c).links = s.links := rfl
@[simp] theorem setCtx_lrt (t : Nat) (c : Ctx) : (s.setCtx t c).lrt = s.lrt := rfl
@[simp] theorem setCtx_avSeq (t : Nat) (c : Ctx) : (s.setCtx t c).avSeq = s.avSeq := rfl
@[simp] theorem setCtx_avLog (t : Nat) (c : Ctx) : (s.setCtx t c).avLog = s.avLog := rfl
@[simp] theorem setCtx_feSeq (t : Nat) (c : Ctx) : (s.setCtx t c).feSeq = s.feSeq := rfl
@[simp] theorem setCtx_feLog (t : Nat) (c : Ctx) : (s.setCtx t c).feLog = s.feLog := rfl
@[simp] theorem setCtx_waitBufs (t : Nat) (c : Ctx) : (s.setCtx t c).waitBufs = s.waitBufs := rfl
@[simp] theorem setCtx_served (t : Nat) (c : Ctx) : (s.setCtx t c).served = s.served := rfl
@[simp] theorem setCtx_escFrom (t : Nat) (c : Ctx) : (s.setCtx t c).escFrom = s.escFrom := rfl
@[simp] theorem setCtx_fns (t : Nat) (c : Ctx) : (s.setCtx t c).fns = s.fns := rfl
@[simp] theorem setCtx_cmds (t : Nat) (c : Ctx) : (s.setCtx t c).cmds = s.cmds := rfl
@[simp] theorem setCtx_nextCmd (t : Nat) (c : Ctx) : (s.setCtx t c).nextCmd = s.nextCmd := rfl
@[simp] theorem setCtx_msix (t : Nat) (c : Ctx) : (s.setCtx t c).msix = s.msix := rfl
@[simp] theorem setCtx_hostOut (t : Nat) (c : Ctx) : (s.setCtx t c).hostOut = s.hostOut := rfl
@[simp] theorem setCtx_parts (t : Nat) (c : Ctx) : (s.setCtx t c).parts = s.parts := rfl
@[simp] theorem setCtx_vfmap (t : Nat) (c : Ctx) : (s.setCtx t c).vfmap = s.vfmap := rfl
@[simp] theorem setCtx_asids (t : Nat) (c : Ctx) : (s.setCtx t c).asids = s.asids := rfl
@[simp] theorem setCtx_inval (t : Nat) (c : Ctx) : (s.setCtx t c).inval = s.inval := rfl
@[simp] theorem setCtx_fgbase (t : Nat) (c : Ctx) : (s.setCtx t c).fgbase = s.fgbase := rfl
@[simp] theorem setCtx_fglen (t : Nat) (c : Ctx) : (s.setCtx t c).fglen = s.fglen := rfl
@[simp] theorem setCtx_fgown (t : Nat) (c : Ctx) : (s.setCtx t c).fgown = s.fgown := rfl
@[simp] theorem setCtx_save (t : Nat) (c : Ctx) : (s.setCtx t c).save = s.save := rfl
@[simp] theorem setCtx_ckoff (t : Nat) (c : Ctx) : (s.setCtx t c).ckoff = s.ckoff := rfl
@[simp] theorem setCtx_images (t : Nat) (c : Ctx) : (s.setCtx t c).images = s.images := rfl
@[simp] theorem setCtx_grants (t : Nat) (c : Ctx) : (s.setCtx t c).grants = s.grants := rfl
@[simp] theorem setCtx_zeroing (t : Nat) (c : Ctx) : (s.setCtx t c).zeroing = s.zeroing := rfl
@[simp] theorem setCtx_sealed (t : Nat) (c : Ctx) : (s.setCtx t c).sealed = s.sealed := rfl
@[simp] theorem setCtx_resetting (t : Nat) (c : Ctx) : (s.setCtx t c).resetting = s.resetting := rfl
@[simp] theorem setCtx_leaving (t : Nat) (c : Ctx) : (s.setCtx t c).leaving = s.leaving := rfl
@[simp] theorem setCtx_keyCount (t : Nat) (c : Ctx) : (s.setCtx t c).keyCount = s.keyCount := rfl
@[simp] theorem setCtx_pmKey (t : Nat) (c : Ctx) : (s.setCtx t c).pmKey = s.pmKey := rfl
@[simp] theorem setCtx_cores (t : Nat) (c : Ctx) : (s.setCtx t c).cores = s.cores := rfl
@[simp] theorem setCtx_clusters (t : Nat) (c : Ctx) : (s.setCtx t c).clusters = s.clusters := rfl
@[simp] theorem setCtx_ctxs (t : Nat) (c : Ctx) : (s.setCtx t c).ctxs = s.ctxs.put t c := rfl
@[simp] theorem setCtx_nextTid (t : Nat) (c : Ctx) : (s.setCtx t c).nextTid = s.nextTid := rfl
@[simp] theorem setCtx_tasks (t : Nat) (c : Ctx) : (s.setCtx t c).tasks = s.tasks := rfl
@[simp] theorem setCtx_nextTask (t : Nat) (c : Ctx) : (s.setCtx t c).nextTask = s.nextTask := rfl
@[simp] theorem setCtx_queues (t : Nat) (c : Ctx) : (s.setCtx t c).queues = s.queues := rfl
@[simp] theorem setCtx_mem (t : Nat) (c : Ctx) : (s.setCtx t c).mem = s.mem := rfl
@[simp] theorem setCtx_empt (t : Nat) (c : Ctx) : (s.setCtx t c).empt = s.empt := rfl
@[simp] theorem setCtx_marks (t : Nat) (c : Ctx) : (s.setCtx t c).marks = s.marks := rfl
@[simp] theorem setCtx_flights (t : Nat) (c : Ctx) : (s.setCtx t c).flights = s.flights := rfl
@[simp] theorem setCtx_nextMsg (t : Nat) (c : Ctx) : (s.setCtx t c).nextMsg = s.nextMsg := rfl
@[simp] theorem setCtx_perfs (t : Nat) (c : Ctx) : (s.setCtx t c).perfs = s.perfs := rfl
@[simp] theorem setCtx_cancelled (t : Nat) (c : Ctx) : (s.setCtx t c).cancelled = s.cancelled := rfl
@[simp] theorem setCtx_arrivals (t : Nat) (c : Ctx) : (s.setCtx t c).arrivals = s.arrivals := rfl
@[simp] theorem setCtx_pins (t : Nat) (c : Ctx) : (s.setCtx t c).pins = s.pins := rfl
@[simp] theorem setCtx_holders (t : Nat) (c : Ctx) : (s.setCtx t c).holders = s.holders := rfl
@[simp] theorem setCtx_pick (t : Nat) (c : Ctx) : (s.setCtx t c).pick = s.pick := rfl
@[simp] theorem setCtx_iss (t : Nat) (c : Ctx) : (s.setCtx t c).iss = s.iss := rfl
@[simp] theorem setCtx_agenda (t : Nat) (c : Ctx) : (s.setCtx t c).agenda = s.agenda := rfl
@[simp] theorem setCtx_focus (t : Nat) (c : Ctx) : (s.setCtx t c).focus = s.focus := rfl
@[simp] theorem setCtx_fresh (t : Nat) (c : Ctx) : (s.setCtx t c).fresh = s.fresh := rfl

/-! ### modCtx -/

@[simp] theorem modCtx_part (t : Nat) (f : Ctx → Ctx) : (s.modCtx t f).part = s.part := rfl
@[simp] theorem modCtx_farSz (t : Nat) (f : Ctx → Ctx) : (s.modCtx t f).farSz = s.farSz := rfl
@[simp] theorem modCtx_farUneq (t : Nat) (f : Ctx → Ctx) : (s.modCtx t f).farUneq = s.farUneq := rfl
@[simp] theorem modCtx_power (t : Nat) (f : Ctx → Ctx) : (s.modCtx t f).power = s.power := rfl
@[simp] theorem modCtx_bootStep (t : Nat) (f : Ctx → Ctx) : (s.modCtx t f).bootStep = s.bootStep := rfl
@[simp] theorem modCtx_bootDetail (t : Nat) (f : Ctx → Ctx) : (s.modCtx t f).bootDetail = s.bootDetail := rfl
@[simp] theorem modCtx_image (t : Nat) (f : Ctx → Ctx) : (s.modCtx t f).image = s.image := rfl
@[simp] theorem modCtx_fuseKey (t : Nat) (f : Ctx → Ctx) : (s.modCtx t f).fuseKey = s.fuseKey := rfl
@[simp] theorem modCtx_fuseMin (t : Nat) (f : Ctx → Ctx) : (s.modCtx t f).fuseMin = s.fuseMin := rfl
@[simp] theorem modCtx_tripped (t : Nat) (f : Ctx → Ctx) : (s.modCtx t f).tripped = s.tripped := rfl
@[simp] theorem modCtx_updateLost (t : Nat) (f : Ctx → Ctx) : (s.modCtx t f).updateLost = s.updateLost := rfl
@[simp] theorem modCtx_ecc (t : Nat) (f : Ctx → Ctx) : (s.modCtx t f).ecc = s.ecc := rfl
@[simp] theorem modCtx_ue (t : Nat) (f : Ctx → Ctx) : (s.modCtx t f).ue = s.ue := rfl
@[simp] theorem modCtx_soft (t : Nat) (f : Ctx → Ctx) : (s.modCtx t f).soft = s.soft := rfl
@[simp] theorem modCtx_softIn (t : Nat) (f : Ctx → Ctx) : (s.modCtx t f).softIn = s.softIn := rfl
@[simp] theorem modCtx_wall (t : Nat) (f : Ctx → Ctx) : (s.modCtx t f).wall = s.wall := rfl
@[simp] theorem modCtx_slew (t : Nat) (f : Ctx → Ctx) : (s.modCtx t f).slew = s.slew := rfl
@[simp] theorem modCtx_hold (t : Nat) (f : Ctx → Ctx) : (s.modCtx t f).hold = s.hold := rfl
@[simp] theorem modCtx_temps (t : Nat) (f : Ctx → Ctx) : (s.modCtx t f).temps = s.temps := rfl
@[simp] theorem modCtx_ptpcfg (t : Nat) (f : Ctx → Ctx) : (s.modCtx t f).ptpcfg = s.ptpcfg := rfl
@[simp] theorem modCtx_esct (t : Nat) (f : Ctx → Ctx) : (s.modCtx t f).esct = s.esct := rfl
@[simp] theorem modCtx_rtolog (t : Nat) (f : Ctx → Ctx) : (s.modCtx t f).rtolog = s.rtolog := rfl
@[simp] theorem modCtx_audsig (t : Nat) (f : Ctx → Ctx) : (s.modCtx t f).audsig = s.audsig := rfl
@[simp] theorem modCtx_selfpkg (t : Nat) (f : Ctx → Ctx) : (s.modCtx t f).selfpkg = s.selfpkg := rfl
@[simp] theorem modCtx_links (t : Nat) (f : Ctx → Ctx) : (s.modCtx t f).links = s.links := rfl
@[simp] theorem modCtx_lrt (t : Nat) (f : Ctx → Ctx) : (s.modCtx t f).lrt = s.lrt := rfl
@[simp] theorem modCtx_avSeq (t : Nat) (f : Ctx → Ctx) : (s.modCtx t f).avSeq = s.avSeq := rfl
@[simp] theorem modCtx_avLog (t : Nat) (f : Ctx → Ctx) : (s.modCtx t f).avLog = s.avLog := rfl
@[simp] theorem modCtx_feSeq (t : Nat) (f : Ctx → Ctx) : (s.modCtx t f).feSeq = s.feSeq := rfl
@[simp] theorem modCtx_feLog (t : Nat) (f : Ctx → Ctx) : (s.modCtx t f).feLog = s.feLog := rfl
@[simp] theorem modCtx_waitBufs (t : Nat) (f : Ctx → Ctx) : (s.modCtx t f).waitBufs = s.waitBufs := rfl
@[simp] theorem modCtx_served (t : Nat) (f : Ctx → Ctx) : (s.modCtx t f).served = s.served := rfl
@[simp] theorem modCtx_escFrom (t : Nat) (f : Ctx → Ctx) : (s.modCtx t f).escFrom = s.escFrom := rfl
@[simp] theorem modCtx_fns (t : Nat) (f : Ctx → Ctx) : (s.modCtx t f).fns = s.fns := rfl
@[simp] theorem modCtx_cmds (t : Nat) (f : Ctx → Ctx) : (s.modCtx t f).cmds = s.cmds := rfl
@[simp] theorem modCtx_nextCmd (t : Nat) (f : Ctx → Ctx) : (s.modCtx t f).nextCmd = s.nextCmd := rfl
@[simp] theorem modCtx_msix (t : Nat) (f : Ctx → Ctx) : (s.modCtx t f).msix = s.msix := rfl
@[simp] theorem modCtx_hostOut (t : Nat) (f : Ctx → Ctx) : (s.modCtx t f).hostOut = s.hostOut := rfl
@[simp] theorem modCtx_parts (t : Nat) (f : Ctx → Ctx) : (s.modCtx t f).parts = s.parts := rfl
@[simp] theorem modCtx_vfmap (t : Nat) (f : Ctx → Ctx) : (s.modCtx t f).vfmap = s.vfmap := rfl
@[simp] theorem modCtx_asids (t : Nat) (f : Ctx → Ctx) : (s.modCtx t f).asids = s.asids := rfl
@[simp] theorem modCtx_inval (t : Nat) (f : Ctx → Ctx) : (s.modCtx t f).inval = s.inval := rfl
@[simp] theorem modCtx_fgbase (t : Nat) (f : Ctx → Ctx) : (s.modCtx t f).fgbase = s.fgbase := rfl
@[simp] theorem modCtx_fglen (t : Nat) (f : Ctx → Ctx) : (s.modCtx t f).fglen = s.fglen := rfl
@[simp] theorem modCtx_fgown (t : Nat) (f : Ctx → Ctx) : (s.modCtx t f).fgown = s.fgown := rfl
@[simp] theorem modCtx_save (t : Nat) (f : Ctx → Ctx) : (s.modCtx t f).save = s.save := rfl
@[simp] theorem modCtx_ckoff (t : Nat) (f : Ctx → Ctx) : (s.modCtx t f).ckoff = s.ckoff := rfl
@[simp] theorem modCtx_images (t : Nat) (f : Ctx → Ctx) : (s.modCtx t f).images = s.images := rfl
@[simp] theorem modCtx_grants (t : Nat) (f : Ctx → Ctx) : (s.modCtx t f).grants = s.grants := rfl
@[simp] theorem modCtx_zeroing (t : Nat) (f : Ctx → Ctx) : (s.modCtx t f).zeroing = s.zeroing := rfl
@[simp] theorem modCtx_sealed (t : Nat) (f : Ctx → Ctx) : (s.modCtx t f).sealed = s.sealed := rfl
@[simp] theorem modCtx_resetting (t : Nat) (f : Ctx → Ctx) : (s.modCtx t f).resetting = s.resetting := rfl
@[simp] theorem modCtx_leaving (t : Nat) (f : Ctx → Ctx) : (s.modCtx t f).leaving = s.leaving := rfl
@[simp] theorem modCtx_keyCount (t : Nat) (f : Ctx → Ctx) : (s.modCtx t f).keyCount = s.keyCount := rfl
@[simp] theorem modCtx_pmKey (t : Nat) (f : Ctx → Ctx) : (s.modCtx t f).pmKey = s.pmKey := rfl
@[simp] theorem modCtx_cores (t : Nat) (f : Ctx → Ctx) : (s.modCtx t f).cores = s.cores := rfl
@[simp] theorem modCtx_clusters (t : Nat) (f : Ctx → Ctx) : (s.modCtx t f).clusters = s.clusters := rfl
@[simp] theorem modCtx_ctxs (t : Nat) (f : Ctx → Ctx) : (s.modCtx t f).ctxs = s.ctxs.put t (f (s.ctx t)) := rfl
@[simp] theorem modCtx_nextTid (t : Nat) (f : Ctx → Ctx) : (s.modCtx t f).nextTid = s.nextTid := rfl
@[simp] theorem modCtx_tasks (t : Nat) (f : Ctx → Ctx) : (s.modCtx t f).tasks = s.tasks := rfl
@[simp] theorem modCtx_nextTask (t : Nat) (f : Ctx → Ctx) : (s.modCtx t f).nextTask = s.nextTask := rfl
@[simp] theorem modCtx_queues (t : Nat) (f : Ctx → Ctx) : (s.modCtx t f).queues = s.queues := rfl
@[simp] theorem modCtx_mem (t : Nat) (f : Ctx → Ctx) : (s.modCtx t f).mem = s.mem := rfl
@[simp] theorem modCtx_empt (t : Nat) (f : Ctx → Ctx) : (s.modCtx t f).empt = s.empt := rfl
@[simp] theorem modCtx_marks (t : Nat) (f : Ctx → Ctx) : (s.modCtx t f).marks = s.marks := rfl
@[simp] theorem modCtx_flights (t : Nat) (f : Ctx → Ctx) : (s.modCtx t f).flights = s.flights := rfl
@[simp] theorem modCtx_nextMsg (t : Nat) (f : Ctx → Ctx) : (s.modCtx t f).nextMsg = s.nextMsg := rfl
@[simp] theorem modCtx_perfs (t : Nat) (f : Ctx → Ctx) : (s.modCtx t f).perfs = s.perfs := rfl
@[simp] theorem modCtx_cancelled (t : Nat) (f : Ctx → Ctx) : (s.modCtx t f).cancelled = s.cancelled := rfl
@[simp] theorem modCtx_arrivals (t : Nat) (f : Ctx → Ctx) : (s.modCtx t f).arrivals = s.arrivals := rfl
@[simp] theorem modCtx_pins (t : Nat) (f : Ctx → Ctx) : (s.modCtx t f).pins = s.pins := rfl
@[simp] theorem modCtx_holders (t : Nat) (f : Ctx → Ctx) : (s.modCtx t f).holders = s.holders := rfl
@[simp] theorem modCtx_pick (t : Nat) (f : Ctx → Ctx) : (s.modCtx t f).pick = s.pick := rfl
@[simp] theorem modCtx_iss (t : Nat) (f : Ctx → Ctx) : (s.modCtx t f).iss = s.iss := rfl
@[simp] theorem modCtx_agenda (t : Nat) (f : Ctx → Ctx) : (s.modCtx t f).agenda = s.agenda := rfl
@[simp] theorem modCtx_focus (t : Nat) (f : Ctx → Ctx) : (s.modCtx t f).focus = s.focus := rfl
@[simp] theorem modCtx_fresh (t : Nat) (f : Ctx → Ctx) : (s.modCtx t f).fresh = s.fresh := rfl

/-! ### setCore -/

@[simp] theorem setCore_part (d : Nat) (c : Core) : (s.setCore d c).part = s.part := rfl
@[simp] theorem setCore_farSz (d : Nat) (c : Core) : (s.setCore d c).farSz = s.farSz := rfl
@[simp] theorem setCore_farUneq (d : Nat) (c : Core) : (s.setCore d c).farUneq = s.farUneq := rfl
@[simp] theorem setCore_power (d : Nat) (c : Core) : (s.setCore d c).power = s.power := rfl
@[simp] theorem setCore_bootStep (d : Nat) (c : Core) : (s.setCore d c).bootStep = s.bootStep := rfl
@[simp] theorem setCore_bootDetail (d : Nat) (c : Core) : (s.setCore d c).bootDetail = s.bootDetail := rfl
@[simp] theorem setCore_image (d : Nat) (c : Core) : (s.setCore d c).image = s.image := rfl
@[simp] theorem setCore_fuseKey (d : Nat) (c : Core) : (s.setCore d c).fuseKey = s.fuseKey := rfl
@[simp] theorem setCore_fuseMin (d : Nat) (c : Core) : (s.setCore d c).fuseMin = s.fuseMin := rfl
@[simp] theorem setCore_tripped (d : Nat) (c : Core) : (s.setCore d c).tripped = s.tripped := rfl
@[simp] theorem setCore_updateLost (d : Nat) (c : Core) : (s.setCore d c).updateLost = s.updateLost := rfl
@[simp] theorem setCore_ecc (d : Nat) (c : Core) : (s.setCore d c).ecc = s.ecc := rfl
@[simp] theorem setCore_ue (d : Nat) (c : Core) : (s.setCore d c).ue = s.ue := rfl
@[simp] theorem setCore_soft (d : Nat) (c : Core) : (s.setCore d c).soft = s.soft := rfl
@[simp] theorem setCore_softIn (d : Nat) (c : Core) : (s.setCore d c).softIn = s.softIn := rfl
@[simp] theorem setCore_wall (d : Nat) (c : Core) : (s.setCore d c).wall = s.wall := rfl
@[simp] theorem setCore_slew (d : Nat) (c : Core) : (s.setCore d c).slew = s.slew := rfl
@[simp] theorem setCore_hold (d : Nat) (c : Core) : (s.setCore d c).hold = s.hold := rfl
@[simp] theorem setCore_temps (d : Nat) (c : Core) : (s.setCore d c).temps = s.temps := rfl
@[simp] theorem setCore_ptpcfg (d : Nat) (c : Core) : (s.setCore d c).ptpcfg = s.ptpcfg := rfl
@[simp] theorem setCore_esct (d : Nat) (c : Core) : (s.setCore d c).esct = s.esct := rfl
@[simp] theorem setCore_rtolog (d : Nat) (c : Core) : (s.setCore d c).rtolog = s.rtolog := rfl
@[simp] theorem setCore_audsig (d : Nat) (c : Core) : (s.setCore d c).audsig = s.audsig := rfl
@[simp] theorem setCore_selfpkg (d : Nat) (c : Core) : (s.setCore d c).selfpkg = s.selfpkg := rfl
@[simp] theorem setCore_links (d : Nat) (c : Core) : (s.setCore d c).links = s.links := rfl
@[simp] theorem setCore_lrt (d : Nat) (c : Core) : (s.setCore d c).lrt = s.lrt := rfl
@[simp] theorem setCore_avSeq (d : Nat) (c : Core) : (s.setCore d c).avSeq = s.avSeq := rfl
@[simp] theorem setCore_avLog (d : Nat) (c : Core) : (s.setCore d c).avLog = s.avLog := rfl
@[simp] theorem setCore_feSeq (d : Nat) (c : Core) : (s.setCore d c).feSeq = s.feSeq := rfl
@[simp] theorem setCore_feLog (d : Nat) (c : Core) : (s.setCore d c).feLog = s.feLog := rfl
@[simp] theorem setCore_waitBufs (d : Nat) (c : Core) : (s.setCore d c).waitBufs = s.waitBufs := rfl
@[simp] theorem setCore_served (d : Nat) (c : Core) : (s.setCore d c).served = s.served := rfl
@[simp] theorem setCore_escFrom (d : Nat) (c : Core) : (s.setCore d c).escFrom = s.escFrom := rfl
@[simp] theorem setCore_fns (d : Nat) (c : Core) : (s.setCore d c).fns = s.fns := rfl
@[simp] theorem setCore_cmds (d : Nat) (c : Core) : (s.setCore d c).cmds = s.cmds := rfl
@[simp] theorem setCore_nextCmd (d : Nat) (c : Core) : (s.setCore d c).nextCmd = s.nextCmd := rfl
@[simp] theorem setCore_msix (d : Nat) (c : Core) : (s.setCore d c).msix = s.msix := rfl
@[simp] theorem setCore_hostOut (d : Nat) (c : Core) : (s.setCore d c).hostOut = s.hostOut := rfl
@[simp] theorem setCore_parts (d : Nat) (c : Core) : (s.setCore d c).parts = s.parts := rfl
@[simp] theorem setCore_vfmap (d : Nat) (c : Core) : (s.setCore d c).vfmap = s.vfmap := rfl
@[simp] theorem setCore_asids (d : Nat) (c : Core) : (s.setCore d c).asids = s.asids := rfl
@[simp] theorem setCore_inval (d : Nat) (c : Core) : (s.setCore d c).inval = s.inval := rfl
@[simp] theorem setCore_fgbase (d : Nat) (c : Core) : (s.setCore d c).fgbase = s.fgbase := rfl
@[simp] theorem setCore_fglen (d : Nat) (c : Core) : (s.setCore d c).fglen = s.fglen := rfl
@[simp] theorem setCore_fgown (d : Nat) (c : Core) : (s.setCore d c).fgown = s.fgown := rfl
@[simp] theorem setCore_save (d : Nat) (c : Core) : (s.setCore d c).save = s.save := rfl
@[simp] theorem setCore_ckoff (d : Nat) (c : Core) : (s.setCore d c).ckoff = s.ckoff := rfl
@[simp] theorem setCore_images (d : Nat) (c : Core) : (s.setCore d c).images = s.images := rfl
@[simp] theorem setCore_grants (d : Nat) (c : Core) : (s.setCore d c).grants = s.grants := rfl
@[simp] theorem setCore_zeroing (d : Nat) (c : Core) : (s.setCore d c).zeroing = s.zeroing := rfl
@[simp] theorem setCore_sealed (d : Nat) (c : Core) : (s.setCore d c).sealed = s.sealed := rfl
@[simp] theorem setCore_resetting (d : Nat) (c : Core) : (s.setCore d c).resetting = s.resetting := rfl
@[simp] theorem setCore_leaving (d : Nat) (c : Core) : (s.setCore d c).leaving = s.leaving := rfl
@[simp] theorem setCore_keyCount (d : Nat) (c : Core) : (s.setCore d c).keyCount = s.keyCount := rfl
@[simp] theorem setCore_pmKey (d : Nat) (c : Core) : (s.setCore d c).pmKey = s.pmKey := rfl
@[simp] theorem setCore_cores (d : Nat) (c : Core) : (s.setCore d c).cores = s.cores.put d c := rfl
@[simp] theorem setCore_clusters (d : Nat) (c : Core) : (s.setCore d c).clusters = s.clusters := rfl
@[simp] theorem setCore_ctxs (d : Nat) (c : Core) : (s.setCore d c).ctxs = s.ctxs := rfl
@[simp] theorem setCore_nextTid (d : Nat) (c : Core) : (s.setCore d c).nextTid = s.nextTid := rfl
@[simp] theorem setCore_tasks (d : Nat) (c : Core) : (s.setCore d c).tasks = s.tasks := rfl
@[simp] theorem setCore_nextTask (d : Nat) (c : Core) : (s.setCore d c).nextTask = s.nextTask := rfl
@[simp] theorem setCore_queues (d : Nat) (c : Core) : (s.setCore d c).queues = s.queues := rfl
@[simp] theorem setCore_mem (d : Nat) (c : Core) : (s.setCore d c).mem = s.mem := rfl
@[simp] theorem setCore_empt (d : Nat) (c : Core) : (s.setCore d c).empt = s.empt := rfl
@[simp] theorem setCore_marks (d : Nat) (c : Core) : (s.setCore d c).marks = s.marks := rfl
@[simp] theorem setCore_flights (d : Nat) (c : Core) : (s.setCore d c).flights = s.flights := rfl
@[simp] theorem setCore_nextMsg (d : Nat) (c : Core) : (s.setCore d c).nextMsg = s.nextMsg := rfl
@[simp] theorem setCore_perfs (d : Nat) (c : Core) : (s.setCore d c).perfs = s.perfs := rfl
@[simp] theorem setCore_cancelled (d : Nat) (c : Core) : (s.setCore d c).cancelled = s.cancelled := rfl
@[simp] theorem setCore_arrivals (d : Nat) (c : Core) : (s.setCore d c).arrivals = s.arrivals := rfl
@[simp] theorem setCore_pins (d : Nat) (c : Core) : (s.setCore d c).pins = s.pins := rfl
@[simp] theorem setCore_holders (d : Nat) (c : Core) : (s.setCore d c).holders = s.holders := rfl
@[simp] theorem setCore_pick (d : Nat) (c : Core) : (s.setCore d c).pick = s.pick := rfl
@[simp] theorem setCore_iss (d : Nat) (c : Core) : (s.setCore d c).iss = s.iss := rfl
@[simp] theorem setCore_agenda (d : Nat) (c : Core) : (s.setCore d c).agenda = s.agenda := rfl
@[simp] theorem setCore_focus (d : Nat) (c : Core) : (s.setCore d c).focus = s.focus := rfl
@[simp] theorem setCore_fresh (d : Nat) (c : Core) : (s.setCore d c).fresh = s.fresh := rfl

/-! ### modCore -/

@[simp] theorem modCore_part (d : Nat) (f : Core → Core) : (s.modCore d f).part = s.part := rfl
@[simp] theorem modCore_farSz (d : Nat) (f : Core → Core) : (s.modCore d f).farSz = s.farSz := rfl
@[simp] theorem modCore_farUneq (d : Nat) (f : Core → Core) : (s.modCore d f).farUneq = s.farUneq := rfl
@[simp] theorem modCore_power (d : Nat) (f : Core → Core) : (s.modCore d f).power = s.power := rfl
@[simp] theorem modCore_bootStep (d : Nat) (f : Core → Core) : (s.modCore d f).bootStep = s.bootStep := rfl
@[simp] theorem modCore_bootDetail (d : Nat) (f : Core → Core) : (s.modCore d f).bootDetail = s.bootDetail := rfl
@[simp] theorem modCore_image (d : Nat) (f : Core → Core) : (s.modCore d f).image = s.image := rfl
@[simp] theorem modCore_fuseKey (d : Nat) (f : Core → Core) : (s.modCore d f).fuseKey = s.fuseKey := rfl
@[simp] theorem modCore_fuseMin (d : Nat) (f : Core → Core) : (s.modCore d f).fuseMin = s.fuseMin := rfl
@[simp] theorem modCore_tripped (d : Nat) (f : Core → Core) : (s.modCore d f).tripped = s.tripped := rfl
@[simp] theorem modCore_updateLost (d : Nat) (f : Core → Core) : (s.modCore d f).updateLost = s.updateLost := rfl
@[simp] theorem modCore_ecc (d : Nat) (f : Core → Core) : (s.modCore d f).ecc = s.ecc := rfl
@[simp] theorem modCore_ue (d : Nat) (f : Core → Core) : (s.modCore d f).ue = s.ue := rfl
@[simp] theorem modCore_soft (d : Nat) (f : Core → Core) : (s.modCore d f).soft = s.soft := rfl
@[simp] theorem modCore_softIn (d : Nat) (f : Core → Core) : (s.modCore d f).softIn = s.softIn := rfl
@[simp] theorem modCore_wall (d : Nat) (f : Core → Core) : (s.modCore d f).wall = s.wall := rfl
@[simp] theorem modCore_slew (d : Nat) (f : Core → Core) : (s.modCore d f).slew = s.slew := rfl
@[simp] theorem modCore_hold (d : Nat) (f : Core → Core) : (s.modCore d f).hold = s.hold := rfl
@[simp] theorem modCore_temps (d : Nat) (f : Core → Core) : (s.modCore d f).temps = s.temps := rfl
@[simp] theorem modCore_ptpcfg (d : Nat) (f : Core → Core) : (s.modCore d f).ptpcfg = s.ptpcfg := rfl
@[simp] theorem modCore_esct (d : Nat) (f : Core → Core) : (s.modCore d f).esct = s.esct := rfl
@[simp] theorem modCore_rtolog (d : Nat) (f : Core → Core) : (s.modCore d f).rtolog = s.rtolog := rfl
@[simp] theorem modCore_audsig (d : Nat) (f : Core → Core) : (s.modCore d f).audsig = s.audsig := rfl
@[simp] theorem modCore_selfpkg (d : Nat) (f : Core → Core) : (s.modCore d f).selfpkg = s.selfpkg := rfl
@[simp] theorem modCore_links (d : Nat) (f : Core → Core) : (s.modCore d f).links = s.links := rfl
@[simp] theorem modCore_lrt (d : Nat) (f : Core → Core) : (s.modCore d f).lrt = s.lrt := rfl
@[simp] theorem modCore_avSeq (d : Nat) (f : Core → Core) : (s.modCore d f).avSeq = s.avSeq := rfl
@[simp] theorem modCore_avLog (d : Nat) (f : Core → Core) : (s.modCore d f).avLog = s.avLog := rfl
@[simp] theorem modCore_feSeq (d : Nat) (f : Core → Core) : (s.modCore d f).feSeq = s.feSeq := rfl
@[simp] theorem modCore_feLog (d : Nat) (f : Core → Core) : (s.modCore d f).feLog = s.feLog := rfl
@[simp] theorem modCore_waitBufs (d : Nat) (f : Core → Core) : (s.modCore d f).waitBufs = s.waitBufs := rfl
@[simp] theorem modCore_served (d : Nat) (f : Core → Core) : (s.modCore d f).served = s.served := rfl
@[simp] theorem modCore_escFrom (d : Nat) (f : Core → Core) : (s.modCore d f).escFrom = s.escFrom := rfl
@[simp] theorem modCore_fns (d : Nat) (f : Core → Core) : (s.modCore d f).fns = s.fns := rfl
@[simp] theorem modCore_cmds (d : Nat) (f : Core → Core) : (s.modCore d f).cmds = s.cmds := rfl
@[simp] theorem modCore_nextCmd (d : Nat) (f : Core → Core) : (s.modCore d f).nextCmd = s.nextCmd := rfl
@[simp] theorem modCore_msix (d : Nat) (f : Core → Core) : (s.modCore d f).msix = s.msix := rfl
@[simp] theorem modCore_hostOut (d : Nat) (f : Core → Core) : (s.modCore d f).hostOut = s.hostOut := rfl
@[simp] theorem modCore_parts (d : Nat) (f : Core → Core) : (s.modCore d f).parts = s.parts := rfl
@[simp] theorem modCore_vfmap (d : Nat) (f : Core → Core) : (s.modCore d f).vfmap = s.vfmap := rfl
@[simp] theorem modCore_asids (d : Nat) (f : Core → Core) : (s.modCore d f).asids = s.asids := rfl
@[simp] theorem modCore_inval (d : Nat) (f : Core → Core) : (s.modCore d f).inval = s.inval := rfl
@[simp] theorem modCore_fgbase (d : Nat) (f : Core → Core) : (s.modCore d f).fgbase = s.fgbase := rfl
@[simp] theorem modCore_fglen (d : Nat) (f : Core → Core) : (s.modCore d f).fglen = s.fglen := rfl
@[simp] theorem modCore_fgown (d : Nat) (f : Core → Core) : (s.modCore d f).fgown = s.fgown := rfl
@[simp] theorem modCore_save (d : Nat) (f : Core → Core) : (s.modCore d f).save = s.save := rfl
@[simp] theorem modCore_ckoff (d : Nat) (f : Core → Core) : (s.modCore d f).ckoff = s.ckoff := rfl
@[simp] theorem modCore_images (d : Nat) (f : Core → Core) : (s.modCore d f).images = s.images := rfl
@[simp] theorem modCore_grants (d : Nat) (f : Core → Core) : (s.modCore d f).grants = s.grants := rfl
@[simp] theorem modCore_zeroing (d : Nat) (f : Core → Core) : (s.modCore d f).zeroing = s.zeroing := rfl
@[simp] theorem modCore_sealed (d : Nat) (f : Core → Core) : (s.modCore d f).sealed = s.sealed := rfl
@[simp] theorem modCore_resetting (d : Nat) (f : Core → Core) : (s.modCore d f).resetting = s.resetting := rfl
@[simp] theorem modCore_leaving (d : Nat) (f : Core → Core) : (s.modCore d f).leaving = s.leaving := rfl
@[simp] theorem modCore_keyCount (d : Nat) (f : Core → Core) : (s.modCore d f).keyCount = s.keyCount := rfl
@[simp] theorem modCore_pmKey (d : Nat) (f : Core → Core) : (s.modCore d f).pmKey = s.pmKey := rfl
@[simp] theorem modCore_cores (d : Nat) (f : Core → Core) : (s.modCore d f).cores = s.cores.put d (f (s.core d)) := rfl
@[simp] theorem modCore_clusters (d : Nat) (f : Core → Core) : (s.modCore d f).clusters = s.clusters := rfl
@[simp] theorem modCore_ctxs (d : Nat) (f : Core → Core) : (s.modCore d f).ctxs = s.ctxs := rfl
@[simp] theorem modCore_nextTid (d : Nat) (f : Core → Core) : (s.modCore d f).nextTid = s.nextTid := rfl
@[simp] theorem modCore_tasks (d : Nat) (f : Core → Core) : (s.modCore d f).tasks = s.tasks := rfl
@[simp] theorem modCore_nextTask (d : Nat) (f : Core → Core) : (s.modCore d f).nextTask = s.nextTask := rfl
@[simp] theorem modCore_queues (d : Nat) (f : Core → Core) : (s.modCore d f).queues = s.queues := rfl
@[simp] theorem modCore_mem (d : Nat) (f : Core → Core) : (s.modCore d f).mem = s.mem := rfl
@[simp] theorem modCore_empt (d : Nat) (f : Core → Core) : (s.modCore d f).empt = s.empt := rfl
@[simp] theorem modCore_marks (d : Nat) (f : Core → Core) : (s.modCore d f).marks = s.marks := rfl
@[simp] theorem modCore_flights (d : Nat) (f : Core → Core) : (s.modCore d f).flights = s.flights := rfl
@[simp] theorem modCore_nextMsg (d : Nat) (f : Core → Core) : (s.modCore d f).nextMsg = s.nextMsg := rfl
@[simp] theorem modCore_perfs (d : Nat) (f : Core → Core) : (s.modCore d f).perfs = s.perfs := rfl
@[simp] theorem modCore_cancelled (d : Nat) (f : Core → Core) : (s.modCore d f).cancelled = s.cancelled := rfl
@[simp] theorem modCore_arrivals (d : Nat) (f : Core → Core) : (s.modCore d f).arrivals = s.arrivals := rfl
@[simp] theorem modCore_pins (d : Nat) (f : Core → Core) : (s.modCore d f).pins = s.pins := rfl
@[simp] theorem modCore_holders (d : Nat) (f : Core → Core) : (s.modCore d f).holders = s.holders := rfl
@[simp] theorem modCore_pick (d : Nat) (f : Core → Core) : (s.modCore d f).pick = s.pick := rfl
@[simp] theorem modCore_iss (d : Nat) (f : Core → Core) : (s.modCore d f).iss = s.iss := rfl
@[simp] theorem modCore_agenda (d : Nat) (f : Core → Core) : (s.modCore d f).agenda = s.agenda := rfl
@[simp] theorem modCore_focus (d : Nat) (f : Core → Core) : (s.modCore d f).focus = s.focus := rfl
@[simp] theorem modCore_fresh (d : Nat) (f : Core → Core) : (s.modCore d f).fresh = s.fresh := rfl

/-! ### modCluster -/

@[simp] theorem modCluster_part (k : Nat) (f : Cluster → Cluster) : (s.modCluster k f).part = s.part := rfl
@[simp] theorem modCluster_farSz (k : Nat) (f : Cluster → Cluster) : (s.modCluster k f).farSz = s.farSz := rfl
@[simp] theorem modCluster_farUneq (k : Nat) (f : Cluster → Cluster) : (s.modCluster k f).farUneq = s.farUneq := rfl
@[simp] theorem modCluster_power (k : Nat) (f : Cluster → Cluster) : (s.modCluster k f).power = s.power := rfl
@[simp] theorem modCluster_bootStep (k : Nat) (f : Cluster → Cluster) : (s.modCluster k f).bootStep = s.bootStep := rfl
@[simp] theorem modCluster_bootDetail (k : Nat) (f : Cluster → Cluster) : (s.modCluster k f).bootDetail = s.bootDetail := rfl
@[simp] theorem modCluster_image (k : Nat) (f : Cluster → Cluster) : (s.modCluster k f).image = s.image := rfl
@[simp] theorem modCluster_fuseKey (k : Nat) (f : Cluster → Cluster) : (s.modCluster k f).fuseKey = s.fuseKey := rfl
@[simp] theorem modCluster_fuseMin (k : Nat) (f : Cluster → Cluster) : (s.modCluster k f).fuseMin = s.fuseMin := rfl
@[simp] theorem modCluster_tripped (k : Nat) (f : Cluster → Cluster) : (s.modCluster k f).tripped = s.tripped := rfl
@[simp] theorem modCluster_updateLost (k : Nat) (f : Cluster → Cluster) : (s.modCluster k f).updateLost = s.updateLost := rfl
@[simp] theorem modCluster_ecc (k : Nat) (f : Cluster → Cluster) : (s.modCluster k f).ecc = s.ecc := rfl
@[simp] theorem modCluster_ue (k : Nat) (f : Cluster → Cluster) : (s.modCluster k f).ue = s.ue := rfl
@[simp] theorem modCluster_soft (k : Nat) (f : Cluster → Cluster) : (s.modCluster k f).soft = s.soft := rfl
@[simp] theorem modCluster_softIn (k : Nat) (f : Cluster → Cluster) : (s.modCluster k f).softIn = s.softIn := rfl
@[simp] theorem modCluster_wall (k : Nat) (f : Cluster → Cluster) : (s.modCluster k f).wall = s.wall := rfl
@[simp] theorem modCluster_slew (k : Nat) (f : Cluster → Cluster) : (s.modCluster k f).slew = s.slew := rfl
@[simp] theorem modCluster_hold (k : Nat) (f : Cluster → Cluster) : (s.modCluster k f).hold = s.hold := rfl
@[simp] theorem modCluster_temps (k : Nat) (f : Cluster → Cluster) : (s.modCluster k f).temps = s.temps := rfl
@[simp] theorem modCluster_ptpcfg (k : Nat) (f : Cluster → Cluster) : (s.modCluster k f).ptpcfg = s.ptpcfg := rfl
@[simp] theorem modCluster_esct (k : Nat) (f : Cluster → Cluster) : (s.modCluster k f).esct = s.esct := rfl
@[simp] theorem modCluster_rtolog (k : Nat) (f : Cluster → Cluster) : (s.modCluster k f).rtolog = s.rtolog := rfl
@[simp] theorem modCluster_audsig (k : Nat) (f : Cluster → Cluster) : (s.modCluster k f).audsig = s.audsig := rfl
@[simp] theorem modCluster_selfpkg (k : Nat) (f : Cluster → Cluster) : (s.modCluster k f).selfpkg = s.selfpkg := rfl
@[simp] theorem modCluster_links (k : Nat) (f : Cluster → Cluster) : (s.modCluster k f).links = s.links := rfl
@[simp] theorem modCluster_lrt (k : Nat) (f : Cluster → Cluster) : (s.modCluster k f).lrt = s.lrt := rfl
@[simp] theorem modCluster_avSeq (k : Nat) (f : Cluster → Cluster) : (s.modCluster k f).avSeq = s.avSeq := rfl
@[simp] theorem modCluster_avLog (k : Nat) (f : Cluster → Cluster) : (s.modCluster k f).avLog = s.avLog := rfl
@[simp] theorem modCluster_feSeq (k : Nat) (f : Cluster → Cluster) : (s.modCluster k f).feSeq = s.feSeq := rfl
@[simp] theorem modCluster_feLog (k : Nat) (f : Cluster → Cluster) : (s.modCluster k f).feLog = s.feLog := rfl
@[simp] theorem modCluster_waitBufs (k : Nat) (f : Cluster → Cluster) : (s.modCluster k f).waitBufs = s.waitBufs := rfl
@[simp] theorem modCluster_served (k : Nat) (f : Cluster → Cluster) : (s.modCluster k f).served = s.served := rfl
@[simp] theorem modCluster_escFrom (k : Nat) (f : Cluster → Cluster) : (s.modCluster k f).escFrom = s.escFrom := rfl
@[simp] theorem modCluster_fns (k : Nat) (f : Cluster → Cluster) : (s.modCluster k f).fns = s.fns := rfl
@[simp] theorem modCluster_cmds (k : Nat) (f : Cluster → Cluster) : (s.modCluster k f).cmds = s.cmds := rfl
@[simp] theorem modCluster_nextCmd (k : Nat) (f : Cluster → Cluster) : (s.modCluster k f).nextCmd = s.nextCmd := rfl
@[simp] theorem modCluster_msix (k : Nat) (f : Cluster → Cluster) : (s.modCluster k f).msix = s.msix := rfl
@[simp] theorem modCluster_hostOut (k : Nat) (f : Cluster → Cluster) : (s.modCluster k f).hostOut = s.hostOut := rfl
@[simp] theorem modCluster_parts (k : Nat) (f : Cluster → Cluster) : (s.modCluster k f).parts = s.parts := rfl
@[simp] theorem modCluster_vfmap (k : Nat) (f : Cluster → Cluster) : (s.modCluster k f).vfmap = s.vfmap := rfl
@[simp] theorem modCluster_asids (k : Nat) (f : Cluster → Cluster) : (s.modCluster k f).asids = s.asids := rfl
@[simp] theorem modCluster_inval (k : Nat) (f : Cluster → Cluster) : (s.modCluster k f).inval = s.inval := rfl
@[simp] theorem modCluster_fgbase (k : Nat) (f : Cluster → Cluster) : (s.modCluster k f).fgbase = s.fgbase := rfl
@[simp] theorem modCluster_fglen (k : Nat) (f : Cluster → Cluster) : (s.modCluster k f).fglen = s.fglen := rfl
@[simp] theorem modCluster_fgown (k : Nat) (f : Cluster → Cluster) : (s.modCluster k f).fgown = s.fgown := rfl
@[simp] theorem modCluster_save (k : Nat) (f : Cluster → Cluster) : (s.modCluster k f).save = s.save := rfl
@[simp] theorem modCluster_ckoff (k : Nat) (f : Cluster → Cluster) : (s.modCluster k f).ckoff = s.ckoff := rfl
@[simp] theorem modCluster_images (k : Nat) (f : Cluster → Cluster) : (s.modCluster k f).images = s.images := rfl
@[simp] theorem modCluster_grants (k : Nat) (f : Cluster → Cluster) : (s.modCluster k f).grants = s.grants := rfl
@[simp] theorem modCluster_zeroing (k : Nat) (f : Cluster → Cluster) : (s.modCluster k f).zeroing = s.zeroing := rfl
@[simp] theorem modCluster_sealed (k : Nat) (f : Cluster → Cluster) : (s.modCluster k f).sealed = s.sealed := rfl
@[simp] theorem modCluster_resetting (k : Nat) (f : Cluster → Cluster) : (s.modCluster k f).resetting = s.resetting := rfl
@[simp] theorem modCluster_leaving (k : Nat) (f : Cluster → Cluster) : (s.modCluster k f).leaving = s.leaving := rfl
@[simp] theorem modCluster_keyCount (k : Nat) (f : Cluster → Cluster) : (s.modCluster k f).keyCount = s.keyCount := rfl
@[simp] theorem modCluster_pmKey (k : Nat) (f : Cluster → Cluster) : (s.modCluster k f).pmKey = s.pmKey := rfl
@[simp] theorem modCluster_cores (k : Nat) (f : Cluster → Cluster) : (s.modCluster k f).cores = s.cores := rfl
@[simp] theorem modCluster_clusters (k : Nat) (f : Cluster → Cluster) : (s.modCluster k f).clusters = s.clusters.put k (f (s.cluster k)) := rfl
@[simp] theorem modCluster_ctxs (k : Nat) (f : Cluster → Cluster) : (s.modCluster k f).ctxs = s.ctxs := rfl
@[simp] theorem modCluster_nextTid (k : Nat) (f : Cluster → Cluster) : (s.modCluster k f).nextTid = s.nextTid := rfl
@[simp] theorem modCluster_tasks (k : Nat) (f : Cluster → Cluster) : (s.modCluster k f).tasks = s.tasks := rfl
@[simp] theorem modCluster_nextTask (k : Nat) (f : Cluster → Cluster) : (s.modCluster k f).nextTask = s.nextTask := rfl
@[simp] theorem modCluster_queues (k : Nat) (f : Cluster → Cluster) : (s.modCluster k f).queues = s.queues := rfl
@[simp] theorem modCluster_mem (k : Nat) (f : Cluster → Cluster) : (s.modCluster k f).mem = s.mem := rfl
@[simp] theorem modCluster_empt (k : Nat) (f : Cluster → Cluster) : (s.modCluster k f).empt = s.empt := rfl
@[simp] theorem modCluster_marks (k : Nat) (f : Cluster → Cluster) : (s.modCluster k f).marks = s.marks := rfl
@[simp] theorem modCluster_flights (k : Nat) (f : Cluster → Cluster) : (s.modCluster k f).flights = s.flights := rfl
@[simp] theorem modCluster_nextMsg (k : Nat) (f : Cluster → Cluster) : (s.modCluster k f).nextMsg = s.nextMsg := rfl
@[simp] theorem modCluster_perfs (k : Nat) (f : Cluster → Cluster) : (s.modCluster k f).perfs = s.perfs := rfl
@[simp] theorem modCluster_cancelled (k : Nat) (f : Cluster → Cluster) : (s.modCluster k f).cancelled = s.cancelled := rfl
@[simp] theorem modCluster_arrivals (k : Nat) (f : Cluster → Cluster) : (s.modCluster k f).arrivals = s.arrivals := rfl
@[simp] theorem modCluster_pins (k : Nat) (f : Cluster → Cluster) : (s.modCluster k f).pins = s.pins := rfl
@[simp] theorem modCluster_holders (k : Nat) (f : Cluster → Cluster) : (s.modCluster k f).holders = s.holders := rfl
@[simp] theorem modCluster_pick (k : Nat) (f : Cluster → Cluster) : (s.modCluster k f).pick = s.pick := rfl
@[simp] theorem modCluster_iss (k : Nat) (f : Cluster → Cluster) : (s.modCluster k f).iss = s.iss := rfl
@[simp] theorem modCluster_agenda (k : Nat) (f : Cluster → Cluster) : (s.modCluster k f).agenda = s.agenda := rfl
@[simp] theorem modCluster_focus (k : Nat) (f : Cluster → Cluster) : (s.modCluster k f).focus = s.focus := rfl
@[simp] theorem modCluster_fresh (k : Nat) (f : Cluster → Cluster) : (s.modCluster k f).fresh = s.fresh := rfl

/-! ### modPart -/

@[simp] theorem modPart_part (p : Nat) (f : Partition → Partition) : (s.modPart p f).part = s.part := rfl
@[simp] theorem modPart_farSz (p : Nat) (f : Partition → Partition) : (s.modPart p f).farSz = s.farSz := rfl
@[simp] theorem modPart_farUneq (p : Nat) (f : Partition → Partition) : (s.modPart p f).farUneq = s.farUneq := rfl
@[simp] theorem modPart_power (p : Nat) (f : Partition → Partition) : (s.modPart p f).power = s.power := rfl
@[simp] theorem modPart_bootStep (p : Nat) (f : Partition → Partition) : (s.modPart p f).bootStep = s.bootStep := rfl
@[simp] theorem modPart_bootDetail (p : Nat) (f : Partition → Partition) : (s.modPart p f).bootDetail = s.bootDetail := rfl
@[simp] theorem modPart_image (p : Nat) (f : Partition → Partition) : (s.modPart p f).image = s.image := rfl
@[simp] theorem modPart_fuseKey (p : Nat) (f : Partition → Partition) : (s.modPart p f).fuseKey = s.fuseKey := rfl
@[simp] theorem modPart_fuseMin (p : Nat) (f : Partition → Partition) : (s.modPart p f).fuseMin = s.fuseMin := rfl
@[simp] theorem modPart_tripped (p : Nat) (f : Partition → Partition) : (s.modPart p f).tripped = s.tripped := rfl
@[simp] theorem modPart_updateLost (p : Nat) (f : Partition → Partition) : (s.modPart p f).updateLost = s.updateLost := rfl
@[simp] theorem modPart_ecc (p : Nat) (f : Partition → Partition) : (s.modPart p f).ecc = s.ecc := rfl
@[simp] theorem modPart_ue (p : Nat) (f : Partition → Partition) : (s.modPart p f).ue = s.ue := rfl
@[simp] theorem modPart_soft (p : Nat) (f : Partition → Partition) : (s.modPart p f).soft = s.soft := rfl
@[simp] theorem modPart_softIn (p : Nat) (f : Partition → Partition) : (s.modPart p f).softIn = s.softIn := rfl
@[simp] theorem modPart_wall (p : Nat) (f : Partition → Partition) : (s.modPart p f).wall = s.wall := rfl
@[simp] theorem modPart_slew (p : Nat) (f : Partition → Partition) : (s.modPart p f).slew = s.slew := rfl
@[simp] theorem modPart_hold (p : Nat) (f : Partition → Partition) : (s.modPart p f).hold = s.hold := rfl
@[simp] theorem modPart_temps (p : Nat) (f : Partition → Partition) : (s.modPart p f).temps = s.temps := rfl
@[simp] theorem modPart_ptpcfg (p : Nat) (f : Partition → Partition) : (s.modPart p f).ptpcfg = s.ptpcfg := rfl
@[simp] theorem modPart_esct (p : Nat) (f : Partition → Partition) : (s.modPart p f).esct = s.esct := rfl
@[simp] theorem modPart_rtolog (p : Nat) (f : Partition → Partition) : (s.modPart p f).rtolog = s.rtolog := rfl
@[simp] theorem modPart_audsig (p : Nat) (f : Partition → Partition) : (s.modPart p f).audsig = s.audsig := rfl
@[simp] theorem modPart_selfpkg (p : Nat) (f : Partition → Partition) : (s.modPart p f).selfpkg = s.selfpkg := rfl
@[simp] theorem modPart_links (p : Nat) (f : Partition → Partition) : (s.modPart p f).links = s.links := rfl
@[simp] theorem modPart_lrt (p : Nat) (f : Partition → Partition) : (s.modPart p f).lrt = s.lrt := rfl
@[simp] theorem modPart_avSeq (p : Nat) (f : Partition → Partition) : (s.modPart p f).avSeq = s.avSeq := rfl
@[simp] theorem modPart_avLog (p : Nat) (f : Partition → Partition) : (s.modPart p f).avLog = s.avLog := rfl
@[simp] theorem modPart_feSeq (p : Nat) (f : Partition → Partition) : (s.modPart p f).feSeq = s.feSeq := rfl
@[simp] theorem modPart_feLog (p : Nat) (f : Partition → Partition) : (s.modPart p f).feLog = s.feLog := rfl
@[simp] theorem modPart_waitBufs (p : Nat) (f : Partition → Partition) : (s.modPart p f).waitBufs = s.waitBufs := rfl
@[simp] theorem modPart_served (p : Nat) (f : Partition → Partition) : (s.modPart p f).served = s.served := rfl
@[simp] theorem modPart_escFrom (p : Nat) (f : Partition → Partition) : (s.modPart p f).escFrom = s.escFrom := rfl
@[simp] theorem modPart_fns (p : Nat) (f : Partition → Partition) : (s.modPart p f).fns = s.fns := rfl
@[simp] theorem modPart_cmds (p : Nat) (f : Partition → Partition) : (s.modPart p f).cmds = s.cmds := rfl
@[simp] theorem modPart_nextCmd (p : Nat) (f : Partition → Partition) : (s.modPart p f).nextCmd = s.nextCmd := rfl
@[simp] theorem modPart_msix (p : Nat) (f : Partition → Partition) : (s.modPart p f).msix = s.msix := rfl
@[simp] theorem modPart_hostOut (p : Nat) (f : Partition → Partition) : (s.modPart p f).hostOut = s.hostOut := rfl
@[simp] theorem modPart_parts (p : Nat) (f : Partition → Partition) : (s.modPart p f).parts = s.parts.put p (f (s.partition p)) := rfl
@[simp] theorem modPart_vfmap (p : Nat) (f : Partition → Partition) : (s.modPart p f).vfmap = s.vfmap := rfl
@[simp] theorem modPart_asids (p : Nat) (f : Partition → Partition) : (s.modPart p f).asids = s.asids := rfl
@[simp] theorem modPart_inval (p : Nat) (f : Partition → Partition) : (s.modPart p f).inval = s.inval := rfl
@[simp] theorem modPart_fgbase (p : Nat) (f : Partition → Partition) : (s.modPart p f).fgbase = s.fgbase := rfl
@[simp] theorem modPart_fglen (p : Nat) (f : Partition → Partition) : (s.modPart p f).fglen = s.fglen := rfl
@[simp] theorem modPart_fgown (p : Nat) (f : Partition → Partition) : (s.modPart p f).fgown = s.fgown := rfl
@[simp] theorem modPart_save (p : Nat) (f : Partition → Partition) : (s.modPart p f).save = s.save := rfl
@[simp] theorem modPart_ckoff (p : Nat) (f : Partition → Partition) : (s.modPart p f).ckoff = s.ckoff := rfl
@[simp] theorem modPart_images (p : Nat) (f : Partition → Partition) : (s.modPart p f).images = s.images := rfl
@[simp] theorem modPart_grants (p : Nat) (f : Partition → Partition) : (s.modPart p f).grants = s.grants := rfl
@[simp] theorem modPart_zeroing (p : Nat) (f : Partition → Partition) : (s.modPart p f).zeroing = s.zeroing := rfl
@[simp] theorem modPart_sealed (p : Nat) (f : Partition → Partition) : (s.modPart p f).sealed = s.sealed := rfl
@[simp] theorem modPart_resetting (p : Nat) (f : Partition → Partition) : (s.modPart p f).resetting = s.resetting := rfl
@[simp] theorem modPart_leaving (p : Nat) (f : Partition → Partition) : (s.modPart p f).leaving = s.leaving := rfl
@[simp] theorem modPart_keyCount (p : Nat) (f : Partition → Partition) : (s.modPart p f).keyCount = s.keyCount := rfl
@[simp] theorem modPart_pmKey (p : Nat) (f : Partition → Partition) : (s.modPart p f).pmKey = s.pmKey := rfl
@[simp] theorem modPart_cores (p : Nat) (f : Partition → Partition) : (s.modPart p f).cores = s.cores := rfl
@[simp] theorem modPart_clusters (p : Nat) (f : Partition → Partition) : (s.modPart p f).clusters = s.clusters := rfl
@[simp] theorem modPart_ctxs (p : Nat) (f : Partition → Partition) : (s.modPart p f).ctxs = s.ctxs := rfl
@[simp] theorem modPart_nextTid (p : Nat) (f : Partition → Partition) : (s.modPart p f).nextTid = s.nextTid := rfl
@[simp] theorem modPart_tasks (p : Nat) (f : Partition → Partition) : (s.modPart p f).tasks = s.tasks := rfl
@[simp] theorem modPart_nextTask (p : Nat) (f : Partition → Partition) : (s.modPart p f).nextTask = s.nextTask := rfl
@[simp] theorem modPart_queues (p : Nat) (f : Partition → Partition) : (s.modPart p f).queues = s.queues := rfl
@[simp] theorem modPart_mem (p : Nat) (f : Partition → Partition) : (s.modPart p f).mem = s.mem := rfl
@[simp] theorem modPart_empt (p : Nat) (f : Partition → Partition) : (s.modPart p f).empt = s.empt := rfl
@[simp] theorem modPart_marks (p : Nat) (f : Partition → Partition) : (s.modPart p f).marks = s.marks := rfl
@[simp] theorem modPart_flights (p : Nat) (f : Partition → Partition) : (s.modPart p f).flights = s.flights := rfl
@[simp] theorem modPart_nextMsg (p : Nat) (f : Partition → Partition) : (s.modPart p f).nextMsg = s.nextMsg := rfl
@[simp] theorem modPart_perfs (p : Nat) (f : Partition → Partition) : (s.modPart p f).perfs = s.perfs := rfl
@[simp] theorem modPart_cancelled (p : Nat) (f : Partition → Partition) : (s.modPart p f).cancelled = s.cancelled := rfl
@[simp] theorem modPart_arrivals (p : Nat) (f : Partition → Partition) : (s.modPart p f).arrivals = s.arrivals := rfl
@[simp] theorem modPart_pins (p : Nat) (f : Partition → Partition) : (s.modPart p f).pins = s.pins := rfl
@[simp] theorem modPart_holders (p : Nat) (f : Partition → Partition) : (s.modPart p f).holders = s.holders := rfl
@[simp] theorem modPart_pick (p : Nat) (f : Partition → Partition) : (s.modPart p f).pick = s.pick := rfl
@[simp] theorem modPart_iss (p : Nat) (f : Partition → Partition) : (s.modPart p f).iss = s.iss := rfl
@[simp] theorem modPart_agenda (p : Nat) (f : Partition → Partition) : (s.modPart p f).agenda = s.agenda := rfl
@[simp] theorem modPart_focus (p : Nat) (f : Partition → Partition) : (s.modPart p f).focus = s.focus := rfl
@[simp] theorem modPart_fresh (p : Nat) (f : Partition → Partition) : (s.modPart p f).fresh = s.fresh := rfl

/-! ### modFn -/

@[simp] theorem modFn_part (f : Nat) (g : Fn → Fn) : (s.modFn f g).part = s.part := rfl
@[simp] theorem modFn_farSz (f : Nat) (g : Fn → Fn) : (s.modFn f g).farSz = s.farSz := rfl
@[simp] theorem modFn_farUneq (f : Nat) (g : Fn → Fn) : (s.modFn f g).farUneq = s.farUneq := rfl
@[simp] theorem modFn_power (f : Nat) (g : Fn → Fn) : (s.modFn f g).power = s.power := rfl
@[simp] theorem modFn_bootStep (f : Nat) (g : Fn → Fn) : (s.modFn f g).bootStep = s.bootStep := rfl
@[simp] theorem modFn_bootDetail (f : Nat) (g : Fn → Fn) : (s.modFn f g).bootDetail = s.bootDetail := rfl
@[simp] theorem modFn_image (f : Nat) (g : Fn → Fn) : (s.modFn f g).image = s.image := rfl
@[simp] theorem modFn_fuseKey (f : Nat) (g : Fn → Fn) : (s.modFn f g).fuseKey = s.fuseKey := rfl
@[simp] theorem modFn_fuseMin (f : Nat) (g : Fn → Fn) : (s.modFn f g).fuseMin = s.fuseMin := rfl
@[simp] theorem modFn_tripped (f : Nat) (g : Fn → Fn) : (s.modFn f g).tripped = s.tripped := rfl
@[simp] theorem modFn_updateLost (f : Nat) (g : Fn → Fn) : (s.modFn f g).updateLost = s.updateLost := rfl
@[simp] theorem modFn_ecc (f : Nat) (g : Fn → Fn) : (s.modFn f g).ecc = s.ecc := rfl
@[simp] theorem modFn_ue (f : Nat) (g : Fn → Fn) : (s.modFn f g).ue = s.ue := rfl
@[simp] theorem modFn_soft (f : Nat) (g : Fn → Fn) : (s.modFn f g).soft = s.soft := rfl
@[simp] theorem modFn_softIn (f : Nat) (g : Fn → Fn) : (s.modFn f g).softIn = s.softIn := rfl
@[simp] theorem modFn_wall (f : Nat) (g : Fn → Fn) : (s.modFn f g).wall = s.wall := rfl
@[simp] theorem modFn_slew (f : Nat) (g : Fn → Fn) : (s.modFn f g).slew = s.slew := rfl
@[simp] theorem modFn_hold (f : Nat) (g : Fn → Fn) : (s.modFn f g).hold = s.hold := rfl
@[simp] theorem modFn_temps (f : Nat) (g : Fn → Fn) : (s.modFn f g).temps = s.temps := rfl
@[simp] theorem modFn_ptpcfg (f : Nat) (g : Fn → Fn) : (s.modFn f g).ptpcfg = s.ptpcfg := rfl
@[simp] theorem modFn_esct (f : Nat) (g : Fn → Fn) : (s.modFn f g).esct = s.esct := rfl
@[simp] theorem modFn_rtolog (f : Nat) (g : Fn → Fn) : (s.modFn f g).rtolog = s.rtolog := rfl
@[simp] theorem modFn_audsig (f : Nat) (g : Fn → Fn) : (s.modFn f g).audsig = s.audsig := rfl
@[simp] theorem modFn_selfpkg (f : Nat) (g : Fn → Fn) : (s.modFn f g).selfpkg = s.selfpkg := rfl
@[simp] theorem modFn_links (f : Nat) (g : Fn → Fn) : (s.modFn f g).links = s.links := rfl
@[simp] theorem modFn_lrt (f : Nat) (g : Fn → Fn) : (s.modFn f g).lrt = s.lrt := rfl
@[simp] theorem modFn_avSeq (f : Nat) (g : Fn → Fn) : (s.modFn f g).avSeq = s.avSeq := rfl
@[simp] theorem modFn_avLog (f : Nat) (g : Fn → Fn) : (s.modFn f g).avLog = s.avLog := rfl
@[simp] theorem modFn_feSeq (f : Nat) (g : Fn → Fn) : (s.modFn f g).feSeq = s.feSeq := rfl
@[simp] theorem modFn_feLog (f : Nat) (g : Fn → Fn) : (s.modFn f g).feLog = s.feLog := rfl
@[simp] theorem modFn_waitBufs (f : Nat) (g : Fn → Fn) : (s.modFn f g).waitBufs = s.waitBufs := rfl
@[simp] theorem modFn_served (f : Nat) (g : Fn → Fn) : (s.modFn f g).served = s.served := rfl
@[simp] theorem modFn_escFrom (f : Nat) (g : Fn → Fn) : (s.modFn f g).escFrom = s.escFrom := rfl
@[simp] theorem modFn_fns (f : Nat) (g : Fn → Fn) : (s.modFn f g).fns = s.fns.put f (g (s.function f)) := rfl
@[simp] theorem modFn_cmds (f : Nat) (g : Fn → Fn) : (s.modFn f g).cmds = s.cmds := rfl
@[simp] theorem modFn_nextCmd (f : Nat) (g : Fn → Fn) : (s.modFn f g).nextCmd = s.nextCmd := rfl
@[simp] theorem modFn_msix (f : Nat) (g : Fn → Fn) : (s.modFn f g).msix = s.msix := rfl
@[simp] theorem modFn_hostOut (f : Nat) (g : Fn → Fn) : (s.modFn f g).hostOut = s.hostOut := rfl
@[simp] theorem modFn_parts (f : Nat) (g : Fn → Fn) : (s.modFn f g).parts = s.parts := rfl
@[simp] theorem modFn_vfmap (f : Nat) (g : Fn → Fn) : (s.modFn f g).vfmap = s.vfmap := rfl
@[simp] theorem modFn_asids (f : Nat) (g : Fn → Fn) : (s.modFn f g).asids = s.asids := rfl
@[simp] theorem modFn_inval (f : Nat) (g : Fn → Fn) : (s.modFn f g).inval = s.inval := rfl
@[simp] theorem modFn_fgbase (f : Nat) (g : Fn → Fn) : (s.modFn f g).fgbase = s.fgbase := rfl
@[simp] theorem modFn_fglen (f : Nat) (g : Fn → Fn) : (s.modFn f g).fglen = s.fglen := rfl
@[simp] theorem modFn_fgown (f : Nat) (g : Fn → Fn) : (s.modFn f g).fgown = s.fgown := rfl
@[simp] theorem modFn_save (f : Nat) (g : Fn → Fn) : (s.modFn f g).save = s.save := rfl
@[simp] theorem modFn_ckoff (f : Nat) (g : Fn → Fn) : (s.modFn f g).ckoff = s.ckoff := rfl
@[simp] theorem modFn_images (f : Nat) (g : Fn → Fn) : (s.modFn f g).images = s.images := rfl
@[simp] theorem modFn_grants (f : Nat) (g : Fn → Fn) : (s.modFn f g).grants = s.grants := rfl
@[simp] theorem modFn_zeroing (f : Nat) (g : Fn → Fn) : (s.modFn f g).zeroing = s.zeroing := rfl
@[simp] theorem modFn_sealed (f : Nat) (g : Fn → Fn) : (s.modFn f g).sealed = s.sealed := rfl
@[simp] theorem modFn_resetting (f : Nat) (g : Fn → Fn) : (s.modFn f g).resetting = s.resetting := rfl
@[simp] theorem modFn_leaving (f : Nat) (g : Fn → Fn) : (s.modFn f g).leaving = s.leaving := rfl
@[simp] theorem modFn_keyCount (f : Nat) (g : Fn → Fn) : (s.modFn f g).keyCount = s.keyCount := rfl
@[simp] theorem modFn_pmKey (f : Nat) (g : Fn → Fn) : (s.modFn f g).pmKey = s.pmKey := rfl
@[simp] theorem modFn_cores (f : Nat) (g : Fn → Fn) : (s.modFn f g).cores = s.cores := rfl
@[simp] theorem modFn_clusters (f : Nat) (g : Fn → Fn) : (s.modFn f g).clusters = s.clusters := rfl
@[simp] theorem modFn_ctxs (f : Nat) (g : Fn → Fn) : (s.modFn f g).ctxs = s.ctxs := rfl
@[simp] theorem modFn_nextTid (f : Nat) (g : Fn → Fn) : (s.modFn f g).nextTid = s.nextTid := rfl
@[simp] theorem modFn_tasks (f : Nat) (g : Fn → Fn) : (s.modFn f g).tasks = s.tasks := rfl
@[simp] theorem modFn_nextTask (f : Nat) (g : Fn → Fn) : (s.modFn f g).nextTask = s.nextTask := rfl
@[simp] theorem modFn_queues (f : Nat) (g : Fn → Fn) : (s.modFn f g).queues = s.queues := rfl
@[simp] theorem modFn_mem (f : Nat) (g : Fn → Fn) : (s.modFn f g).mem = s.mem := rfl
@[simp] theorem modFn_empt (f : Nat) (g : Fn → Fn) : (s.modFn f g).empt = s.empt := rfl
@[simp] theorem modFn_marks (f : Nat) (g : Fn → Fn) : (s.modFn f g).marks = s.marks := rfl
@[simp] theorem modFn_flights (f : Nat) (g : Fn → Fn) : (s.modFn f g).flights = s.flights := rfl
@[simp] theorem modFn_nextMsg (f : Nat) (g : Fn → Fn) : (s.modFn f g).nextMsg = s.nextMsg := rfl
@[simp] theorem modFn_perfs (f : Nat) (g : Fn → Fn) : (s.modFn f g).perfs = s.perfs := rfl
@[simp] theorem modFn_cancelled (f : Nat) (g : Fn → Fn) : (s.modFn f g).cancelled = s.cancelled := rfl
@[simp] theorem modFn_arrivals (f : Nat) (g : Fn → Fn) : (s.modFn f g).arrivals = s.arrivals := rfl
@[simp] theorem modFn_pins (f : Nat) (g : Fn → Fn) : (s.modFn f g).pins = s.pins := rfl
@[simp] theorem modFn_holders (f : Nat) (g : Fn → Fn) : (s.modFn f g).holders = s.holders := rfl
@[simp] theorem modFn_pick (f : Nat) (g : Fn → Fn) : (s.modFn f g).pick = s.pick := rfl
@[simp] theorem modFn_iss (f : Nat) (g : Fn → Fn) : (s.modFn f g).iss = s.iss := rfl
@[simp] theorem modFn_agenda (f : Nat) (g : Fn → Fn) : (s.modFn f g).agenda = s.agenda := rfl
@[simp] theorem modFn_focus (f : Nat) (g : Fn → Fn) : (s.modFn f g).focus = s.focus := rfl
@[simp] theorem modFn_fresh (f : Nat) (g : Fn → Fn) : (s.modFn f g).fresh = s.fresh := rfl

/-! ### modTqueue -/

@[simp] theorem modTqueue_part (f q : Nat) (g : TaskQueue → TaskQueue) : (s.modTqueue f q g).part = s.part := rfl
@[simp] theorem modTqueue_farSz (f q : Nat) (g : TaskQueue → TaskQueue) : (s.modTqueue f q g).farSz = s.farSz := rfl
@[simp] theorem modTqueue_farUneq (f q : Nat) (g : TaskQueue → TaskQueue) : (s.modTqueue f q g).farUneq = s.farUneq := rfl
@[simp] theorem modTqueue_power (f q : Nat) (g : TaskQueue → TaskQueue) : (s.modTqueue f q g).power = s.power := rfl
@[simp] theorem modTqueue_bootStep (f q : Nat) (g : TaskQueue → TaskQueue) : (s.modTqueue f q g).bootStep = s.bootStep := rfl
@[simp] theorem modTqueue_bootDetail (f q : Nat) (g : TaskQueue → TaskQueue) : (s.modTqueue f q g).bootDetail = s.bootDetail := rfl
@[simp] theorem modTqueue_image (f q : Nat) (g : TaskQueue → TaskQueue) : (s.modTqueue f q g).image = s.image := rfl
@[simp] theorem modTqueue_fuseKey (f q : Nat) (g : TaskQueue → TaskQueue) : (s.modTqueue f q g).fuseKey = s.fuseKey := rfl
@[simp] theorem modTqueue_fuseMin (f q : Nat) (g : TaskQueue → TaskQueue) : (s.modTqueue f q g).fuseMin = s.fuseMin := rfl
@[simp] theorem modTqueue_tripped (f q : Nat) (g : TaskQueue → TaskQueue) : (s.modTqueue f q g).tripped = s.tripped := rfl
@[simp] theorem modTqueue_updateLost (f q : Nat) (g : TaskQueue → TaskQueue) : (s.modTqueue f q g).updateLost = s.updateLost := rfl
@[simp] theorem modTqueue_ecc (f q : Nat) (g : TaskQueue → TaskQueue) : (s.modTqueue f q g).ecc = s.ecc := rfl
@[simp] theorem modTqueue_ue (f q : Nat) (g : TaskQueue → TaskQueue) : (s.modTqueue f q g).ue = s.ue := rfl
@[simp] theorem modTqueue_soft (f q : Nat) (g : TaskQueue → TaskQueue) : (s.modTqueue f q g).soft = s.soft := rfl
@[simp] theorem modTqueue_softIn (f q : Nat) (g : TaskQueue → TaskQueue) : (s.modTqueue f q g).softIn = s.softIn := rfl
@[simp] theorem modTqueue_wall (f q : Nat) (g : TaskQueue → TaskQueue) : (s.modTqueue f q g).wall = s.wall := rfl
@[simp] theorem modTqueue_slew (f q : Nat) (g : TaskQueue → TaskQueue) : (s.modTqueue f q g).slew = s.slew := rfl
@[simp] theorem modTqueue_hold (f q : Nat) (g : TaskQueue → TaskQueue) : (s.modTqueue f q g).hold = s.hold := rfl
@[simp] theorem modTqueue_temps (f q : Nat) (g : TaskQueue → TaskQueue) : (s.modTqueue f q g).temps = s.temps := rfl
@[simp] theorem modTqueue_ptpcfg (f q : Nat) (g : TaskQueue → TaskQueue) : (s.modTqueue f q g).ptpcfg = s.ptpcfg := rfl
@[simp] theorem modTqueue_esct (f q : Nat) (g : TaskQueue → TaskQueue) : (s.modTqueue f q g).esct = s.esct := rfl
@[simp] theorem modTqueue_rtolog (f q : Nat) (g : TaskQueue → TaskQueue) : (s.modTqueue f q g).rtolog = s.rtolog := rfl
@[simp] theorem modTqueue_audsig (f q : Nat) (g : TaskQueue → TaskQueue) : (s.modTqueue f q g).audsig = s.audsig := rfl
@[simp] theorem modTqueue_selfpkg (f q : Nat) (g : TaskQueue → TaskQueue) : (s.modTqueue f q g).selfpkg = s.selfpkg := rfl
@[simp] theorem modTqueue_links (f q : Nat) (g : TaskQueue → TaskQueue) : (s.modTqueue f q g).links = s.links := rfl
@[simp] theorem modTqueue_lrt (f q : Nat) (g : TaskQueue → TaskQueue) : (s.modTqueue f q g).lrt = s.lrt := rfl
@[simp] theorem modTqueue_avSeq (f q : Nat) (g : TaskQueue → TaskQueue) : (s.modTqueue f q g).avSeq = s.avSeq := rfl
@[simp] theorem modTqueue_avLog (f q : Nat) (g : TaskQueue → TaskQueue) : (s.modTqueue f q g).avLog = s.avLog := rfl
@[simp] theorem modTqueue_feSeq (f q : Nat) (g : TaskQueue → TaskQueue) : (s.modTqueue f q g).feSeq = s.feSeq := rfl
@[simp] theorem modTqueue_feLog (f q : Nat) (g : TaskQueue → TaskQueue) : (s.modTqueue f q g).feLog = s.feLog := rfl
@[simp] theorem modTqueue_waitBufs (f q : Nat) (g : TaskQueue → TaskQueue) : (s.modTqueue f q g).waitBufs = s.waitBufs := rfl
@[simp] theorem modTqueue_served (f q : Nat) (g : TaskQueue → TaskQueue) : (s.modTqueue f q g).served = s.served := rfl
@[simp] theorem modTqueue_escFrom (f q : Nat) (g : TaskQueue → TaskQueue) : (s.modTqueue f q g).escFrom = s.escFrom := rfl
@[simp] theorem modTqueue_fns (f q : Nat) (g : TaskQueue → TaskQueue) : (s.modTqueue f q g).fns = s.fns := rfl
@[simp] theorem modTqueue_cmds (f q : Nat) (g : TaskQueue → TaskQueue) : (s.modTqueue f q g).cmds = s.cmds := rfl
@[simp] theorem modTqueue_nextCmd (f q : Nat) (g : TaskQueue → TaskQueue) : (s.modTqueue f q g).nextCmd = s.nextCmd := rfl
@[simp] theorem modTqueue_msix (f q : Nat) (g : TaskQueue → TaskQueue) : (s.modTqueue f q g).msix = s.msix := rfl
@[simp] theorem modTqueue_hostOut (f q : Nat) (g : TaskQueue → TaskQueue) : (s.modTqueue f q g).hostOut = s.hostOut := rfl
@[simp] theorem modTqueue_parts (f q : Nat) (g : TaskQueue → TaskQueue) : (s.modTqueue f q g).parts = s.parts := rfl
@[simp] theorem modTqueue_vfmap (f q : Nat) (g : TaskQueue → TaskQueue) : (s.modTqueue f q g).vfmap = s.vfmap := rfl
@[simp] theorem modTqueue_asids (f q : Nat) (g : TaskQueue → TaskQueue) : (s.modTqueue f q g).asids = s.asids := rfl
@[simp] theorem modTqueue_inval (f q : Nat) (g : TaskQueue → TaskQueue) : (s.modTqueue f q g).inval = s.inval := rfl
@[simp] theorem modTqueue_fgbase (f q : Nat) (g : TaskQueue → TaskQueue) : (s.modTqueue f q g).fgbase = s.fgbase := rfl
@[simp] theorem modTqueue_fglen (f q : Nat) (g : TaskQueue → TaskQueue) : (s.modTqueue f q g).fglen = s.fglen := rfl
@[simp] theorem modTqueue_fgown (f q : Nat) (g : TaskQueue → TaskQueue) : (s.modTqueue f q g).fgown = s.fgown := rfl
@[simp] theorem modTqueue_save (f q : Nat) (g : TaskQueue → TaskQueue) : (s.modTqueue f q g).save = s.save := rfl
@[simp] theorem modTqueue_ckoff (f q : Nat) (g : TaskQueue → TaskQueue) : (s.modTqueue f q g).ckoff = s.ckoff := rfl
@[simp] theorem modTqueue_images (f q : Nat) (g : TaskQueue → TaskQueue) : (s.modTqueue f q g).images = s.images := rfl
@[simp] theorem modTqueue_grants (f q : Nat) (g : TaskQueue → TaskQueue) : (s.modTqueue f q g).grants = s.grants := rfl
@[simp] theorem modTqueue_zeroing (f q : Nat) (g : TaskQueue → TaskQueue) : (s.modTqueue f q g).zeroing = s.zeroing := rfl
@[simp] theorem modTqueue_sealed (f q : Nat) (g : TaskQueue → TaskQueue) : (s.modTqueue f q g).sealed = s.sealed := rfl
@[simp] theorem modTqueue_resetting (f q : Nat) (g : TaskQueue → TaskQueue) : (s.modTqueue f q g).resetting = s.resetting := rfl
@[simp] theorem modTqueue_leaving (f q : Nat) (g : TaskQueue → TaskQueue) : (s.modTqueue f q g).leaving = s.leaving := rfl
@[simp] theorem modTqueue_keyCount (f q : Nat) (g : TaskQueue → TaskQueue) : (s.modTqueue f q g).keyCount = s.keyCount := rfl
@[simp] theorem modTqueue_pmKey (f q : Nat) (g : TaskQueue → TaskQueue) : (s.modTqueue f q g).pmKey = s.pmKey := rfl
@[simp] theorem modTqueue_cores (f q : Nat) (g : TaskQueue → TaskQueue) : (s.modTqueue f q g).cores = s.cores := rfl
@[simp] theorem modTqueue_clusters (f q : Nat) (g : TaskQueue → TaskQueue) : (s.modTqueue f q g).clusters = s.clusters := rfl
@[simp] theorem modTqueue_ctxs (f q : Nat) (g : TaskQueue → TaskQueue) : (s.modTqueue f q g).ctxs = s.ctxs := rfl
@[simp] theorem modTqueue_nextTid (f q : Nat) (g : TaskQueue → TaskQueue) : (s.modTqueue f q g).nextTid = s.nextTid := rfl
@[simp] theorem modTqueue_tasks (f q : Nat) (g : TaskQueue → TaskQueue) : (s.modTqueue f q g).tasks = s.tasks := rfl
@[simp] theorem modTqueue_nextTask (f q : Nat) (g : TaskQueue → TaskQueue) : (s.modTqueue f q g).nextTask = s.nextTask := rfl
@[simp] theorem modTqueue_queues (f q : Nat) (g : TaskQueue → TaskQueue) : (s.modTqueue f q g).queues = s.queues.put (queueKey f q) (g (s.tqueue f q)) := rfl
@[simp] theorem modTqueue_mem (f q : Nat) (g : TaskQueue → TaskQueue) : (s.modTqueue f q g).mem = s.mem := rfl
@[simp] theorem modTqueue_empt (f q : Nat) (g : TaskQueue → TaskQueue) : (s.modTqueue f q g).empt = s.empt := rfl
@[simp] theorem modTqueue_marks (f q : Nat) (g : TaskQueue → TaskQueue) : (s.modTqueue f q g).marks = s.marks := rfl
@[simp] theorem modTqueue_flights (f q : Nat) (g : TaskQueue → TaskQueue) : (s.modTqueue f q g).flights = s.flights := rfl
@[simp] theorem modTqueue_nextMsg (f q : Nat) (g : TaskQueue → TaskQueue) : (s.modTqueue f q g).nextMsg = s.nextMsg := rfl
@[simp] theorem modTqueue_perfs (f q : Nat) (g : TaskQueue → TaskQueue) : (s.modTqueue f q g).perfs = s.perfs := rfl
@[simp] theorem modTqueue_cancelled (f q : Nat) (g : TaskQueue → TaskQueue) : (s.modTqueue f q g).cancelled = s.cancelled := rfl
@[simp] theorem modTqueue_arrivals (f q : Nat) (g : TaskQueue → TaskQueue) : (s.modTqueue f q g).arrivals = s.arrivals := rfl
@[simp] theorem modTqueue_pins (f q : Nat) (g : TaskQueue → TaskQueue) : (s.modTqueue f q g).pins = s.pins := rfl
@[simp] theorem modTqueue_holders (f q : Nat) (g : TaskQueue → TaskQueue) : (s.modTqueue f q g).holders = s.holders := rfl
@[simp] theorem modTqueue_pick (f q : Nat) (g : TaskQueue → TaskQueue) : (s.modTqueue f q g).pick = s.pick := rfl
@[simp] theorem modTqueue_iss (f q : Nat) (g : TaskQueue → TaskQueue) : (s.modTqueue f q g).iss = s.iss := rfl
@[simp] theorem modTqueue_agenda (f q : Nat) (g : TaskQueue → TaskQueue) : (s.modTqueue f q g).agenda = s.agenda := rfl
@[simp] theorem modTqueue_focus (f q : Nat) (g : TaskQueue → TaskQueue) : (s.modTqueue f q g).focus = s.focus := rfl
@[simp] theorem modTqueue_fresh (f q : Nat) (g : TaskQueue → TaskQueue) : (s.modTqueue f q g).fresh = s.fresh := rfl

/-! ### setMsg -/

@[simp] theorem setMsg_part (m : Msg) : (s.setMsg m).part = s.part := rfl
@[simp] theorem setMsg_farSz (m : Msg) : (s.setMsg m).farSz = s.farSz := rfl
@[simp] theorem setMsg_farUneq (m : Msg) : (s.setMsg m).farUneq = s.farUneq := rfl
@[simp] theorem setMsg_power (m : Msg) : (s.setMsg m).power = s.power := rfl
@[simp] theorem setMsg_bootStep (m : Msg) : (s.setMsg m).bootStep = s.bootStep := rfl
@[simp] theorem setMsg_bootDetail (m : Msg) : (s.setMsg m).bootDetail = s.bootDetail := rfl
@[simp] theorem setMsg_image (m : Msg) : (s.setMsg m).image = s.image := rfl
@[simp] theorem setMsg_fuseKey (m : Msg) : (s.setMsg m).fuseKey = s.fuseKey := rfl
@[simp] theorem setMsg_fuseMin (m : Msg) : (s.setMsg m).fuseMin = s.fuseMin := rfl
@[simp] theorem setMsg_tripped (m : Msg) : (s.setMsg m).tripped = s.tripped := rfl
@[simp] theorem setMsg_updateLost (m : Msg) : (s.setMsg m).updateLost = s.updateLost := rfl
@[simp] theorem setMsg_ecc (m : Msg) : (s.setMsg m).ecc = s.ecc := rfl
@[simp] theorem setMsg_ue (m : Msg) : (s.setMsg m).ue = s.ue := rfl
@[simp] theorem setMsg_soft (m : Msg) : (s.setMsg m).soft = s.soft := rfl
@[simp] theorem setMsg_softIn (m : Msg) : (s.setMsg m).softIn = s.softIn := rfl
@[simp] theorem setMsg_wall (m : Msg) : (s.setMsg m).wall = s.wall := rfl
@[simp] theorem setMsg_slew (m : Msg) : (s.setMsg m).slew = s.slew := rfl
@[simp] theorem setMsg_hold (m : Msg) : (s.setMsg m).hold = s.hold := rfl
@[simp] theorem setMsg_temps (m : Msg) : (s.setMsg m).temps = s.temps := rfl
@[simp] theorem setMsg_ptpcfg (m : Msg) : (s.setMsg m).ptpcfg = s.ptpcfg := rfl
@[simp] theorem setMsg_esct (m : Msg) : (s.setMsg m).esct = s.esct := rfl
@[simp] theorem setMsg_rtolog (m : Msg) : (s.setMsg m).rtolog = s.rtolog := rfl
@[simp] theorem setMsg_audsig (m : Msg) : (s.setMsg m).audsig = s.audsig := rfl
@[simp] theorem setMsg_selfpkg (m : Msg) : (s.setMsg m).selfpkg = s.selfpkg := rfl
@[simp] theorem setMsg_links (m : Msg) : (s.setMsg m).links = s.links := rfl
@[simp] theorem setMsg_lrt (m : Msg) : (s.setMsg m).lrt = s.lrt := rfl
@[simp] theorem setMsg_avSeq (m : Msg) : (s.setMsg m).avSeq = s.avSeq := rfl
@[simp] theorem setMsg_avLog (m : Msg) : (s.setMsg m).avLog = s.avLog := rfl
@[simp] theorem setMsg_feSeq (m : Msg) : (s.setMsg m).feSeq = s.feSeq := rfl
@[simp] theorem setMsg_feLog (m : Msg) : (s.setMsg m).feLog = s.feLog := rfl
@[simp] theorem setMsg_waitBufs (m : Msg) : (s.setMsg m).waitBufs = s.waitBufs := rfl
@[simp] theorem setMsg_served (m : Msg) : (s.setMsg m).served = s.served := rfl
@[simp] theorem setMsg_escFrom (m : Msg) : (s.setMsg m).escFrom = s.escFrom := rfl
@[simp] theorem setMsg_fns (m : Msg) : (s.setMsg m).fns = s.fns := rfl
@[simp] theorem setMsg_cmds (m : Msg) : (s.setMsg m).cmds = s.cmds := rfl
@[simp] theorem setMsg_nextCmd (m : Msg) : (s.setMsg m).nextCmd = s.nextCmd := rfl
@[simp] theorem setMsg_msix (m : Msg) : (s.setMsg m).msix = s.msix := rfl
@[simp] theorem setMsg_hostOut (m : Msg) : (s.setMsg m).hostOut = s.hostOut := rfl
@[simp] theorem setMsg_parts (m : Msg) : (s.setMsg m).parts = s.parts := rfl
@[simp] theorem setMsg_vfmap (m : Msg) : (s.setMsg m).vfmap = s.vfmap := rfl
@[simp] theorem setMsg_asids (m : Msg) : (s.setMsg m).asids = s.asids := rfl
@[simp] theorem setMsg_inval (m : Msg) : (s.setMsg m).inval = s.inval := rfl
@[simp] theorem setMsg_fgbase (m : Msg) : (s.setMsg m).fgbase = s.fgbase := rfl
@[simp] theorem setMsg_fglen (m : Msg) : (s.setMsg m).fglen = s.fglen := rfl
@[simp] theorem setMsg_fgown (m : Msg) : (s.setMsg m).fgown = s.fgown := rfl
@[simp] theorem setMsg_save (m : Msg) : (s.setMsg m).save = s.save := rfl
@[simp] theorem setMsg_ckoff (m : Msg) : (s.setMsg m).ckoff = s.ckoff := rfl
@[simp] theorem setMsg_images (m : Msg) : (s.setMsg m).images = s.images := rfl
@[simp] theorem setMsg_grants (m : Msg) : (s.setMsg m).grants = s.grants := rfl
@[simp] theorem setMsg_zeroing (m : Msg) : (s.setMsg m).zeroing = s.zeroing := rfl
@[simp] theorem setMsg_sealed (m : Msg) : (s.setMsg m).sealed = s.sealed := rfl
@[simp] theorem setMsg_resetting (m : Msg) : (s.setMsg m).resetting = s.resetting := rfl
@[simp] theorem setMsg_leaving (m : Msg) : (s.setMsg m).leaving = s.leaving := rfl
@[simp] theorem setMsg_keyCount (m : Msg) : (s.setMsg m).keyCount = s.keyCount := rfl
@[simp] theorem setMsg_pmKey (m : Msg) : (s.setMsg m).pmKey = s.pmKey := rfl
@[simp] theorem setMsg_cores (m : Msg) : (s.setMsg m).cores = s.cores := rfl
@[simp] theorem setMsg_clusters (m : Msg) : (s.setMsg m).clusters = s.clusters := rfl
@[simp] theorem setMsg_ctxs (m : Msg) : (s.setMsg m).ctxs = s.ctxs := rfl
@[simp] theorem setMsg_nextTid (m : Msg) : (s.setMsg m).nextTid = s.nextTid := rfl
@[simp] theorem setMsg_tasks (m : Msg) : (s.setMsg m).tasks = s.tasks := rfl
@[simp] theorem setMsg_nextTask (m : Msg) : (s.setMsg m).nextTask = s.nextTask := rfl
@[simp] theorem setMsg_queues (m : Msg) : (s.setMsg m).queues = s.queues := rfl
@[simp] theorem setMsg_mem (m : Msg) : (s.setMsg m).mem = s.mem := rfl
@[simp] theorem setMsg_empt (m : Msg) : (s.setMsg m).empt = s.empt := rfl
@[simp] theorem setMsg_marks (m : Msg) : (s.setMsg m).marks = s.marks := rfl
@[simp] theorem setMsg_flights (m : Msg) : (s.setMsg m).flights = s.flights.map fun x => if x.id = m.id then m else x := rfl
@[simp] theorem setMsg_nextMsg (m : Msg) : (s.setMsg m).nextMsg = s.nextMsg := rfl
@[simp] theorem setMsg_perfs (m : Msg) : (s.setMsg m).perfs = s.perfs := rfl
@[simp] theorem setMsg_cancelled (m : Msg) : (s.setMsg m).cancelled = s.cancelled := rfl
@[simp] theorem setMsg_arrivals (m : Msg) : (s.setMsg m).arrivals = s.arrivals := rfl
@[simp] theorem setMsg_pins (m : Msg) : (s.setMsg m).pins = s.pins := rfl
@[simp] theorem setMsg_holders (m : Msg) : (s.setMsg m).holders = s.holders := rfl
@[simp] theorem setMsg_pick (m : Msg) : (s.setMsg m).pick = s.pick := rfl
@[simp] theorem setMsg_iss (m : Msg) : (s.setMsg m).iss = s.iss := rfl
@[simp] theorem setMsg_agenda (m : Msg) : (s.setMsg m).agenda = s.agenda := rfl
@[simp] theorem setMsg_focus (m : Msg) : (s.setMsg m).focus = s.focus := rfl
@[simp] theorem setMsg_fresh (m : Msg) : (s.setMsg m).fresh = s.fresh := rfl

/-! ### dropMsg -/

@[simp] theorem dropMsg_part (k : Nat) : (s.dropMsg k).part = s.part := rfl
@[simp] theorem dropMsg_farSz (k : Nat) : (s.dropMsg k).farSz = s.farSz := rfl
@[simp] theorem dropMsg_farUneq (k : Nat) : (s.dropMsg k).farUneq = s.farUneq := rfl
@[simp] theorem dropMsg_power (k : Nat) : (s.dropMsg k).power = s.power := rfl
@[simp] theorem dropMsg_bootStep (k : Nat) : (s.dropMsg k).bootStep = s.bootStep := rfl
@[simp] theorem dropMsg_bootDetail (k : Nat) : (s.dropMsg k).bootDetail = s.bootDetail := rfl
@[simp] theorem dropMsg_image (k : Nat) : (s.dropMsg k).image = s.image := rfl
@[simp] theorem dropMsg_fuseKey (k : Nat) : (s.dropMsg k).fuseKey = s.fuseKey := rfl
@[simp] theorem dropMsg_fuseMin (k : Nat) : (s.dropMsg k).fuseMin = s.fuseMin := rfl
@[simp] theorem dropMsg_tripped (k : Nat) : (s.dropMsg k).tripped = s.tripped := rfl
@[simp] theorem dropMsg_updateLost (k : Nat) : (s.dropMsg k).updateLost = s.updateLost := rfl
@[simp] theorem dropMsg_ecc (k : Nat) : (s.dropMsg k).ecc = s.ecc := rfl
@[simp] theorem dropMsg_ue (k : Nat) : (s.dropMsg k).ue = s.ue := rfl
@[simp] theorem dropMsg_soft (k : Nat) : (s.dropMsg k).soft = s.soft := rfl
@[simp] theorem dropMsg_softIn (k : Nat) : (s.dropMsg k).softIn = s.softIn := rfl
@[simp] theorem dropMsg_wall (k : Nat) : (s.dropMsg k).wall = s.wall := rfl
@[simp] theorem dropMsg_slew (k : Nat) : (s.dropMsg k).slew = s.slew := rfl
@[simp] theorem dropMsg_hold (k : Nat) : (s.dropMsg k).hold = s.hold := rfl
@[simp] theorem dropMsg_temps (k : Nat) : (s.dropMsg k).temps = s.temps := rfl
@[simp] theorem dropMsg_ptpcfg (k : Nat) : (s.dropMsg k).ptpcfg = s.ptpcfg := rfl
@[simp] theorem dropMsg_esct (k : Nat) : (s.dropMsg k).esct = s.esct := rfl
@[simp] theorem dropMsg_rtolog (k : Nat) : (s.dropMsg k).rtolog = s.rtolog := rfl
@[simp] theorem dropMsg_audsig (k : Nat) : (s.dropMsg k).audsig = s.audsig := rfl
@[simp] theorem dropMsg_selfpkg (k : Nat) : (s.dropMsg k).selfpkg = s.selfpkg := rfl
@[simp] theorem dropMsg_links (k : Nat) : (s.dropMsg k).links = s.links := rfl
@[simp] theorem dropMsg_lrt (k : Nat) : (s.dropMsg k).lrt = s.lrt := rfl
@[simp] theorem dropMsg_avSeq (k : Nat) : (s.dropMsg k).avSeq = s.avSeq := rfl
@[simp] theorem dropMsg_avLog (k : Nat) : (s.dropMsg k).avLog = s.avLog := rfl
@[simp] theorem dropMsg_feSeq (k : Nat) : (s.dropMsg k).feSeq = s.feSeq := rfl
@[simp] theorem dropMsg_feLog (k : Nat) : (s.dropMsg k).feLog = s.feLog := rfl
@[simp] theorem dropMsg_waitBufs (k : Nat) : (s.dropMsg k).waitBufs = s.waitBufs := rfl
@[simp] theorem dropMsg_served (k : Nat) : (s.dropMsg k).served = s.served := rfl
@[simp] theorem dropMsg_escFrom (k : Nat) : (s.dropMsg k).escFrom = s.escFrom := rfl
@[simp] theorem dropMsg_fns (k : Nat) : (s.dropMsg k).fns = s.fns := rfl
@[simp] theorem dropMsg_cmds (k : Nat) : (s.dropMsg k).cmds = s.cmds := rfl
@[simp] theorem dropMsg_nextCmd (k : Nat) : (s.dropMsg k).nextCmd = s.nextCmd := rfl
@[simp] theorem dropMsg_msix (k : Nat) : (s.dropMsg k).msix = s.msix := rfl
@[simp] theorem dropMsg_hostOut (k : Nat) : (s.dropMsg k).hostOut = s.hostOut := rfl
@[simp] theorem dropMsg_parts (k : Nat) : (s.dropMsg k).parts = s.parts := rfl
@[simp] theorem dropMsg_vfmap (k : Nat) : (s.dropMsg k).vfmap = s.vfmap := rfl
@[simp] theorem dropMsg_asids (k : Nat) : (s.dropMsg k).asids = s.asids := rfl
@[simp] theorem dropMsg_inval (k : Nat) : (s.dropMsg k).inval = s.inval := rfl
@[simp] theorem dropMsg_fgbase (k : Nat) : (s.dropMsg k).fgbase = s.fgbase := rfl
@[simp] theorem dropMsg_fglen (k : Nat) : (s.dropMsg k).fglen = s.fglen := rfl
@[simp] theorem dropMsg_fgown (k : Nat) : (s.dropMsg k).fgown = s.fgown := rfl
@[simp] theorem dropMsg_save (k : Nat) : (s.dropMsg k).save = s.save := rfl
@[simp] theorem dropMsg_ckoff (k : Nat) : (s.dropMsg k).ckoff = s.ckoff := rfl
@[simp] theorem dropMsg_images (k : Nat) : (s.dropMsg k).images = s.images := rfl
@[simp] theorem dropMsg_grants (k : Nat) : (s.dropMsg k).grants = s.grants := rfl
@[simp] theorem dropMsg_zeroing (k : Nat) : (s.dropMsg k).zeroing = s.zeroing := rfl
@[simp] theorem dropMsg_sealed (k : Nat) : (s.dropMsg k).sealed = s.sealed := rfl
@[simp] theorem dropMsg_resetting (k : Nat) : (s.dropMsg k).resetting = s.resetting := rfl
@[simp] theorem dropMsg_leaving (k : Nat) : (s.dropMsg k).leaving = s.leaving := rfl
@[simp] theorem dropMsg_keyCount (k : Nat) : (s.dropMsg k).keyCount = s.keyCount := rfl
@[simp] theorem dropMsg_pmKey (k : Nat) : (s.dropMsg k).pmKey = s.pmKey := rfl
@[simp] theorem dropMsg_cores (k : Nat) : (s.dropMsg k).cores = s.cores := rfl
@[simp] theorem dropMsg_clusters (k : Nat) : (s.dropMsg k).clusters = s.clusters := rfl
@[simp] theorem dropMsg_ctxs (k : Nat) : (s.dropMsg k).ctxs = s.ctxs := rfl
@[simp] theorem dropMsg_nextTid (k : Nat) : (s.dropMsg k).nextTid = s.nextTid := rfl
@[simp] theorem dropMsg_tasks (k : Nat) : (s.dropMsg k).tasks = s.tasks := rfl
@[simp] theorem dropMsg_nextTask (k : Nat) : (s.dropMsg k).nextTask = s.nextTask := rfl
@[simp] theorem dropMsg_queues (k : Nat) : (s.dropMsg k).queues = s.queues := rfl
@[simp] theorem dropMsg_mem (k : Nat) : (s.dropMsg k).mem = s.mem := rfl
@[simp] theorem dropMsg_empt (k : Nat) : (s.dropMsg k).empt = s.empt := rfl
@[simp] theorem dropMsg_marks (k : Nat) : (s.dropMsg k).marks = s.marks := rfl
@[simp] theorem dropMsg_flights (k : Nat) : (s.dropMsg k).flights = s.flights.filter fun x => x.id ≠ k := rfl
@[simp] theorem dropMsg_nextMsg (k : Nat) : (s.dropMsg k).nextMsg = s.nextMsg := rfl
@[simp] theorem dropMsg_perfs (k : Nat) : (s.dropMsg k).perfs = s.perfs := rfl
@[simp] theorem dropMsg_cancelled (k : Nat) : (s.dropMsg k).cancelled = s.cancelled := rfl
@[simp] theorem dropMsg_arrivals (k : Nat) : (s.dropMsg k).arrivals = s.arrivals := rfl
@[simp] theorem dropMsg_pins (k : Nat) : (s.dropMsg k).pins = s.pins := rfl
@[simp] theorem dropMsg_holders (k : Nat) : (s.dropMsg k).holders = s.holders := rfl
@[simp] theorem dropMsg_pick (k : Nat) : (s.dropMsg k).pick = s.pick := rfl
@[simp] theorem dropMsg_iss (k : Nat) : (s.dropMsg k).iss = s.iss := rfl
@[simp] theorem dropMsg_agenda (k : Nat) : (s.dropMsg k).agenda = s.agenda := rfl
@[simp] theorem dropMsg_focus (k : Nat) : (s.dropMsg k).focus = s.focus := rfl
@[simp] theorem dropMsg_fresh (k : Nat) : (s.dropMsg k).fresh = s.fresh := rfl

/-! ### post -/

@[simp] theorem post_part (m : Msg) : (s.post m).part = s.part := rfl
@[simp] theorem post_farSz (m : Msg) : (s.post m).farSz = s.farSz := rfl
@[simp] theorem post_farUneq (m : Msg) : (s.post m).farUneq = s.farUneq := rfl
@[simp] theorem post_power (m : Msg) : (s.post m).power = s.power := rfl
@[simp] theorem post_bootStep (m : Msg) : (s.post m).bootStep = s.bootStep := rfl
@[simp] theorem post_bootDetail (m : Msg) : (s.post m).bootDetail = s.bootDetail := rfl
@[simp] theorem post_image (m : Msg) : (s.post m).image = s.image := rfl
@[simp] theorem post_fuseKey (m : Msg) : (s.post m).fuseKey = s.fuseKey := rfl
@[simp] theorem post_fuseMin (m : Msg) : (s.post m).fuseMin = s.fuseMin := rfl
@[simp] theorem post_tripped (m : Msg) : (s.post m).tripped = s.tripped := rfl
@[simp] theorem post_updateLost (m : Msg) : (s.post m).updateLost = s.updateLost := rfl
@[simp] theorem post_ecc (m : Msg) : (s.post m).ecc = s.ecc := rfl
@[simp] theorem post_ue (m : Msg) : (s.post m).ue = s.ue := rfl
@[simp] theorem post_soft (m : Msg) : (s.post m).soft = s.soft := rfl
@[simp] theorem post_softIn (m : Msg) : (s.post m).softIn = s.softIn := rfl
@[simp] theorem post_wall (m : Msg) : (s.post m).wall = s.wall := rfl
@[simp] theorem post_slew (m : Msg) : (s.post m).slew = s.slew := rfl
@[simp] theorem post_hold (m : Msg) : (s.post m).hold = s.hold := rfl
@[simp] theorem post_temps (m : Msg) : (s.post m).temps = s.temps := rfl
@[simp] theorem post_ptpcfg (m : Msg) : (s.post m).ptpcfg = s.ptpcfg := rfl
@[simp] theorem post_esct (m : Msg) : (s.post m).esct = s.esct := rfl
@[simp] theorem post_rtolog (m : Msg) : (s.post m).rtolog = s.rtolog := rfl
@[simp] theorem post_audsig (m : Msg) : (s.post m).audsig = s.audsig := rfl
@[simp] theorem post_selfpkg (m : Msg) : (s.post m).selfpkg = s.selfpkg := rfl
@[simp] theorem post_links (m : Msg) : (s.post m).links = s.links := rfl
@[simp] theorem post_lrt (m : Msg) : (s.post m).lrt = s.lrt := rfl
@[simp] theorem post_avSeq (m : Msg) : (s.post m).avSeq = s.avSeq := rfl
@[simp] theorem post_avLog (m : Msg) : (s.post m).avLog = s.avLog := rfl
@[simp] theorem post_feSeq (m : Msg) : (s.post m).feSeq = s.feSeq := rfl
@[simp] theorem post_feLog (m : Msg) : (s.post m).feLog = s.feLog := rfl
@[simp] theorem post_waitBufs (m : Msg) : (s.post m).waitBufs = s.waitBufs := rfl
@[simp] theorem post_served (m : Msg) : (s.post m).served = s.served := rfl
@[simp] theorem post_escFrom (m : Msg) : (s.post m).escFrom = s.escFrom := rfl
@[simp] theorem post_fns (m : Msg) : (s.post m).fns = s.fns := rfl
@[simp] theorem post_cmds (m : Msg) : (s.post m).cmds = s.cmds := rfl
@[simp] theorem post_nextCmd (m : Msg) : (s.post m).nextCmd = s.nextCmd := rfl
@[simp] theorem post_msix (m : Msg) : (s.post m).msix = s.msix := rfl
@[simp] theorem post_hostOut (m : Msg) : (s.post m).hostOut = s.hostOut := rfl
@[simp] theorem post_parts (m : Msg) : (s.post m).parts = s.parts := rfl
@[simp] theorem post_vfmap (m : Msg) : (s.post m).vfmap = s.vfmap := rfl
@[simp] theorem post_asids (m : Msg) : (s.post m).asids = s.asids := rfl
@[simp] theorem post_inval (m : Msg) : (s.post m).inval = s.inval := rfl
@[simp] theorem post_fgbase (m : Msg) : (s.post m).fgbase = s.fgbase := rfl
@[simp] theorem post_fglen (m : Msg) : (s.post m).fglen = s.fglen := rfl
@[simp] theorem post_fgown (m : Msg) : (s.post m).fgown = s.fgown := rfl
@[simp] theorem post_save (m : Msg) : (s.post m).save = s.save := rfl
@[simp] theorem post_ckoff (m : Msg) : (s.post m).ckoff = s.ckoff := rfl
@[simp] theorem post_images (m : Msg) : (s.post m).images = s.images := rfl
@[simp] theorem post_grants (m : Msg) : (s.post m).grants = s.grants := rfl
@[simp] theorem post_zeroing (m : Msg) : (s.post m).zeroing = s.zeroing := rfl
@[simp] theorem post_sealed (m : Msg) : (s.post m).sealed = s.sealed := rfl
@[simp] theorem post_resetting (m : Msg) : (s.post m).resetting = s.resetting := rfl
@[simp] theorem post_leaving (m : Msg) : (s.post m).leaving = s.leaving := rfl
@[simp] theorem post_keyCount (m : Msg) : (s.post m).keyCount = s.keyCount := rfl
@[simp] theorem post_pmKey (m : Msg) : (s.post m).pmKey = s.pmKey := rfl
@[simp] theorem post_cores (m : Msg) : (s.post m).cores = s.cores := rfl
@[simp] theorem post_clusters (m : Msg) : (s.post m).clusters = s.clusters := rfl
@[simp] theorem post_ctxs (m : Msg) : (s.post m).ctxs = s.ctxs := rfl
@[simp] theorem post_nextTid (m : Msg) : (s.post m).nextTid = s.nextTid := rfl
@[simp] theorem post_tasks (m : Msg) : (s.post m).tasks = s.tasks := rfl
@[simp] theorem post_nextTask (m : Msg) : (s.post m).nextTask = s.nextTask := rfl
@[simp] theorem post_queues (m : Msg) : (s.post m).queues = s.queues := rfl
@[simp] theorem post_mem (m : Msg) : (s.post m).mem = s.mem := rfl
@[simp] theorem post_empt (m : Msg) : (s.post m).empt = s.empt := rfl
@[simp] theorem post_marks (m : Msg) : (s.post m).marks = s.marks := rfl
@[simp] theorem post_flights (m : Msg) : (s.post m).flights = s.flights ++ [{ m with id := s.numberOf m, born := s.sentAt m }] := rfl
@[simp] theorem post_nextMsg (m : Msg) : (s.post m).nextMsg = if m.id = 0 then s.nextMsg + 1 else s.nextMsg := rfl
@[simp] theorem post_perfs (m : Msg) : (s.post m).perfs = s.perfs := rfl
@[simp] theorem post_cancelled (m : Msg) : (s.post m).cancelled = s.cancelled := rfl
@[simp] theorem post_arrivals (m : Msg) : (s.post m).arrivals = s.arrivals := rfl
@[simp] theorem post_pins (m : Msg) : (s.post m).pins = s.pins := rfl
@[simp] theorem post_holders (m : Msg) : (s.post m).holders = s.holders := rfl
@[simp] theorem post_pick (m : Msg) : (s.post m).pick = s.pick := rfl
@[simp] theorem post_iss (m : Msg) : (s.post m).iss = s.iss := rfl
@[simp] theorem post_agenda (m : Msg) : (s.post m).agenda = s.agenda := rfl
@[simp] theorem post_focus (m : Msg) : (s.post m).focus = s.focus := rfl
@[simp] theorem post_fresh (m : Msg) : (s.post m).fresh = s.fresh := rfl

/-! ### setRes -/

@[simp] theorem setRes_part (r : IssueRes) : (s.setRes r).part = s.part := rfl
@[simp] theorem setRes_farSz (r : IssueRes) : (s.setRes r).farSz = s.farSz := rfl
@[simp] theorem setRes_farUneq (r : IssueRes) : (s.setRes r).farUneq = s.farUneq := rfl
@[simp] theorem setRes_power (r : IssueRes) : (s.setRes r).power = s.power := rfl
@[simp] theorem setRes_bootStep (r : IssueRes) : (s.setRes r).bootStep = s.bootStep := rfl
@[simp] theorem setRes_bootDetail (r : IssueRes) : (s.setRes r).bootDetail = s.bootDetail := rfl
@[simp] theorem setRes_image (r : IssueRes) : (s.setRes r).image = s.image := rfl
@[simp] theorem setRes_fuseKey (r : IssueRes) : (s.setRes r).fuseKey = s.fuseKey := rfl
@[simp] theorem setRes_fuseMin (r : IssueRes) : (s.setRes r).fuseMin = s.fuseMin := rfl
@[simp] theorem setRes_tripped (r : IssueRes) : (s.setRes r).tripped = s.tripped := rfl
@[simp] theorem setRes_updateLost (r : IssueRes) : (s.setRes r).updateLost = s.updateLost := rfl
@[simp] theorem setRes_ecc (r : IssueRes) : (s.setRes r).ecc = s.ecc := rfl
@[simp] theorem setRes_ue (r : IssueRes) : (s.setRes r).ue = s.ue := rfl
@[simp] theorem setRes_soft (r : IssueRes) : (s.setRes r).soft = s.soft := rfl
@[simp] theorem setRes_softIn (r : IssueRes) : (s.setRes r).softIn = s.softIn := rfl
@[simp] theorem setRes_wall (r : IssueRes) : (s.setRes r).wall = s.wall := rfl
@[simp] theorem setRes_slew (r : IssueRes) : (s.setRes r).slew = s.slew := rfl
@[simp] theorem setRes_hold (r : IssueRes) : (s.setRes r).hold = s.hold := rfl
@[simp] theorem setRes_temps (r : IssueRes) : (s.setRes r).temps = s.temps := rfl
@[simp] theorem setRes_ptpcfg (r : IssueRes) : (s.setRes r).ptpcfg = s.ptpcfg := rfl
@[simp] theorem setRes_esct (r : IssueRes) : (s.setRes r).esct = s.esct := rfl
@[simp] theorem setRes_rtolog (r : IssueRes) : (s.setRes r).rtolog = s.rtolog := rfl
@[simp] theorem setRes_audsig (r : IssueRes) : (s.setRes r).audsig = s.audsig := rfl
@[simp] theorem setRes_selfpkg (r : IssueRes) : (s.setRes r).selfpkg = s.selfpkg := rfl
@[simp] theorem setRes_links (r : IssueRes) : (s.setRes r).links = s.links := rfl
@[simp] theorem setRes_lrt (r : IssueRes) : (s.setRes r).lrt = s.lrt := rfl
@[simp] theorem setRes_avSeq (r : IssueRes) : (s.setRes r).avSeq = s.avSeq := rfl
@[simp] theorem setRes_avLog (r : IssueRes) : (s.setRes r).avLog = s.avLog := rfl
@[simp] theorem setRes_feSeq (r : IssueRes) : (s.setRes r).feSeq = s.feSeq := rfl
@[simp] theorem setRes_feLog (r : IssueRes) : (s.setRes r).feLog = s.feLog := rfl
@[simp] theorem setRes_waitBufs (r : IssueRes) : (s.setRes r).waitBufs = s.waitBufs := rfl
@[simp] theorem setRes_served (r : IssueRes) : (s.setRes r).served = s.served := rfl
@[simp] theorem setRes_escFrom (r : IssueRes) : (s.setRes r).escFrom = s.escFrom := rfl
@[simp] theorem setRes_fns (r : IssueRes) : (s.setRes r).fns = s.fns := rfl
@[simp] theorem setRes_cmds (r : IssueRes) : (s.setRes r).cmds = s.cmds := rfl
@[simp] theorem setRes_nextCmd (r : IssueRes) : (s.setRes r).nextCmd = s.nextCmd := rfl
@[simp] theorem setRes_msix (r : IssueRes) : (s.setRes r).msix = s.msix := rfl
@[simp] theorem setRes_hostOut (r : IssueRes) : (s.setRes r).hostOut = s.hostOut := rfl
@[simp] theorem setRes_parts (r : IssueRes) : (s.setRes r).parts = s.parts := rfl
@[simp] theorem setRes_vfmap (r : IssueRes) : (s.setRes r).vfmap = s.vfmap := rfl
@[simp] theorem setRes_asids (r : IssueRes) : (s.setRes r).asids = s.asids := rfl
@[simp] theorem setRes_inval (r : IssueRes) : (s.setRes r).inval = s.inval := rfl
@[simp] theorem setRes_fgbase (r : IssueRes) : (s.setRes r).fgbase = s.fgbase := rfl
@[simp] theorem setRes_fglen (r : IssueRes) : (s.setRes r).fglen = s.fglen := rfl
@[simp] theorem setRes_fgown (r : IssueRes) : (s.setRes r).fgown = s.fgown := rfl
@[simp] theorem setRes_save (r : IssueRes) : (s.setRes r).save = s.save := rfl
@[simp] theorem setRes_ckoff (r : IssueRes) : (s.setRes r).ckoff = s.ckoff := rfl
@[simp] theorem setRes_images (r : IssueRes) : (s.setRes r).images = s.images := rfl
@[simp] theorem setRes_grants (r : IssueRes) : (s.setRes r).grants = s.grants := rfl
@[simp] theorem setRes_zeroing (r : IssueRes) : (s.setRes r).zeroing = s.zeroing := rfl
@[simp] theorem setRes_sealed (r : IssueRes) : (s.setRes r).sealed = s.sealed := rfl
@[simp] theorem setRes_resetting (r : IssueRes) : (s.setRes r).resetting = s.resetting := rfl
@[simp] theorem setRes_leaving (r : IssueRes) : (s.setRes r).leaving = s.leaving := rfl
@[simp] theorem setRes_keyCount (r : IssueRes) : (s.setRes r).keyCount = s.keyCount := rfl
@[simp] theorem setRes_pmKey (r : IssueRes) : (s.setRes r).pmKey = s.pmKey := rfl
@[simp] theorem setRes_cores (r : IssueRes) : (s.setRes r).cores = s.cores := rfl
@[simp] theorem setRes_clusters (r : IssueRes) : (s.setRes r).clusters = s.clusters := rfl
@[simp] theorem setRes_ctxs (r : IssueRes) : (s.setRes r).ctxs = s.ctxs := rfl
@[simp] theorem setRes_nextTid (r : IssueRes) : (s.setRes r).nextTid = s.nextTid := rfl
@[simp] theorem setRes_tasks (r : IssueRes) : (s.setRes r).tasks = s.tasks := rfl
@[simp] theorem setRes_nextTask (r : IssueRes) : (s.setRes r).nextTask = s.nextTask := rfl
@[simp] theorem setRes_queues (r : IssueRes) : (s.setRes r).queues = s.queues := rfl
@[simp] theorem setRes_mem (r : IssueRes) : (s.setRes r).mem = s.mem := rfl
@[simp] theorem setRes_empt (r : IssueRes) : (s.setRes r).empt = s.empt := rfl
@[simp] theorem setRes_marks (r : IssueRes) : (s.setRes r).marks = s.marks := rfl
@[simp] theorem setRes_flights (r : IssueRes) : (s.setRes r).flights = s.flights := rfl
@[simp] theorem setRes_nextMsg (r : IssueRes) : (s.setRes r).nextMsg = s.nextMsg := rfl
@[simp] theorem setRes_perfs (r : IssueRes) : (s.setRes r).perfs = s.perfs := rfl
@[simp] theorem setRes_cancelled (r : IssueRes) : (s.setRes r).cancelled = s.cancelled := rfl
@[simp] theorem setRes_arrivals (r : IssueRes) : (s.setRes r).arrivals = s.arrivals := rfl
@[simp] theorem setRes_pins (r : IssueRes) : (s.setRes r).pins = s.pins := rfl
@[simp] theorem setRes_holders (r : IssueRes) : (s.setRes r).holders = s.holders := rfl
@[simp] theorem setRes_pick (r : IssueRes) : (s.setRes r).pick = s.pick := rfl
@[simp] theorem setRes_iss (r : IssueRes) : (s.setRes r).iss = { s.iss with res := r } := rfl
@[simp] theorem setRes_agenda (r : IssueRes) : (s.setRes r).agenda = s.agenda := rfl
@[simp] theorem setRes_focus (r : IssueRes) : (s.setRes r).focus = s.focus := rfl
@[simp] theorem setRes_fresh (r : IssueRes) : (s.setRes r).fresh = s.fresh := rfl

/-! ### wr -/

@[simp] theorem wr_part (pa n v : Nat) : (s.wr pa n v).part = s.part := rfl
@[simp] theorem wr_farSz (pa n v : Nat) : (s.wr pa n v).farSz = s.farSz := rfl
@[simp] theorem wr_farUneq (pa n v : Nat) : (s.wr pa n v).farUneq = s.farUneq := rfl
@[simp] theorem wr_power (pa n v : Nat) : (s.wr pa n v).power = s.power := rfl
@[simp] theorem wr_bootStep (pa n v : Nat) : (s.wr pa n v).bootStep = s.bootStep := rfl
@[simp] theorem wr_bootDetail (pa n v : Nat) : (s.wr pa n v).bootDetail = s.bootDetail := rfl
@[simp] theorem wr_image (pa n v : Nat) : (s.wr pa n v).image = s.image := rfl
@[simp] theorem wr_fuseKey (pa n v : Nat) : (s.wr pa n v).fuseKey = s.fuseKey := rfl
@[simp] theorem wr_fuseMin (pa n v : Nat) : (s.wr pa n v).fuseMin = s.fuseMin := rfl
@[simp] theorem wr_tripped (pa n v : Nat) : (s.wr pa n v).tripped = s.tripped := rfl
@[simp] theorem wr_updateLost (pa n v : Nat) : (s.wr pa n v).updateLost = s.updateLost := rfl
@[simp] theorem wr_ecc (pa n v : Nat) : (s.wr pa n v).ecc = s.ecc := rfl
@[simp] theorem wr_ue (pa n v : Nat) : (s.wr pa n v).ue = s.ue := rfl
@[simp] theorem wr_soft (pa n v : Nat) : (s.wr pa n v).soft = s.soft := rfl
@[simp] theorem wr_softIn (pa n v : Nat) : (s.wr pa n v).softIn = s.softIn := rfl
@[simp] theorem wr_wall (pa n v : Nat) : (s.wr pa n v).wall = s.wall := rfl
@[simp] theorem wr_slew (pa n v : Nat) : (s.wr pa n v).slew = s.slew := rfl
@[simp] theorem wr_hold (pa n v : Nat) : (s.wr pa n v).hold = s.hold := rfl
@[simp] theorem wr_temps (pa n v : Nat) : (s.wr pa n v).temps = s.temps := rfl
@[simp] theorem wr_ptpcfg (pa n v : Nat) : (s.wr pa n v).ptpcfg = s.ptpcfg := rfl
@[simp] theorem wr_esct (pa n v : Nat) : (s.wr pa n v).esct = s.esct := rfl
@[simp] theorem wr_rtolog (pa n v : Nat) : (s.wr pa n v).rtolog = s.rtolog := rfl
@[simp] theorem wr_audsig (pa n v : Nat) : (s.wr pa n v).audsig = s.audsig := rfl
@[simp] theorem wr_selfpkg (pa n v : Nat) : (s.wr pa n v).selfpkg = s.selfpkg := rfl
@[simp] theorem wr_links (pa n v : Nat) : (s.wr pa n v).links = s.links := rfl
@[simp] theorem wr_lrt (pa n v : Nat) : (s.wr pa n v).lrt = s.lrt := rfl
@[simp] theorem wr_avSeq (pa n v : Nat) : (s.wr pa n v).avSeq = s.avSeq := rfl
@[simp] theorem wr_avLog (pa n v : Nat) : (s.wr pa n v).avLog = s.avLog := rfl
@[simp] theorem wr_feSeq (pa n v : Nat) : (s.wr pa n v).feSeq = s.feSeq := rfl
@[simp] theorem wr_feLog (pa n v : Nat) : (s.wr pa n v).feLog = s.feLog := rfl
@[simp] theorem wr_waitBufs (pa n v : Nat) : (s.wr pa n v).waitBufs = s.waitBufs := rfl
@[simp] theorem wr_served (pa n v : Nat) : (s.wr pa n v).served = s.served := rfl
@[simp] theorem wr_escFrom (pa n v : Nat) : (s.wr pa n v).escFrom = s.escFrom := rfl
@[simp] theorem wr_fns (pa n v : Nat) : (s.wr pa n v).fns = s.fns := rfl
@[simp] theorem wr_cmds (pa n v : Nat) : (s.wr pa n v).cmds = s.cmds := rfl
@[simp] theorem wr_nextCmd (pa n v : Nat) : (s.wr pa n v).nextCmd = s.nextCmd := rfl
@[simp] theorem wr_msix (pa n v : Nat) : (s.wr pa n v).msix = s.msix := rfl
@[simp] theorem wr_hostOut (pa n v : Nat) : (s.wr pa n v).hostOut = s.hostOut := rfl
@[simp] theorem wr_parts (pa n v : Nat) : (s.wr pa n v).parts = s.parts := rfl
@[simp] theorem wr_vfmap (pa n v : Nat) : (s.wr pa n v).vfmap = s.vfmap := rfl
@[simp] theorem wr_asids (pa n v : Nat) : (s.wr pa n v).asids = s.asids := rfl
@[simp] theorem wr_inval (pa n v : Nat) : (s.wr pa n v).inval = s.inval := rfl
@[simp] theorem wr_fgbase (pa n v : Nat) : (s.wr pa n v).fgbase = s.fgbase := rfl
@[simp] theorem wr_fglen (pa n v : Nat) : (s.wr pa n v).fglen = s.fglen := rfl
@[simp] theorem wr_fgown (pa n v : Nat) : (s.wr pa n v).fgown = s.fgown := rfl
@[simp] theorem wr_save (pa n v : Nat) : (s.wr pa n v).save = s.save := rfl
@[simp] theorem wr_ckoff (pa n v : Nat) : (s.wr pa n v).ckoff = s.ckoff := rfl
@[simp] theorem wr_images (pa n v : Nat) : (s.wr pa n v).images = s.images := rfl
@[simp] theorem wr_grants (pa n v : Nat) : (s.wr pa n v).grants = s.grants := rfl
@[simp] theorem wr_zeroing (pa n v : Nat) : (s.wr pa n v).zeroing = s.zeroing := rfl
@[simp] theorem wr_sealed (pa n v : Nat) : (s.wr pa n v).sealed = s.sealed := rfl
@[simp] theorem wr_resetting (pa n v : Nat) : (s.wr pa n v).resetting = s.resetting := rfl
@[simp] theorem wr_leaving (pa n v : Nat) : (s.wr pa n v).leaving = s.leaving := rfl
@[simp] theorem wr_keyCount (pa n v : Nat) : (s.wr pa n v).keyCount = s.keyCount := rfl
@[simp] theorem wr_pmKey (pa n v : Nat) : (s.wr pa n v).pmKey = s.pmKey := rfl
@[simp] theorem wr_cores (pa n v : Nat) : (s.wr pa n v).cores = s.cores := rfl
@[simp] theorem wr_clusters (pa n v : Nat) : (s.wr pa n v).clusters = s.clusters := rfl
@[simp] theorem wr_ctxs (pa n v : Nat) : (s.wr pa n v).ctxs = s.ctxs := rfl
@[simp] theorem wr_nextTid (pa n v : Nat) : (s.wr pa n v).nextTid = s.nextTid := rfl
@[simp] theorem wr_tasks (pa n v : Nat) : (s.wr pa n v).tasks = s.tasks := rfl
@[simp] theorem wr_nextTask (pa n v : Nat) : (s.wr pa n v).nextTask = s.nextTask := rfl
@[simp] theorem wr_queues (pa n v : Nat) : (s.wr pa n v).queues = s.queues := rfl
@[simp] theorem wr_mem (pa n v : Nat) : (s.wr pa n v).mem = writeN s.mem pa n v := rfl
@[simp] theorem wr_empt (pa n v : Nat) : (s.wr pa n v).empt = s.empt := rfl
@[simp] theorem wr_marks (pa n v : Nat) : (s.wr pa n v).marks = s.marks := rfl
@[simp] theorem wr_flights (pa n v : Nat) : (s.wr pa n v).flights = s.flights := rfl
@[simp] theorem wr_nextMsg (pa n v : Nat) : (s.wr pa n v).nextMsg = s.nextMsg := rfl
@[simp] theorem wr_perfs (pa n v : Nat) : (s.wr pa n v).perfs = s.perfs := rfl
@[simp] theorem wr_cancelled (pa n v : Nat) : (s.wr pa n v).cancelled = s.cancelled := rfl
@[simp] theorem wr_arrivals (pa n v : Nat) : (s.wr pa n v).arrivals = s.arrivals := rfl
@[simp] theorem wr_pins (pa n v : Nat) : (s.wr pa n v).pins = s.pins := rfl
@[simp] theorem wr_holders (pa n v : Nat) : (s.wr pa n v).holders = s.holders := rfl
@[simp] theorem wr_pick (pa n v : Nat) : (s.wr pa n v).pick = s.pick := rfl
@[simp] theorem wr_iss (pa n v : Nat) : (s.wr pa n v).iss = s.iss := rfl
@[simp] theorem wr_agenda (pa n v : Nat) : (s.wr pa n v).agenda = s.agenda := rfl
@[simp] theorem wr_focus (pa n v : Nat) : (s.wr pa n v).focus = s.focus := rfl
@[simp] theorem wr_fresh (pa n v : Nat) : (s.wr pa n v).fresh = s.fresh := rfl

/-! ### vector -/

@[simp] theorem vector_part (fn v : Nat) : (s.vector fn v).part = s.part := rfl
@[simp] theorem vector_farSz (fn v : Nat) : (s.vector fn v).farSz = s.farSz := rfl
@[simp] theorem vector_farUneq (fn v : Nat) : (s.vector fn v).farUneq = s.farUneq := rfl
@[simp] theorem vector_power (fn v : Nat) : (s.vector fn v).power = s.power := rfl
@[simp] theorem vector_bootStep (fn v : Nat) : (s.vector fn v).bootStep = s.bootStep := rfl
@[simp] theorem vector_bootDetail (fn v : Nat) : (s.vector fn v).bootDetail = s.bootDetail := rfl
@[simp] theorem vector_image (fn v : Nat) : (s.vector fn v).image = s.image := rfl
@[simp] theorem vector_fuseKey (fn v : Nat) : (s.vector fn v).fuseKey = s.fuseKey := rfl
@[simp] theorem vector_fuseMin (fn v : Nat) : (s.vector fn v).fuseMin = s.fuseMin := rfl
@[simp] theorem vector_tripped (fn v : Nat) : (s.vector fn v).tripped = s.tripped := rfl
@[simp] theorem vector_updateLost (fn v : Nat) : (s.vector fn v).updateLost = s.updateLost := rfl
@[simp] theorem vector_ecc (fn v : Nat) : (s.vector fn v).ecc = s.ecc := rfl
@[simp] theorem vector_ue (fn v : Nat) : (s.vector fn v).ue = s.ue := rfl
@[simp] theorem vector_soft (fn v : Nat) : (s.vector fn v).soft = s.soft := rfl
@[simp] theorem vector_softIn (fn v : Nat) : (s.vector fn v).softIn = s.softIn := rfl
@[simp] theorem vector_wall (fn v : Nat) : (s.vector fn v).wall = s.wall := rfl
@[simp] theorem vector_slew (fn v : Nat) : (s.vector fn v).slew = s.slew := rfl
@[simp] theorem vector_hold (fn v : Nat) : (s.vector fn v).hold = s.hold := rfl
@[simp] theorem vector_temps (fn v : Nat) : (s.vector fn v).temps = s.temps := rfl
@[simp] theorem vector_ptpcfg (fn v : Nat) : (s.vector fn v).ptpcfg = s.ptpcfg := rfl
@[simp] theorem vector_esct (fn v : Nat) : (s.vector fn v).esct = s.esct := rfl
@[simp] theorem vector_rtolog (fn v : Nat) : (s.vector fn v).rtolog = s.rtolog := rfl
@[simp] theorem vector_audsig (fn v : Nat) : (s.vector fn v).audsig = s.audsig := rfl
@[simp] theorem vector_selfpkg (fn v : Nat) : (s.vector fn v).selfpkg = s.selfpkg := rfl
@[simp] theorem vector_links (fn v : Nat) : (s.vector fn v).links = s.links := rfl
@[simp] theorem vector_lrt (fn v : Nat) : (s.vector fn v).lrt = s.lrt := rfl
@[simp] theorem vector_avSeq (fn v : Nat) : (s.vector fn v).avSeq = s.avSeq := rfl
@[simp] theorem vector_avLog (fn v : Nat) : (s.vector fn v).avLog = s.avLog := rfl
@[simp] theorem vector_feSeq (fn v : Nat) : (s.vector fn v).feSeq = s.feSeq := rfl
@[simp] theorem vector_feLog (fn v : Nat) : (s.vector fn v).feLog = s.feLog := rfl
@[simp] theorem vector_waitBufs (fn v : Nat) : (s.vector fn v).waitBufs = s.waitBufs := rfl
@[simp] theorem vector_served (fn v : Nat) : (s.vector fn v).served = s.served := rfl
@[simp] theorem vector_escFrom (fn v : Nat) : (s.vector fn v).escFrom = s.escFrom := rfl
@[simp] theorem vector_fns (fn v : Nat) : (s.vector fn v).fns = s.fns := rfl
@[simp] theorem vector_cmds (fn v : Nat) : (s.vector fn v).cmds = s.cmds := rfl
@[simp] theorem vector_nextCmd (fn v : Nat) : (s.vector fn v).nextCmd = s.nextCmd := rfl
@[simp] theorem vector_msix (fn v : Nat) : (s.vector fn v).msix = s.msix ++ [(fn, v)] := rfl
@[simp] theorem vector_hostOut (fn v : Nat) : (s.vector fn v).hostOut = s.hostOut := rfl
@[simp] theorem vector_parts (fn v : Nat) : (s.vector fn v).parts = s.parts := rfl
@[simp] theorem vector_vfmap (fn v : Nat) : (s.vector fn v).vfmap = s.vfmap := rfl
@[simp] theorem vector_asids (fn v : Nat) : (s.vector fn v).asids = s.asids := rfl
@[simp] theorem vector_inval (fn v : Nat) : (s.vector fn v).inval = s.inval := rfl
@[simp] theorem vector_fgbase (fn v : Nat) : (s.vector fn v).fgbase = s.fgbase := rfl
@[simp] theorem vector_fglen (fn v : Nat) : (s.vector fn v).fglen = s.fglen := rfl
@[simp] theorem vector_fgown (fn v : Nat) : (s.vector fn v).fgown = s.fgown := rfl
@[simp] theorem vector_save (fn v : Nat) : (s.vector fn v).save = s.save := rfl
@[simp] theorem vector_ckoff (fn v : Nat) : (s.vector fn v).ckoff = s.ckoff := rfl
@[simp] theorem vector_images (fn v : Nat) : (s.vector fn v).images = s.images := rfl
@[simp] theorem vector_grants (fn v : Nat) : (s.vector fn v).grants = s.grants := rfl
@[simp] theorem vector_zeroing (fn v : Nat) : (s.vector fn v).zeroing = s.zeroing := rfl
@[simp] theorem vector_sealed (fn v : Nat) : (s.vector fn v).sealed = s.sealed := rfl
@[simp] theorem vector_resetting (fn v : Nat) : (s.vector fn v).resetting = s.resetting := rfl
@[simp] theorem vector_leaving (fn v : Nat) : (s.vector fn v).leaving = s.leaving := rfl
@[simp] theorem vector_keyCount (fn v : Nat) : (s.vector fn v).keyCount = s.keyCount := rfl
@[simp] theorem vector_pmKey (fn v : Nat) : (s.vector fn v).pmKey = s.pmKey := rfl
@[simp] theorem vector_cores (fn v : Nat) : (s.vector fn v).cores = s.cores := rfl
@[simp] theorem vector_clusters (fn v : Nat) : (s.vector fn v).clusters = s.clusters := rfl
@[simp] theorem vector_ctxs (fn v : Nat) : (s.vector fn v).ctxs = s.ctxs := rfl
@[simp] theorem vector_nextTid (fn v : Nat) : (s.vector fn v).nextTid = s.nextTid := rfl
@[simp] theorem vector_tasks (fn v : Nat) : (s.vector fn v).tasks = s.tasks := rfl
@[simp] theorem vector_nextTask (fn v : Nat) : (s.vector fn v).nextTask = s.nextTask := rfl
@[simp] theorem vector_queues (fn v : Nat) : (s.vector fn v).queues = s.queues := rfl
@[simp] theorem vector_mem (fn v : Nat) : (s.vector fn v).mem = s.mem := rfl
@[simp] theorem vector_empt (fn v : Nat) : (s.vector fn v).empt = s.empt := rfl
@[simp] theorem vector_marks (fn v : Nat) : (s.vector fn v).marks = s.marks := rfl
@[simp] theorem vector_flights (fn v : Nat) : (s.vector fn v).flights = s.flights := rfl
@[simp] theorem vector_nextMsg (fn v : Nat) : (s.vector fn v).nextMsg = s.nextMsg := rfl
@[simp] theorem vector_perfs (fn v : Nat) : (s.vector fn v).perfs = s.perfs := rfl
@[simp] theorem vector_cancelled (fn v : Nat) : (s.vector fn v).cancelled = s.cancelled := rfl
@[simp] theorem vector_arrivals (fn v : Nat) : (s.vector fn v).arrivals = s.arrivals := rfl
@[simp] theorem vector_pins (fn v : Nat) : (s.vector fn v).pins = s.pins := rfl
@[simp] theorem vector_holders (fn v : Nat) : (s.vector fn v).holders = s.holders := rfl
@[simp] theorem vector_pick (fn v : Nat) : (s.vector fn v).pick = s.pick := rfl
@[simp] theorem vector_iss (fn v : Nat) : (s.vector fn v).iss = s.iss := rfl
@[simp] theorem vector_agenda (fn v : Nat) : (s.vector fn v).agenda = s.agenda := rfl
@[simp] theorem vector_focus (fn v : Nat) : (s.vector fn v).focus = s.focus := rfl
@[simp] theorem vector_fresh (fn v : Nat) : (s.vector fn v).fresh = s.fresh := rfl

end Sys2Proof.Machine
end

