-- ==== Sys2Proof/Laws/Memory.lean ====
section
/-! SUPPORT. Memory: a write is read back, leaves every other byte alone and keeps the canonical form, and so does every
other operation over memory. -/

namespace Sys2Proof.Machine

/-! ### One byte -/

/-- Every listed address lies above the bound. -/
def above (lo : Option Nat) (m : List Host.Cell) : Prop := ∀ l ∈ lo, ∀ c ∈ m, l < c.1

theorem cellsWf_cons {lo : Option Nat} {a : Nat} {b : Byte} {m : List Host.Cell} :
    cellsWf lo ((a, b) :: m) = true ↔ (∀ l ∈ lo, l < a) ∧ b ≠ unlisted ∧ cellsWf (some a) m = true := by
  cases lo <;> simp [cellsWf, and_assoc]

theorem cellsWf_weaken {a : Nat} {m : List Host.Cell} (h : cellsWf (some a) m = true) :
    cellsWf none m = true := by
  cases m with
  | nil => rfl
  | cons c m =>
    obtain ⟨a', b⟩ := c
    rw [cellsWf_cons] at h ⊢
    exact ⟨by simp, h.2⟩

theorem cellsWf_lower {a b : Nat} (hab : a ≤ b) {m : List Host.Cell} (h : cellsWf (some b) m = true) :
    cellsWf (some a) m = true := by
  cases m with
  | nil => rfl
  | cons c m =>
    obtain ⟨a', v⟩ := c
    rw [cellsWf_cons] at h ⊢
    refine ⟨?_, h.2⟩
    have := h.1 b rfl
    intro l hl
    cases hl
    omega

theorem cellsWf_writeCell (lo : Option Nat) (m : List Host.Cell) (a : Nat) (b : Byte) (h : cellsWf lo m = true)
    (hl : ∀ l ∈ lo, l < a) : cellsWf lo (writeCell m a b) = true := by
  induction m generalizing lo with
  | nil =>
    simp only [writeCell]
    split
    · rfl
    · exact cellsWf_cons.2 ⟨hl, ‹_›, rfl⟩
  | cons c m ih =>
    obtain ⟨a', b'⟩ := c
    have h' := cellsWf_cons.1 h
    simp only [writeCell]
    split
    · split
      · exact h
      · refine cellsWf_cons.2 ⟨hl, ‹_›, cellsWf_cons.2 ⟨?_, h'.2⟩⟩
        intro l hl'
        cases hl'
        assumption
    · split
      · rename_i _ heq
        subst heq
        split
        · cases lo with
          | none => exact cellsWf_weaken h'.2.2
          | some l => exact cellsWf_lower (Nat.le_of_lt (h'.1 l rfl)) h'.2.2
        · exact cellsWf_cons.2 ⟨hl, ‹_›, h'.2.2⟩
      · refine cellsWf_cons.2 ⟨h'.1, h'.2.1, ih (some a') h'.2.2 ?_⟩
        intro l hl'
        cases hl'
        omega

/-- A write of one byte keeps the canonical form. -/
theorem wf_writeCell {m : List Host.Cell} (h : Memory.wf m = true) (a : Nat) (b : Byte) :
    Memory.wf (writeCell m a b) = true :=
  cellsWf_writeCell none m a b h (by simp)

theorem readCell_above {a : Nat} {m : List Host.Cell} (h : cellsWf (some a) m = true) {x : Nat} (hx : x ≤ a) :
    readCell m x = unlisted := by
  cases m with
  | nil => rfl
  | cons c m =>
    obtain ⟨a', b⟩ := c
    have := (cellsWf_cons.1 h).1 a rfl
    simp only [readCell]
    rw [if_neg (by omega), if_pos (by omega)]

theorem readCell_writeCell_at {lo : Option Nat} {m : List Host.Cell} (h : cellsWf lo m = true) (a : Nat) (b : Byte) :
    readCell (writeCell m a b) a = b := by
  induction m generalizing lo with
  | nil =>
    simp only [writeCell]
    split <;> simp_all [readCell]
  | cons c m ih =>
    obtain ⟨a', b'⟩ := c
    have h' := cellsWf_cons.1 h
    simp only [writeCell]
    split
    · split
      · rename_i h1 h2
        simp only [readCell, if_neg (Nat.ne_of_gt h1), if_pos h1, h2]
      · simp [readCell]
    · split
      · rename_i _ heq
        subst heq
        split
        · rename_i hb
          rw [hb]
          exact readCell_above h'.2.2 (Nat.le_refl _)
        · simp [readCell]
      · rename_i h1 h2
        simp only [readCell, if_neg (Ne.symm h2), if_neg h1]
        exact ih h'.2.2

theorem readCell_writeCell_off {lo : Option Nat} {m : List Host.Cell} (h : cellsWf lo m = true) {a x : Nat} (b : Byte)
    (hx : x ≠ a) : readCell (writeCell m a b) x = readCell m x := by
  induction m generalizing lo with
  | nil =>
    simp only [writeCell]
    split
    · rfl
    · simp [readCell, Ne.symm hx]
  | cons c m ih =>
    obtain ⟨a', b'⟩ := c
    have h' := cellsWf_cons.1 h
    simp only [writeCell]
    split
    · rename_i h1
      split
      · rfl
      · simp only [readCell, if_neg (Ne.symm hx)]
        split
        · rw [if_neg (by omega), if_pos (by omega)]
        · rfl
    · split
      · rename_i h1 heq
        subst heq
        split
        · simp only [readCell, if_neg (Ne.symm hx)]
          split
          · exact readCell_above h'.2.2 (Nat.le_of_lt ‹_›)
          · rfl
        · simp [readCell, Ne.symm hx]
      · simp only [readCell, ih h'.2.2]

/-- A byte written is read back. -/
theorem readCell_written {m : List Host.Cell} (h : Memory.wf m = true) (a : Nat) (b : Byte) :
    readCell (writeCell m a b) a = b := readCell_writeCell_at h a b

/-- A write leaves every other byte alone. -/
theorem readCell_other {m : List Host.Cell} (h : Memory.wf m = true) {a x : Nat} (b : Byte) (hx : x ≠ a) :
    readCell (writeCell m a b) x = readCell m x := readCell_writeCell_off h b hx

/-! ### Several bytes -/

theorem wf_writeN (n : Nat) : ∀ {m : List Host.Cell}, Memory.wf m = true → ∀ pa v, Memory.wf (writeN m pa n v) = true := by
  induction n with
  | zero => exact fun h _ _ => h
  | succ n ih => exact fun h pa v => ih (wf_writeCell h pa _) (pa + 1) (v / 256)

theorem readCell_writeN_off (n : Nat) : ∀ {m : List Host.Cell}, Memory.wf m = true → ∀ pa v {x}, (x < pa ∨ pa + n ≤ x) →
    readCell (writeN m pa n v) x = readCell m x := by
  induction n with
  | zero => exact fun _ _ _ _ _ => rfl
  | succ n ih =>
    intro m h pa v x hx
    rw [writeN, ih (wf_writeCell h pa _) (pa + 1) (v / 256) (by omega), readCell_other h _ (by omega)]

/-- `n` bytes written are read back. -/
theorem readN_writeN (n : Nat) : ∀ {m : List Host.Cell}, Memory.wf m = true → ∀ pa v,
    readN (writeN m pa n v) pa n = v % 256 ^ n := by
  induction n with
  | zero =>
    intro m _ pa v
    simp [readN, Nat.mod_one]
  | succ n ih =>
    intro m h pa v
    have hb : readCell (writeN m pa (n + 1) v) pa = BitVec.ofNat 8 v := by
      rw [writeN, readCell_writeN_off n (wf_writeCell h pa _) (pa + 1) (v / 256) (by omega), readCell_written h]
    rw [readN, hb, writeN, ih (wf_writeCell h pa _) (pa + 1) (v / 256), pow_succ, BitVec.toNat_ofNat,
      Nat.mul_comm (256 ^ n) 256, Nat.mod_mul]

/-- Removing entries keeps the canonical form. -/
theorem cellsWf_filter (p : Host.Cell → Bool) (m : List Host.Cell) :
    ∀ lo, cellsWf lo m = true → cellsWf lo (m.filter p) = true := by
  induction m with
  | nil => exact fun _ h => h
  | cons c m ih =>
    intro lo h
    obtain ⟨a, b⟩ := c
    have h' := cellsWf_cons.1 h
    simp only [List.filter_cons]
    split
    · exact cellsWf_cons.2 ⟨h'.1, h'.2.1, ih _ h'.2.2⟩
    · cases lo with
      | none => exact cellsWf_weaken (ih _ h'.2.2)
      | some l => exact cellsWf_lower (Nat.le_of_lt (h'.1 l rfl)) (ih _ h'.2.2)

theorem wf_filter (p : Host.Cell → Bool) {m : List Host.Cell} (h : Memory.wf m = true) : Memory.wf (m.filter p) = true :=
  cellsWf_filter p m none h

theorem wf_zeroRange {s : State} (h : Memory.wf s.mem = true) (pa n : Nat) : Memory.wf (s.zeroRange pa n).mem = true :=
  wf_filter _ h

theorem wf_wr {s : State} (h : Memory.wf s.mem = true) (pa n v : Nat) : Memory.wf (s.wr pa n v).mem = true :=
  wf_writeN n h pa v

theorem wf_wr64 {s : State} (h : Memory.wf s.mem = true) (pa : Nat) (v : Word) : Memory.wf (s.wr64 pa v).mem = true :=
  wf_wr h pa 8 v.toNat

theorem wf_writeBytes (bs : List Byte) : ∀ (pa : Nat) {m : List Host.Cell}, Memory.wf m = true →
    Memory.wf (bs.foldl (fun (a : Nat × List Host.Cell) b => (a.1 + 1, writeCell a.2 a.1 b)) (pa, m)).2 = true := by
  induction bs with
  | nil => exact fun _ _ h => h
  | cons b bs ih => exact fun pa _ h => ih (pa + 1) (wf_writeCell h pa b)

theorem wf_wrBytes {s : State} (h : Memory.wf s.mem = true) (pa : Nat) (bs : List Byte) :
    Memory.wf (s.wrBytes pa bs).mem = true := wf_writeBytes bs pa h

/-- Start-up leaves memory in its canonical form. -/
theorem wf_reset : Memory.wf State.reset.mem = true := rfl

end Sys2Proof.Machine
end

