-- ==== Sys2Proof/Laws/Issue.lean ====
section
/-! SUPPORT. Reading and writing registers, and what a unit that only computes a register does. -/

namespace Sys2Proof.Machine

/-! ### Reading back parts of the state -/

@[simp] theorem ctx_setCtx_same (s : State) (t : Nat) (c : Ctx) : (s.setCtx t c).ctx t = c := by
  simp [State.ctx]

theorem ctx_setCtx_ne (s : State) {t u : Nat} (c : Ctx) (h : u ≠ t) : (s.setCtx t c).ctx u = s.ctx u := by
  simp [State.ctx, look_put_ne _ _ h]

@[simp] theorem ctx_modCtx_same (s : State) (t : Nat) (f : Ctx → Ctx) : (s.modCtx t f).ctx t = f (s.ctx t) := by
  simp [State.modCtx]

theorem ctx_modCtx_ne (s : State) {t u : Nat} (f : Ctx → Ctx) (h : u ≠ t) : (s.modCtx t f).ctx u = s.ctx u :=
  ctx_setCtx_ne s _ h

@[simp] theorem core_modCore_same (s : State) (d : Nat) (f : Core → Core) : (s.modCore d f).core d = f (s.core d) := by
  simp [State.core]

theorem core_modCore_ne (s : State) {d e : Nat} (f : Core → Core) (h : e ≠ d) : (s.modCore d f).core e = s.core e := by
  simp [State.core, look_put_ne _ _ h]

@[simp] theorem core_modCtx (s : State) (t d : Nat) (f : Ctx → Ctx) : (s.modCtx t f).core d = s.core d := rfl
@[simp] theorem core_setCtx (s : State) (t d : Nat) (c : Ctx) : (s.setCtx t c).core d = s.core d := rfl
@[simp] theorem ctx_modCore (s : State) (t d : Nat) (f : Core → Core) : (s.modCore d f).ctx t = s.ctx t := rfl
@[simp] theorem ctx_setRes (s : State) (t : Nat) (r : IssueRes) : (s.setRes r).ctx t = s.ctx t := rfl
@[simp] theorem core_setRes (s : State) (d : Nat) (r : IssueRes) : (s.setRes r).core d = s.core d := rfl
@[simp] theorem setRes_tid (s : State) (r : IssueRes) : (s.setRes r).iss.tid = s.iss.tid := rfl

@[simp] theorem modCtx_modCtx (s : State) (t : Nat) (f h : Ctx → Ctx) :
    (s.modCtx t f).modCtx t h = s.modCtx t (fun c => h (f c)) := by
  simp only [State.modCtx, State.setCtx, put_put]
  simp [State.ctx]

/-! ### The partner of a thread -/

theorem find_put_ignored (m : SMap Ctx) (k : Nat) (v : Ctx) (p : Nat × Ctx → Bool) (h : ∀ c, p (k, c) = false) :
    (SMap.put m k v).find? p = m.find? p := by
  induction m with
  | nil => simp [SMap.put, h]
  | cons e m ih =>
    obtain ⟨k', v'⟩ := e
    simp only [SMap.put]
    split
    · simp [h]
    · split
      · rename_i _ heq
        subst heq
        simp [h]
      · simp only [List.find?_cons, ih]

/-- Changes of a context that keep its task, its place and its lane keep its partners. -/
theorem partner_setCtx (s : State) (t vc : Nat) (c : Ctx) (ht : c.task = (s.ctx t).task)
    (hp : c.place = (s.ctx t).place) (hl : c.lane = (s.ctx t).lane) : (s.setCtx t c).partner t vc = s.partner t vc := by
  simp only [State.partner, ctx_setCtx_same, Ctx.laneNo, Ctx.slotNo, ht, hp, hl, setCtx_ctxs]
  rw [find_put_ignored]
  · rfl
  · simp

theorem partner_ne {s : State} {t vc p : Nat} (h : s.partner t vc = some p) : p ≠ t := by
  simp only [State.partner, Option.map_eq_some_iff] at h
  obtain ⟨e, he, rfl⟩ := h
  have := List.find?_some he
  simp at this
  exact this.2

/-! ### One register -/

/-- The core and the function that an h register belongs to. -/
theorem peek_congr {s t : State} {u : Nat} (hr : (t.ctx u).regs = (s.ctx u).regs) (hp : (t.ctx u).place = (s.ctx u).place)
    (hf : (t.ctx u).fn = (s.ctx u).fn) (hb : ∀ d, (t.core d).hb = (s.core d).hb) (r : Reg) : t.peek u r = s.peek u r := by
  unfold State.peek
  simp only [Ctx.core, hr, hp, hf, Core.bank, hb]

theorem whyEmpty_congr {s t : State} {u : Nat} (hr : (t.ctx u).empt = (s.ctx u).empt)
    (hp : (t.ctx u).place = (s.ctx u).place) (hf : (t.ctx u).fn = (s.ctx u).fn) (hb : ∀ d, (t.core d).hb = (s.core d).hb)
    (r : Reg) : t.whyEmpty u r = s.whyEmpty u r := by
  unfold State.whyEmpty
  simp only [Ctx.core, hr, hp, hf, Core.bank, hb]

/-- A register of a context, not an h register and not g0. -/
def ownStored : Reg → Bool
  | .g n => n ≠ 0
  | .h _ => false
  | .q _ | .i _ => true

theorem fillReg_own (s : State) (t : Nat) {r : Reg} (v : Word) (h : ownStored r = true) :
    s.fillReg t r v = s.modCtx t fun c => { c with regs := c.regs.put r.code.toNat v, empt := c.empt.del r.code.toNat } := by
  unfold State.fillReg
  split <;> simp_all [ownStored]

theorem fillReg_g0 (s : State) (t : Nat) (v : Word) : s.fillReg t (.g 0) v = s := rfl

theorem peek_own (s : State) (t : Nat) {r : Reg} (h : ownStored r = true) :
    s.peek t r = ((s.ctx t).regs.look r.code.toNat).getD 0 := by
  unfold State.peek
  split <;> simp_all [ownStored]

theorem whyEmpty_own (s : State) (t : Nat) {r : Reg} (h : ownStored r = true) :
    s.whyEmpty t r = (s.ctx t).empt.look r.code.toNat := by
  unfold State.whyEmpty
  split <;> simp_all [ownStored]

theorem peek_withReg {s t : State} {u : Nat} {r : Reg} {v : Word}
    (hregs : (t.ctx u).regs = (s.ctx u).regs.put r.code.toNat v) (hempt : (t.ctx u).empt = (s.ctx u).empt.del r.code.toNat)
    (hp : (t.ctx u).place = (s.ctx u).place) (hf : (t.ctx u).fn = (s.ctx u).fn) (hb : ∀ d, (t.core d).hb = (s.core d).hb)
    {x : Reg} (hx : x ≠ r) : t.peek u x = s.peek u x ∧ t.whyEmpty u x = s.whyEmpty u x := by
  cases hs : ownStored x with
  | true =>
    have hc : x.code.toNat ≠ r.code.toNat := fun h => hx (code_toNat_injective h)
    simp [peek_own _ _ hs, whyEmpty_own _ _ hs, hregs, hempt, look_put_ne _ _ hc, look_del_ne _ hc]
  | false =>
    cases x with
    | g n =>
      have hn : n = 0 := by simpa [ownStored] using hs
      subst hn
      exact ⟨rfl, rfl⟩
    | h n => simp [State.peek, State.whyEmpty, Ctx.core, hp, hf, Core.bank, hb]
    | q n => simp [ownStored] at hs
    | i n => simp [ownStored] at hs

/-! ### The frame of what touches only contexts and cores -/

theorem sameElse.trans {s t u : State} (h : sameElse s t) (h' : sameElse t u) : sameElse s u := by
  unfold sameElse at *
  have e : { u with ctxs := s.ctxs, cores := s.cores, iss := s.iss } =
      { { u with ctxs := t.ctxs, cores := t.cores, iss := t.iss } with ctxs := s.ctxs, cores := s.cores, iss := s.iss } := rfl
  rw [e, h', h]

theorem sameElse_modCtx (s : State) (t : Nat) (f : Ctx → Ctx) : sameElse s (s.modCtx t f) := rfl
theorem sameElse_modCore (s : State) (d : Nat) (f : Core → Core) : sameElse s (s.modCore d f) := rfl
theorem sameElse_setRes (s : State) (r : IssueRes) : sameElse s (s.setRes r) := rfl
theorem sameElse_refl (s : State) : sameElse s s := rfl

theorem sameElse.mem {s t : State} (h : sameElse s t) : t.mem = s.mem := by
  have e : ({ t with ctxs := s.ctxs, cores := s.cores, iss := s.iss } : State).mem = s.mem := congrArg State.mem h
  exact e
theorem sameElse.byte {s t : State} (h : sameElse s t) (a : Nat) : t.byte a = s.byte a := by
  simp [State.byte, h.mem]

/-! ### Leaving the pipeline -/

/-- The unit issues: its effect on the state after the PC moved, and the link it read (R130, R251). -/
theorem operands_issues {s : State} {srcs dsts : List Reg} (h : s.issues srcs dsts) (f : State → State) :
    s.operands srcs dsts f = (f s.advance).takeLink srcs := by
  have h' : s.opStop srcs dsts = none := h
  simp [State.operands, h']

@[simp] theorem advance_iss (s : State) : s.advance.iss = { s.iss with res := .done } := by
  unfold State.advance
  split <;> rfl

@[simp] theorem advance_core (s : State) (d : Nat) : s.advance.core d = s.core d := by
  unfold State.advance
  split <;> rfl

theorem advance_ctx (s : State) (u : Nat) : s.advance.ctx u =
    if u = s.me ∧ s.iss.snap.isNone then { s.ctx u with pc := s.iss.next, park := .none } else s.ctx u := by
  unfold State.advance
  by_cases h : s.iss.snap.isSome
  · have h' : s.iss.snap.isNone = false := by simpa using h
    simp [h, h']
  · have h' : s.iss.snap.isNone = true := by simpa using h
    rw [if_neg h]
    by_cases hu : u = s.me
    · subst hu
      simp only [State.me, h', and_self, if_true]
      rw [ctx_setRes]
      exact ctx_modCtx_same _ _ _
    · simp only [hu, false_and, if_false]
      rw [ctx_setRes]
      exact ctx_modCtx_ne _ _ hu

theorem sameElse_advance (s : State) : sameElse s s.advance := by
  unfold State.advance
  split
  · exact sameElse_setRes _ _
  · exact (sameElse_modCtx _ _ _).trans (sameElse_setRes _ _)

/-- A lone unit or word 0 moves its own PC. -/
theorem advance_leads {s : State} (h : s.leads) :
    s.advance = (s.modCtx s.me fun c => { c with pc := s.iss.next, park := .none }).setRes .done := by
  have h' : s.iss.snap = none := h
  simp [State.advance, h', State.me]

theorem takeLink_none (s : State) {srcs : List Reg} (h : srcs.contains (.g 60) = false) : s.takeLink srcs = s := by
  unfold State.takeLink
  rw [h]
  rfl

end Sys2Proof.Machine
end

