-- ==== Sys2Proof/Laws/Compute.lean ====
section
/-! SUPPORT. What a unit that only computes a register does: `compute_wrote`, and its parts for each kind of register. -/

namespace Sys2Proof.Machine

/-- The context of the unit after stage OP and the PC's move. -/
def movedOn (s : State) (c : Ctx) : Ctx := if s.iss.snap.isSome then c else { c with pc := s.iss.next, park := .none }

theorem advance_ctx_me (s : State) : s.advance.ctx s.me = movedOn s (s.ctx s.me) := by
  rw [advance_ctx]
  unfold movedOn
  cases h : s.iss.snap <;> simp

theorem advance_ctx_ne (s : State) {u : Nat} (h : u ≠ s.me) : s.advance.ctx u = s.ctx u := by
  rw [advance_ctx]
  simp [h]

@[simp] theorem movedOn_regs (s : State) (c : Ctx) : (movedOn s c).regs = c.regs := by unfold movedOn; split <;> rfl
@[simp] theorem movedOn_empt (s : State) (c : Ctx) : (movedOn s c).empt = c.empt := by unfold movedOn; split <;> rfl
@[simp] theorem movedOn_chain (s : State) (c : Ctx) : (movedOn s c).chain = c.chain := by unfold movedOn; split <;> rfl
@[simp] theorem movedOn_place (s : State) (c : Ctx) : (movedOn s c).place = c.place := by unfold movedOn; split <;> rfl
@[simp] theorem movedOn_fn (s : State) (c : Ctx) : (movedOn s c).fn = c.fn := by unfold movedOn; split <;> rfl
@[simp] theorem movedOn_task (s : State) (c : Ctx) : (movedOn s c).task = c.task := by unfold movedOn; split <;> rfl
@[simp] theorem movedOn_vcore (s : State) (c : Ctx) : (movedOn s c).vcore = c.vcore := by unfold movedOn; split <;> rfl
@[simp] theorem movedOn_rest (s : State) (c : Ctx) : (movedOn s c).rest = c.rest := by unfold movedOn; split <;> rfl
@[simp] theorem movedOn_undo (s : State) (c : Ctx) : (movedOn s c).undo = c.undo := by unfold movedOn; split <;> rfl
@[simp] theorem movedOn_pc (s : State) (c : Ctx) :
    (movedOn s c).pc = if s.iss.snap.isSome then c.pc else s.iss.next := by unfold movedOn; split <;> rfl

/-! ### The link that was read -/

theorem popped_none {srcs : List Reg} (h : srcs.contains (.g 60) = false) (c : Ctx) : c.popped srcs = c := by
  unfold Ctx.popped
  rw [h]
  rfl

@[simp] theorem popped_rest (c : Ctx) (srcs : List Reg) : (c.popped srcs).rest = c.rest := by
  unfold Ctx.popped
  split <;> rfl
@[simp] theorem popped_pc (c : Ctx) (srcs : List Reg) : (c.popped srcs).pc = c.pc := by unfold Ctx.popped; split <;> rfl
@[simp] theorem popped_chain (c : Ctx) (srcs : List Reg) :
    (c.popped srcs).chain = if srcs.contains (.g 60) then c.chain.tail else c.chain := by unfold Ctx.popped; split <;> rfl

/-- Taking a value from the link leaves the registers and the place of a context. -/
theorem popped_regs (c : Ctx) (srcs : List Reg) : (c.popped srcs).regs = c.regs ∧ (c.popped srcs).empt = c.empt ∧
    (c.popped srcs).place = c.place ∧ (c.popped srcs).fn = c.fn := by
  unfold Ctx.popped
  split <;> exact ⟨rfl, rfl, rfl, rfl⟩

/-- What is kept aside of the link depends on the link and what was kept before alone. -/
theorem popped_undo {c c' : Ctx} (srcs : List Reg) (hc : c.chain = c'.chain) (hu : c.undo = c'.undo) :
    (c.popped srcs).undo = (c'.popped srcs).undo := by
  unfold Ctx.popped
  split <;> simp [hc, hu]

theorem takeLink_eq {t : State} (h : t.iss.res = .done) (srcs : List Reg) : t.takeLink srcs =
    if srcs.contains (.g 60) then
      t.modCtx t.iss.tid (fun c => { c with chain := c.chain.tail, undo := { c.undo with link := c.chain.head? } }) else t := by
  simp [State.takeLink, h]

/-- Reading the link changes the unit's own link and nothing else. -/
theorem takeLink_spec {t : State} (h : t.iss.res = .done) (srcs : List Reg) :
    (t.takeLink srcs).iss = t.iss ∧ (∀ d, (t.takeLink srcs).core d = t.core d) ∧
    (∀ u, u ≠ t.iss.tid → (t.takeLink srcs).ctx u = t.ctx u) ∧
    (t.takeLink srcs).ctx t.iss.tid = (t.ctx t.iss.tid).popped srcs ∧
    sameElse t (t.takeLink srcs) := by
  rw [takeLink_eq h]
  unfold Ctx.popped
  split
  · exact ⟨rfl, fun _ => rfl, fun u hu => ctx_modCtx_ne _ _ hu, ctx_modCtx_same _ _ _, rfl⟩
  · exact ⟨rfl, fun _ => rfl, fun u _ => rfl, rfl, rfl⟩

/-! ### Stage WB -/

/-- What a write of stage WB leaves: the register, the link out of the core, and everything else as before. -/
structure Wb (s t : State) (rd : Reg) (v : Word) : Prop where
  iss : t.iss = s.iss
  result : holdsResult s t rd v
  regs : ∀ u r, (u ≠ s.me ∨ r ≠ rd) → t.peek u r = s.peek u r ∧ t.whyEmpty u r = s.whyEmpty u r
  link : ∀ u, (t.ctx u).chain =
    if rd = .g 61 ∧ s.partner s.me ((s.ctx s.me).vcore + 1) = some u then (s.ctx u).chain ++ [v] else (s.ctx u).chain
  ctxs : ∀ u, (t.ctx u).pc = (s.ctx u).pc ∧ (t.ctx u).park = (s.ctx u).park ∧ (t.ctx u).rest = (s.ctx u).rest
  undo : ∀ u, (t.ctx u).undo = (s.ctx u).undo
  cores : ∀ d, (t.core d).rest = (s.core d).rest
  delayed : ∀ d, (d ≠ (s.ctx s.me).core ∨ ∀ n, rd ≠ .h n) → (t.core d).delayed = (s.core d).delayed
  rest : sameElse s t

theorem wb_same (s : State) (rd : Reg) (v : Word) (hr : holdsResult s s rd v) (h61 : rd ≠ .g 61) : Wb s s rd v where
  iss := rfl
  result := hr
  regs := fun _ _ _ => ⟨rfl, rfl⟩
  link := fun u => by rw [if_neg fun h => h61 h.1]
  ctxs := fun _ => ⟨rfl, rfl, rfl⟩
  undo := fun _ => rfl
  cores := fun _ => rfl
  delayed := fun _ _ => rfl
  rest := rfl

/-- The delayed write of an h register (R129). -/
def Core.delayH (c : Core) (fn : Nat) (n : BitVec 4) (v : Word) : Core :=
  { c with delayed := c.delayed ++ [.hVal c.issueCycle fn n.toNat v] }

theorem core_delayH (s : State) (n : BitVec 4) (v : Word) (d : Nat) : (s.dst (.h n) v).core d =
    if d = (s.ctx s.me).core then (s.core d).delayH (s.ctx s.me).fn n v else s.core d := by
  split
  · rename_i hd
    subst hd
    exact core_modCore_same _ _ _
  · rename_i hd
    exact core_modCore_ne _ _ hd

theorem wb_h (s : State) (n : BitVec 4) (v : Word) : Wb s (s.dst (.h n) v) (.h n) v where
  iss := rfl
  result := by
    show ((s.dst (.h n) v).core (s.ctx s.me).core).delayed = _
    rw [core_delayH, if_pos rfl]
    rfl
  regs := by
    intro u r _
    have hb : ∀ d, ((s.dst (.h n) v).core d).hb = (s.core d).hb := by
      intro d
      rw [core_delayH]
      split <;> rfl
    exact ⟨peek_congr (s := s) (t := s.dst (.h n) v) rfl rfl rfl hb r,
      whyEmpty_congr (s := s) (t := s.dst (.h n) v) rfl rfl rfl hb r⟩
  link := fun u => by rw [if_neg fun h => Reg.noConfusion h.1]; rfl
  ctxs := fun _ => ⟨rfl, rfl, rfl⟩
  undo := fun _ => rfl
  cores := by
    intro d
    rw [core_delayH]
    split <;> rfl
  delayed := by
    intro d hd
    rw [core_delayH, if_neg (hd.resolve_right fun h => h n rfl)]
  rest := rfl

theorem peek_sameCtx {s t : State} {u : Nat} (h : t.ctx u = s.ctx u) (hb : ∀ d, (t.core d).hb = (s.core d).hb) (r : Reg) :
    t.peek u r = s.peek u r ∧ t.whyEmpty u r = s.whyEmpty u r :=
  ⟨peek_congr (by rw [h]) (by rw [h]) (by rw [h]) hb r, whyEmpty_congr (by rw [h]) (by rw [h]) (by rw [h]) hb r⟩

/-- What a write of a register of the context leaves. -/
theorem own_parts (s : State) {rd : Reg} (v : Word) (hown : ownStored rd = true) :
    holdsResult s (s.modCtx s.me fun c => c.withReg rd v) rd v ∧
    (∀ u r, (u ≠ s.me ∨ r ≠ rd) → (s.modCtx s.me fun c => c.withReg rd v).peek u r = s.peek u r ∧
      (s.modCtx s.me fun c => c.withReg rd v).whyEmpty u r = s.whyEmpty u r) ∧
    (∀ u, ((s.modCtx s.me fun c => c.withReg rd v).ctx u).chain = (s.ctx u).chain) ∧
    (∀ u, ((s.modCtx s.me fun c => c.withReg rd v).ctx u).pc = (s.ctx u).pc ∧
      ((s.modCtx s.me fun c => c.withReg rd v).ctx u).park = (s.ctx u).park ∧
      ((s.modCtx s.me fun c => c.withReg rd v).ctx u).rest = (s.ctx u).rest) ∧
    (∀ u, ((s.modCtx s.me fun c => c.withReg rd v).ctx u).undo = (s.ctx u).undo) := by
  have hctx : ∀ u, u ≠ s.me → (s.modCtx s.me fun c => c.withReg rd v).ctx u = s.ctx u := fun u hu => ctx_modCtx_ne _ _ hu
  have hme : (s.modCtx s.me fun c => c.withReg rd v).ctx s.me = (s.ctx s.me).withReg rd v := ctx_modCtx_same _ _ _
  refine ⟨?_, ?_, ?_, ?_, ?_⟩
  · have hp : (s.modCtx s.me fun c => c.withReg rd v).peek s.me rd = v := by
      rw [peek_own _ _ hown, hme]
      simp [Ctx.withReg]
    have hw : (s.modCtx s.me fun c => c.withReg rd v).whyEmpty s.me rd = none := by
      rw [whyEmpty_own _ _ hown, hme]
      simp [Ctx.withReg]
    unfold holdsResult
    split
    · have hn := hown
      simp only [ownStored, decide_eq_true_eq, ne_eq] at hn
      rw [if_neg hn]
      exact ⟨hp, hw⟩
    · exact ⟨hp, hw⟩
    · exact ⟨hp, hw⟩
    · simp [ownStored] at hown
  · intro u r hur
    by_cases hu : u = s.me
    · subst hu
      refine peek_withReg (s := s) (t := s.modCtx s.me fun c => c.withReg rd v) (v := v) ?_ ?_ ?_ ?_ (fun _ => rfl)
        (hur.resolve_left (fun h => h rfl))
      all_goals rw [hme]; rfl
    · have h1 := hctx u hu
      exact peek_sameCtx h1 (fun _ => rfl) r
  · intro u
    by_cases hu : u = s.me
    · subst hu
      rw [hme]
      rfl
    · rw [hctx u hu]
  · intro u
    by_cases hu : u = s.me
    · subst hu
      rw [hme]
      exact ⟨rfl, rfl, rfl⟩
    · rw [hctx u hu]
      exact ⟨rfl, rfl, rfl⟩
  · intro u
    by_cases hu : u = s.me
    · subst hu
      rw [hme]
      rfl
    · rw [hctx u hu]

/-- A register of the context, but for g61. -/
theorem wb_own (s : State) {rd : Reg} (v : Word) (hown : ownStored rd = true) (h61 : rd ≠ .g 61) :
    Wb s (s.modCtx s.me fun c => c.withReg rd v) rd v := by
  obtain ⟨h1, h2, h3, h4, h5⟩ := own_parts s v hown
  exact ⟨rfl, h1, h2, fun u => by rw [if_neg fun h => h61 h.1]; exact h3 u, h4, h5, fun _ => rfl, fun _ _ => rfl, rfl⟩

/-- A context with another link into its core. -/
def Ctx.withChain (c : Ctx) (l : List Word) : Ctx := { c with chain := l }

@[simp] theorem withChain_chain (c : Ctx) (l : List Word) : (c.withChain l).chain = l := rfl

/-- A push on the link out of the core changes the partner's link alone. -/
theorem pushLink_spec (s : State) (t : Nat) (v : Word) :
    (s.pushLink t v).iss = s.iss ∧ (∀ d, (s.pushLink t v).core d = s.core d) ∧ sameElse s (s.pushLink t v) ∧
    (∀ u, (s.pushLink t v).ctx u = (s.ctx u).withChain
      (if s.partner t ((s.ctx t).vcore + 1) = some u then (s.ctx u).chain ++ [v] else (s.ctx u).chain)) := by
  unfold State.pushLink
  cases h : s.partner t ((s.ctx t).vcore + 1) with
  | none => exact ⟨rfl, fun _ => rfl, rfl, fun u => rfl⟩
  | some p =>
    refine ⟨rfl, fun _ => rfl, rfl, fun u => ?_⟩
    by_cases hu : u = p
    · subst hu
      rw [if_pos rfl]
      exact ctx_modCtx_same _ _ _
    · rw [if_neg (fun h => hu (Option.some.inj h).symm)]
      exact ctx_modCtx_ne _ _ hu

theorem peek_chain {s t : State} (hc : ∀ u, (t.ctx u).regs = (s.ctx u).regs ∧ (t.ctx u).empt = (s.ctx u).empt ∧
    (t.ctx u).place = (s.ctx u).place ∧ (t.ctx u).fn = (s.ctx u).fn) (hd : ∀ d, t.core d = s.core d) (u : Nat) (r : Reg) :
    t.peek u r = s.peek u r ∧ t.whyEmpty u r = s.whyEmpty u r :=
  ⟨peek_congr (hc u).1 (hc u).2.2.1 (hc u).2.2.2 (fun d => by rw [hd]) r,
    whyEmpty_congr (hc u).2.1 (hc u).2.2.1 (hc u).2.2.2 (fun d => by rw [hd]) r⟩

/-- g61 keeps the value and appends it to the link (R130). -/
theorem wb_g61 (s : State) (v : Word) : Wb s (s.dst (.g 61) v) (.g 61) v := by
  obtain ⟨g1, g2, g3, g5, g6⟩ := own_parts s v (rd := .g 61) rfl
  obtain ⟨h1, h2, h3, h4⟩ := pushLink_spec (s.modCtx s.me fun c => c.withReg (.g 61) v) s.me v
  have hpart : (s.modCtx s.me fun c => c.withReg (.g 61) v).partner s.me
      (((s.modCtx s.me fun c => c.withReg (.g 61) v).ctx s.me).vcore + 1) = s.partner s.me ((s.ctx s.me).vcore + 1) := by
    rw [ctx_modCtx_same]
    exact partner_setCtx _ _ _ _ rfl rfl rfl
  rw [hpart] at h4
  have e : s.dst (.g 61) v = (s.modCtx s.me fun c => c.withReg (.g 61) v).pushLink s.me v := rfl
  have hpk := peek_chain (s := s.modCtx s.me fun c => c.withReg (.g 61) v) (t := s.dst (.g 61) v)
    (fun u => by rw [e, h4]; exact ⟨rfl, rfl, rfl, rfl⟩) (fun d => by rw [e, h2])
  refine ⟨h1, ?_, ?_, ?_, ?_, ?_, ?_, ?_, (sameElse_modCtx _ _ _).trans h3⟩
  · exact ⟨(hpk _ _).1.trans g1.1, (hpk _ _).2.trans g1.2⟩
  · exact fun u r hur => ⟨(hpk _ _).1.trans (g2 u r hur).1, (hpk _ _).2.trans (g2 u r hur).2⟩
  · intro u
    rw [e, h4, withChain_chain, g3 u]
    simp
  · intro u
    rw [e, h4]
    exact g5 u
  · intro u
    rw [e, h4]
    exact g6 u
  · intro d
    rw [e, h2]
    rfl
  · intro d _
    rw [e, h2]
    rfl

/-- A register write of the unit (R126, R129, R130). -/
theorem dst_wb (s : State) (rd : Reg) (v : Word) : Wb s (s.dst rd v) rd v := by
  by_cases h61 : rd = .g 61
  · subst h61
    exact wb_g61 s v
  · cases hown : ownStored rd with
    | true =>
      have e : s.dst rd v = s.modCtx s.me fun c => c.withReg rd v := by
        unfold State.dst State.writeReg
        split
        · simp [ownStored] at hown
        · rw [if_neg (fun h => h61 (by rw [h]))]
          exact fillReg_own _ _ _ hown
        · exact fillReg_own _ _ _ hown
        · exact fillReg_own _ _ _ hown
      rw [e]
      exact wb_own s v hown h61
    | false =>
      cases rd with
      | g n =>
        have hn : n = 0 := by simpa [ownStored] using hown
        subst hn
        exact wb_same s _ v ⟨rfl, rfl⟩ h61
      | h n => exact wb_h s n v
      | q n => simp [ownStored] at hown
      | i n => simp [ownStored] at hown

/-! ### The whole unit -/

/-- The result seen from the state before the PC moved, and after the link was read. -/
theorem holdsResult.transfer {s t s' t' : State} {rd : Reg} {v : Word} (h : holdsResult s' t' rd v) (hme : s'.me = s.me)
    (hp : (s'.ctx s.me).place = (s.ctx s.me).place) (hf : (s'.ctx s.me).fn = (s.ctx s.me).fn)
    (hd : ∀ d, s'.core d = s.core d) (hpk : ∀ u r, t.peek u r = t'.peek u r ∧ t.whyEmpty u r = t'.whyEmpty u r)
    (hd' : ∀ d, t.core d = t'.core d) : holdsResult s t rd v := by
  unfold holdsResult at *
  rw [hme] at h
  split
  · exact ⟨(hpk _ _).1.trans h.1, (hpk _ _).2.trans h.2⟩
  · exact ⟨(hpk _ _).1.trans h.1, (hpk _ _).2.trans h.2⟩
  · exact ⟨(hpk _ _).1.trans h.1, (hpk _ _).2.trans h.2⟩
  · simp only [Ctx.core, hp, hf, hd] at h
    rw [hd']
    exact h


/-- A unit that issues, reads `srcs`, writes `v` to `rd` and does nothing else. -/
theorem compute_wrote {s : State} {srcs : List Reg} {rd : Reg} (h : s.issues srcs [rd]) (v : Word) :
    Wrote s (s.compute rd srcs v) srcs rd v := by
  have e : s.compute rd srcs v = (s.advance.dst rd v).takeLink srcs := operands_issues h _
  have hwb := dst_wb s.advance rd v
  have hiss : (s.advance.dst rd v).iss = { s.iss with res := .done } := hwb.iss.trans (advance_iss s)
  obtain ⟨t1, t2, t3, t4, t5⟩ := takeLink_spec (t := s.advance.dst rd v) (by rw [hiss]) srcs
  rw [← e] at t1 t2 t3 t4 t5
  have hme : (s.advance.dst rd v).iss.tid = s.me := by rw [hiss]
  have ame : s.advance.me = s.me := by simp [State.me]
  rw [hme] at t3 t4
  have hpart : s.advance.partner s.me ((s.ctx s.me).vcore + 1) = s.partner s.me ((s.ctx s.me).vcore + 1) := by
    unfold State.advance
    split
    · rfl
    · exact partner_setCtx s s.me _ _ rfl rfl rfl
  have hpk := peek_chain (s := s.advance.dst rd v) (t := s.compute rd srcs v)
    (fun u => by
      by_cases hu : u = s.me
      · subst hu
        rw [t4]
        exact popped_regs _ _
      · rw [t3 u hu]
        exact ⟨rfl, rfl, rfl, rfl⟩) t2
  have hadv := peek_chain (s := s) (t := s.advance)
    (fun u => by
      by_cases hu : u = s.me
      · subst hu
        rw [advance_ctx_me]
        simp
      · rw [advance_ctx_ne s hu]
        exact ⟨rfl, rfl, rfl, rfl⟩) (advance_core s)
  have hctx : ∀ u, s.advance.ctx u = if u = s.me then movedOn s (s.ctx u) else s.ctx u := by
    intro u
    split
    · rename_i hu
      subst hu
      exact advance_ctx_me s
    · exact advance_ctx_ne s ‹_›
  refine ⟨t1.trans hiss, ?_, ?_, ?_, ?_, ?_, ?_, ?_, ?_, ?_, ?_, ((sameElse_advance s).trans hwb.rest).trans t5⟩
  · exact hwb.result.transfer ame (by rw [hctx]; simp) (by rw [hctx]; simp) (advance_core s) hpk t2
  · rw [t4, popped_pc, (hwb.ctxs s.me).1, advance_ctx_me, movedOn_pc]
  · intro u r hur
    have h1 := hpk u r
    have h2 := hwb.regs u r (by rw [ame]; exact hur)
    have h3 := hadv u r
    exact ⟨h1.1.trans (h2.1.trans h3.1), h1.2.trans (h2.2.trans h3.2)⟩
  · intro u
    have hl := hwb.link u
    rw [ame] at hl
    have hv : (s.advance.ctx s.me).vcore = (s.ctx s.me).vcore := by rw [hctx]; simp
    rw [hv, hpart] at hl
    unfold linkAfter
    by_cases hu : u = s.me
    · subst hu
      rw [t4, if_pos rfl]
      have own : ¬ (rd = .g 61 ∧ s.partner s.me ((s.ctx s.me).vcore + 1) = some s.me) := fun h => partner_ne h.2 rfl
      rw [popped_chain, hl, if_neg own, hctx, if_pos rfl, movedOn_chain]
    · rw [t3 u hu, hl, if_neg hu, hctx, if_neg hu]
  · intro u
    have hul : ((s.advance.dst rd v).ctx u).undo = (s.ctx u).undo := by
      rw [hwb.undo, hctx]
      split <;> simp
    split
    · rename_i hu
      subst hu
      rw [t4]
      refine popped_undo srcs ?_ hul
      have hl := hwb.link s.me
      rw [if_neg (fun h => partner_ne (ame ▸ h.2) rfl), hctx, if_pos rfl, movedOn_chain] at hl
      exact hl
    · rw [t3 u ‹_›, hul]
  · intro u hu
    rw [t3 u hu, (hwb.ctxs u).1, (hwb.ctxs u).2.1, hctx, if_neg hu]
    exact ⟨rfl, rfl⟩
  · intro u
    by_cases hu : u = s.me
    · subst hu
      rw [t4, popped_rest, (hwb.ctxs _).2.2, advance_ctx_me, movedOn_rest]
    · rw [t3 u hu, (hwb.ctxs u).2.2, hctx, if_neg hu]
  · intro d
    rw [t2, hwb.cores, advance_core]
  · intro d hd
    rw [t2, hwb.delayed d (by
      rw [ame]
      have hp : (s.advance.ctx s.me).core = (s.ctx s.me).core := by
        rw [hctx, if_pos rfl]
        simp [Ctx.core]
      rw [hp]
      exact hd), advance_core]
  · exact (((sameElse_advance s).trans hwb.rest).trans t5).byte

end Sys2Proof.Machine
end

