-- ==== Sys2Proof/Laws/HomeWrite.lean ====
section
/-! SUPPORT. What a write at a home agent does to memory. -/

namespace Sys2Proof.Machine

@[simp] theorem State.mendEcc_mem (s : State) (pa n : Nat) : (s.mendEcc pa n).mem = s.mem := rfl

@[simp] theorem State.joinWake_mem (s : State) (pa n : Nat) : (s.joinWake pa n).mem = s.mem := rfl

@[simp] theorem State.vaultWritten_mem (s : State) (writer : Option Nat) (pa : Nat) :
    (s.vaultWritten writer pa).mem = s.mem := by
  unfold State.vaultWritten
  split
  · split <;> rfl
  · rfl

/-- Memory after a write at a home agent: the cell marker goes, then the bytes are written. -/
@[simp] theorem State.homeWrite_mem (s : State) (writer : Option Nat) (pa n v : Nat) :
    (s.homeWrite writer pa n v).mem = writeN (s.unmark pa).mem pa n v := by
  simp only [State.homeWrite, State.joinWake_mem, State.vaultWritten_mem, State.mendEcc_mem]
  rfl

theorem wf_unmark {s : State} (h : Memory.wf s.mem = true) (pa : Nat) : Memory.wf (s.unmark pa).mem = true := by
  unfold State.unmark
  split
  · exact wf_wr64 h _ _
  · exact h

theorem wf_homeWrite {s : State} (h : Memory.wf s.mem = true) (writer : Option Nat) (pa n v : Nat) :
    Memory.wf (s.homeWrite writer pa n v).mem = true := by
  rw [State.homeWrite_mem]
  exact wf_writeN n (wf_unmark h pa) pa v

/-- A write at a home agent is read back. -/
theorem readN_homeWrite {s : State} (h : Memory.wf s.mem = true) (writer : Option Nat) (pa n v : Nat) :
    readN (s.homeWrite writer pa n v).mem pa n = v % 256 ^ n := by
  rw [State.homeWrite_mem]
  exact readN_writeN n (wf_unmark h pa) pa v

/-- Where no cell is marked, it leaves every other byte alone. -/
theorem readCell_homeWrite_off {s : State} (h : Memory.wf s.mem = true) (writer : Option Nat) (pa n v : Nat) {x : Nat}
    (hm : s.isCell pa = false) (hx : x < pa ∨ pa + n ≤ x) :
    readCell (s.homeWrite writer pa n v).mem x = readCell s.mem x := by
  have e : s.unmark pa = s := by simp [State.unmark, hm]
  rw [State.homeWrite_mem, e, readCell_writeN_off n h pa v hx]

theorem wf_homeLines {s : State} (h : Memory.wf s.mem = true) (pa n v : Nat) : Memory.wf (s.homeLines pa n v).mem = true := by
  have step : ∀ (l : List Nat) (s : State), Memory.wf s.mem = true → Memory.wf (l.foldl (fun (s : State) k =>
      s.homeWrite none (pa + 64 * k) 64 (v / 2 ^ (512 * k) % 2 ^ 512)) s).mem = true := by
    intro l
    induction l with
    | nil => exact fun _ h => h
    | cons k l ih => exact fun s h => ih _ (wf_homeWrite h _ _ _ _)
  exact step (List.range n) s h

end Sys2Proof.Machine
end

