-- ==== Sys2Proof/Laws/Leads.lean ====
section
/-! SUPPORT. What a lone unit, or word 0 of a pair, does when it only changes its own context. -/

namespace Sys2Proof.Machine

/-- A change of the unit's own context after the PC moved. -/
theorem operands_modCtx {s : State} {srcs dsts : List Reg} (hl : s.leads) (h : s.issues srcs dsts) (f : Ctx → Ctx) :
    Changed s (s.operands srcs dsts fun s' => s'.modCtx s'.iss.tid f)
      (fun c => (f { c with pc := s.iss.next, park := .none }).popped srcs) := by
  unfold Changed
  rw [operands_issues h, advance_leads hl]
  have hd : (((s.modCtx s.me fun c => { c with pc := s.iss.next, park := .none }).setRes .done).modCtx s.me f).iss.res = .done := rfl
  show State.takeLink (((s.modCtx s.me fun c => { c with pc := s.iss.next, park := .none }).setRes .done).modCtx s.me f) srcs = _
  rw [takeLink_eq hd]
  split
  · rename_i hc
    simp only [State.modCtx, State.setCtx, State.setRes, State.ctx, State.me, put_put, look_put_same, Option.getD_some,
      Ctx.popped, hc, if_true]
  · rename_i hc
    have hc' : srcs.contains (.g 60) = false := by simpa using hc
    simp only [State.modCtx, State.setCtx, State.setRes, State.ctx, State.me, put_put, look_put_same, Option.getD_some,
      popped_none hc']

/-- A unit that only moves on. -/
theorem operands_moves {s : State} {srcs dsts : List Reg} (hl : s.leads) (h : s.issues srcs dsts) :
    Changed s (s.operands srcs dsts fun s' => s') (fun c => c.passed s srcs) := by
  unfold Changed
  rw [operands_issues h, advance_leads hl]
  have hd : ((s.modCtx s.me fun c => { c with pc := s.iss.next, park := .none }).setRes .done).iss.res = .done := rfl
  rw [takeLink_eq hd]
  unfold Ctx.passed Ctx.popped
  split
  · simp only [State.modCtx, State.setCtx, State.setRes, State.ctx, State.me, put_put, look_put_same, Option.getD_some]
  · simp only [State.modCtx, State.setCtx, State.setRes, State.ctx, State.me]

end Sys2Proof.Machine
end

