-- ==== Sys2Proof/Laws/Reach.lean ====
section
/-! SUPPORT. Accesses of a lone unit: what its address gives, and what it does when its checks pass. -/

namespace Sys2Proof.Machine

/-! ### The PC's move does not touch what an access reads -/

theorem me_advance (s : State) : s.advance.me = s.me := by simp [State.me]

theorem advance_parts {s : State} (h : s.leads) : s.advance =
    { s with ctxs := s.ctxs.put s.me { s.ctx s.me with pc := s.iss.next, park := .none }, iss := { s.iss with res := .done } } := by
  rw [advance_leads h]
  rfl

theorem ctx_advance_eq {s : State} (h : s.leads) : s.advance.ctx s.me = { s.ctx s.me with pc := s.iss.next, park := .none } := by
  rw [advance_parts h]
  simp [State.ctx]

theorem translate_advance {s : State} (h : s.leads) (va : Word) (k : Kind) :
    s.advance.translate s.me va k = s.translate s.me va k := by
  unfold State.translate State.viaTlb
  rw [ctx_advance_eq h]
  simp only [Ctx.core, advance_core]
  rw [advance_parts h]
  rfl

theorem request_advance {s : State} (h : s.leads) (op : HomeOp) (va : Word) (pa : Nat) (dst : Option Reg) :
    s.advance.request s.me op va pa dst = s.request s.me op va pa dst := by
  unfold State.request State.startOf
  simp only [ctx_advance_eq h, Ctx.core, advance_core]
  rw [advance_parts h]
  rfl

theorem holder_advance {s : State} (h : s.leads) (pa : Nat) : s.advance.holder s.me pa = s.holder s.me pa := by
  unfold State.holder
  simp only [ctx_advance_eq h]
  rw [advance_parts h]

theorem ownTcm_advance {s : State} (h : s.leads) (tg : Target) : s.advance.ownTcm tg = s.ownTcm tg := by
  unfold State.ownTcm
  cases tg <;> simp only [advance_iss]
  have := ctx_advance_eq h
  simp only [State.me] at this
  rw [this]
  rfl

theorem ctlTime_advance {s : State} (h : s.leads) : s.advance.ctlTime s.me = s.ctlTime s.me := by
  unfold State.ctlTime
  simp only [ctx_advance_eq h, Ctx.core, advance_core]

theorem target_advance {s : State} (h : s.leads) (pa : Nat) : s.advance.target pa = s.target pa := by
  rw [advance_parts h]
  rfl

/-- An address that passes its checks: the effect meets the state in which the PC has moved and the leaf is known. -/
theorem operands_reaches {s : State} {srcs dsts : List Reg} {va : Word} {n pa : Nat} {k : Kind} {sync : Bool} {tg : Target}
    {d : Option Nat} (hl : s.leads) (hi : s.issues srcs dsts) (hr : s.reaches va n k sync pa tg d)
    (effect : Nat → Target → State → State) :
    s.operands srcs dsts (fun s' => s'.reach va n k sync effect) =
        ((effect pa tg (s.advance.withLeaf d)).withLeaf none).takeLink srcs := by
  obtain ⟨_, ha, ht, htg, hf⟩ := hr
  have hme : s.advance.iss.tid = s.me := by simp [State.me]
  have hs : ¬ (sync = true ∧ ¬ tg.hasFe = true) := by
    rintro ⟨h1, h2⟩
    exact h2 (hf h1)
  rw [operands_issues hi]
  unfold State.reach
  rw [if_neg (by simpa using ha)]
  simp only [hme, translate_advance hl, ht, target_advance hl, htg, if_neg hs]

end Sys2Proof.Machine
end

