-- ==== Sys2Proof/Machine/Cipher.lean ====
section
/-! DEFINITION. What crosses the bond to the SRAM die: AES-256-XTS of a line, under the key of its frame's owner (R73). Memory
keeps the plaintext, on which every agent works; no agent reads the ciphertext (notes/assumptions/144.md). -/

namespace Sys2Proof.Machine

/-! ### AES-256 -/

/-- The substitution of each byte, byte 0 in the low bits; and its inverse. -/
def aesBox : BitVec 2048 :=
  0x16bb54b00f2d99416842e6bf0d89a18cdf2855cee9871e9b948ed9691198f8e19e1dc186b95735610ef6034866b53e708a8bbd4b1f74dde8c6b4a61c2e2578ba#512 ++
  0x08ae7a65eaf4566ca94ed58d6d37c8e779e4959162acd3c25c2406490a3a32e0db0b5ede14b8ee4688902a22dc4f816073195d643d7ea7c41744975fec130ccd#512 ++
  0xd2f3ff1021dab6bcf5389d928f40a351a89f3c507f02f94585334d43fbaaefd0cf584c4a39becb6a5bb1fc20ed00d153842fe329b3d63b52a05a6e1b1a2c8309#512 ++
  0x75b227ebe28012079a059618c323c7041531d871f1e5a534ccf73f362693fdb7c072a49cafa2d4adf04759fa7dc982ca76abd7fe2b670130c56f6bf27b777c63#512

def aesUnbox : BitVec 2048 :=
  0x7d0c2155631469e126d677ba7e042b17619953833cbbebc8b0f52aae4d3be0a0ef9cc9939f7ae52d0d4ab519a97f51605fec8027591012b131c7078833a8dd1f#512 ++
  0xf45acd78fec0db9a2079d2c64b3e56fc1bbe18aa0e62b76f89c5291d711af1476edf751ce837f9e28535ade72274ac9673e6b4f0cecff297eadc674f4111913a#512 ++
  0x6b8a130103bdafc1020f3fca8f1e2cd00645b3b80558e4f70ad3bc8c00abd890849d8da75746155edab9edfd5048706c92b6655dcc5ca4d41698688664f6f872#512 ++
  0x25d18b6d49a25b76b224d92866a12e084ec3fa420b954cee3d23c2a632947b54cbe9dec444438e3487ff2f9b8239e37cfbd7f3819ea340bf38a53630d56a0952#512

def boxed (t : BitVec 2048) (b : Byte) : Byte := t.extractLsb' (8 * b.toNat) 8

/-- Multiply by x in the field of the cipher. -/
def xtime (b : Byte) : Byte := (b <<< 1) ^^^ if b.getLsbD 7 then 0x1b else 0

/-- The product of a byte and a number below 16 in the field of the cipher. -/
def fieldMul (k : Nat) (b : Byte) : Byte :=
  let part (i : Nat) (x : Byte) : Byte := if k.testBit i then x else 0
  part 0 b ^^^ part 1 (xtime b) ^^^ part 2 (xtime (xtime b)) ^^^ part 3 (xtime (xtime (xtime b)))

def xorBytes (a b : List Byte) : List Byte := List.zipWith (· ^^^ ·) a b

/-- Byte `i` of a block. -/
def byteAt (l : List Byte) (i : Nat) : Byte := (l.drop i).headD 0

/-- The next word of the key schedule, of which `n` stand, the last first. -/
def nextKeyWord (ws : List (List Byte)) (n : Nat) : List Byte :=
  let last := ws.headD []
  let turned := (last.drop 1 ++ last.take 1).map (boxed aesBox)
  let temp :=
    if n % 8 = 0 then xorBytes turned [BitVec.ofNat 8 (2 ^ (n / 8 - 1)), 0, 0, 0]
    else if n % 8 = 4 then last.map (boxed aesBox) else last
  xorBytes ((ws.drop 7).headD []) temp

/-- The fifteen round keys of a key of 32 bytes, the first first. -/
def roundKeys (key : List Byte) : List (List Byte) :=
  let first := ((List.range 8).map fun k => (key.drop (4 * k)).take 4).reverse
  let all := ((List.range 52).foldl (fun ws k => nextKeyWord ws (8 + k) :: ws) first).reverse
  (List.range 15).map fun r => ((all.drop (4 * r)).take 4).flatten

/-- Row r of the block turns by r columns, to the left or to the right. -/
def shiftRows (left : Bool) (l : List Byte) : List Byte :=
  (List.range 16).map fun i => byteAt l ((i + (if left then 4 * (i % 4) else 16 - 4 * (i % 4))) % 16)

/-- Each column times a circulant of four factors. -/
def mixColumns (m : List Nat) (l : List Byte) : List Byte :=
  (List.range 16).map fun i =>
    (List.range 4).foldl (fun (x : Byte) k => x ^^^ fieldMul ((m.drop ((k + 4 - i % 4) % 4)).headD 0) (byteAt l (i / 4 * 4 + k))) 0

/-- AES-256 of a block of 16 bytes under its round keys. -/
def aesEncrypt (ks : List (List Byte)) (block : List Byte) : List Byte :=
  let sub (x : List Byte) : List Byte := shiftRows true (x.map (boxed aesBox))
  let mid := ((ks.drop 1).take 13).foldl (fun x k => xorBytes (mixColumns [2, 3, 1, 1] (sub x)) k) (xorBytes block (ks.headD []))
  xorBytes (sub mid) ((ks.drop 14).headD [])

/-- The inverse of `aesEncrypt`. -/
def aesDecrypt (ks : List (List Byte)) (block : List Byte) : List Byte :=
  let sub (x : List Byte) : List Byte := (shiftRows false x).map (boxed aesUnbox)
  let mid := ((ks.drop 1).take 13).reverse.foldl (fun x k => mixColumns [14, 11, 13, 9] (xorBytes (sub x) k))
    (xorBytes block ((ks.drop 14).headD []))
  xorBytes (sub mid) (ks.headD [])

/-! ### XTS of a line (R73) -/

/-- Little-endian bytes of a block. -/
def blockBytes (n : Nat) : List Byte := (List.range 16).map fun k => BitVec.ofNat 8 (n / 256 ^ k)
def blockNat (bs : List Byte) : Nat := bs.foldr (fun b a => b.toNat + 256 * a) 0

/-- The mask of the next block of a data unit. -/
def nextMask (t : Nat) : Nat := (2 * t % 2 ^ 128) ^^^ if t.testBit 127 then 0x87 else 0

/-- The four blocks of a line, each between two masks; the tweak is the line's 52-bit physical address, zero-extended to 128
bits and taken little-endian. The key is the data key and then the tweak key. -/
def xtsLine (cipher : List (List Byte) → List Byte → List Byte) (key : BitVec 512) (pa : Nat) (line : List Byte) : List Byte :=
  let data := roundKeys ((blockBytes key.toNat) ++ blockBytes (key.toNat >>> 128))
  let tweak := roundKeys (blockBytes (key.toNat >>> 256) ++ blockBytes (key.toNat >>> 384))
  let first := blockNat (aesEncrypt tweak (blockBytes (pa % 2 ^ 52)))
  ((List.range 4).foldl (fun (r : Nat × List Byte) k =>
    let mask := blockBytes r.1
    (nextMask r.1, r.2 ++ xorBytes (cipher data (xorBytes ((line.drop (16 * k)).take 16) mask)) mask)) (first, [])).2

/-- The number of an owner's key, 0 where it has none (R73). -/
def State.keyOf (s : State) : Owner → Nat
  | .pm => s.pmKey
  | .part p => (s.partition p).key
  | .fn f => (s.function f).key

/-- The ciphertext of the line of an address of shared SRAM, as it crosses the bond to the SRAM die under the key of the frame's
owner (R73). -/
def State.bondLine (s : State) (pa : Nat) : List Byte :=
  xtsLine aesEncrypt (Config.drawnKey (s.keyOf (s.owner pa))) (lineOf pa) (s.rdBytes (lineOf pa) 64)

/-- What a read of the line brings back across the bond: `line` decrypted (R73). -/
def State.fromBond (s : State) (pa : Nat) (line : List Byte) : List Byte :=
  xtsLine aesDecrypt (Config.drawnKey (s.keyOf (s.owner pa))) (lineOf pa) line

end Sys2Proof.Machine
end

