-- ==== Sys2Proof/Tests/Slice0.lean ====
section
/-! SUPPORT. Small tests: refusals of WellFormed, words written out from the spec's encodings, single steps, and for each
statement states and operands that meet its hypotheses. -/

namespace Sys2Proof.Tests

open Sys2Proof Sys2Proof.Machine

-- One theorem at a time: a thread for each would fill the memory.
set_option Elab.async false

/-! ### Small states -/

/-- Page of shared SRAM of die 0 that the tests use, and the address of a byte of it. -/
def sram (o : Nat) : Nat := 3 * 2 ^ 48 + o

/-- A translation of one page at virtual page `v` to physical page `p`. -/
def entry (v p : Nat) : TlbEntry := ⟨0, v, v, p, 1, true, true, true, true, true, 4, 4, true, 0⟩

/-- Partition 0 of 64 cores, ASID 0 live, core 0's TLB with a page of shared SRAM at 0x1_0000, one of its own cluster's
scratchpad at 0x2_0000, one of another die's shared SRAM at 0x3_0000 and one of host memory at 0x4_0000; general registers
with small values. -/
def base : State :=
  let s := { State.reset with
    asids := [(0, 0x8000_0000_0000_0000)]
    parts := [(0, { Partition.reset with en := true, st := 1, base := 0, len := 64, audbase := 0x3_0000_0010_0000 })]
    grants := [⟨sram 0, 2 ^ 20, .part 0⟩, ⟨sram (2 ^ 30), 4096, .part 0⟩]
    cores := [(0, { Core.reset with
      cycle := 9
      tlb := [entry 0x10 (3 * 2 ^ 36), entry 0x20 (4 * 2 ^ 36), entry 0x30 (3 * 2 ^ 36 + 2 ^ 18), entry 0x40 (8 * 2 ^ 36)] })] }
  s.setCtx 0 { Ctx.cleared (.slot 0 0) with
    regs := [(1, 0x1_0000), (2, 7), (3, 0xFFFF_FFFF_FFFF_FFFB), (4, 0x2_0000), (5, 0x3_0000), (6, 0xFFFF_FF00_0000_0100), (7, 100),
      (64 + 16, 0x1_0000), (9, 0x8000_0000_0000_0001)]
    tvec := 0xFFFF_FF00_0000_0200 }

/-- The unit `i` has been fetched from core 0's TCM and issues, at level S. -/
def at_ (s : State) (i : Instr) : State :=
  match (s.withFetchWord 32 ((encodeWord 1 i).getD 0).toNat).fetch 0 with
  | .lone _ s' | .pair _ _ s' _ | .stop s' => s'

/-- The same at level U. -/
def atU (s : State) (i : Instr) : State := (at_ s i).modCtx 0 fun c => { c with lvl := .u }

/-! ### Ill-formed terms (R239, R244, R248, R257 and the ranges of what a device step names) -/

theorem test_ill_formed : [
    Instr.add (.i 0) (.g 1) (.g 2), .jlr (.i 3) (.g 1), .ldX .d (.g 5) 1 0, .ldX .d (.i 0) 1 0, .ldWf .d (.i 1) 1 0,
    .addImmX (.g 5) 1 0, .ctlRd (.i 0) .tvec, .engClaim (.i 0), .sfRcp (.i 2) (.g 1), .ringOpen (.i 0) (.g 1) (.g 2),
    .cpWait (.i 0) (.g 1), .plBind (.i 0) (.g 1), .dgClose (.i 0), .step (.i 0) (.g 1) (.g 2), .acq (.i 0) (.g 1),
    .clz (.i 0) (.g 1), .skImm .bs .one 7 64, .skImm .bc .one 7 0x1FFF,
    .mma .f16 1 0 0 0 1 0, .mma .f16 0 0 0 0 1 3, .accCvt .bf16 0 0 0 4, .accCvt .f16 2 0 0 0].all
      (fun i => i.wellFormed = false) = true := by decide +kernel

theorem test_ill_formed_steps : [
    Instr.powerOn ⟨1, 0, 0⟩, .firmwareLoad ⟨0, 0, 0, true⟩ ⟨6, 0, 0⟩, .thermalTrip 4 115, .powerLimitCheck 0 [512],
    .thermalCheck 4096 96, .thermalRankingUpdate 16 [], .thermalRankingUpdate 0 [4096], .patrolScrub (2 ^ 52) true,
    .patrolScrub 4 true, .auditHeadSign 16, .ptpEventMessage 16 0, .linkFlitCrcFail 16, .linkRetrain 16 0,
    .linkTrainingComplete 16 true, .cpLinkLineArrive 1024 0 [0], .cpLinkLineArrive 0 0 [], .sqDoorbell 1025 0 0,
    .cqDoorbell 0 64 0, .queueEnable 1025 0 0, .queueDisable 0 64 0, .qstatClear 0 64 0, .sqFetch 1025 0, .seqRetry 0 64,
    .registerWrite 4 0, .eccCounterClear 12 0, .partitionConfigure 16 0, .partitionTeardown 16 0, .teardownComplete 16,
    .vfmapEnable 0 0, .vfmapDisable 1025 0, .asidMakeLive 1024 0, .asidRemove 1024 0, .frameZeroComplete (2 ^ 40),
    .rturnWrite 0 32 0, .rturnWrite 4096 0 0, .deadlineReopen 0 4 0, .mboxWrite 16 0, .packetReady 1025 0 0,
    .placementAgeLimit 0 64, .placerChoose 16, .rotationBoundary 4096, .serveTurn 4096, .idleSlotTakeWork 0 16,
    .stealBackoffExpire 4096, .preempt 0 16, .contextResume 0 4096 0, .chuckEvict 4096, .slotBoundary 16,
    .slotHandover 0 16, .handoverNoTurnTimeout 4096 0, .handoverWindowClose 4096, .mailboxPost 16, .engineFault 0 2,
    .engineInstructionEnd 4096 0, .stopBroadcastArrive 4096, .sfuRequestServe 512, .pipelineLeave 0 256, .drainComplete 16 0,
    .mandrelEventWrite 0 256, .instanceFail 16 0, .partingTick 0 4, .partingCutoff 16 0, .checkpointImagesWritten 0 4 0,
    .functionResetComplete 0].all (fun i => i.wellFormed = false) = true := by decide +kernel

/-! ### Words

Each word is written out field by field from its format (R237, R243–R246), its OP and FN from R247 and R248. -/

/-- Each word decodes to its instruction, and the instruction encodes as the word. -/
def decodes (l : List (BitVec 32 × Instr)) : Bool := l.all fun e =>
  decodeWord e.1 = some e.2 ∧ encodeWord (e.1.extractLsb' 31 1) e.2 = some e.1

theorem test_words_control : decodes [
    (0#1 ++ 0x1#6 ++ 0x0#6 ++ 0x15A7#19, .br 5543), (1#1 ++ 0x1#6 ++ 0x8#6 ++ 0x15A8#19, .bl 5544),
    (0#1 ++ 0x2#6 ++ 0x0#12 ++ 0x15A9#13, .nestEnd 5545), (1#1 ++ 0x3#6 ++ 0x2D#6 ++ 0x15AA#19, .bz 45 5546),
    (0#1 ++ 0x4#6 ++ 0x2E#6 ++ 0x15AB#19, .bnz 46 5547),
    (1#1 ++ 0x5#6 ++ 5#3 ++ 3#2 ++ 0x4C#7 ++ 0x47#7 ++ 0x0#6, .sk .geu .three (.h 12) (.h 7)),
    (0#1 ++ 0x5#6 ++ 0#3 ++ 1#2 ++ 0x51#7 ++ 0x5D#7 ++ 0x1#6, .fsk .eq .one (.q 1) (.q 13)),
    (1#1 ++ 0x5#6 ++ 1#3 ++ 2#2 ++ 0x62#7 ++ 0x2#13, .skf .empty .two (.i 2)),
    (0#1 ++ 0x6#6 ++ 0#3 ++ 3#2 ++ 0#1 ++ 0x32#6 ++ 0x15AF#13, .skImm .eq .three 50 5551),
    (1#1 ++ 0x7#6 ++ 0x0#7 ++ 0x4C#7 ++ 0x0#11, .jr (.h 12)),
    (0#1 ++ 0x7#6 ++ 0x5A#7 ++ 0x51#7 ++ 0x1#11, .jlr (.q 10) (.q 1)),
    (1#1 ++ 0x7#6 ++ 0x3F#7 ++ 0x62#7 ++ 0x2#11, .nest (.g 63) (.i 2))] = true := by decide +kernel

theorem test_words_memory : decodes [
    (0#1 ++ 2#4 ++ 1#2 ++ 0x1#6 ++ 0x36#6 ++ 0x15B3#13, .ld .h 1 54 5555),
    (1#1 ++ 3#4 ++ 2#2 ++ 0x1B#6 ++ 0x37#6 ++ 0x15B4#13, .ldX .w (.q 11) 55 5556),
    (0#1 ++ 4#4 ++ 3#2 ++ 0x3#6 ++ 0x38#6 ++ 0x15B5#13, .st .d 3 56 5557),
    (1#1 ++ 0x14#6 ++ 0x3F#7 ++ 0x39#6 ++ 0x22#6 ++ 0#2 ++ 4#4, .ldWf .b (.g 63) 57 34),
    (0#1 ++ 0x14#6 ++ 0x5#7 ++ 0x3A#6 ++ 0x23#6 ++ 1#2 ++ 8#4, .ldTk .h (.g 5) 58 35),
    (1#1 ++ 0x14#6 ++ 0x43#7 ++ 0x3B#6 ++ 0x24#6 ++ 2#2 ++ 13#4, .stFl .w (.h 3) 59 36),
    (0#1 ++ 0x14#6 ++ 0x5A#7 ++ 0x3C#6 ++ 0x25#6 ++ 0x36#6, .feWf (.q 10) 60 37),
    (1#1 ++ 0x14#6 ++ 0x3F#7 ++ 0x3D#6 ++ 0x26#6 ++ 0x3A#6, .feTk (.g 63) 61 38),
    (0#1 ++ 0x14#6 ++ 0x5#7 ++ 0x3E#6 ++ 0x27#6 ++ 0x3E#6, .feFl (.g 5) 62 39),
    (1#1 ++ 0x14#6 ++ 0x43#7 ++ 0x3F#6 ++ 0x33#12, .feq (.h 3) 63), (0#1 ++ 0x15#6 ++ 0x0#22 ++ 4#3, .fence .pkg),
    (1#1 ++ 0x15#6 ++ 0x1#22 ++ 5#3, .sfence .sys), (0#1 ++ 0x15#6 ++ 0x2#22 ++ 0#3, .lfence .thr)] = true := by decide +kernel

theorem test_words_atomic : decodes [
    (1#1 ++ 0xB#5 ++ 0#1 ++ 0xE#6 ++ 0x3#6 ++ 0x2C#6 ++ 0#4 ++ 1#3, .amoAdd false .core 14 3 44),
    (0#1 ++ 0xB#5 ++ 1#1 ++ 0xF#6 ++ 0x4#6 ++ 0x2D#6 ++ 1#4 ++ 2#3, .amoAnd true .clu 15 4 45),
    (1#1 ++ 0xB#5 ++ 0#1 ++ 0x10#6 ++ 0x5#6 ++ 0x2E#6 ++ 2#4 ++ 3#3, .amoOr false .die 16 5 46),
    (0#1 ++ 0xB#5 ++ 1#1 ++ 0x11#6 ++ 0x6#6 ++ 0x2F#6 ++ 3#4 ++ 4#3, .amoXor true .pkg 17 6 47),
    (1#1 ++ 0xB#5 ++ 0#1 ++ 0x12#6 ++ 0x7#6 ++ 0x30#6 ++ 4#4 ++ 5#3, .amoSwap false .sys 18 7 48),
    (0#1 ++ 0xB#5 ++ 1#1 ++ 0x13#6 ++ 0x8#6 ++ 0x31#6 ++ 5#4 ++ 0#3, .amoCas true .thr 19 8 49),
    (1#1 ++ 0xB#5 ++ 0#1 ++ 0x14#6 ++ 0x9#6 ++ 0x32#6 ++ 6#4 ++ 1#3, .amoMin false .core 20 9 50),
    (0#1 ++ 0xB#5 ++ 1#1 ++ 0x15#6 ++ 0xA#6 ++ 0x33#6 ++ 7#4 ++ 2#3, .amoMax true .clu 21 10 51),
    (1#1 ++ 0xB#5 ++ 0#1 ++ 0x16#6 ++ 0xB#6 ++ 0x34#6 ++ 8#4 ++ 3#3, .amoMinu false .die 22 11 52),
    (0#1 ++ 0xB#5 ++ 1#1 ++ 0x17#6 ++ 0xC#6 ++ 0x35#6 ++ 9#4 ++ 4#3, .amoMaxu true .pkg 23 12 53),
    (1#1 ++ 0x16#6 ++ 0x18#6 ++ 0xD#6 ++ 0x36#6 ++ 10#4 ++ 5#3, .amoFadd .sys 24 13 54),
    (0#1 ++ 0xB#5 ++ 1#1 ++ 0x19#6 ++ 0xE#6 ++ 0xB#10 ++ 0#3, .amoLd true .thr 25 14)] = true := by decide +kernel

theorem test_words_cell_and_ring : decodes [
    (1#1 ++ 0x18#6 ++ 0x43#7 ++ 0x4C#7 ++ 0x47#7 ++ 0#4, .syncInit (.h 3) (.h 12) (.h 7)),
    (0#1 ++ 0x18#6 ++ 0x5A#7 ++ 0x51#7 ++ 0x1#11, .acq (.q 10) (.q 1)),
    (1#1 ++ 0x18#6 ++ 0x3F#7 ++ 0x62#7 ++ 0x2#11, .tryacq (.g 63) (.i 2)),
    (0#1 ++ 0x18#6 ++ 0x0#7 ++ 0x9#7 ++ 0x3#11, .rel (.g 9)),
    (1#1 ++ 0x18#6 ++ 0x43#7 ++ 0x4C#7 ++ 0x47#7 ++ 4#4, .syncCall (.h 3) (.h 12) (.h 7)),
    (0#1 ++ 0x18#6 ++ 0x5A#7 ++ 0x51#7 ++ 0x5D#7 ++ 5#4, .arrive (.q 10) (.q 1) (.q 13)),
    (1#1 ++ 0x18#6 ++ 0x3F#7 ++ 0x62#7 ++ 0x6#11, .arriveWait (.g 63) (.i 2)),
    (0#1 ++ 0x18#6 ++ 0x5#7 ++ 0x9#7 ++ 0x3C#7 ++ 7#4, .syncMode (.g 5) (.g 9) (.g 60)),
    (1#1 ++ 0x18#6 ++ 0x43#7 ++ 0x4C#7 ++ 0x47#7 ++ 8#4, .syncPol (.h 3) (.h 12) (.h 7)),
    (0#1 ++ 0x18#6 ++ 0x5A#7 ++ 0x51#7 ++ 0x5D#7 ++ 9#4, .sbExpect (.q 10) (.q 1) (.q 13)),
    (1#1 ++ 0x18#6 ++ 0x3F#7 ++ 0x62#7 ++ 0x61#7 ++ 10#4, .sbWait (.g 63) (.i 2) (.i 1)),
    (0#1 ++ 0x19#6 ++ 0x5#7 ++ 0x9#7 ++ 0x3C#7 ++ 0#4, .ringOpen (.g 5) (.g 9) (.g 60)),
    (1#1 ++ 0x19#6 ++ 0x43#7 ++ 0x4C#7 ++ 0x47#7 ++ 1#4, .ringResv (.h 3) (.h 12) (.h 7)),
    (0#1 ++ 0x19#6 ++ 0x5A#7 ++ 0x51#7 ++ 0x5D#7 ++ 2#4, .ringPub (.q 10) (.q 1) (.q 13)),
    (1#1 ++ 0x19#6 ++ 0x3F#7 ++ 0x62#7 ++ 0x61#7 ++ 3#4, .ringWait (.g 63) (.i 2) (.i 1)),
    (0#1 ++ 0x19#6 ++ 0x5#7 ++ 0x9#7 ++ 0x3C#7 ++ 4#4, .ringFree (.g 5) (.g 9) (.g 60)),
    (1#1 ++ 0x19#6 ++ 0x0#7 ++ 0x4C#7 ++ 0x47#7 ++ 5#4, .ringAdv (.h 12) (.h 7))] = true := by decide +kernel

theorem test_words_work_and_engine : decodes [
    (0#1 ++ 0x1A#6 ++ 0x5A#7 ++ 0x51#7 ++ 0x5D#7 ++ 0#4, .spawn (.q 10) (.q 1) (.q 13)),
    (1#1 ++ 0x1A#6 ++ 0x0#7 ++ 0x62#7 ++ 0x1#11, .join (.i 2)), (0#1 ++ 0x1A#6 ++ 0x0#7 ++ 0x9#7 ++ 0x2#11, .go (.g 9)),
    (1#1 ++ 0x1A#6 ++ 0x0#7 ++ 0x4C#7 ++ 0x47#7 ++ 3#4, .msgSend (.h 12) (.h 7)), (0#1 ++ 0x1A#6 ++ 0x4#25, .yield),
    (1#1 ++ 0x1A#6 ++ 0x0#7 ++ 0x62#7 ++ 0x61#7 ++ 5#4, .exit (.i 2) (.i 1)),
    (0#1 ++ 0x1B#6 ++ 0x5#7 ++ 0x0#18, .engClaim (.g 5)), (1#1 ++ 0x1B#6 ++ 0x1#25, .engRel),
    (0#1 ++ 0x1B#6 ++ 0x5A#7 ++ 0x51#7 ++ 0x5D#7 ++ 2#4, .cp1d (.q 10) (.q 1) (.q 13)),
    (1#1 ++ 0x1B#6 ++ 0x3F#7 ++ 0x62#7 ++ 0x61#7 ++ 3#4, .cp2d (.g 63) (.i 2) (.i 1)),
    (0#1 ++ 0x1B#6 ++ 0x5#7 ++ 0x9#7 ++ 0x3C#7 ++ 4#4, .cpGather (.g 5) (.g 9) (.g 60)),
    (1#1 ++ 0x1B#6 ++ 0x43#7 ++ 0x4C#7 ++ 0x47#7 ++ 5#4, .cpScatter (.h 3) (.h 12) (.h 7)),
    (0#1 ++ 0x1B#6 ++ 0x5A#7 ++ 0x51#7 ++ 0x6#11, .cpLink (.q 10) (.q 1)),
    (1#1 ++ 0x1B#6 ++ 0x3F#7 ++ 0x62#7 ++ 0x7#11, .cpWait (.g 63) (.i 2)),
    (0#1 ++ 0x1C#6 ++ 0x5#7 ++ 0x9#7 ++ 0x0#11, .plBind (.g 5) (.g 9)),
    (1#1 ++ 0x1C#6 ++ 0x43#7 ++ 0x4C#7 ++ 0x47#7 ++ 1#4, .plQuery (.h 3) (.h 12) (.h 7)),
    (0#1 ++ 0x1C#6 ++ 0x5A#7 ++ 0x51#7 ++ 0x2#11, .plDetach (.q 10) (.q 1)),
    (1#1 ++ 0x1C#6 ++ 0x3F#7 ++ 0x62#7 ++ 0x3#11, .plEnd (.g 63) (.i 2)),
    (0#1 ++ 0x1C#6 ++ 0x5#7 ++ 0x9#7 ++ 0x3C#7 ++ 4#4, .partPost (.g 5) (.g 9) (.g 60)),
    (1#1 ++ 0x1C#6 ++ 0x43#7 ++ 0x4C#7 ++ 0x47#7 ++ 5#4, .partQuery (.h 3) (.h 12) (.h 7)),
    (0#1 ++ 0x1C#6 ++ 0x0#7 ++ 0x51#7 ++ 0x6#11, .dgFold (.q 1)),
    (1#1 ++ 0x1C#6 ++ 0x3F#7 ++ 0x7#18, .dgClose (.g 63))] = true := by decide +kernel

theorem test_words_system : decodes [
    (0#1 ++ 0x1D#6 ++ 0x0#25, .eret), (1#1 ++ 0x1D#6 ++ 0x43#7 ++ 0x2#7 ++ 0x1#11, .ctlRd (.h 3) .tvec),
    (0#1 ++ 0x1D#6 ++ 0xE#7 ++ 0x51#7 ++ 0x2#11, .ctlWr .asid (.q 1)),
    (1#1 ++ 0x1D#6 ++ 0x0#7 ++ 0x62#7 ++ 0x61#7 ++ 3#4, .tlbInv (.i 2) (.i 1)),
    (0#1 ++ 0x1D#6 ++ 0x5#7 ++ 0x9#7 ++ 0x3C#7 ++ 4#4, .step (.g 5) (.g 9) (.g 60)),
    (1#1 ++ 0x1D#6 ++ 0x0#7 ++ 0x4C#7 ++ 0x47#7 ++ 5#4, .wpSet (.h 12) (.h 7)),
    (0#1 ++ 0x1D#6 ++ 0x0#7 ++ 0x51#7 ++ 0x6#11, .wpClr (.q 1)), (1#1 ++ 0x1D#6 ++ 0x7#25, .halt),
    (0#1 ++ 0x1D#6 ++ 0x5#7 ++ 0x9#7 ++ 0x3C#7 ++ 8#4, .ctlRdx (.g 5) (.fmt 1) (.g 60)),
    (1#1 ++ 0x1D#6 ++ 0x2#7 ++ 0x4C#7 ++ 0x47#7 ++ 9#4, .ctlWrx .tvec (.h 12) (.h 7)),
    (0#1 ++ 0x1D#6 ++ 0x5A#7 ++ 0x51#7 ++ 0x5D#7 ++ 10#4, .eretx (.q 10) (.q 1) (.q 13)),
    (1#1 ++ 0x1E#6 ++ 0x0#12 ++ 0x15FE#13, .sys 5630),
    (0#1 ++ 0x1F#6 ++ 0x0#12 ++ 0x15FF#13, .brk 5631)] = true := by decide +kernel

theorem test_words_integer : decodes [
    (1#1 ++ 0x20#6 ++ 0x43#7 ++ 0x4C#7 ++ 0x47#7 ++ 0#4, .add (.h 3) (.h 12) (.h 7)),
    (0#1 ++ 0x20#6 ++ 0x5A#7 ++ 0x51#7 ++ 0x5D#7 ++ 1#4, .sub (.q 10) (.q 1) (.q 13)),
    (1#1 ++ 0x20#6 ++ 0x3F#7 ++ 0x62#7 ++ 0x61#7 ++ 2#4, .and (.g 63) (.i 2) (.i 1)),
    (0#1 ++ 0x20#6 ++ 0x5#7 ++ 0x9#7 ++ 0x3C#7 ++ 3#4, .or (.g 5) (.g 9) (.g 60)),
    (1#1 ++ 0x20#6 ++ 0x43#7 ++ 0x4C#7 ++ 0x47#7 ++ 4#4, .xor (.h 3) (.h 12) (.h 7)),
    (0#1 ++ 0x20#6 ++ 0x5A#7 ++ 0x51#7 ++ 0x5D#7 ++ 5#4, .shl (.q 10) (.q 1) (.q 13)),
    (1#1 ++ 0x20#6 ++ 0x3F#7 ++ 0x62#7 ++ 0x61#7 ++ 6#4, .shr (.g 63) (.i 2) (.i 1)),
    (0#1 ++ 0x20#6 ++ 0x5#7 ++ 0x9#7 ++ 0x3C#7 ++ 7#4, .sra (.g 5) (.g 9) (.g 60)),
    (1#1 ++ 0x20#6 ++ 0x43#7 ++ 0x4C#7 ++ 0x47#7 ++ 8#4, .mul (.h 3) (.h 12) (.h 7)),
    (0#1 ++ 0x20#6 ++ 0x5A#7 ++ 0x51#7 ++ 0x5D#7 ++ 9#4, .mulh (.q 10) (.q 1) (.q 13)),
    (1#1 ++ 0x20#6 ++ 0x3F#7 ++ 0x62#7 ++ 0x61#7 ++ 10#4, .mulhu (.g 63) (.i 2) (.i 1)),
    (0#1 ++ 0x20#6 ++ 0x5#7 ++ 0x9#7 ++ 0x3C#7 ++ 11#4, .min (.g 5) (.g 9) (.g 60)),
    (1#1 ++ 0x20#6 ++ 0x43#7 ++ 0x4C#7 ++ 0x47#7 ++ 12#4, .max (.h 3) (.h 12) (.h 7)),
    (0#1 ++ 0x20#6 ++ 0x5A#7 ++ 0x51#7 ++ 0x5D#7 ++ 13#4, .minu (.q 10) (.q 1) (.q 13)),
    (1#1 ++ 0x20#6 ++ 0x3F#7 ++ 0x62#7 ++ 0x61#7 ++ 14#4, .maxu (.g 63) (.i 2) (.i 1)),
    (0#1 ++ 0x20#6 ++ 0x5#7 ++ 0x9#7 ++ 0x3C#7 ++ 15#4, .adds (.g 5) (.g 9) (.g 60)),
    (1#1 ++ 0x21#6 ++ 0x43#7 ++ 0x4C#7 ++ 0x47#7 ++ 0#4, .div (.h 3) (.h 12) (.h 7)),
    (0#1 ++ 0x21#6 ++ 0x5A#7 ++ 0x51#7 ++ 0x5D#7 ++ 1#4, .divu (.q 10) (.q 1) (.q 13)),
    (1#1 ++ 0x21#6 ++ 0x3F#7 ++ 0x62#7 ++ 0x61#7 ++ 2#4, .rem (.g 63) (.i 2) (.i 1)),
    (0#1 ++ 0x21#6 ++ 0x5#7 ++ 0x9#7 ++ 0x3C#7 ++ 3#4, .remu (.g 5) (.g 9) (.g 60)),
    (1#1 ++ 0x21#6 ++ 0x43#7 ++ 0x4C#7 ++ 0x4#11, .clz (.h 3) (.h 12)),
    (0#1 ++ 0x21#6 ++ 0x5A#7 ++ 0x51#7 ++ 0x5#11, .ctz (.q 10) (.q 1)),
    (1#1 ++ 0x21#6 ++ 0x3F#7 ++ 0x62#7 ++ 0x6#11, .popc (.g 63) (.i 2)),
    (0#1 ++ 0x21#6 ++ 0x5#7 ++ 0x9#7 ++ 0x7#11, .sxb (.g 5) (.g 9)),
    (1#1 ++ 0x21#6 ++ 0x43#7 ++ 0x4C#7 ++ 0x8#11, .sxh (.h 3) (.h 12)),
    (0#1 ++ 0x21#6 ++ 0x5A#7 ++ 0x51#7 ++ 0x9#11, .sxw (.q 10) (.q 1)),
    (1#1 ++ 0x21#6 ++ 0x3F#7 ++ 0x62#7 ++ 0x61#7 ++ 10#4, .subs (.g 63) (.i 2) (.i 1)),
    (0#1 ++ 0x21#6 ++ 0x5#7 ++ 0x9#7 ++ 0x3C#7 ++ 11#4, .csel (.g 5) (.g 9) (.g 60))] = true := by decide +kernel

theorem test_words_immediate : decodes [
    (1#1 ++ 0x22#6 ++ 0x2A#6 ++ 0x1F#6 ++ 0x161C#13, .addImm 42 31 5660),
    (0#1 ++ 0x23#6 ++ 0x1B#6 ++ 0x20#6 ++ 0x161D#13, .addImmX (.q 11) 32 5661),
    (1#1 ++ 0x24#6 ++ 0x2C#6 ++ 0x21#6 ++ 0x161E#13, .andImm 44 33 5662),
    (0#1 ++ 0x25#6 ++ 0x2D#6 ++ 0x22#6 ++ 0x161F#13, .orImm 45 34 5663),
    (1#1 ++ 0x26#6 ++ 0x2E#6 ++ 0x23#6 ++ 0x1620#13, .xorImm 46 35 5664),
    (0#1 ++ 0x27#6 ++ 0x2F#6 ++ 0x24#6 ++ 0x0#7 ++ 0x21#6, .shlImm 47 36 33),
    (1#1 ++ 0x28#6 ++ 0x30#6 ++ 0x25#6 ++ 0x0#7 ++ 0x22#6, .shrImm 48 37 34),
    (0#1 ++ 0x29#6 ++ 0x31#6 ++ 0x26#6 ++ 0x0#7 ++ 0x23#6, .sraImm 49 38 35),
    (1#1 ++ 0x2A#6 ++ 0x32#6 ++ 0x27#6 ++ 0x1624#13, .mulImm 50 39 5668),
    (0#1 ++ 0x2B#6 ++ 0x33#6 ++ 0x51#7 ++ 0x5D#7 ++ 6#3 ++ 0#2, .cset .bs 51 (.q 1) (.q 13)),
    (1#1 ++ 0x2B#6 ++ 0x34#6 ++ 0x62#7 ++ 0x61#7 ++ 1#3 ++ 1#2, .fcset .ne 52 (.i 2) (.i 1)),
    (0#1 ++ 0x2B#6 ++ 0x35#6 ++ 0x9#7 ++ 0x3C#7 ++ 0x2#5, .cmp 53 (.g 9) (.g 60)),
    (1#1 ++ 0x2C#6 ++ 0x36#6 ++ 0x0#6 ++ 0x1628#13, .sett 54 5672), (0#1 ++ 0x2D#6 ++ 0x37#6 ++ 0x1629#19, .setm 55 5673),
    (1#1 ++ 0x2E#6 ++ 0x38#6 ++ 0x162A#19, .seth 56 5674)] = true := by decide +kernel

theorem test_words_vector : decodes [
    (0#1 ++ 0x30#6 ++ 9#4 ++ 14#4 ++ 7#4 ++ 0x0#6 ++ 2#3 ++ 0#4, .vadd .ru 9 14 7),
    (1#1 ++ 0x30#6 ++ 10#4 ++ 15#4 ++ 8#4 ++ 0x0#6 ++ 3#3 ++ 1#4, .vsub .rd 10 15 8),
    (0#1 ++ 0x30#6 ++ 11#4 ++ 0#4 ++ 9#4 ++ 0x0#6 ++ 4#3 ++ 2#4, .vmul .sr 11 0 9),
    (1#1 ++ 0x30#6 ++ 12#4 ++ 1#4 ++ 10#4 ++ 0x0#6 ++ 0#3 ++ 3#4, .vfma .rne 12 1 10),
    (0#1 ++ 0x30#6 ++ 13#4 ++ 2#4 ++ 11#4 ++ 0x4#13, .vmin 13 2 11),
    (1#1 ++ 0x30#6 ++ 14#4 ++ 3#4 ++ 12#4 ++ 0x5#13, .vmax 14 3 12), (0#1 ++ 0x30#6 ++ 15#4 ++ 4#4 ++ 0x6#17, .vabs 15 4),
    (1#1 ++ 0x30#6 ++ 0#4 ++ 5#4 ++ 0x7#17, .vneg 0 5), (0#1 ++ 0x30#6 ++ 1#4 ++ 6#4 ++ 15#4 ++ 0x8#13, .vand 1 6 15),
    (1#1 ++ 0x30#6 ++ 2#4 ++ 7#4 ++ 0#4 ++ 0x9#13, .vor 2 7 0), (0#1 ++ 0x30#6 ++ 3#4 ++ 8#4 ++ 1#4 ++ 0xA#13, .vxor 3 8 1),
    (1#1 ++ 0x30#6 ++ 4#4 ++ 9#4 ++ 0#4 ++ 0x3C#6 ++ 0xB#7, .vshl 4 9 60),
    (0#1 ++ 0x30#6 ++ 5#4 ++ 10#4 ++ 0#4 ++ 0x3D#6 ++ 0xC#7, .vshr 5 10 61),
    (1#1 ++ 0x30#6 ++ 6#4 ++ 11#4 ++ 0#4 ++ 0x3E#6 ++ 0#3 ++ 13#4, .vcvt .rne 6 11 62),
    (0#1 ++ 0x30#6 ++ 7#4 ++ 12#4 ++ 5#4 ++ 0x3F#6 ++ 0xE#7, .vcmp 7 12 5 63),
    (1#1 ++ 0x30#6 ++ 8#4 ++ 13#4 ++ 6#4 ++ 0xF#13, .vsel 8 13 6),
    (0#1 ++ 0x31#6 ++ 9#4 ++ 0x0#8 ++ 0x1#6 ++ 0x0#7, .vbcast 9 1),
    (1#1 ++ 0x31#6 ++ 10#4 ++ 0x0#8 ++ 0x2#6 ++ 0x1#7, .vld 10 2),
    (0#1 ++ 0x31#6 ++ 0#4 ++ 0#4 ++ 0#4 ++ 0x3#6 ++ 0x2#7, .vst 0 3),
    (1#1 ++ 0x31#6 ++ 12#4 ++ 1#4 ++ 0x0#10 ++ 1#3 ++ 3#4, .vsum .rtz 12 1),
    (0#1 ++ 0x31#6 ++ 13#4 ++ 2#4 ++ 0x4#17, .vrmax 13 2), (1#1 ++ 0x31#6 ++ 14#4 ++ 3#4 ++ 12#4 ++ 0x5#13, .vshuf 14 3 12),
    (0#1 ++ 0x31#6 ++ 15#4 ++ 4#4 ++ 13#4 ++ 0x0#6 ++ 4#3 ++ 6#4, .vpack .sr 15 4 13),
    (1#1 ++ 0x31#6 ++ 0#4 ++ 5#4 ++ 0#4 ++ 0x8#6 ++ 0x7#7, .vunpack 0 5 8),
    (0#1 ++ 0x31#6 ++ 1#4 ++ 0x0#8 ++ 0x9#6 ++ 0x8#7, .viota 1 9),
    (1#1 ++ 0x31#6 ++ 2#4 ++ 7#4 ++ 0x9#17, .vmov 2 7)] = true := by decide +kernel

theorem test_words_special_function : decodes [
    (0#1 ++ 0x32#6 ++ 0x5A#7 ++ 0x51#7 ++ 0x0#11, .sfRcp (.q 10) (.q 1)),
    (1#1 ++ 0x32#6 ++ 0x3F#7 ++ 0x62#7 ++ 0x1#11, .sfSqrt (.g 63) (.i 2)),
    (0#1 ++ 0x32#6 ++ 0x5#7 ++ 0x9#7 ++ 0x2#11, .sfRsqrt (.g 5) (.g 9)),
    (1#1 ++ 0x32#6 ++ 0x43#7 ++ 0x4C#7 ++ 0x3#11, .sfExp2 (.h 3) (.h 12)),
    (0#1 ++ 0x32#6 ++ 0x5A#7 ++ 0x51#7 ++ 0x4#11, .sfLog2 (.q 10) (.q 1)),
    (1#1 ++ 0x32#6 ++ 0x3F#7 ++ 0x62#7 ++ 0x5#11, .sfSinpi (.g 63) (.i 2)),
    (0#1 ++ 0x32#6 ++ 0x5#7 ++ 0x9#7 ++ 0x6#11, .sfCospi (.g 5) (.g 9))] = true := by decide +kernel

theorem test_words_matrix : decodes [
    (1#1 ++ 0x33#6 ++ 3#3 ++ 3#2 ++ 2#2 ++ 2#2 ++ 7#3 ++ 0#3 ++ 0x12#6 ++ 0#4, .mma .nf 3 2 2 7 0 18),
    (0#1 ++ 0x33#6 ++ 5#3 ++ 0#4 ++ 3#2 ++ 0#3 ++ 1#3 ++ 0x1#10, .pmm .ph8 3 0 1),
    (1#1 ++ 0x33#6 ++ 0x0#9 ++ 1#3 ++ 0#3 ++ 0x14#6 ++ 2#4, .tld 1 20),
    (0#1 ++ 0x33#6 ++ 0x0#9 ++ 2#3 ++ 0#3 ++ 0x15#6 ++ 3#4, .tst 2 21),
    (1#1 ++ 0x33#6 ++ 0x0#9 ++ 3#3 ++ 0#3 ++ 0x16#6 ++ 4#4, .tdescWr 3 22),
    (0#1 ++ 0x33#6 ++ 0x0#9 ++ 4#3 ++ 0#3 ++ 0x17#6 ++ 5#4, .tdescRd 4 23),
    (1#1 ++ 0x33#6 ++ 0x0#7 ++ 0#2 ++ 0x6#16, .accZero 0),
    (0#1 ++ 0x33#6 ++ 0x0#7 ++ 1#2 ++ 0x0#6 ++ 0x19#6 ++ 7#4, .accSt 1 25),
    (1#1 ++ 0x33#6 ++ 0x0#7 ++ 2#2 ++ 0x0#6 ++ 0x1A#6 ++ 8#4, .accLd 2 26),
    (0#1 ++ 0x33#6 ++ 3#3 ++ 0#2 ++ 0#2 ++ 3#2 ++ 0#3 ++ 0#3 ++ 0x1B#6 ++ 9#4, .accCvt .nf 0 3 0 27),
    (1#1 ++ 0x33#6 ++ 0x0#15 ++ 0x1C#6 ++ 10#4, .srSeed 28)] = true := by decide +kernel

theorem test_words_phasor_and_quantise : decodes [
    (0#1 ++ 0x34#6 ++ 5#4 ++ 10#4 ++ 0x0#10 ++ 0#3 ++ 0#4, .phCvt .fp 5 10),
    (1#1 ++ 0x34#6 ++ 6#4 ++ 11#4 ++ 4#4 ++ 0x1#13, .phMul 6 11 4),
    (0#1 ++ 0x34#6 ++ 7#4 ++ 12#4 ++ 0#4 ++ 0x1F#6 ++ 0x2#7, .phRed 7 12 31),
    (1#1 ++ 0x34#6 ++ 8#4 ++ 13#4 ++ 6#4 ++ 0x3#13, .phCmp 8 13 6), (0#1 ++ 0x34#6 ++ 9#4 ++ 14#4 ++ 0x4#17, .phCos 9 14),
    (1#1 ++ 0x34#6 ++ 10#4 ++ 15#4 ++ 0x5#17, .phSin 10 15),
    (0#1 ++ 0x35#6 ++ 11#4 ++ 0#4 ++ 0#4 ++ 0x23#6 ++ 0x0#7, .qhist 11 0 35),
    (1#1 ++ 0x35#6 ++ 12#4 ++ 1#4 ++ 0#4 ++ 0x24#6 ++ 0x1#7, .qclip 12 1 36),
    (0#1 ++ 0x35#6 ++ 13#4 ++ 2#4 ++ 11#4 ++ 0x25#6 ++ 4#3 ++ 2#4, .qnt .sr 13 2 11 37),
    (1#1 ++ 0x35#6 ++ 14#4 ++ 3#4 ++ 0#4 ++ 0x26#6 ++ 0x3#7, .dq 14 3 38)] = true := by decide +kernel

/-- The examples of chapters 12 and 13 and of R339, as doublewords and words. -/
theorem test_words_of_the_examples :
    decodeUnit 0x4018103016282008 false = .pair (.ld .d 5 1 8) (.add (.g 6) (.g 2) (.g 3)) ∧
    decodeUnit 0x461800078AA0E200 false = .lone (.sk .lt .two (.g 7) (.g 8)) ∧
    decodeUnit 0x461800078AA0E200 true = .lone (.addImmX (.h 3) 0 7) ∧
    decodeWord 0x2C494584 = some (.amoAdd false .pkg 9 10 11) ∧ decodeWord 0x0207FFDE = some (.br 0x7FFDE) ∧
    decodeWord 0x0247FFDE = some (.bl 0x7FFDE) ∧ decodeWord 0x40143071 = some (.sub (.g 5) (.g 6) (.g 7)) ∧
    decodeWord 0x66D04099 = some (.accCvt .nf 1 0 2 9) := by decide +kernel

/-- What the decoder refuses (R238, R249, and the fates of chapter 12's last example). -/
theorem test_words_refused :
    decodeUnit 0 false = .illegal false ∧ decodeUnit 0x4000000040000000 false = .illegal false ∧
    decodeUnit 0x4014103016282008 false = .illegal false ∧ decodeUnit 0x4000000080000001 false = .illegal false ∧
    decodeUnit 0x45F0000102400000 false = .illegal false ∧ decodeWord 0x02080000 = none ∧ decodeWord 0x0A00E000 = none ∧
    decodeWord 0x40032000 = none ∧ decodeWord 0x41800010 = none ∧ decodeWord 0x3A008001 = none ∧ decodeWord 0x2A000006 = none ∧
    decodeWord 0x60000050 = none ∧ decodeWord 0x28000000 = none ∧ decodeWord 0x4E001000 = none := by decide +kernel

/-- The i registers are no RD of spawn and of the copies (R306), and where both words are at fault word 0 is named, also for
being lone only (R249). -/
theorem test_words_refused_rd :
    decodeWord (0#1 ++ 0x1A#6 ++ 0x61#7 ++ 0x51#7 ++ 0x5D#7 ++ 0#4) = none ∧
    decodeWord (0#1 ++ 0x1B#6 ++ 0x62#7 ++ 0x51#7 ++ 0x5D#7 ++ 2#4) = none ∧
    decodeUnit (0#32 ++ (0#1 ++ 0x1A#6 ++ 0x0#7 ++ 0x62#7 ++ 0x61#7 ++ 5#4)) false = .illegal false ∧
    decodeUnit (0#32 ++ (0#1 ++ 4#4 ++ 1#2 ++ 0x5#6 ++ 0x1#6 ++ 8#13)) false = .illegal true := by decide +kernel

/-! ### Single steps

Each runs the step function once on a unit in core 0's TCM; the expected values are the spec's. -/

/-- The state after the step that issues `i` from `s`. -/
def ran (s : State) (i : Instr) : State :=
  match step (s.withFetchWord 32 ((encodeWord 1 i).getD 0).toNat) with
  | .next t => t
  | _ => State.reset

/-- `base` with some general registers. -/
def regs (l : List (Nat × Word)) : State := base.modCtx 0 fun c => { c with regs := l }

/-- g3 after `f g3, g1, g2` from g1 = a and g2 = b. -/
def op (f : Reg → Reg → Reg → Instr) (a b : Word) : Word := (ran (regs [(1, a), (2, b), (3, 77)]) (f (.g 3) (.g 1) (.g 2))).peek 0 (.g 3)
def op1 (f : Reg → Reg → Instr) (a : Word) : Word := (ran (regs [(1, a)]) (f (.g 3) (.g 1))).peek 0 (.g 3)

/-- The table of R253. -/
theorem test_division_table :
    [op .div (-7) 2, op .rem (-7) 2, op .divu (-7) 2, op .remu (-7) 2] = [-3, -1, 0x7FFFFFFFFFFFFFFC, 1] ∧
    [op .div 7 (-2), op .rem 7 (-2), op .divu 7 (-2), op .remu 7 (-2)] = [-3, 1, 0, 7] ∧
    [op .div 5 0, op .rem 5 0, op .divu 5 0, op .remu 5 0] = [-1, 5, 0xFFFFFFFFFFFFFFFF, 5] ∧
    [op .div (1 <<< 63) (-1), op .rem (1 <<< 63) (-1), op .divu (1 <<< 63) (-1), op .remu (1 <<< 63) (-1)] =
      [1 <<< 63, 0, 0, 1 <<< 63] := by decide +kernel

theorem test_integer_group_1 :
    op .add (-5) 7 = 2 ∧ op .sub 7 (-5) = 12 ∧ op .and 6 3 = 2 ∧ op .or 6 3 = 7 ∧ op .xor 6 3 = 5 ∧
    op .shl 7 100 = 0x7000000000 ∧ op .shr (-1) 0x7FC1 = 0x7FFFFFFFFFFFFFFF ∧ op .sra (-5) 1 = -3 ∧
    op .mul (-5) 3 = -15 ∧ op .mulh (-5) (-5) = 0 ∧ op .mulhu (-5) (-5) = 0xFFFFFFFFFFFFFFF6 ∧
    op .min (-5) 7 = -5 ∧ op .max (-5) 7 = 7 ∧ op .minu (-5) 7 = 7 ∧ op .maxu (-5) 7 = -5 ∧
    op .adds (1 <<< 63) (-1) = 1 <<< 63 ∧ op .adds 0x7FFFFFFFFFFFFFFF 1 = 0x7FFFFFFFFFFFFFFF := by decide +kernel

theorem test_integer_group_2 :
    op1 .clz 1 = 63 ∧ op1 .clz 0 = 64 ∧ op1 .ctz 8 = 3 ∧ op1 .ctz 0 = 64 ∧ op1 .popc (-1) = 64 ∧ op1 .sxb 0x180 = -128 ∧
    op1 .sxh 0x18000 = -32768 ∧ op1 .sxw 0x180000000 = -0x80000000 ∧ op .subs (1 <<< 63) 1 = 1 <<< 63 ∧
    op .csel 5 1 = 5 ∧ op .csel 5 0 = 77 := by decide +kernel

/-- An immediate form into g3, from g1. -/
def opi (f : BitVec 6 → BitVec 6 → Instr) (a : Word) : Word := (ran (regs [(1, a)]) (f 3 1)).peek 0 (.g 3)

theorem test_immediates :
    opi (.addImm · · 0x1FFF) 5 = 4 ∧ opi (.andImm · · 0x1FF0) 0x123456789ABCDEF5 = 0x123456789ABCDEF0 ∧
    opi (.orImm · · 0x1FFF) 0 = 0x1FFF ∧ opi (.xorImm · · 0x1000) 0x1001 = 1 ∧ opi (.shlImm · · 63) 3 = 1 <<< 63 ∧
    opi (.shrImm · · 63) (-1) = 1 ∧ opi (.sraImm · · 63) (-1) = -1 ∧ opi (.mulImm · · 0x1FFF) 5 = -5 ∧
    (ran (regs [(1, 5)]) (.addImmX (.q 3) 1 7)).peek 0 (.q 3) = 12 := by decide +kernel

/-- The four lines of R255's example. -/
theorem test_wide_constants :
    (ran (regs [(5, -1)]) (.sett 5 0)).peek 0 (.g 5) = 0 ∧
    (ran (regs [(5, 0)]) (.seth 5 0x40)).peek 0 (.g 5) = 0x4000000000 ∧
    (ran (regs [(5, 0x4000000000)]) (.setm 5 0x91)).peek 0 (.g 5) = 0x4000122000 ∧
    (ran (regs [(5, 0x4000122000)]) (.orImm 5 5 0x1456)).peek 0 (.g 5) = 0x4000123456 := by decide +kernel

theorem test_compare_set :
    op (fun _ a b => .cset .lt 3 a b) (-5) 7 = 1 ∧ op (fun _ a b => .cset .ltu 3 a b) (-5) 7 = 0 ∧
    op (fun _ a b => .cset .bs 3 a b) 4 66 = 1 ∧ op (fun _ a b => .cmp 3 a b) (-5) 7 = -1 ∧
    op (fun _ a b => .cmp 3 a b) 7 7 = 0 ∧ op (fun _ a b => .cmp 3 a b) 7 (-5) = 1 ∧
    op (fun _ a b => .fcset .eq 3 a b) 0x80000000 0xFFFF00000000 = 1 ∧
    op (fun _ a b => .fcset .un 3 a b) 0x7FC00000 0 = 1 ∧ op (fun _ a b => .fcset .ge 3 a b) 0x7FC00000 0 = 0 := by
  decide +kernel

/-- SKIP and the PC after a step. -/
def flow (l : List (Nat × Word)) (i : Instr) : BitVec 2 × Word :=
  let c := (ran (regs l) i).ctx 0
  (c.skip, c.pc - windowBase)

theorem test_skips : flow [(7, 0)] (.sk .eq .two (.g 7) (.g 0)) = (2, 4) ∧ flow [(7, 1)] (.sk .eq .two (.g 7) (.g 0)) = (0, 4) ∧
    flow [(7, 32)] (.skImm .bs .one 7 5) = (1, 4) ∧ flow [(7, 5)] (.skImm .ltu .three 7 0x1FFF) = (3, 4) ∧
    flow [(7, 0x7FC00000)] (.fsk .un .one (.g 7) (.g 0)) = (1, 4) ∧ flow [] (.skf .empty .one (.g 7)) = (0, 4) := by
  decide +kernel

theorem test_branches : flow [] (.br 0x7FFDE) = (0, -136) ∧ flow [(5, 0)] (.bz 5 4) = (0, 16) ∧ flow [(5, 1)] (.bz 5 4) = (0, 4) ∧
    flow [(5, 1)] (.bnz 5 0x40000) = (0, -0x100000) ∧
    (ran base (.bl 4)).peek 0 (.g 62) = windowBase + 4 ∧
    ((ran (regs [(1, 0x40)]) (.jr (.g 1))).ctx 0).pc = 0x40 ∧
    (ran (regs [(1, 0x40)]) (.jlr (.g 5) (.g 1))).peek 0 (.g 5) = windowBase + 4 := by
  decide +kernel

/-- Code, ctl.taddr and ctl.tinfo of the trap that a step takes at level S with nothing delegated. -/
def trap (s : State) (i : Instr) : BitVec 8 × Word × Word × Park :=
  let c := (ran s i).ctx 0
  (c.trapf.extractLsb' 9 8, c.taddr, c.tinfo, c.park)

/-- R250, R275, R206, R142, R299: a jump to a misaligned target, brk, a misaligned load, a misaligned cell, a ring handle in no q register. -/
theorem test_traps :
    trap (regs [(1, 0x42)]) (.jr (.g 1)) = (0x04, 0x42, 4, .stopped) ∧
    trap base (.brk 0x12) = (0x14, windowBase, 0x12, .stopped) ∧
    trap (regs [(1, 0x10004)]) (.ld .d 3 1 0) = (0x04, 0x10004, 8, .stopped) ∧
    trap (regs [(1, 0x10008)]) (.tryacq (.g 3) (.g 1)) = (0x03, 0x10008, 7, .stopped) ∧
    (trap base (.ringAdv (.g 1) (.g 2))).1 = 0x01 := by decide +kernel

/-- A delegated trap goes to ctl.tvec (R205). -/
theorem test_handler : let c := (ran (base.modCtx 0 fun c => { c with tdeleg := 1 <<< 0x14 }) (.brk 3)).ctx 0
    c.pc = 0xFFFFFF0000000200 ∧ c.tvec = windowBase ∧ c.park = .none ∧ c.intrap = true ∧
    c.tinfo = 3 := by decide +kernel

/-- Loads from the core's own TCM zero-extend and read little-endian (R4, R282); one from elsewhere leaves its register
empty and a request on its way (R126). -/
theorem test_loads :
    (ran (base.wr (5 * 2 ^ 48 + 0x100) 8 0x88776655443322F1) (.ld .b 3 6 0)).peek 0 (.g 3) = 0xF1 ∧
    (ran (base.wr (5 * 2 ^ 48 + 0x100) 8 0x88776655443322F1) (.ld .w 3 6 4)).peek 0 (.g 3) = 0x88776655 ∧
    (ran base (.ld .d 3 1 0)).whyEmpty 0 (.g 3) = some .fill ∧ (ran base (.ld .d 3 1 0)).flights.length = 1 := by decide +kernel

/-- An atomic at .thr in the own TCM reads and writes its word in stage WB (R287–R290); a fence at .thr completes at once and
one at .sys parks (R174). -/
theorem test_atomic_and_fence :
    (let t := ran (base.wr (5 * 2 ^ 48 + 0x100) 8 40) (.amoAdd true .thr 3 6 2)
     let u := (t.modCore 0 fun c => { c with cycle := c.cycle + 7 }).settle 0
     t.rd (5 * 2 ^ 48 + 0x100) 8 = 40 ∧ u.peek 0 (.g 3) = 40 ∧ u.rd (5 * 2 ^ 48 + 0x100) 8 = 47) ∧
    ((ran base (.fence .thr)).ctx 0).park = .none ∧ ((ran base (.fence .sys)).ctx 0).park = .fence .fence 5 .done := by
  decide +kernel

/-- The special functions park their thread; yield and halt hand the turn back (R279, R309, R347). -/
theorem test_waits : (ran base (.sfRcp (.g 3) (.g 2))).whyEmpty 0 (.g 3) = some .fill ∧
    ((ran base .halt).ctx 0).park = .halted ∧ (ran base .engRel).pick = none := by decide +kernel

/-- eng.claim takes a free context and numbers it; a vector instruction without a claim is refused (R131, R316). -/
theorem test_claim : ((ran base (.engClaim (.g 3))).ctx 0).claim = some (.bound 0) ∧
    ((ran base (.engClaim (.g 3))).core 0).eng0.owner = some 0 ∧ ((ran base (.vadd .rne 1 2 3)).ctx 0).claim = none := by
  decide +kernel

/-- A unit that is skipped does nothing (R258). -/
theorem test_annulled :
    let s := (base.withFetchWord 32 ((encodeWord 1 (.add (.g 3) (.g 2) (.g 2))).getD 0).toNat).modCtx 0 fun c => { c with skip := 2 }
    (match step s with
      | .next t => t.peek 0 (.g 3) == base.peek 0 (.g 3) && (t.ctx 0).skip < 2
      | _ => false) = true := by decide +kernel

/-! ### Numbers -/

/-- The example of R197: one block under record 0x0765 and under 0x0742. -/
theorem test_narrow_block :
    let f := (NFmt.ofRecord 0x0765).getD ⟨0, 0, 0, 0, false, 0⟩
    let g := (NFmt.ofRecord 0x0742).getD ⟨0, 0, 0, 0, false, 0⟩
    f = ⟨1, 4, 3, 1, true, 7⟩ ∧ f.encode .rne 0 (.fin false 384 0) = 0x7C ∧ f.encode .rne 0 (.fin true 13 0) = 0xD5 ∧
    f.encode .rne 0 (.fin false 768 0) = 0x7F ∧ g.encode .rne 0 (.fin false 768 0) = 0x80 ∧
    f.decode 0x20 = .val (.fin false 8 (-6)) := by decide +kernel

/-- The examples of R201 and R203: a reduction of four elements, and PH16 codes from radians. -/
theorem test_phasors :
    phRedWords 0 0 0 (phIndices 5 [0x0000, 0x2000, 0x8000, 0x1000]) [0, 0, 0, 0] = [0xCE031000, 27969, 27969, 3] ∧
    phFromRad 0x3FC90FDB = 0x2000 ∧ phFromRad 0xBF000000 = 0x75D0 := by decide +kernel

theorem test_fp32 : f32Add 0x3F800000 0x33800000 = 0x3F800000 ∧ f32Add 0x3F800001 0x33800000 = 0x3F800002 ∧
    f32Add 0x7F800000 0xFF800000 = 0x7FC00000 ∧ f32Add 0x80000000 0 = 0 := by decide +kernel

/-- The table of ph.cmp's example (R203). -/
theorem test_phasor_compare : phCmp 15 (ph16Angle 32000) (ph16Angle 100) = 1 ∧ phCmp 15 (ph16Angle 100) (ph16Angle 32000) = 2 ∧
    phCmp 15 (ph16Angle 0x1000) (ph16Angle 0x5000) = 3 ∧ phCmp 15 (ph16Angle 0x1000) (ph16Angle 0x8000) = 4 := by decide +kernel

/-- The example of R340: an element over two groups, each rounded before it is added (R198). -/
theorem test_product_element :
    let num (l : List Nat) : List Machine.Num := l.map fun n => .fin false n 0
    productElem 0 (num (List.replicate 30 256 ++ [1023, 1, 1])) (num (List.replicate 30 2048 ++ [1025, 2, 1]))
      (fun _ => 127) (fun _ => 127) = 0x4B800000 := by decide +kernel

/-- The example of R85: allotments 22 and 7 over the turns after three owned ones. -/
theorem test_turn_shares : largestRemainder 32 [3, 1] = [24, 8] ∧ largestRemainder 29 [22, 7] = [22, 7] ∧
    ((giveTurns [⟨0, 22, 0⟩, ⟨1, 7, 0⟩] (List.replicate 8 ⟨0, true, false, none⟩)).map (·.qown)) =
      [0, 0, 1, 0, 0, 0, 1, 0].map some := by decide +kernel

/-! ### Device steps -/

/-- The state after one device step. -/
def did (s : State) (i : Instr) : State :=
  match exec i s with
  | .next t => t
  | _ => State.reset

/-- A time correction below 1 ms is slewed (R18); a junction at 115 °C turns the package off (R38). -/
theorem test_time_and_heat : (did { base with ptpcfg := 0x10 } (.ptpSet 999999)).slew = 999999 ∧
    (did { base with ptpcfg := 0x10 } (.ptpSet 999999)).wall = 0 ∧ (did base (.thermalTrip 0 114)).power = .running ∧
    (did base (.thermalTrip 0 115)).power = .off ∧ (did base (.thermalTrip 0 115)).tripped = true := by decide +kernel

/-- A submission queue is enabled with its sizes, and a doorbell beyond it is an error (R44–R46). -/
theorem test_queue : let s := did base (.queueEnable 0 3 0x441)
    (s.qpair 0 3).en = true ∧ (s.qpair 0 3).sqlog = 4 ∧ ((did s (.sqDoorbell 0 3 15)).qpair 0 3).sqtail = 15 ∧
    ((did s (.sqDoorbell 0 3 16)).qpair 0 3).dberr = true ∧ ((did base (.queueEnable 0 3 0x331)).qpair 0 3).cfgerr = true := by
  decide +kernel

/-- An unowned turn moves the cycle on; the 16th CRC failure of a flit takes a port down (R16, R86). -/
theorem test_turn_and_link : ((did { base with ctxs := [] } (.serveTurn 0)).core 0).cycle = 10 ∧
    (did { base with links := [(3, ⟨2, 14⟩)] } (.linkFlitCrcFail 3)).link 3 = ⟨2, 15⟩ ∧
    (did { base with links := [(3, ⟨2, 15⟩)] } (.linkFlitCrcFail 3)).link 3 = ⟨0, 0⟩ := by decide +kernel

/-- A load's request, served at its home, comes back with the value, and its reply fills the register (R126, R164). -/
theorem test_load_reply :
    let s := (ran (base.wr (sram 0) 8 77) (.ld .d 3 1 0))
    let m := s.flights.map (·.id)
    let s1 := { s with flights := s.flights.map fun m => { m with loc := .home } }
    let s2 := did s1 (.homeAgentAccess (m.headD 0))
    (s2.flights.map (·.loc)) = [.back (.value 77)] ∧ (did s2 (.replyFill (m.headD 0))).peek 0 (.g 3) = 77 ∧
    (did s2 (.replyFill (m.headD 0))).whyEmpty 0 (.g 3) = none := by decide +kernel

/-! ### The cipher -/

/-- The example of AES-256 in FIPS 197, appendix C.3, whose algorithm R73 names. -/
theorem test_aes256 : aesEncrypt (roundKeys ((List.range 32).map (BitVec.ofNat 8))) ((List.range 16).map fun n => BitVec.ofNat 8 (17 * n)) =
    [0x8E, 0xA2, 0xB7, 0xCA, 0x51, 0x67, 0x45, 0xBF, 0xEA, 0xFC, 0x49, 0x90, 0x4B, 0x49, 0x60, 0x89] := by decide +kernel

/-! ### Hypotheses that are met by hand -/

theorem meets_VectorElements_numbers :
    -- clauses 1.0, 1.3
    IFmt.f16.finite 0x3C01 = true ∧ 3 ≤ 2 ^ IFmt.f16.p ∧ IFmt.f16.qmin ≤ 0 ∧
    ((3 : Nat) ≠ 0 → (0 : Int) + Nat.log2 3 ≤ IFmt.f16.emax) ∧
    -- clause 1.4.0
    (3 : Nat) ≠ 0 ∧ (2 : ℚ) ^ (1 : Int) ≤ (3 : Nat) * 2 ^ (0 : Int) ∧ ((3 : Nat) : ℚ) * 2 ^ (0 : Int) < 2 ^ ((1 : Int) + 1) ∧
    ((3 : Nat) : ℚ) * 2 ^ (0 : Int) ≤ IFmt.f16.maxSig * 2 ^ IFmt.f16.maxExp ∧
    -- clause 1.4.1
    (100000 : Nat) ≠ 0 ∧ (IFmt.f16.maxSig : ℚ) * 2 ^ IFmt.f16.maxExp < (100000 : Nat) * 2 ^ (0 : Int) ∧
    -- clauses 2.2.4, 2.2.5
    (1 : Nat) ≠ 0 ∧ (0 : Nat) = 0 := by
  refine ⟨?_, ?_, ?_, ?_, ?_, ?_, ?_, ?_, ?_, ?_, ?_, rfl⟩ <;> first | decide | decide +kernel

/-- A thread at a ctl.rd of TVEC, and the issue of word 1 of its pair. -/
def pairBase : State := at_ base (.ctlRd (.g 5) .tvec)
def pairIssue : Issue := { pairBase.iss with
  w := pairBase.iss.pc + 4
  word := 0
  wpos := true
  snap := some (pairBase.ctx pairBase.me, (pairBase.core (pairBase.ctx pairBase.me).core).bank (pairBase.ctx pairBase.me).fn) }
theorem meets_PairsReadTheOldRegisters : pairBase.leads ∧ (3 : BitVec 6) ≠ 0 ∧ (3 : BitVec 6) ≠ 61 ∧
    (.sett 3 7, []) ∈ computing 3 1 (.g 1) (.g 2) 7 0 0 .lt .ge ∧
    writes (.sett 3 7) { pairBase with iss := pairIssue } [] (.g 3) (zext (7 : BitVec 13) <<< 51) ∧
    -- clause 0
    (5 : BitVec 6) ≠ 0 ∧ (5 : BitVec 6) ≠ 61 ∧ (3 : BitVec 6) ≠ 5 ∧
    writes (.ctlRd (.g 5) .tvec) pairBase [] (.g 5) (pairBase.ctlRead pairBase.iss.tid pairBase.opCtx .tvec) :=
  ⟨by unfold State.leads; decide +kernel, by decide, by decide, by decide,
    ⟨_, rfl, compute_wrote (by unfold State.issues; decide +kernel) _⟩, by decide, by decide, by decide,
    ⟨_, rfl, compute_wrote (by unfold State.issues; decide +kernel) _⟩⟩

theorem meets_StepsKeepMemoryCanonical : Memory.wf base.mem = true ∧ ∃ t, step base = .next t := by
  refine ⟨by decide +kernel, ?_⟩
  have h : (match step base with | .next _ => true | _ => false) = true := by decide +kernel
  split at h
  · exact ⟨_, ‹_›⟩
  · cases h

/-! ### The hypotheses of the statements can be met

For each statement one or more theorems meets_<its name>: concrete states and operands that satisfy together the hypotheses of
the clauses that the comment before them numbers, counted from 0 in the order of the statement (2.1 is clause 1 within
clause 2). The names arg<n> are the states and operands at which the clauses are met. -/

def reachesB (s : State) (va : Word) (n : Nat) (k : Kind) (sync : Bool) (pa : Nat) (tg : Target) (d : Option Nat) : Bool :=
  s.iss.leaf == none && va.toNat % n == 0 && (match s.translate s.me va k with
    | .ok p x => p == pa && x == d
    | _ => false) && s.target pa == some tg && (! sync || tg.hasFe)
theorem reaches_of {s : State} {va : Word} {n : Nat} {k : Kind} {sync : Bool} {pa : Nat} {tg : Target} {d : Option Nat}
    (h : reachesB s va n k sync pa tg d = true) : s.reaches va n k sync pa tg d := by
  simp only [reachesB, Bool.and_eq_true, beq_iff_eq, Bool.or_eq_true, Bool.not_eq_true'] at h
  obtain ⟨⟨⟨⟨h0, h1⟩, h2⟩, h4⟩, h5⟩ := h
  refine ⟨h0, h1, ?_, h4, fun hs => by simpa [hs] using h5⟩
  split at h2
  · rename_i p x heq
    simp only [Bool.and_eq_true, beq_iff_eq] at h2
    rw [heq, h2.1, h2.2]
  · cases h2
theorem notHost_of {t : Option Target} (h : (match t with | some (.host _) => false | _ => true) = true) :
    ∀ o, t ≠ some (.host o) := by rintro o rfl; cases h
theorem cores_all {s : State} (p : Core → Bool) (h0 : p Core.reset = true) (h : (s.cores.all fun e => p e.2) = true) (d : Nat) :
    p (s.core d) = true := by
  have hm : ∀ m : SMap Core, (m.all fun e => p e.2) = true → p ((m.look d).getD Core.reset) = true := by
    intro m
    induction m with
    | nil => exact fun _ => h0
    | cons e m ih =>
      intro h
      simp only [List.all_cons, Bool.and_eq_true] at h
      by_cases hk : e.1 = d
      · simpa [SMap.look, hk] using h.1
      · simpa [SMap.look, hk] using ih h.2
  exact hm s.cores h
theorem notControl_of {t : Target} (h : (match t with | .control _ => false | _ => true) = true) : ∀ o, t ≠ .control o := by
  rintro o rfl; cases h
theorem notCopies_of {p : Park} (h : (match p with | .copies _ _ => false | _ => true) = true) : ∀ j v, p ≠ .copies j v := by
  rintro j v rfl; cases h
theorem notFence_of {p : Park} (h : (match p with | .fence _ _ _ => false | _ => true) = true) :
    ∀ form sc after, p ≠ .fence form sc after := by rintro form sc after rfl; cases h
theorem noneHanding_of {s : State} {d : Nat} (h : (s.ctxs.all fun e => match e.2.place with | .chuck _ _ => false | _ => true) = true) :
    ∀ j, s.handing d j = none := by
  intro j
  unfold State.handing
  cases (s.core d).handover with
  | none => rfl
  | some x =>
    simp only [Option.bind_some, Option.map_eq_none_iff, List.find?_eq_none]
    intro e he hp
    have hc := List.all_eq_true.1 h e he
    simp only [Bool.and_eq_true, decide_eq_true_eq] at hp
    simp [hp.2] at hc

namespace Integers

def arg0 : State := at_ base (.add (.g 3) (.g 1) (.g 2))
def arg1 : Reg := .g 9
def arg2 : Reg := .g 7
def arg3 : State := at_ base (.add (.g 3) (.g 1) (.g 2))
def arg4 : Reg := .q 3
def arg5 : State := at_ base (.add (.g 3) (.g 1) (.g 2))
def arg6 : Reg := .g 9
def arg7 : Reg := .g 2
def arg8 : State := at_ base (.add (.g 3) (.g 1) (.g 2))
def arg9 : Reg := .g 1
def arg10 : Reg := .h 3
def arg11 : State := at_ base (.add (.g 3) (.g 1) (.g 2))
def arg12 : Reg := .g 9
def arg13 : Reg := .g 3
def arg14 : State := at_ base (.add (.g 3) (.g 1) (.g 2))
def arg15 : Reg := .g 9
def arg16 : Reg := .g 2
def arg17 : Reg := .g 3

theorem meets_ImmediatesAndSets :
    -- clauses 1.1, 1.2, 1.4, 1.7, 1.9, 1.10, 1.13, 1.14, 1.16, 1.17
    arg0.issues [arg1, arg2] [Reg.g (3 : BitVec 6)] ∧ ¬arg0.src arg1 = arg0.src arg2 ∧ arg0.src arg1 ≠ arg0.src arg2 ∧
    BitVec.toInt (arg0.src arg1) < BitVec.toInt (arg0.src arg2) ∧
    ¬BitVec.toInt (arg0.src arg2) ≤ BitVec.toInt (arg0.src arg1) ∧
    ¬BitVec.toNat (arg0.src arg1) < BitVec.toNat (arg0.src arg2) ∧
    BitVec.toNat (arg0.src arg2) ≤ BitVec.toNat (arg0.src arg1) ∧
    ¬BitVec.getLsbD (arg0.src arg1) (BitVec.toNat (arg0.src arg2) % 64) = true ∧
    BitVec.getLsbD (arg0.src arg1) (BitVec.toNat (arg0.src arg2) % 64) = false ∧
    -- clauses 0.0, 0.1, 0.2, 0.3
    arg3.issues [Reg.g (9 : BitVec 6)] [Reg.g (3 : BitVec 6)] ∧ arg3.issues [Reg.g (9 : BitVec 6)] [arg4] ∧
    arg3.issues [] [Reg.g (3 : BitVec 6)] ∧ arg3.issues [Reg.g (3 : BitVec 6)] [Reg.g (3 : BitVec 6)] := by
  constructorm* _ ∧ _ <;> (
    first
      | decide +kernel
      | (unfold State.issues; decide +kernel))

theorem meets_SkipsBranchesAndJumps :
    -- clauses 0.0.0, 0.0.1, 0.1, 0.2, 0.3
    arg5.leads ∧ arg5.issues [arg6, arg7] [] ∧ arg5.issues [Reg.g (9 : BitVec 6)] [] ∧
    -- clauses 1.0, 1.1, 1.2, 1.3, 1.4
    arg8.leads ∧ arg8.issues [] [Reg.g (62 : BitVec 6)] ∧ arg8.issues [Reg.g (9 : BitVec 6)] [] ∧ arg8.issues [arg9] [] ∧
    BitVec.toNat (arg8.src arg9) % 4 = 0 ∧ arg8.issues [arg9] [arg10] ∧
    -- clauses 1.5, 1.6
    arg11.leads ∧ arg11.issues [arg12] [] ∧ BitVec.toNat (arg11.src arg12) % 4 ≠ 0 ∧ arg11.issues [arg12] [arg13] := by
  constructorm* _ ∧ _ <;> (
    first
      | decide +kernel
      | (unfold State.issues; decide +kernel)
      | (unfold State.leads; decide +kernel))

theorem meets_IntegerForms :
    -- clauses 0, 1.0, 1.1, 1.2
    arg14.issues [arg15, arg16] [arg17] ∧ arg14.issues [arg15, arg16, arg17] [arg17] ∧ arg14.issues [arg15] [arg17] := by
  constructorm* _ ∧ _ <;> (
    first
      | decide +kernel
      | (unfold State.issues; decide +kernel))

end Integers

namespace Accesses

def sA := at_ base (.add (.g 3) (.g 1) (.g 2))
def dOf (va : Word) : Option Nat := match sA.translate 0 va .read with
  | .ok _ d => d
  | _ => none
def wbm (op : HomeOp) (d : Option Reg) : Msg := {sA.request 0 op 0x100 (5*2^48+0x100) d with id := 7}
def sHeld : State := {sA with flights := [{sA.request 0 (.loadSync 8 true) 0x10000 (3*2^48) none with id := 5, loc := .home}], nextMsg := 9}
def sMore : State := { sA.modCtx 0 fun c => {c with regs := [(2, 5), (11, 0x60000), (12, 0x70000)]} with grants := [⟨2^48, 4096, .part 0⟩], cores := sA.cores.map fun (e : Nat × Core) => (e.1, {e.2 with tlb := [entry 0x60 (6*2^36), entry 0x70 (2^36)], dcache := [⟨2^48, List.replicate 64 9, []⟩] }) }
def dMore (va : Word) : Option Nat := match sMore.translate 0 va .read with
  | .ok _ d => d
  | _ => none
def nx : Nest := ⟨3*2^48, 0x10000, 20, 4, 5, 1, 1, 3, 9, none, false, true⟩
def withNest (x : Nest) (s : State) : State := s.modCtx 0 fun c => {c with nest := some x}
def sK := sA.modCtx 0 fun c => {c with scopeMem := [(3*2^48, 2*8+3)], touched := 3}
def sTask := { sA with tasks := [(0, ⟨⟨0,0,0,0,0,0,0,1,1,1,1,false⟩,0,0,0,0,0,[[0]],none,0,1,false,false,0,0,[],false⟩)] }
def manyDeq (l sp : List Nat) (s : State) : State := { s with cores := s.cores.map fun (e : Nat × Core) => (e.1, {e.2 with deques := [(0, ⟨l, sp⟩)]}) }
def arg0 : Reg := .g 1
def arg1 : Reg := .g 0
def arg2 : Reg := .g 10
def arg3 : State := manyDeq [] [5] sTask
def arg4 : Reg := .g 1
def arg5 : ℕ := 3*2^48
def arg6 : Option ℕ := dOf 0x10000
def arg7 : Reg := .g 2
def arg8 : Reg := .g 10
def arg9 : Reg := .g 1
def arg10 : ℕ := 3*2^48
def arg11 : Option ℕ := dOf 0x10000
def arg12 : Reg := .g 2
def arg13 : Reg := .g 10
def arg14 : Target := .sram 0 0
def arg15 : ℕ := 3*2^48
def arg16 : Option ℕ := dOf 0x10000
def arg17 : Reg := .h 3
def arg18 : Target := .sram 0 0
def arg19 : ℕ := 3*2^48
def arg20 : Option ℕ := dOf 0x10000
def arg21 : Reg := .h 3
def arg22 : Target := .control 0
def arg23 : ℕ := 6*2^48
def arg24 : Option ℕ := dMore 0x60000
def arg25 : Reg := .h 3
def arg26 : Target := .vault 0 0
def arg27 : ℕ := 2^48
def arg28 : Option ℕ := dMore 0x70000
def arg29 : Reg := .h 3
def arg30 : ℕ := 3*2^48
def arg31 : Target := .sram 0 0
def arg32 : Option ℕ := dOf 0x10000
def arg33 : ℕ := 5*2^48+0x100
def arg34 : Target := .tcm 0 0x100
def arg35 : ℕ := 5*2^48+0x100
def arg36 : Target := .tcm 0 0x100
def arg37 : Msg := {sA.request 0 (.amo .add 8 5 0) 0x10040 (sram 64) (some (.g 3)) with id := 7}
def arg38 : State := sA.wr (sram 64) 8 77
def arg39 : Reg := .g 1
def arg40 : Reg := .g 10
def arg41 : ℕ := 3*2^48
def arg42 : Option ℕ := dOf 0x10000
def arg43 : State := withNest {nx with ended := true} sA
def arg44 : Nest := {nx with ended := true}
def arg45 : ℕ := 5*2^48+0x100
def arg46 : Reg := .h 3
def arg47 : State := sA.setEmpty (5*2^48+0x100)
def arg48 : ℕ := 5*2^48+0x100
def arg49 : Reg := .h 3
def arg50 : Msg := wbm (.store 4 0x1122334455667788) none
def arg51 : Msg := wbm (.storeFill 8 0x1122334455667788) none
def arg52 : State := sA.setEmpty (5*2^48+0x100)
def arg53 : Msg := wbm (.loadSync 2 true) (some (.g 10))
def arg54 : Msg := wbm (.fe 2) (some (.g 10))
def arg55 : Msg := wbm (.fe 3) (some (.g 10))
def arg56 : State := sA.setEmpty (5*2^48+0x100)
def arg57 : Target := .sram 0 0
def arg58 : ℕ := 3*2^48
def arg59 : Option ℕ := dOf 0x10000
def arg60 : Reg := .g 2
def arg61 : Reg := .g 10
def arg62 : Reg := .g 1

theorem meets_SpawnAndYield :
    -- clauses 0, 1.0
    sA.leads ∧ sA.issues [arg0, arg1, arg2] [] ∧ BitVec.toNat (sA.src arg0) % 4 = 0 ∧ (sA.ctx sA.me).claim = none ∧
    sA.fillsOut sA.me = false ∧ sA.src arg1 = (0 : Word) ∧ sA.me < sA.nextTid ∧
    sA.dequeRoom (sA.ctx sA.me).core (sA.ctx sA.me).task (sA.ctx sA.me).fn = true ∧
    ((sA.core (sA.ctx sA.me).core).deque (sA.ctx sA.me).task).chip.length + sA.dequeHeld (sA.ctx sA.me).core (sA.ctx
      sA.me).task < 16 ∧ ((sA.core (sA.ctx sA.me).core).deque (sA.ctx sA.me).task).spill = [] ∧
    -- clause 1.1
    arg3.leads ∧ arg3.dequeRoom (arg3.ctx arg3.me).core (arg3.ctx arg3.me).task (arg3.ctx arg3.me).fn = true ∧
    ((arg3.core (arg3.ctx arg3.me).core).deque (arg3.ctx arg3.me).task).spill ≠ [] ∧
    arg3.dequeSpilled (arg3.ctx arg3.me).fn (arg3.ctx arg3.me).core < 448 := by
  constructorm* _ ∧ _ <;> (
    first
      | decide +kernel
      | (unfold State.issues; decide +kernel)
      | (unfold State.leads; decide +kernel))

theorem meets_CellInstructions :
    -- clauses 0, 1, 2, 3, 4, 5, 6.1, 7.1, 8.1, 9.1, 10.1
    sA.leads ∧ BitVec.toNat (sA.src arg4) % 32 = 0 ∧ sA.reaches (sA.src arg4) 1 Kind.write false arg5 (Target.sram 0 0) arg6 ∧
    sA.issues [arg4, arg7] [arg8] ∧ sA.issues [arg4, arg8] [arg8] ∧ sA.issues [arg4] [arg8] ∧
    sA.issues [arg4, arg7, arg8] [arg8] ∧ sA.issues [arg4] [] ∧ (sA.ctx sA.me).knows arg5 = none ∧
    -- clauses 6.0, 7.0, 8.0, 9.0, 10.0
    sK.leads ∧ BitVec.toNat (sK.src arg9) % 32 = 0 ∧
    sK.reaches (sK.src arg9) 1 Kind.write false arg10 (Target.sram 0 0) arg11 ∧ sK.issues [arg9] [] ∧
    (sK.ctx sK.me).knows arg10 = some 19 ∧ sK.issues [arg9, arg12, arg13] [arg13] ∧ sK.issues [arg9, arg12] [arg13] ∧
    sK.issues [arg9, arg13] [arg13] := by
  constructorm* _ ∧ _ <;> (
    first
      | decide +kernel
      | exact reaches_of (by decide +kernel)
      | (unfold State.issues; decide +kernel)
      | (unfold State.leads; decide +kernel))

theorem meets_SentAccesses :
    -- clauses 0.0.0.0, 0.0.1.0, 0.2, 0.3, 0.4, 1.0.0, 1.0.1, 1.1
    sA.leads ∧ sA.ownTcm arg14 = false ∧ sA.holder sA.me arg15 (sizeBytes Size.d) = none ∧
    sA.reaches (sA.src (Reg.g (1 : BitVec 6)) + BitVec.ofInt 64 (BitVec.toInt (0 : BitVec 13))) (sizeBytes Size.d) Kind.read
      false arg15 arg14 arg16 ∧
    sA.cacheHit (sA.asks arg16 (HomeOp.load (sizeBytes Size.d)) (sA.src (Reg.g (1 : BitVec 6)) + BitVec.ofInt 64 (BitVec.toInt
      (0 : BitVec 13))) arg15).accessor (sA.ctx sA.me).core arg15 (sizeBytes Size.d) arg14 = none ∧
    sA.issues [Reg.g (1 : BitVec 6)] [Reg.g (10 : BitVec 6)] ∧ (∀ (o : ℕ), arg14 ≠ Target.control o) ∧
    sA.issues [Reg.g (1 : BitVec 6)] [arg17] ∧
    sA.reaches (sA.src (Reg.g (1 : BitVec 6)) + BitVec.ofInt 64 (BitVec.toInt (0 : BitVec 13))) (sizeBytes Size.d) Kind.write
      false arg15 arg14 arg16 ∧ sA.issues [Reg.g (1 : BitVec 6), Reg.g (10 : BitVec 6)] [] ∧
    sA.reaches (sA.src (Reg.g (1 : BitVec 6))) (sizeBytes Size.d) Kind.read true arg15 arg14 arg16 ∧
    sA.issues [Reg.g (1 : BitVec 6), Reg.g (7 : BitVec 6)] [arg17] ∧
    sA.reaches (sA.src (Reg.g (1 : BitVec 6))) (sizeBytes Size.d) Kind.write true arg15 arg14 arg16 ∧
    sA.issues [Reg.g (1 : BitVec 6), arg17, Reg.g (7 : BitVec 6)] [] ∧ sA.holder sA.me arg15 8 = none ∧
    sA.reaches (sA.src (Reg.g (1 : BitVec 6))) 8 Kind.read true arg15 arg14 arg16 ∧
    sA.reaches (sA.src (Reg.g (1 : BitVec 6))) 8 Kind.write true arg15 arg14 arg16 ∧
    -- clauses 2.0, 2.1
    sHeld.leads ∧ sHeld.ownTcm arg18 = false ∧ sHeld.holder sHeld.me arg19 (sizeBytes Size.d) = some 5 ∧
    sHeld.reaches (sHeld.src (Reg.g (1 : BitVec 6)) + BitVec.ofInt 64 (BitVec.toInt (0 : BitVec 13))) (sizeBytes Size.d)
      Kind.read false arg19 arg18 arg20 ∧ sHeld.issues [Reg.g (1 : BitVec 6)] [arg21] ∧
    sHeld.reaches (sHeld.src (Reg.g (1 : BitVec 6)) + BitVec.ofInt 64 (BitVec.toInt (0 : BitVec 13))) (sizeBytes Size.d)
      Kind.write false arg19 arg18 arg20 ∧ sHeld.issues [Reg.g (1 : BitVec 6), Reg.g (10 : BitVec 6)] [] := by
  constructorm* _ ∧ _ <;> (
    first
      | decide +kernel
      | exact reaches_of (by decide +kernel)
      | (unfold State.issues; decide +kernel)
      | (unfold State.leads; decide +kernel)
      | exact notControl_of (by decide +kernel))

theorem meets_SentAccesses_2 :
    -- clauses 0.0.0.1, 0.0.1.1
    sMore.leads ∧ sMore.ownTcm arg22 = false ∧ sMore.holder sMore.me arg23 (sizeBytes Size.d) = none ∧
    sMore.reaches (sMore.src (Reg.g (11 : BitVec 6)) + BitVec.ofInt 64 (BitVec.toInt (0 : BitVec 13))) (sizeBytes Size.d)
      Kind.read false arg23 arg22 arg24 ∧
    sMore.cacheHit (sMore.asks arg24 (HomeOp.load (sizeBytes Size.d)) (sMore.src (Reg.g (11 : BitVec 6)) + BitVec.ofInt 64
      (BitVec.toInt (0 : BitVec 13))) arg23).accessor (sMore.ctx sMore.me).core arg23 (sizeBytes Size.d) arg22 = none ∧
    sMore.issues [Reg.g (11 : BitVec 6)] [Reg.g (10 : BitVec 6)] ∧ arg22 = Target.control 0 ∧
    sMore.issues [Reg.g (11 : BitVec 6)] [arg25] ∧
    -- clauses 0.1.0, 0.1.1
    sMore.ownTcm arg26 = false ∧ sMore.holder sMore.me arg27 (sizeBytes Size.d) = none ∧
    sMore.reaches (sMore.src (Reg.g (12 : BitVec 6)) + BitVec.ofInt 64 (BitVec.toInt (0 : BitVec 13))) (sizeBytes Size.d)
      Kind.read false arg27 arg26 arg28 ∧
    sMore.cacheHit (sMore.asks arg28 (HomeOp.load (sizeBytes Size.d)) (sMore.src (Reg.g (12 : BitVec 6)) + BitVec.ofInt 64
      (BitVec.toInt (0 : BitVec 13))) arg27).accessor (sMore.ctx sMore.me).core arg27 (sizeBytes Size.d) arg26 = some
      651061555542690057 ∧ sMore.issues [Reg.g (12 : BitVec 6)] [Reg.g (10 : BitVec 6)] ∧
    sMore.issues [Reg.g (12 : BitVec 6)] [arg29] := by
  constructorm* _ ∧ _ <;> (
    first
      | decide +kernel
      | exact reaches_of (by decide +kernel)
      | (unfold State.issues; decide +kernel)
      | (unfold State.leads; decide +kernel))

theorem meets_FencesAndAtomics :
    -- clauses 1.0.1, 1.1.1, 1.2.1, 1.3.1, 1.4.1, 1.5.1, 1.6.1, 1.7.1, 1.8.1, 1.9.1, 1.10.1, 1.11.1
    sA.leads ∧ sA.issues [Reg.g (1 : BitVec 6), Reg.g (2 : BitVec 6)] [Reg.g (10 : BitVec 6)] ∧
    (sA.reaches (sA.src (Reg.g (1 : BitVec 6))) (if true = true then 8 else 4) Kind.write true arg30 arg31 arg32) ∧
    sA.ownTcm arg31 = false ∧ (sA.holder sA.me arg30 (if true = true then 8 else 4) = none) ∧ Scope.thr = Scope.thr ∧
    sA.issues [Reg.g (1 : BitVec 6), Reg.g (2 : BitVec 6), Reg.g (10 : BitVec 6)] [Reg.g (10 : BitVec 6)] ∧
    (sA.reaches (sA.src (Reg.g (1 : BitVec 6))) (if false = true then 8 else 4) Kind.write true arg30 arg31 arg32) ∧
    (sA.holder sA.me arg30 (if false = true then 8 else 4) = none) ∧
    sA.issues [Reg.g (1 : BitVec 6)] [Reg.g (10 : BitVec 6)] := by
  constructorm* _ ∧ _ <;> (
    first
      | decide +kernel
      | exact reaches_of (by decide +kernel)
      | (unfold State.issues; decide +kernel)
      | (unfold State.leads; decide +kernel))

theorem meets_FencesAndAtomics_2 :
    -- clauses 1.0.0, 1.1.0, 1.2.0, 1.3.0, 1.4.0, 1.5.0, 1.6.0, 1.7.0, 1.8.0, 1.9.0, 1.10.0, 1.11.0
    sA.leads ∧ sA.issues [Reg.g (6 : BitVec 6), Reg.g (2 : BitVec 6)] [Reg.g (10 : BitVec 6)] ∧
    (sA.reaches (sA.src (Reg.g (6 : BitVec 6))) (if true = true then 8 else 4) Kind.write true arg33 arg34 none) ∧
    sA.ownTcm arg34 = true ∧ Scope.thr = Scope.thr ∧
    (sA.refusal
      (({ (sA.asks none (HomeOp.amo AmoFn.add (if true = true then 8 else 4) (sA.src (Reg.g (2 : BitVec 6))) (sA.src (Reg.g (10 : BitVec 6)))) (sA.src (Reg.g (6 : BitVec 6))) arg33) with counted := true, dst := some (Reg.g (10 : BitVec 6)), aux := word (scopeCode Scope.thr) }
      : Msg)) ({ n := if true = true then 8 else 4, writes := true, reads := true, sync := true } : Touch) = (sA, none)) ∧
    (sA.refusal
      (({ (sA.asks none (HomeOp.amo AmoFn.and (if true = true then 8 else 4) (sA.src (Reg.g (2 : BitVec 6))) (sA.src (Reg.g (10 : BitVec 6)))) (sA.src (Reg.g (6 : BitVec 6))) arg33) with counted := true, dst := some (Reg.g (10 : BitVec 6)), aux := word (scopeCode Scope.thr) }
      : Msg)) ({ n := if true = true then 8 else 4, writes := true, reads := true, sync := true } : Touch) = (sA, none)) ∧
    (sA.refusal
      (({ (sA.asks none (HomeOp.amo AmoFn.or (if true = true then 8 else 4) (sA.src (Reg.g (2 : BitVec 6))) (sA.src (Reg.g (10 : BitVec 6)))) (sA.src (Reg.g (6 : BitVec 6))) arg33) with counted := true, dst := some (Reg.g (10 : BitVec 6)), aux := word (scopeCode Scope.thr) }
      : Msg)) ({ n := if true = true then 8 else 4, writes := true, reads := true, sync := true } : Touch) = (sA, none)) ∧
    (sA.refusal
      (({ (sA.asks none (HomeOp.amo AmoFn.xor (if true = true then 8 else 4) (sA.src (Reg.g (2 : BitVec 6))) (sA.src (Reg.g (10 : BitVec 6)))) (sA.src (Reg.g (6 : BitVec 6))) arg33) with counted := true, dst := some (Reg.g (10 : BitVec 6)), aux := word (scopeCode Scope.thr) }
      : Msg)) ({ n := if true = true then 8 else 4, writes := true, reads := true, sync := true } : Touch) = (sA, none)) ∧
    (sA.refusal
      (({ (sA.asks none (HomeOp.amo AmoFn.swap (if true = true then 8 else 4) (sA.src (Reg.g (2 : BitVec 6))) (sA.src (Reg.g (10 : BitVec 6)))) (sA.src (Reg.g (6 : BitVec 6))) arg33) with counted := true, dst := some (Reg.g (10 : BitVec 6)), aux := word (scopeCode Scope.thr) }
      : Msg)) ({ n := if true = true then 8 else 4, writes := true, reads := true, sync := true } : Touch) = (sA, none)) ∧
    sA.issues [Reg.g (6 : BitVec 6), Reg.g (2 : BitVec 6), Reg.g (10 : BitVec 6)] [Reg.g (10 : BitVec 6)] ∧
    (sA.refusal
      (({ (sA.asks none (HomeOp.amo AmoFn.cas (if true = true then 8 else 4) (sA.src (Reg.g (2 : BitVec 6))) (sA.src (Reg.g (10 : BitVec 6)))) (sA.src (Reg.g (6 : BitVec 6))) arg33) with counted := true, dst := some (Reg.g (10 : BitVec 6)), aux := word (scopeCode Scope.thr) }
      : Msg)) ({ n := if true = true then 8 else 4, writes := true, reads := true, sync := true } : Touch) = (sA, none)) ∧
    (sA.refusal
      (({ (sA.asks none (HomeOp.amo AmoFn.min (if true = true then 8 else 4) (sA.src (Reg.g (2 : BitVec 6))) (sA.src (Reg.g (10 : BitVec 6)))) (sA.src (Reg.g (6 : BitVec 6))) arg33) with counted := true, dst := some (Reg.g (10 : BitVec 6)), aux := word (scopeCode Scope.thr) }
      : Msg)) ({ n := if true = true then 8 else 4, writes := true, reads := true, sync := true } : Touch) = (sA, none)) ∧
    (sA.refusal
      (({ (sA.asks none (HomeOp.amo AmoFn.max (if true = true then 8 else 4) (sA.src (Reg.g (2 : BitVec 6))) (sA.src (Reg.g (10 : BitVec 6)))) (sA.src (Reg.g (6 : BitVec 6))) arg33) with counted := true, dst := some (Reg.g (10 : BitVec 6)), aux := word (scopeCode Scope.thr) }
      : Msg)) ({ n := if true = true then 8 else 4, writes := true, reads := true, sync := true } : Touch) = (sA, none)) ∧
    (sA.refusal
      (({ (sA.asks none (HomeOp.amo AmoFn.minu (if true = true then 8 else 4) (sA.src (Reg.g (2 : BitVec 6))) (sA.src (Reg.g (10 : BitVec 6)))) (sA.src (Reg.g (6 : BitVec 6))) arg33) with counted := true, dst := some (Reg.g (10 : BitVec 6)), aux := word (scopeCode Scope.thr) }
      : Msg)) ({ n := if true = true then 8 else 4, writes := true, reads := true, sync := true } : Touch) = (sA, none)) ∧
    (sA.refusal
      (({ (sA.asks none (HomeOp.amo AmoFn.maxu (if true = true then 8 else 4) (sA.src (Reg.g (2 : BitVec 6))) (sA.src (Reg.g (10 : BitVec 6)))) (sA.src (Reg.g (6 : BitVec 6))) arg33) with counted := true, dst := some (Reg.g (10 : BitVec 6)), aux := word (scopeCode Scope.thr) }
      : Msg)) ({ n := if true = true then 8 else 4, writes := true, reads := true, sync := true } : Touch) = (sA, none)) ∧
    (sA.reaches (sA.src (Reg.g (6 : BitVec 6))) (if false = true then 8 else 4) Kind.write true arg33 arg34 none) ∧
    (sA.refusal
      (({ (sA.asks none (HomeOp.amo AmoFn.fadd (if false = true then 8 else 4) (sA.src (Reg.g (2 : BitVec 6))) (sA.src (Reg.g (10 : BitVec 6)))) (sA.src (Reg.g (6 : BitVec 6))) arg33) with counted := true, dst := some (Reg.g (10 : BitVec 6)), aux := word (scopeCode Scope.thr) }
      : Msg)) ({ n := if false = true then 8 else 4, writes := true, reads := true, sync := true } : Touch) = (sA, none)) ∧
    sA.issues [Reg.g (6 : BitVec 6)] [Reg.g (10 : BitVec 6)] ∧
    (sA.refusal
      (({ (sA.asks none (HomeOp.amo AmoFn.ld (if true = true then 8 else 4) (0 : Word) (sA.src (Reg.g (10 : BitVec 6)))) (sA.src (Reg.g (6 : BitVec 6))) arg33) with counted := true, dst := some (Reg.g (10 : BitVec 6)), aux := word (scopeCode Scope.thr) }
      : Msg)) ({ n := if true = true then 8 else 4, writes := true, reads := true, sync := true } : Touch) = (sA, none)) := by
  constructorm* _ ∧ _ <;> (
    first
      | decide +kernel
      | exact reaches_of (by decide +kernel)
      | (unfold State.issues; decide +kernel)
      | (unfold State.leads; decide +kernel))

theorem meets_FencesAndAtomics_3 :
    -- clauses 1.0.2, 1.1.2, 1.2.2, 1.3.2, 1.4.2, 1.5.2, 1.6.2, 1.7.2, 1.8.2, 1.9.2, 1.10.2, 1.11.2
    sA.leads ∧ sA.issues [Reg.g (6 : BitVec 6), Reg.g (2 : BitVec 6)] [Reg.g (10 : BitVec 6)] ∧
    (sA.reaches (sA.src (Reg.g (6 : BitVec 6))) (if false = true then 8 else 4) Kind.write true arg35 arg36 none) ∧
    (sA.ownTcm arg36 = true ∨ sA.holder sA.me arg35 (if false = true then 8 else 4) = none) ∧ Scope.clu ≠ Scope.thr ∧
    sA.issues [Reg.g (6 : BitVec 6), Reg.g (2 : BitVec 6), Reg.g (10 : BitVec 6)] [Reg.g (10 : BitVec 6)] ∧
    sA.issues [Reg.g (6 : BitVec 6)] [Reg.g (10 : BitVec 6)] ∧
    -- clauses 3.0, 3.1, 3.2, 3.3, 3.4, 3.5, 3.6, 3.7, 3.9, 3.10, 3.11
    (9223372036854775808 < 2 ^ (8 * if true = true then 8 else 4)) ∧ (5 < 2 ^ (8 * if true = true then 8 else 4)) ∧
    ((if 9223372036854775808 < 2 ^ (8 * if true = true then 8 else 4) / 2 then ↑9223372036854775808 else ↑9223372036854775808
      - ↑(2 ^ (8 * if true = true then 8 else 4))) ≤ if 5 < 2 ^ (8 * if true = true then 8 else 4) / 2 then ↑5 else ↑5 - ↑(2 ^
      (8 * if true = true then 8 else 4))) ∧
    -- clause 2
    arg37.op = HomeOp.amo AmoFn.add 8 (5 : Word) (0 : Word) ∧ AmoFn.add ≠ AmoFn.ld ∧ arg37.leaf = none ∧
    arg37.dst = some (Reg.g (3 : BitVec 6)) ∧ (3 : BitVec 6) ≠ (0 : BitVec 6) ∧ (3 : BitVec 6) ≠ (61 : BitVec 6) ∧
    Memory.wf arg38.mem = true ∧
    arg38.watch arg37.pa 8 (false, false, true) arg37.va arg37.tid arg37.core arg37.slot arg37.issued = (arg38, none) ∧
    -- clause 3.8
    (7 < 2 ^ (8 * if true = true then 8 else 4)) ∧
    ((if 9223372036854775808 < 2 ^ (8 * if true = true then 8 else 4) / 2 then ↑9223372036854775808 else ↑9223372036854775808
      - ↑(2 ^ (8 * if true = true then 8 else 4))) < if 5 < 2 ^ (8 * if true = true then 8 else 4) / 2 then ↑5 else ↑5 - ↑(2 ^
      (8 * if true = true then 8 else 4))) := by
  constructorm* _ ∧ _ <;> (
    first
      | decide +kernel
      | exact reaches_of (by decide +kernel)
      | (unfold State.issues; decide +kernel)
      | (unfold State.leads; decide +kernel))

theorem meets_LoopNests :
    -- clause 0
    sA.leads ∧ sA.claimOut sA.me = none ∧ (sA.ctx sA.me).nest = none ∧ BitVec.toNat (sA.src arg39) % 32 = 0 ∧
    sA.issues [arg39] [arg40] ∧ sA.reaches (sA.src arg39) 1 Kind.read false arg41 (Target.sram 0 0) arg42 ∧
    sA.holder sA.me arg41 32 = none ∧
    -- clause 1
    (withNest nx sA).leads ∧ (withNest nx sA).claimOut (withNest nx sA).me = none ∧
    ((withNest nx sA).ctx (withNest nx sA).me).nest = some nx ∧ nx.ended = false ∧ nx.n ≠ nx.last ∧
    -- clause 2
    arg43.leads ∧ arg43.claimOut arg43.me = none ∧ (arg43.ctx arg43.me).nest = some arg44 ∧ arg44.ended = true := by
  constructorm* _ ∧ _ <;> (
    first
      | decide +kernel
      | exact reaches_of (by decide +kernel)
      | (unfold State.issues; decide +kernel)
      | (unfold State.leads; decide +kernel))

theorem meets_OwnTcmAccesses :
    -- clauses 0.0.0, 0.0.1, 0.1, 0.2.0, 0.2.2, 0.3, 0.4.0, 0.4.2.0, 0.4.2.1, 0.5
    sA.leads ∧
    sA.reaches (sA.src (Reg.g (6 : BitVec 6)) + BitVec.ofInt 64 (BitVec.toInt (0 : BitVec 13))) (sizeBytes Size.d) Kind.read
      false arg45 (Target.tcm (sA.ctx sA.me).core 256) none ∧ sA.issues [Reg.g (6 : BitVec 6)] [Reg.g (10 : BitVec 6)] ∧
    sA.passes
      (({ (sA.asks none (HomeOp.load (sizeBytes Size.d)) (sA.src (Reg.g (6 : BitVec 6)) + BitVec.ofInt 64 (BitVec.toInt (0 : BitVec 13))) arg45) with dst := some (Reg.g (10 : BitVec 6)) }
      : Msg)) ({ n := sizeBytes Size.d, writes := false, reads := true, sync := false } : Touch) ∧
    sA.issues [Reg.g (6 : BitVec 6)] [arg46] ∧
    sA.passes
      (({ (sA.asks none (HomeOp.load (sizeBytes Size.d)) (sA.src (Reg.g (6 : BitVec 6)) + BitVec.ofInt 64 (BitVec.toInt (0 : BitVec 13))) arg45) with dst := some arg46 }
      : Msg)) ({ n := sizeBytes Size.d, writes := false, reads := true, sync := false } : Touch) ∧
    sA.reaches (sA.src (Reg.g (6 : BitVec 6)) + BitVec.ofInt 64 (BitVec.toInt (0 : BitVec 13))) (sizeBytes Size.d) Kind.write
      false arg45 (Target.tcm (sA.ctx sA.me).core 256) none ∧ sA.issues [Reg.g (6 : BitVec 6), Reg.g (10 : BitVec 6)] [] ∧
    sA.refusal
      (({ (sA.asks none (HomeOp.store (sizeBytes Size.d) (sA.src (Reg.g (10 : BitVec 6)))) (sA.src (Reg.g (6 : BitVec 6)) + BitVec.ofInt 64 (BitVec.toInt (0 : BitVec 13))) arg45) with dst := none }
      : Msg)) ({ n := sizeBytes Size.d, writes := true, reads := false, sync := true } : Touch) = (sA, none) ∧
    sA.reaches (sA.src (Reg.g (6 : BitVec 6))) (sizeBytes Size.d) Kind.read true arg45 (Target.tcm (sA.ctx sA.me).core 256)
      none ∧ sA.issues [Reg.g (6 : BitVec 6), Reg.g (7 : BitVec 6)] [arg46] ∧ sA.isFull arg45 = true ∧
    sA.passes
      (({ (sA.asks none (HomeOp.loadSync (sizeBytes Size.d) false) (sA.src (Reg.g (6 : BitVec 6))) arg45) with dst := some arg46 }
      : Msg)) ({ n := sizeBytes Size.d, writes := false, reads := true, sync := true } : Touch) ∧
    (sA.refusal
      (({ (({ (sA.asks none (HomeOp.loadSync (sizeBytes Size.d) true) (sA.src (Reg.g (6 : BitVec 6))) arg45) with dst := some arg46 } : Msg)) with limit := if sA.src (Reg.g (7 : BitVec 6)) = (0 : Word) then none else some (BitVec.toNat (sA.src (Reg.g (7 : BitVec 6)))) }
      : Msg)) ({ n := sizeBytes Size.d, writes := true, reads := true, sync := true } : Touch) = (sA, none)) ∧
    sA.reaches (sA.src (Reg.g (6 : BitVec 6))) (sizeBytes Size.d) Kind.write true arg45 (Target.tcm (sA.ctx sA.me).core 256)
      none ∧ sA.issues [Reg.g (6 : BitVec 6), arg46, Reg.g (7 : BitVec 6)] [] ∧
    (sA.refusal
      (({ (({ (sA.asks none (HomeOp.storeFill (sizeBytes Size.d) (sA.src arg46)) (sA.src (Reg.g (6 : BitVec 6))) arg45) with dst := none } : Msg)) with limit := if sA.src (Reg.g (7 : BitVec 6)) = (0 : Word) then none else some (BitVec.toNat (sA.src (Reg.g (7 : BitVec 6)))), aux := word (sA.wbTime sA.me) }
      : Msg)) ({ n := sizeBytes Size.d, writes := true, reads := false, sync := true } : Touch) = (sA, none)) ∧
    sA.reaches (sA.src (Reg.g (6 : BitVec 6))) 8 Kind.read true arg45 (Target.tcm (sA.ctx sA.me).core 256) none ∧
    sA.passes (({ (sA.asks none (HomeOp.fe (1 : BitVec 2)) (sA.src (Reg.g (6 : BitVec 6))) arg45) with dst := some arg46 } :
      Msg)) ({ n := 8, writes := false, reads := false, sync := true } : Touch) ∧
    sA.reaches (sA.src (Reg.g (6 : BitVec 6))) 8 Kind.write true arg45 (Target.tcm (sA.ctx sA.me).core 256) none ∧
    (sA.refusal
      (({ (({ (sA.asks none (HomeOp.fe (2 : BitVec 2)) (sA.src (Reg.g (6 : BitVec 6))) arg45) with dst := some arg46 } : Msg)) with limit := if sA.src (Reg.g (7 : BitVec 6)) = (0 : Word) then none else some (BitVec.toNat (sA.src (Reg.g (7 : BitVec 6)))) }
      : Msg)) ({ n := 8, writes := true, reads := false, sync := true } : Touch) = (sA, none)) ∧
    (sA.refusal
      (({ (({ (sA.asks none (HomeOp.fe (3 : BitVec 2)) (sA.src (Reg.g (6 : BitVec 6))) arg45) with dst := some arg46 } : Msg)) with limit := if sA.src (Reg.g (7 : BitVec 6)) = (0 : Word) then none else some (BitVec.toNat (sA.src (Reg.g (7 : BitVec 6)))) }
      : Msg)) ({ n := 8, writes := true, reads := false, sync := true } : Touch) = (sA, none)) ∧
    sA.passes (({ (sA.asks none HomeOp.feq (sA.src (Reg.g (6 : BitVec 6))) arg45) with dst := some arg46 } : Msg))
      ({ n := 8, writes := false, reads := false, sync := false } : Touch) := by
  constructorm* _ ∧ _ <;> (
    first
      | decide +kernel
      | exact reaches_of (by decide +kernel)
      | (unfold State.issues; decide +kernel)
      | (unfold State.leads; decide +kernel)
      | (unfold State.passes; decide +kernel))

theorem meets_OwnTcmAccesses_2 :
    -- clauses 0.2.1, 0.4.1
    arg47.leads ∧
    arg47.reaches (arg47.src (Reg.g (6 : BitVec 6))) (sizeBytes Size.d) Kind.read true arg48 (Target.tcm (arg47.ctx
      arg47.me).core 256) none ∧ arg47.issues [Reg.g (6 : BitVec 6), Reg.g (7 : BitVec 6)] [arg49] ∧
    arg47.isFull arg48 = false ∧
    arg47.refusal
      (({ (arg47.asks none (HomeOp.loadSync (sizeBytes Size.d) false) (arg47.src (Reg.g (6 : BitVec 6))) arg48) with dst := some arg49 }
      : Msg)) ({ n := sizeBytes Size.d, writes := false, reads := true, sync := true } : Touch) = (arg47, none) ∧
    arg47.reaches (arg47.src (Reg.g (6 : BitVec 6))) 8 Kind.read true arg48 (Target.tcm (arg47.ctx arg47.me).core 256) none ∧
    arg47.refusal
      (({ (arg47.asks none (HomeOp.fe (1 : BitVec 2)) (arg47.src (Reg.g (6 : BitVec 6))) arg48) with dst := some arg49 } :
      Msg)) ({ n := 8, writes := false, reads := false, sync := true } : Touch) = (arg47, none) ∧
    -- clause 1.0
    arg50.leaf = none ∧ Memory.wf sA.mem = true ∧
    sA.watch arg50.pa 4 arg50.op.watchClass arg50.va arg50.tid arg50.core arg50.slot arg50.issued = (sA, none) ∧
    sA.wordWaiters arg50.pa = [] ∧ arg50.op = HomeOp.store 4 (1234605616436508552 : Word) ∧
    -- clause 1.1
    arg51.leaf = none ∧ Memory.wf arg52.mem = true ∧
    arg52.watch arg51.pa 8 arg51.op.watchClass arg51.va arg51.tid arg51.core arg51.slot arg51.issued = (arg52, none) ∧
    arg52.wordWaiters arg51.pa = [] ∧ arg51.op = HomeOp.storeFill 8 (1234605616436508552 : Word) ∧
    arg52.isFull arg51.pa = false := by
  constructorm* _ ∧ _ <;> (
    first
      | decide +kernel
      | exact reaches_of (by decide +kernel)
      | (unfold State.issues; decide +kernel)
      | (unfold State.leads; decide +kernel))

theorem meets_OwnTcmAccesses_3 :
    -- clause 1.2.0
    arg53.leaf = none ∧ Memory.wf sA.mem = true ∧
    sA.watch arg53.pa 2 arg53.op.watchClass arg53.va arg53.tid arg53.core arg53.slot arg53.issued = (sA, none) ∧
    sA.wordWaiters arg53.pa = [] ∧ arg53.dst = some (Reg.g (10 : BitVec 6)) ∧ (10 : BitVec 6) ≠ (0 : BitVec 6) ∧
    (10 : BitVec 6) ≠ (61 : BitVec 6) ∧ arg53.op = HomeOp.loadSync 2 true ∧ sA.isFull arg53.pa = true ∧
    -- clause 1.2.1
    arg54.leaf = none ∧
    sA.watch arg54.pa 8 arg54.op.watchClass arg54.va arg54.tid arg54.core arg54.slot arg54.issued = (sA, none) ∧
    sA.wordWaiters arg54.pa = [] ∧ arg54.dst = some (Reg.g (10 : BitVec 6)) ∧ arg54.op = HomeOp.fe (2 : BitVec 2) ∧ 8 = 8 ∧
    sA.isFull arg54.pa = true := by
  constructorm* _ ∧ _ <;> decide +kernel

theorem meets_OwnTcmAccesses_4 :
    -- clause 1.2.2
    arg55.leaf = none ∧ Memory.wf arg56.mem = true ∧
    arg56.watch arg55.pa 8 arg55.op.watchClass arg55.va arg55.tid arg55.core arg55.slot arg55.issued = (arg56, none) ∧
    arg56.wordWaiters arg55.pa = [] ∧ arg55.dst = some (Reg.g (10 : BitVec 6)) ∧ (10 : BitVec 6) ≠ (0 : BitVec 6) ∧
    (10 : BitVec 6) ≠ (61 : BitVec 6) ∧ arg55.op = HomeOp.fe (3 : BitVec 2) ∧ 8 = 8 ∧ arg56.isFull arg55.pa = false := by
  constructorm* _ ∧ _ <;> decide +kernel

theorem meets_RingInstructions :
    -- clauses 0.0, 0.1, 0.2, 0.3, 0.4, 1
    sA.leads ∧ (∃ (a : ℕ) (b : ℕ), arg57 = Target.sram a b ∨ arg57 = Target.scratch a b) ∧
    sA.reaches (sA.src (Reg.q (0 : BitVec 4)) &&& ~~~BitVec.ofNat 64 63) 1 Kind.write false arg58 arg57 arg59 ∧
    sA.issues [Reg.q (0 : BitVec 4), arg60, arg61] [arg61] ∧ sA.issues [Reg.q (0 : BitVec 4), arg60, arg61] [] ∧
    sA.issues [Reg.q (0 : BitVec 4), arg60] [] ∧ BitVec.toNat (sA.src arg62) % 64 = 0 ∧
    sA.reaches (sA.src arg62) 1 Kind.write false arg58 arg57 arg59 ∧ sA.issues [arg62, arg60] [Reg.q (0 : BitVec 4)] := by
  constructorm* _ ∧ _ <;> (
    first
      | decide +kernel
      | exact reaches_of (by decide +kernel)
      | (unfold State.issues; decide +kernel)
      | (unfold State.leads; decide +kernel)
      | exact ⟨_, _, .inl rfl⟩)

end Accesses

namespace Threads

def sA := at_ base (.add (.g 3) (.g 1) (.g 2))
def sMs := sA.modCtx 0 fun c => {c with regs := [(1, 0x80FF0000), (2, 0x07000000)]}
def claimed (k : Nat) (s : State) : State := (s.modCtx 0 fun c => {c with claim := some (.bound k)}).modEng 0 k fun e => {e with owner := some 0}
def sMis := sA.modCtx 0 fun c => {c with regs := c.regs.put 1 0x1003C}
def sMis1 := sA.modCtx 0 fun c => {c with regs := c.regs.put 1 0x10041}
def arg0 : State := claimed 1 sA
def arg1 : Reg := .g 1
def arg2 : Reg := .g 0
def arg3 : Reg := .g 2
def arg4 : Reg := .g 10
def arg5 : State := claimed 0 sA
def arg6 : Reg := .g 10
def arg7 : State := sA.modCtx 0 fun c => {c with claim := some (.spilled 2)}
def arg8 : Reg := .g 10
def arg9 : Reg := .h 3
def arg10 : Reg := .g 1
def arg11 : Reg := .g 2
def arg12 : Reg := .g 10
def arg13 : Reg := .g 2
def arg14 : Reg := .g 1
def arg15 : Reg := .g 7
def arg16 : Reg := .g 6
def arg17 : Reg := .g 10
def arg18 : ℕ := 5*2^48+0x100
def arg19 : Target := .tcm 0 0x100
def arg20 : Reg := .g 1
def arg21 : Reg := .g 6

theorem meets_ClaimsAndCopies :
    -- clauses 1.0, 1.1, 1.2, 1.3, 1.4, 1.5
    arg0.leads ∧ (arg0.ctx arg0.me).claim = some (Claim.bound 1) ∧ arg0.issues [arg1, arg2, arg3] [] ∧
    (((arg0.core (arg0.ctx arg0.me).core).cq.any fun (x : CopyCmd) => decide (x.tid = arg0.me) && decide (x.tag =
      (BitVec.extractLsb' 0 4 (arg0.src arg3)).toNat)) = false) ∧ arg0.issues [arg1, arg3] [] ∧ arg0.issues [arg1] [arg3] ∧
    (((arg0.core (arg0.ctx arg0.me).core).cq.any fun (x : CopyCmd) => decide (x.tid = arg0.me)) = false) ∧
    -- clauses 0.1, 0.3
    sA.leads ∧ sA.issues [] [arg4] ∧ (sA.ctx sA.me).claim = none ∧
    (0 = 0 ∨ 0 = 1 ∧ (sA.core (sA.ctx sA.me).core).eng0.owner ≠ none) ∧ ((sA.core (sA.ctx sA.me).core).eng 0).owner = none ∧
    -- clauses 0.0, 0.4
    arg5.leads ∧ arg5.issues [] [arg6] ∧ (arg5.ctx arg5.me).claim = some (Claim.bound 0) ∧
    (arg5.core (arg5.ctx arg5.me).core).engineWork arg5.me = false ∧
    (((arg5.core (arg5.ctx arg5.me).core).cq.any fun (x : CopyCmd) => decide (x.tid = arg5.me)) = false) ∧
    -- clause 0.2
    arg7.leads ∧ arg7.issues [] [arg8] ∧ (arg7.ctx arg7.me).claim = some (Claim.spilled 2) := by
  constructorm* _ ∧ _ <;> (
    first
      | decide +kernel
      | (unfold State.issues; decide +kernel)
      | (unfold State.leads; decide +kernel))

theorem meets_AddressAndHandleFaults :
    -- clauses 3.0, 3.1, 3.2, 3.3, 3.4, 3.5, 3.6, 3.7, 3.8, 3.9, 3.10, 3.11, 3.12, 3.13, 3.14, 3.15, 3.16, 3.17, 3.18, 3.19, 3.20, 3.21
    BitVec.toNat (sMis1.src (Reg.g (1 : BitVec 6)) + BitVec.ofInt 64 (BitVec.toInt (0 : BitVec 13))) % sizeBytes Size.d ≠ 0 ∧
    sMis1.issues [Reg.g (1 : BitVec 6)] [Reg.g (10 : BitVec 6)] ∧ sMis1.issues [Reg.g (1 : BitVec 6)] [arg9] ∧
    sMis1.issues [Reg.g (1 : BitVec 6), Reg.g (10 : BitVec 6)] [] ∧
    BitVec.toNat (sMis1.src (Reg.g (1 : BitVec 6))) % sizeBytes Size.d ≠ 0 ∧
    sMis1.issues [Reg.g (1 : BitVec 6), Reg.g (2 : BitVec 6)] [arg9] ∧
    sMis1.issues [Reg.g (1 : BitVec 6), arg9, Reg.g (2 : BitVec 6)] [] ∧
    BitVec.toNat (sMis1.src (Reg.g (1 : BitVec 6))) % 8 ≠ 0 ∧
    ((BitVec.toNat (sMis1.src (Reg.g (1 : BitVec 6))) % if true = true then 8 else 4) ≠ 0) ∧
    sMis1.issues [Reg.g (1 : BitVec 6), Reg.g (2 : BitVec 6)] [Reg.g (10 : BitVec 6)] ∧
    sMis1.issues [Reg.g (1 : BitVec 6), Reg.g (2 : BitVec 6), Reg.g (10 : BitVec 6)] [Reg.g (10 : BitVec 6)] ∧
    BitVec.toNat (sMis1.src (Reg.g (1 : BitVec 6))) % 4 ≠ 0 ∧
    -- clauses 0.0, 0.1, 0.2, 0.3, 0.4, 0.5, 0.6, 0.7, 0.8, 0.9, 0.10
    BitVec.toNat (sMis.src arg10) % 32 ≠ 0 ∧ sMis.issues [arg10, arg11] [arg12] ∧ sMis.issues [arg10, arg12] [arg12] ∧
    sMis.issues [arg10] [arg12] ∧ sMis.issues [arg10] [] ∧ sMis.issues [arg10, arg11, arg12] [arg12] ∧
    -- clause 1
    isQ arg13 = false ∧
    -- clause 2
    BitVec.toNat (sMis.src arg14) % 64 ≠ 0 ∧ sMis.issues [arg14, arg15] [Reg.q (3 : BitVec 4)] := by
  constructorm* _ ∧ _ <;> (
    first
      | decide +kernel
      | (unfold State.issues; decide +kernel))

theorem meets_ThreadInstructions :
    -- clauses 0, 1, 2, 3, 4
    sA.leads ∧ sA.issues [arg16, arg16, arg17] [] ∧ BitVec.toNat (sA.src arg16) % 4 = 0 ∧ (sA.ctx sA.me).claim = none ∧
    sA.fillsOut sA.me = false ∧ sA.dequeRoom (sA.ctx sA.me).core (sA.ctx sA.me).task (sA.ctx sA.me).fn = true ∧
    ((sA.core (sA.ctx sA.me).core).deque (sA.ctx sA.me).task).chip.length + sA.dequeHeld (sA.ctx sA.me).core (sA.ctx
      sA.me).task < 16 ∧ sA.src arg16 ≠ (0 : Word) ∧ sA.holder sA.me arg18 8 = none ∧
    sA.reaches (sA.src arg16) 8 Kind.write true arg18 arg19 none ∧ sA.issues [arg16] [] ∧
    sA.reaches (sA.src arg16) 8 Kind.read true arg18 arg19 none ∧ sA.issues [arg16, arg16] [] ∧
    sA.reaches (sA.src arg16) 1 Kind.read false arg18 arg19 none ∧ sA.goOwner arg19 = some 0 ∧ bit (sA.src arg16) 31 = false ∧
    sA.partOf (BitVec.extractLsb' 4 12 (sA.src arg16)).toNat = some (sA.ctx sA.me).part ∧
    -- clause 5
    sMs.leads ∧ sMs.issues [arg20, arg21] [] ∧ bit (sMs.src arg20) 31 = true ∧ (sMs.core (sMs.ctx sMs.me).core).msgBuf = [] ∧
    (∀ j < 8, sMs.whyEmpty sMs.me (Reg.g (BitVec.ofNat 6 (j + 1))) ≠ some EmptyWhy.fill) := by
  constructorm* _ ∧ _ <;> (
    first
      | decide +kernel
      | exact reaches_of (by decide +kernel)
      | (unfold State.issues; decide +kernel)
      | (unfold State.leads; decide +kernel))

end Threads

namespace System

def sA := at_ base (.add (.g 3) (.g 1) (.g 2))
def dAt (s : State) (va : Word) : Option Nat := match s.translate 0 va .read with
  | .ok _ d => d
  | _ => none
def claimed (k : Nat) (s : State) : State := (s.modCtx 0 fun c => {c with claim := some (.bound k)}).modEng 0 k fun e => {e with owner := some 0}
def vs (v : Word) (s : State) : State := s.modCtx 0 fun c => {c with vshape := v}
def sV := claimed 1 sA
def w7 : State := sA.modCtx 0 fun c => {c with regs := c.regs.put 7 0x11D}
def two (f : Ctx → Ctx) : State := sA.setCtx 5 (f {Ctx.cleared (.slot 0 3) with lvl := .u, regs := [(1, 8)]})
def two' (f : Ctx → Ctx) : State := (two f).modCtx 0 fun c => {c with regs := [(1, 12), (2, 3)]}
def w0 : State := sA.modCtx 0 fun c => {c with regs := c.regs.put 7 0x101}
def wU : State := w0.modCtx 0 fun c => {c with lvl := .u}
def arg0 : Reg := .g 4
def arg1 : Reg := .g 7
def arg2 : ℕ := 4*2^48
def arg3 : Target := .scratch 0 0
def arg4 : Option ℕ := dAt sA 0x20000
def arg5 : Reg := .g 1
def arg6 : Reg := .g 2
def arg7 : Reg := .g 4
def arg8 : Reg := .g 7
def arg9 : ℕ := 4*2^48
def arg10 : Target := .scratch 0 0
def arg11 : Option ℕ := dAt sA 0x20000
def arg12 : Reg := .g 4
def arg13 : Reg := .g 7
def arg14 : State := two' fun c => {c with park := .sys}
def arg15 : Reg := .g 2
def arg16 : Reg := .g 10
def arg17 : Reg := .g 1
def arg18 : Ctx := {Ctx.cleared (.slot 0 3) with lvl := .u, regs := [(1, 8)], park := .sys, tvec := 12}
def arg19 : State := two' fun c => {c with frozen := true, limit := some 30, limitFrom := 2}
def arg20 : Reg := .g 2
def arg21 : Reg := .g 1
def arg22 : Reg := .h 10
def arg23 : State := two' fun c => {c with park := .trapped}
def arg24 : Reg := .g 2
def arg25 : Reg := .g 1
def arg26 : Reg := .g 10
def arg27 : State := (two' fun c => {c with frozen := true}).modCtx 0 fun c => {c with regs := [(2, 3)]}
def arg28 : Reg := .g 2
def arg29 : Reg := .g 1
def arg30 : Reg := .h 10
def arg31 : State := vs (0x2008) sV
def arg32 : State := vs (0xA008) sV
def arg33 : State := vs (0x4008) sV
def arg34 : Reg := .g 2
def arg35 : Reg := .g 10
def arg36 : State := sA.modCtx 0 fun c => {c with lvl := .f, regs := [(3, 0xFFFFFFFFF80F0FFF)]}
def arg37 : Reg := .g 3
def arg38 : State := sA.modCtx 0 fun c => {c with trapf := 0x1FFFF, skip := 2, seg := 0x123}
def arg39 : Reg := .g 10
def arg40 : State := sA.modCtx 0 fun c => {c with lvl := .u}
def arg41 : State := sA.modCtx 0 fun c => {c with trapf := 0x30, skip := 1}
def arg42 : State := sA.modCtx 0 fun c => {c with empt := [(1, .fill)]}

theorem meets_TlbAndWatchpoints :
    -- clauses 1.0.0, 1.2
    w7.leads ∧ w7.issues [arg0, arg1] [] ∧
    ((w7.ctx w7.me).lvl = Level.u → ∀ (e : Watch), (w7.cluster (w7.clusterOf (w7.ctx w7.me).core)).wps.look
      (BitVec.extractLsb' 0 2 (w7.src arg1)).toNat = some e → e.stopAct = false ∧ e.asid = (w7.ctx w7.me).asid.toNat) ∧
    ((w7.ctx w7.me).lvl = Level.u → BitVec.getLsbD (w7.src arg1) 8 = false) ∧
    w7.reaches (w7.src arg0) 8 Kind.read false arg2 arg3 arg4 ∧
    w7.watchCluster arg2 = some (w7.clusterOf (w7.ctx w7.me).core) ∧
    w7.violation ({ fn := (w7.ctx w7.me).fn, part := (w7.ctx w7.me).part, lvl := (w7.ctx w7.me).lvl } : Accessor) arg2 8 = 0 ∧
    BitVec.extractLsb' 2 3 (w7.src arg1) ≠ (0 : BitVec 3) ∧ w7.issues [arg0] [] ∧
    ((w7.ctx w7.me).lvl = Level.u → ∀ (e : Watch), (w7.cluster (w7.clusterOf (w7.ctx w7.me).core)).wps.look
      (BitVec.extractLsb' 0 2 (w7.src arg0)).toNat = some e → e.stopAct = false ∧ e.asid = (w7.ctx w7.me).asid.toNat) ∧
    -- clause 0
    sA.leads ∧ sA.issues [arg5, arg6] [] ∧
    -- clause 1.0.1
    w0.leads ∧ w0.issues [arg7, arg8] [] ∧
    ((w0.ctx w0.me).lvl = Level.u → ∀ (e : Watch), (w0.cluster (w0.clusterOf (w0.ctx w0.me).core)).wps.look
      (BitVec.extractLsb' 0 2 (w0.src arg8)).toNat = some e → e.stopAct = false ∧ e.asid = (w0.ctx w0.me).asid.toNat) ∧
    ((w0.ctx w0.me).lvl = Level.u → BitVec.getLsbD (w0.src arg8) 8 = false) ∧
    w0.reaches (w0.src arg7) 8 Kind.read false arg9 arg10 arg11 ∧
    w0.watchCluster arg9 = some (w0.clusterOf (w0.ctx w0.me).core) ∧
    w0.violation ({ fn := (w0.ctx w0.me).fn, part := (w0.ctx w0.me).part, lvl := (w0.ctx w0.me).lvl } : Accessor) arg9 8 = 0 ∧
    BitVec.extractLsb' 2 3 (w0.src arg8) = (0 : BitVec 3) ∧
    -- clause 1.1
    wU.leads ∧ wU.issues [arg12, arg13] [] ∧ (wU.ctx wU.me).lvl = Level.u ∧
    (BitVec.getLsbD (wU.src arg13) 8 = true ∨ ¬((wU.ctx wU.me).lvl = Level.u → ∀ (e : Watch), (wU.cluster (wU.clusterOf
      (wU.ctx wU.me).core)).wps.look (BitVec.extractLsb' 0 2 (wU.src arg13)).toNat = some e → e.stopAct = false ∧ e.asid =
      (wU.ctx wU.me).asid.toNat)) := by
  constructorm* _ ∧ _ <;> (
    first
      | decide +kernel
      | exact reaches_of (by decide +kernel)
      | (unfold State.issues; decide +kernel)
      | (unfold State.leads; decide +kernel))

theorem meets_ActingOnAnotherThread :
    -- clauses 0.0, 0.1, 0.2, 2
    arg14.leads ∧ (arg14.ctx arg14.me).lvl ≠ Level.u ∧
    arg14.partOf (BitVec.extractLsb' 4 12 (arg14.src arg15)).toNat = some (arg14.ctx arg14.me).part ∧
    arg14.advance.named (BitVec.extractLsb' 4 12 (arg14.src arg15)).toNat (BitVec.extractLsb' 0 4 (arg14.src arg15)).toNat =
      some 5 ∧ 5 ≠ arg14.me ∧ arg14.issues [arg15] [arg16] ∧ (arg14.ctx 5).held = true ∧ arg14.issues [arg17, arg15] [] ∧
    (arg14.ctx 5).ctlWrite Level.s CtlReg.tvec (arg14.src arg17) = CtlWrite.done arg18 ∧ arg14.issues [arg17, arg15] [arg16] ∧
    ((arg14.ctx 5).park = Park.sys ∨ (arg14.ctx 5).park = Park.halted) ∧ arg14.src arg17 ≠ (0 : Word) ∧
    (∀ (u : ℕ), arg14.advance.named (BitVec.extractLsb' 4 12 (arg14.src arg15)).toNat (BitVec.extractLsb' 0 4 (arg14.src
      arg15)).toNat = some u → (arg14.ctx u).frozen = false) := by
  constructorm* _ ∧ _ <;> (
    first
      | decide +kernel
      | (unfold State.issues; decide +kernel)
      | (unfold State.leads; decide +kernel))

theorem meets_ActingOnAnotherThread_2 :
    -- clauses 0.4, 1.0, 1.1, 1.2
    arg19.leads ∧ (arg19.ctx arg19.me).lvl ≠ Level.u ∧
    arg19.partOf (BitVec.extractLsb' 4 12 (arg19.src arg20)).toNat = some (arg19.ctx arg19.me).part ∧
    arg19.advance.named (BitVec.extractLsb' 4 12 (arg19.src arg20)).toNat (BitVec.extractLsb' 0 4 (arg19.src arg20)).toNat =
      some 5 ∧ 5 ≠ arg19.me ∧ arg19.issues [arg21, arg20] [arg22] ∧ arg19.src arg21 ≠ (0 : Word) ∧
    (arg19.ctx 5).frozen = true ∧ (arg19.ctx 5).stepLeft = none ∧
    (∀ (u : ℕ), arg19.advance.named (BitVec.extractLsb' 4 12 (arg19.src arg20)).toNat (BitVec.extractLsb' 0 4 (arg19.src
      arg20)).toNat = some u → (arg19.advance.ctx u).held = false) ∧ arg19.issues [arg20] [arg22] ∧
    arg19.issues [arg21, arg20] [] ∧
    -- clause 0.3
    arg23.leads ∧ (arg23.ctx arg23.me).lvl ≠ Level.u ∧
    arg23.partOf (BitVec.extractLsb' 4 12 (arg23.src arg24)).toNat = some (arg23.ctx arg23.me).part ∧
    arg23.advance.named (BitVec.extractLsb' 4 12 (arg23.src arg24)).toNat (BitVec.extractLsb' 0 4 (arg23.src arg24)).toNat =
      some 5 ∧ 5 ≠ arg23.me ∧ arg23.issues [arg25, arg24] [arg26] ∧ (arg23.ctx 5).park = Park.trapped ∧
    BitVec.toNat (arg23.src arg25) % 4 = 0 := by
  constructorm* _ ∧ _ <;> (
    first
      | decide +kernel
      | (unfold State.issues; decide +kernel)
      | (unfold State.leads; decide +kernel))

theorem meets_ActingOnAnotherThread_3 :
    -- clause 3
    arg27.leads ∧ (arg27.ctx arg27.me).lvl ≠ Level.u ∧
    arg27.partOf (BitVec.extractLsb' 4 12 (arg27.src arg28)).toNat = some (arg27.ctx arg27.me).part ∧
    arg27.issues [arg29, arg28] [arg30] ∧ arg27.src arg29 = (0 : Word) := by
  constructorm* _ ∧ _ <;> (
    first
      | decide +kernel
      | (unfold State.issues; decide +kernel)
      | (unfold State.leads; decide +kernel))

theorem meets_EngineInstructions :
    -- clauses 0.0, 0.1, 0.2, 0.4, 0.5, 0.6, 0.7, 0.8, 0.9, 0.10, 0.11, 0.12, 0.13, 0.14, 0.15, 0.16, 0.17, 0.18, 0.19, 0.20, 0.21, 0.24, 0.25
    arg31.leads ∧ (arg31.ctx arg31.me).claim = some (Claim.bound 1) ∧ arg31.issues [] none.toList ∧
    engineOk (Instr.vadd Rm.rne (1 : BitVec 4) (2 : BitVec 4) (3 : BitVec 4)) arg31.opCtx.vshape (0 : Word) = true ∧
    engineOk (Instr.vsub Rm.rne (1 : BitVec 4) (2 : BitVec 4) (3 : BitVec 4)) arg31.opCtx.vshape (0 : Word) = true ∧
    engineOk (Instr.vmul Rm.rne (1 : BitVec 4) (2 : BitVec 4) (3 : BitVec 4)) arg31.opCtx.vshape (0 : Word) = true ∧
    engineOk (Instr.vmin (1 : BitVec 4) (2 : BitVec 4) (3 : BitVec 4)) arg31.opCtx.vshape (0 : Word) = true ∧
    engineOk (Instr.vmax (1 : BitVec 4) (2 : BitVec 4) (3 : BitVec 4)) arg31.opCtx.vshape (0 : Word) = true ∧
    engineOk (Instr.vabs (1 : BitVec 4) (2 : BitVec 4)) arg31.opCtx.vshape (0 : Word) = true ∧
    engineOk (Instr.vneg (1 : BitVec 4) (2 : BitVec 4)) arg31.opCtx.vshape (0 : Word) = true ∧
    engineOk (Instr.vand (1 : BitVec 4) (2 : BitVec 4) (3 : BitVec 4)) arg31.opCtx.vshape (0 : Word) = true ∧
    engineOk (Instr.vor (1 : BitVec 4) (2 : BitVec 4) (3 : BitVec 4)) arg31.opCtx.vshape (0 : Word) = true ∧
    engineOk (Instr.vxor (1 : BitVec 4) (2 : BitVec 4) (3 : BitVec 4)) arg31.opCtx.vshape (0 : Word) = true ∧
    arg31.issues [Reg.g (0 : BitVec 6)] none.toList ∧
    engineOk (Instr.vshl (1 : BitVec 4) (2 : BitVec 4) (0 : BitVec 6)) arg31.opCtx.vshape (arg31.src (Reg.g (0 : BitVec 6))) =
      true ∧
    engineOk (Instr.vshr (1 : BitVec 4) (2 : BitVec 4) (0 : BitVec 6)) arg31.opCtx.vshape (arg31.src (Reg.g (0 : BitVec 6))) =
      true ∧
    engineOk (Instr.vcvt Rm.rne (1 : BitVec 4) (2 : BitVec 4) (0 : BitVec 6)) arg31.opCtx.vshape (arg31.src (Reg.g (0 : BitVec
      6))) = true ∧
    engineOk (Instr.vcmp (1 : BitVec 4) (2 : BitVec 4) (3 : BitVec 4) (0 : BitVec 6)) arg31.opCtx.vshape (arg31.src (Reg.g (0
      : BitVec 6))) = true ∧
    engineOk (Instr.vsel (1 : BitVec 4) (2 : BitVec 4) (3 : BitVec 4)) arg31.opCtx.vshape (0 : Word) = true ∧
    engineOk (Instr.vbcast (1 : BitVec 4) (0 : BitVec 6)) arg31.opCtx.vshape (arg31.src (Reg.g (0 : BitVec 6))) = true ∧
    engineOk (Instr.vld (1 : BitVec 4) (0 : BitVec 6)) arg31.opCtx.vshape (arg31.src (Reg.g (0 : BitVec 6))) = true ∧
    engineOk (Instr.vst (2 : BitVec 4) (0 : BitVec 6)) arg31.opCtx.vshape (arg31.src (Reg.g (0 : BitVec 6))) = true ∧
    engineOk (Instr.vsum Rm.rne (1 : BitVec 4) (2 : BitVec 4)) arg31.opCtx.vshape (0 : Word) = true ∧
    engineOk (Instr.vrmax (1 : BitVec 4) (2 : BitVec 4)) arg31.opCtx.vshape (0 : Word) = true ∧
    engineOk (Instr.vshuf (1 : BitVec 4) (2 : BitVec 4) (3 : BitVec 4)) arg31.opCtx.vshape (0 : Word) = true ∧
    engineOk (Instr.viota (1 : BitVec 4) (0 : BitVec 6)) arg31.opCtx.vshape (arg31.src (Reg.g (0 : BitVec 6))) = true ∧
    engineOk (Instr.vmov (1 : BitVec 4) (2 : BitVec 4)) arg31.opCtx.vshape (0 : Word) = true := by
  constructorm* _ ∧ _ <;> (
    first
      | decide +kernel
      | (unfold State.issues; decide +kernel)
      | (unfold State.leads; decide +kernel))

theorem meets_EngineInstructions_2 :
    -- clauses 1.0, 1.1, 1.2, 1.3, 1.4, 1.5, 1.7
    arg32.leads ∧ (arg32.ctx arg32.me).claim = some (Claim.bound 1) ∧ arg32.issues [] none.toList ∧
    engineOk (Instr.phCvt Cvk.fp (1 : BitVec 4) (2 : BitVec 4)) arg32.opCtx.vshape (0 : Word) = true ∧
    engineOk (Instr.phMul (1 : BitVec 4) (2 : BitVec 4) (3 : BitVec 4)) arg32.opCtx.vshape (0 : Word) = true ∧
    arg32.issues [Reg.g (2 : BitVec 6)] none.toList ∧
    engineOk (Instr.phRed (1 : BitVec 4) (2 : BitVec 4) (2 : BitVec 6)) arg32.opCtx.vshape (arg32.src (Reg.g (2 : BitVec 6)))
      = true ∧ engineOk (Instr.phCmp (1 : BitVec 4) (2 : BitVec 4) (3 : BitVec 4)) arg32.opCtx.vshape (0 : Word) = true ∧
    engineOk (Instr.phCos (1 : BitVec 4) (2 : BitVec 4)) arg32.opCtx.vshape (0 : Word) = true ∧
    engineOk (Instr.phSin (1 : BitVec 4) (2 : BitVec 4)) arg32.opCtx.vshape (0 : Word) = true ∧
    engineOk (Instr.qclip (1 : BitVec 4) (2 : BitVec 4) (2 : BitVec 6)) arg32.opCtx.vshape (arg32.src (Reg.g (2 : BitVec 6)))
      = true ∧
    -- clauses 0.3, 0.22, 0.23
    arg33.leads ∧ (arg33.ctx arg33.me).claim = some (Claim.bound 1) ∧ arg33.issues [] none.toList ∧
    engineOk (Instr.vfma Rm.rtz (1 : BitVec 4) (2 : BitVec 4) (3 : BitVec 4)) arg33.opCtx.vshape (0 : Word) = true ∧
    engineOk (Instr.vpack Rm.rtz (1 : BitVec 4) (2 : BitVec 4) (3 : BitVec 4)) arg33.opCtx.vshape (0 : Word) = true ∧
    arg33.issues [Reg.g (0 : BitVec 6)] none.toList ∧
    engineOk (Instr.vunpack (1 : BitVec 4) (2 : BitVec 4) (0 : BitVec 6)) arg33.opCtx.vshape (arg33.src (Reg.g (0 : BitVec
      6))) = true ∧
    -- clauses 1.6, 1.8, 1.9
    sV.leads ∧ (sV.ctx sV.me).claim = some (Claim.bound 1) ∧ sV.issues [Reg.g (2 : BitVec 6)] none.toList ∧
    engineOk (Instr.qhist (1 : BitVec 4) (2 : BitVec 4) (2 : BitVec 6)) sV.opCtx.vshape (sV.src (Reg.g (2 : BitVec 6))) = true
      ∧
    engineOk (Instr.qnt Rm.rne (1 : BitVec 4) (2 : BitVec 4) (3 : BitVec 4) (2 : BitVec 6)) sV.opCtx.vshape (sV.src (Reg.g (2
      : BitVec 6))) = true ∧
    engineOk (Instr.dq (1 : BitVec 4) (2 : BitVec 4) (2 : BitVec 6)) sV.opCtx.vshape (sV.src (Reg.g (2 : BitVec 6))) = true :=
      by
  constructorm* _ ∧ _ <;> (
    first
      | decide +kernel
      | (unfold State.issues; decide +kernel)
      | (unfold State.leads; decide +kernel))

theorem meets_SpecialFunctions :
    -- clause 0
    sA.leads ∧ sA.issues [arg34] [arg35] ∧
    -- clause 1.0
    IFmt.f32.nanCode (BitVec.toNat (2143289345 : BitVec 32)) = true ∧
    -- clause 1.1
    IFmt.f32.finite (BitVec.toNat (3221225472 : BitVec 32)) = true ∧ BitVec.toNat (3221225472 : BitVec 32) % 2 ^ 31 ≠ 0 ∧
    BitVec.getLsbD (3221225472 : BitVec 32) 31 = true ∧
    -- clause 1.9
    126 ≤ 126 ∧
    -- clause 1.10
    63 ≤ 63 ∧
    -- clause 1.11
    6 ≤ 6 := by
  constructorm* _ ∧ _ <;> (
    first
      | decide +kernel
      | (unfold State.issues; decide +kernel)
      | (unfold State.leads; decide +kernel))

theorem meets_ControlRegisters :
    -- clauses 1.0, 1.1, 1.2, 1.3, 1.4, 1.5, 1.6, 1.7, 1.8, 1.9, 1.10, 1.11, 1.12, 1.13, 1.14, 1.15
    arg36.leads ∧ arg36.issues [arg37] [] ∧ (arg36.ctx arg36.me).lvl ≠ Level.u ∧
    (BitVec.extractLsb' 8 6 (arg36.src arg37)).toNat + (BitVec.extractLsb' 20 7 (arg36.src arg37)).toNat ≤ 64 ∧
    (arg36.ctx arg36.me).lvl = Level.f ∧
    -- clause 0
    arg38.issues [] [arg39] := by
  constructorm* _ ∧ _ <;> (
    first
      | decide +kernel
      | (unfold State.issues; decide +kernel)
      | (unfold State.leads; decide +kernel))

theorem meets_SystemInstructions :
    -- clauses 0.0, 0.1
    (arg40.ctx arg40.me).lvl = Level.u ∧ (arg40.ctx arg40.me).lvl ≠ Level.f ∧
    -- clauses 2.0, 2.2
    sA.leads ∧ sA.issues [Reg.g (1 : BitVec 6), Reg.g (2 : BitVec 6), Reg.g (3 : BitVec 6), Reg.g (4 : BitVec 6)] [] ∧
    -- clause 1.1
    (sA.ctx sA.me).intrap = false ∧
    -- clause 1.0
    arg41.leads ∧ (arg41.ctx arg41.me).intrap = true ∧
    -- clause 2.1
    arg42.leads ∧ 0 < 4 ∧ (∀ j < 0, arg42.srcEmpty (Reg.g (BitVec.ofNat 6 (j + 1))) = none) ∧
    arg42.srcEmpty (Reg.g (BitVec.ofNat 6 (0 + 1))) = some EmptyWhy.fill := by
  constructorm* _ ∧ _ <;> (
    first
      | decide +kernel
      | (unfold State.issues; decide +kernel)
      | (unfold State.leads; decide +kernel))

end System

namespace Pipelines

def sA := at_ base (.add (.g 3) (.g 1) (.g 2))
def dOf (va : Word) : Option Nat := match sA.translate 0 va .read with
  | .ok _ d => d
  | _ => none
def pipe0 : Pipe := ⟨1, 0, 0, 0, 0, 2, 1, [4, 5], sram 0x1000, 3, sram 0x1000, 0x11000, 3, 0, .bound, 0, [], false, 1⟩
def inst0 : Inst := ⟨.live, ⟨0,0,0,0,0,1,1,1,false,0,0⟩, 1, none, 0, 0, 0, false, sram 0x1000, 3, sram 0x2000, 0, 0, 0, none, 0, false⟩
def withPipe (x : Pipe) (s : State) : State := s.modPart 0 fun p => {p with pipes := [(0, x)], insts := [(5, inst0)]}
def sP : State := (withPipe pipe0 sA).modCtx 0 fun c => {c with regs := [(1, 0x100), (2, 1)]}
def d0 : Deadline := ⟨true, true, true, 0, 4, 1000, [], none, none, true⟩
def sD : State := (sA.modPart 0 fun p => {p with dls := [(1, d0)], reports := [(0, ⟨true, 3, 2, 77⟩)]}).modCtx 0 fun c => {c with regs := [(1, 0x8000000000000001), (2, 1)]}
def mg (op : HomeOp) (pa : Nat) (loc : Loc) : Msg := {sA.request 0 op 0x10000 pa none with id := 7, loc := loc}
def put (m : Msg) (s : State) : State := {s with flights := s.flights ++ [m], nextMsg := 20}
def gm := mg (.load 8) (5*2^48 + 3*2^32 + 2^27*5) (.grid 1 0)
def sG := put gm sA
def gm2 : Msg := {gm with loc := .grid 5 3}
def gmx : Msg := {gm2 with held := [⟨5, 3, 3, false⟩], track := [⟨5, 3, 3, false⟩], entered := gm2.len + 1}
def sX (m : Msg) : State := put m sA
def gmy : Msg := {gmx with held := [⟨5, 3, 3, false⟩, ⟨5, 3, 3, false⟩]}
def loc0 : State := put {gm with id := 8, loc := .home, held := List.replicate 9 ⟨1, 0, 4, false⟩} sG
def gh : Msg := {gm with held := [⟨1, 0, 4, false⟩], track := [⟨1, 0, 4, false⟩], entered := 1}
def full (m : Msg) : State := {put {gm with id := 8, loc := .home, held := List.replicate 9 ⟨2, 0, 3, false⟩ ++ List.replicate 9 ⟨1, 1, 2, false⟩} (sX m) with wall := 5000}
def gb : Msg := {gm with held := [⟨1, 0, 3, false⟩, ⟨0, 0, 4, false⟩], track := [⟨1, 0, 3, false⟩, ⟨0, 0, 4, false⟩], entered := gm.len + 1}
def gw : Msg := {gb with held := [⟨1, 0, 3, false⟩], entered := gm.len + 1}
def sw : Msg := {mg (.amo .add 8 3 0) (sram 64) (.switch 0 1 2) with id := 8}
def sw2 : Msg := {mg (.amo .add 8 5 0) (sram 64) (.switch 0 1 2) with id := 7}
def sCb := put sw (put sw2 sA)
def swS : Msg := {mg (.store 8 5) (sram 64) (.switch 0 1 2) with id := 6}
def swm : Msg := {sw with loc := .merged, path := Way.switch 0 1 2 :: sw.path}
def swx : Msg := {sw2 with op := .amo .add 8 8 0, loc := .back (.value 100), ret := some (.switch 0 1 2), path := [.switch 0 1 2, .switch 0 0 9]}
def post (a b : Word) (s : State) : State := s.modCtx 0 fun c => {c with regs := [(1, a), (2, b)]}
def arg0 : Reg := .g 1
def arg1 : Reg := .g 10
def arg2 : Reg := .g 2
def arg3 : State := sA.modPart 0 fun p => {p with audlog := 10, audLen := 2^20, audAt := 3*2^48 + 2^20, audN := 5}
def arg4 : Reg := .g 1
def arg5 : Reg := .g 0
def arg6 : Reg := .g 10
def arg7 : ℕ := 3*2^48
def arg8 : Target := .sram 0 0
def arg9 : Option ℕ := dOf 0x10000
def arg10 : Reg := .g 1
def arg11 : Reg := .g 2
def arg12 : Reg := .g 10
def arg13 : State := post (word (2 * 2^16 + 3 * 2^32)) 1000 (sA.modPart 0 fun p => {p with dls := [(0, {d0 with base := 9, len := 1})]})
def arg14 : Reg := .g 1
def arg15 : Reg := .g 2
def arg16 : Reg := .g 10
def arg17 : Reg := .g 1
def arg18 : Reg := .g 10
def arg19 : State := sD.modPart 0 fun p => {p with audlog := 10, dls := []}
def arg20 : Reg := .g 1
def arg21 : Reg := .g 0
def arg22 : Reg := .g 10
def arg23 : State := post (word (2 * 2^16 + 3 * 2^32)) 1000 (sA.modPart 0 fun p => {p with dls := [(1, {d0 with base := 4, len := 1})]})
def arg24 : Reg := .g 1
def arg25 : Reg := .g 2
def arg26 : Reg := .g 10
def arg27 : Msg := {gm with esc := true}
def arg28 : BitVec 96 := sG.header gm + 1
def arg29 : BitVec 96 := crc16 (BitVec.ofNat 80 (7 * 2^35)) ++ BitVec.ofNat 80 (7 * 2^35)
def arg30 : Msg := ((sX gmx).leaveGrid gmx (5, 3)).getD gmx
def arg31 : Msg := ((sX gmy).leaveGrid gmy (5, 3)).getD gmy
def arg32 : Flit := ⟨5, 3, 3, false⟩
def arg33 : Flit := ⟨1, 0, 4, false⟩
def arg34 : Flit := ⟨1, 0, 3, false⟩
def arg35 : Flit := ⟨0, 0, 4, false⟩
def arg36 : State := put sw (put swS sA)
def arg37 : State := {put swm (put swx sA) with waitBufs := [⟨0,1,2,7,8,5⟩]}

theorem meets_PipelinesDeadlinesAndDigests :
    -- clauses 0.0, 0.1, 0.3, 0.4
    sP.leads ∧ sP.issues [arg0] [arg1] ∧ sP.issues [arg0, arg2] [arg1] ∧ sP.pipeOf (sP.src arg0) = some (0, pipe0) ∧
    pipe0.st = PipeState.bound ∧
    sP.drained ({ pipe0 with st := PipeState.draining (word (sP.ringPub pipe0.ownRing)) } : Pipe) = false ∧
    -- clauses 1.0, 1.2.0, 1.3, 1.5
    arg3.leads ∧ arg3.issues [arg4, arg5] [arg6] ∧ (arg3.ctx arg3.me).lvl ≠ Level.u ∧ bit (arg3.src arg4) 63 = false ∧
    ¬(1 ≤ (BitVec.extractLsb' 32 13 (arg3.src arg4)).toNat ∧ (BitVec.extractLsb' 32 13 (arg3.src arg4)).toNat ≤ 4096 ∧
      (arg3.partition (arg3.ctx arg3.me).part).base ≤ (BitVec.extractLsb' 16 12 (arg3.src arg4)).toNat ∧ (BitVec.extractLsb'
      16 12 (arg3.src arg4)).toNat + (BitVec.extractLsb' 32 13 (arg3.src arg4)).toNat ≤ (arg3.partition (arg3.ctx
      arg3.me).part).base + (arg3.partition (arg3.ctx arg3.me).part).len) ∧ arg3.issues [arg4] [] ∧
    arg3.reaches (arg3.src arg4 &&& ~~~BitVec.ofNat 64 63) 64 Kind.read false arg7 arg8 arg9 ∧ arg3.issues [] [arg6] ∧
    (arg3.partition (arg3.ctx arg3.me).part).audN < (arg3.partition (arg3.ctx arg3.me).part).audEntries ∧
    -- clauses 1.1.0, 1.4
    sD.leads ∧ sD.issues [arg10, arg11] [arg12] ∧ (sD.ctx sD.me).lvl ≠ Level.u ∧ bit (sD.src arg10) 63 = true ∧
    (sD.deadlineOf (sD.ctx sD.me).part (BitVec.extractLsb' 0 2 (sD.src arg10)).toNat).v = true ∧ (sD.deadlineOf (sD.ctx
      sD.me).part (BitVec.extractLsb' 0 2 (sD.src arg10)).toNat).vacant = true ∧ (sD.deadlineOf (sD.ctx sD.me).part
      (BitVec.extractLsb' 0 2 (sD.src arg10)).toNat).origin = true ∧ sD.issues [] [arg12] ∧
    (sD.partition (sD.ctx sD.me).part).audEntries ≤ (sD.partition (sD.ctx sD.me).part).audN := by
  constructorm* _ ∧ _ <;> (
    first
      | decide +kernel
      | exact reaches_of (by decide +kernel)
      | (unfold State.issues; decide +kernel)
      | (unfold State.leads; decide +kernel))

theorem meets_PipelinesDeadlinesAndDigests_2 :
    -- clauses 1.2.2, 1.2.3
    arg13.leads ∧ arg13.issues [arg14, arg15] [arg16] ∧ (arg13.ctx arg13.me).lvl ≠ Level.u ∧
    bit (arg13.src arg14) 63 = false ∧
    1 ≤ (BitVec.extractLsb' 32 13 (arg13.src arg14)).toNat ∧ (BitVec.extractLsb' 32 13 (arg13.src arg14)).toNat ≤ 4096 ∧
      (arg13.partition (arg13.ctx arg13.me).part).base ≤ (BitVec.extractLsb' 16 12 (arg13.src arg14)).toNat ∧
      (BitVec.extractLsb' 16 12 (arg13.src arg14)).toNat + (BitVec.extractLsb' 32 13 (arg13.src arg14)).toNat ≤
      (arg13.partition (arg13.ctx arg13.me).part).base + (arg13.partition (arg13.ctx arg13.me).part).len ∧
    (¬∃ e < 4, (arg13.deadlineOf (arg13.ctx arg13.me).part e).v = true ∧ (arg13.deadlineOf (arg13.ctx arg13.me).part e).base <
      (BitVec.extractLsb' 16 12 (arg13.src arg14)).toNat + (BitVec.extractLsb' 32 13 (arg13.src arg14)).toNat ∧
      (BitVec.extractLsb' 16 12 (arg13.src arg14)).toNat < (arg13.deadlineOf (arg13.ctx arg13.me).part e).base +
      (arg13.deadlineOf (arg13.ctx arg13.me).part e).len) ∧
    (1 < 4 ∧ (arg13.deadlineOf (arg13.ctx arg13.me).part 1).v = false ∧ ∀ e < 1, (arg13.deadlineOf (arg13.ctx arg13.me).part
      e).v = true) ∧
    arg13.unitsOf (arg13.ctx arg13.me).part (BitVec.extractLsb' 16 12 (arg13.src arg14)).toNat (BitVec.extractLsb' 32 13
      (arg13.src arg14)).toNat = [] ∧ arg13.wall + 32 < BitVec.toNat (arg13.src arg15) ∧
    -- clause 0.2
    sA.leads ∧ sA.issues [arg17] [arg18] ∧ sA.pipeOf (sA.src arg17) = none ∧
    -- clause 1.1.1
    arg19.leads ∧ arg19.issues [arg20, arg21] [arg22] ∧ (arg19.ctx arg19.me).lvl ≠ Level.u ∧ bit (arg19.src arg20) 63 = true ∧
    ¬((arg19.deadlineOf (arg19.ctx arg19.me).part (BitVec.extractLsb' 0 2 (arg19.src arg20)).toNat).v = true ∧
      (arg19.deadlineOf (arg19.ctx arg19.me).part (BitVec.extractLsb' 0 2 (arg19.src arg20)).toNat).vacant = true ∧
      (arg19.deadlineOf (arg19.ctx arg19.me).part (BitVec.extractLsb' 0 2 (arg19.src arg20)).toNat).origin = true) ∧
    -- clause 1.2.1
    arg23.leads ∧ arg23.issues [arg24, arg25] [arg26] ∧ (arg23.ctx arg23.me).lvl ≠ Level.u ∧
    bit (arg23.src arg24) 63 = false ∧
    1 ≤ (BitVec.extractLsb' 32 13 (arg23.src arg24)).toNat ∧ (BitVec.extractLsb' 32 13 (arg23.src arg24)).toNat ≤ 4096 ∧
      (arg23.partition (arg23.ctx arg23.me).part).base ≤ (BitVec.extractLsb' 16 12 (arg23.src arg24)).toNat ∧
      (BitVec.extractLsb' 16 12 (arg23.src arg24)).toNat + (BitVec.extractLsb' 32 13 (arg23.src arg24)).toNat ≤
      (arg23.partition (arg23.ctx arg23.me).part).base + (arg23.partition (arg23.ctx arg23.me).part).len ∧
    ((∃ e < 4, (arg23.deadlineOf (arg23.ctx arg23.me).part e).v = true ∧ (arg23.deadlineOf (arg23.ctx arg23.me).part e).base <
      (BitVec.extractLsb' 16 12 (arg23.src arg24)).toNat + (BitVec.extractLsb' 32 13 (arg23.src arg24)).toNat ∧
      (BitVec.extractLsb' 16 12 (arg23.src arg24)).toNat < (arg23.deadlineOf (arg23.ctx arg23.me).part e).base +
      (arg23.deadlineOf (arg23.ctx arg23.me).part e).len) ∨ ∀ e < 4, (arg23.deadlineOf (arg23.ctx arg23.me).part e).v = true)
      := by
  constructorm* _ ∧ _ <;> (
    first
      | decide +kernel
      | (unfold State.issues; decide +kernel)
      | (unfold State.leads; decide +kernel)
      | exact ⟨_, .inl rfl⟩)

theorem meets_RoutersAndHops :
    -- clauses 1.0, 1.1
    sG.hop arg27 (1, 5) (5, 3) = some ((2, 5), 3) ∧ arg27.esc = true ∧ 1 ≠ 5 ∧
    -- clause 0.0
    sG.msg 7 = some gm ∧ gm.router = some (1, 0) ∧ ¬crc16 (BitVec.setWidth 80 arg28) = BitVec.extractLsb' 80 16 arg28 ∧
    -- clause 0.1
    crc16 (BitVec.setWidth 80 arg29) = BitVec.extractLsb' 80 16 arg29 ∧ ¬(BitVec.extractLsb' 35 3 arg29).toNat ≤ 4 ∧
    -- clause 0.2.0
    (sX gmx).msg 7 = some gmx ∧ gmx.router = some (5, 3) ∧
    crc16 (BitVec.setWidth 80 (sG.header gm2)) = BitVec.extractLsb' 80 16 (sG.header gm2) ∧
    (BitVec.extractLsb' 35 3 (sG.header gm2)).toNat ≤ 4 ∧ (sX gmx).leaveGrid gmx (5, 3) = some arg30 ∧ gmx.len < gmx.entered ∧
    gmx.held.length ≤ 1 := by
  constructorm* _ ∧ _ <;> decide +kernel

theorem meets_RoutersAndHops_2 :
    -- clause 0.2.1
    (sX gmy).msg 7 = some gmy ∧ gmy.router = some (5, 3) ∧
    crc16 (BitVec.setWidth 80 (sG.header gm2)) = BitVec.extractLsb' 80 16 (sG.header gm2) ∧
    (BitVec.extractLsb' 35 3 (sG.header gm2)).toNat ≤ 4 ∧ (sX gmy).leaveGrid gmy (5, 3) = some arg31 ∧
    gmy.held = [arg32, arg32] ∧ arg32.x = 5 ∧ arg32.y = 3 ∧
    -- clause 0.2.2.0.1
    sG.msg 7 = some gm ∧ gm.router = some (1, 0) ∧
    crc16 (BitVec.setWidth 80 (sG.header gm)) = BitVec.extractLsb' 80 16 (sG.header gm) ∧
    (BitVec.extractLsb' 35 3 (sG.header gm)).toNat ≤ 4 ∧ sG.leaveGrid gm (1, 0) = none ∧ gm.held = [] ∧ gm.track = [] ∧
    gm.entered = 0 ∧ gm.esc = false ∧ 0 < sG.freeBufs (1, 0) 4 gm.part gm.cls := by
  constructorm* _ ∧ _ <;> decide +kernel

theorem meets_RoutersAndHops_3 :
    -- clause 0.2.2.0.0
    loc0.msg 7 = some gm ∧ gm.router = some (1, 0) ∧
    crc16 (BitVec.setWidth 80 (sG.header gm)) = BitVec.extractLsb' 80 16 (sG.header gm) ∧
    (BitVec.extractLsb' 35 3 (sG.header gm)).toNat ≤ 4 ∧ loc0.leaveGrid gm (1, 0) = none ∧ gm.held = [] ∧ gm.track = [] ∧
    gm.entered = 0 ∧ gm.esc = false ∧ loc0.freeBufs (1, 0) 4 gm.part gm.cls = 0 ∧
    -- clause 0.2.2.1
    (sX gh).msg 7 = some gh ∧ gh.router = some (1, 0) ∧
    crc16 (BitVec.setWidth 80 (sG.header gh)) = BitVec.extractLsb' 80 16 (sG.header gh) ∧
    (BitVec.extractLsb' 35 3 (sG.header gh)).toNat ≤ 4 ∧ (sX gh).leaveGrid gh (1, 0) = none ∧ gh.held = [arg33] ∧
    (sX gh).hop gh (1, 0) ((sX gh).goal gh (1, 0)) = some ((2, 0), 3) ∧
    (∀ o ∈ (sX gh).flights, ∀ f ∈ (sX gh).readyFlits o, (f.2.x, f.2.y, f.2.port) =
      (({ x := 2, y := 0, port := 3, esc := gh.esc } : Flit).x, ({ x := 2, y := 0, port := 3, esc := gh.esc } : Flit).y,
      ({ x := 2, y := 0, port := 3, esc := gh.esc } : Flit).port) → (gh.part + 31 - ((sX gh).served.look (linkNo
      (({ x := 2, y := 0, port := 3, esc := gh.esc } : Flit).x, ({ x := 2, y := 0, port := 3, esc := gh.esc } : Flit).y)
      ({ x := 2, y := 0, port := 3, esc := gh.esc } : Flit).port)).getD 15) % 16 ≤ (o.part + 31 - ((sX gh).served.look (linkNo
      (({ x := 2, y := 0, port := 3, esc := gh.esc } : Flit).x, ({ x := 2, y := 0, port := 3, esc := gh.esc } : Flit).y)
      ({ x := 2, y := 0, port := 3, esc := gh.esc } : Flit).port)).getD 15) % 16) := by
  constructorm* _ ∧ _ <;> decide +kernel

theorem meets_RoutersAndHops_4 :
    -- clause 0.2.2.2
    (full gb).msg 7 = some gb ∧ gb.router = some (1, 0) ∧
    crc16 (BitVec.setWidth 80 (sG.header gb)) = BitVec.extractLsb' 80 16 (sG.header gb) ∧
    (BitVec.extractLsb' 35 3 (sG.header gb)).toNat ≤ 4 ∧ (full gb).leaveGrid gb (1, 0) = none ∧ gb.held = [arg34, arg35] ∧
    gb.track = [arg34, arg35] ∧ arg34 ≠ arg35 ∧ arg34.esc = false ∧
    0 < (full gb).freeBufs (arg34.x, arg34.y) arg34.port gb.part gb.cls ∧
    (full gb).hop gb (1, 0) ((full gb).goal gb (1, 0)) = none ∧
    (∀ o ∈ (full gb).flights, ∀ f ∈ (full gb).readyFlits o, (f.2.x, f.2.y, f.2.port) = (arg34.x, arg34.y, arg34.port) →
      (gb.part + 31 - ((full gb).served.look (linkNo (arg34.x, arg34.y) arg34.port)).getD 15) % 16 ≤ (o.part + 31 - ((full
      gb).served.look (linkNo (arg34.x, arg34.y) arg34.port)).getD 15) % 16) ∧
    -- clause 0.2.2.3
    (full gw).msg 7 = some gw ∧ gw.router = some (1, 0) ∧
    crc16 (BitVec.setWidth 80 (sG.header gw)) = BitVec.extractLsb' 80 16 (sG.header gw) ∧
    (BitVec.extractLsb' 35 3 (sG.header gw)).toNat ≤ 4 ∧ (full gw).leaveGrid gw (1, 0) = none ∧ gw.len < gw.entered ∧
    (∀ f ∈ (full gw).readyFlits gw, ¬∀ o ∈ (full gw).flights, ∀ f_1 ∈ (full gw).readyFlits o, (f_1.2.x, f_1.2.y, f_1.2.port) =
      (f.2.x, f.2.y, f.2.port) → (gw.part + 31 - ((full gw).served.look (linkNo (f.2.x, f.2.y) f.2.port)).getD 15) % 16 ≤
      (o.part + 31 - ((full gw).served.look (linkNo (f.2.x, f.2.y) f.2.port)).getD 15) % 16) := by
  constructorm* _ ∧ _ <;> decide +kernel

theorem meets_RoutersAndHops_5 :
    -- clause 0.3
    (full gw).msg 7 = some gw ∧ gw.router = some (1, 0) ∧ gw.esc = false ∧ gw.held ≠ [] ∧
    (full gw).leaveGrid gw (1, 0) = none ∧ (full gw).hop gw (1, 0) ((full gw).goal gw (1, 0)) = none ∧
    (∀ o ∈ (full gw).flights, o.router = some (1, 0) → o.esc = false → (full gw).stuck o = true → gw.since ≤ o.since) := by
  constructorm* _ ∧ _ <;> decide +kernel

theorem meets_CombiningFetchAndAdds :
    -- clause 0
    (put sw sA).msg sw.id = some sw ∧ sw.loc = Loc.switch 0 1 2 ∧
    (∀ x ∈ List.takeWhile (fun (x : Msg) => decide (x.id ≠ sw.id)) (put sw sA).flights, x.loc = sw.loc → (put sw sA).behind sw
      x = false ∧ combinable x sw = false) ∧
    -- clause 1
    arg36.msg sw.id = some sw ∧ (swS ∈ List.takeWhile (fun (x : Msg) => decide (x.id ≠ sw.id)) arg36.flights) ∧
    arg36.behind sw swS = true ∧ combinable swS sw = false ∧
    (List.find? (fun (y : Msg) => decide (y.loc = sw.loc) && combinable y sw) (List.takeWhile (fun (x : Msg) => decide (x.id ≠
      sw.id)) arg36.flights) = none) ∧
    -- clause 2
    sCb.msg sw.id = some sw ∧ sw.op = HomeOp.amo AmoFn.add 8 (3 : Word) (0 : Word) ∧
    sw2.op = HomeOp.amo AmoFn.add 8 (5 : Word) (0 : Word) ∧ sw2.loc = sw.loc ∧ sw2.pa = sw.pa ∧ sw2.part = sw.part ∧
    (List.takeWhile (fun (x : Msg) => decide (x.id ≠ sw.id)) sCb.flights = [sw2]) ∧ sCb.probeBehind sw2 = false ∧
    sCb.waitBufs = [] := by
  constructorm* _ ∧ _ <;> decide +kernel

theorem meets_CombiningFetchAndAdds_2 :
    -- clause 3
    sCb.msg sw.id = some sw ∧ sw.loc = Loc.switch 0 1 2 ∧ sw.op = HomeOp.amo AmoFn.add 8 (3 : Word) (0 : Word) ∧
    arg37.msg sw2.id = some swx ∧ swx.loc = Loc.back (Reply.value (100 : Word)) ∧ swx.ret = some (Way.switch 0 1 2) ∧
    arg37.msg sw.id = some ({ sw with loc := Loc.merged, path := Way.switch 0 1 2 :: sw.path } : Msg) ∧
    arg37.waitBufs = [({ die := 0, stage := 1, index := 2, first := sw2.id, second := sw.id, addend := (5 : Word) } :
      WaitBuf)] := by
  constructorm* _ ∧ _ <;> decide +kernel

end Pipelines

namespace Banks

def sA := (at_ base (.add (.g 3) (.g 1) (.g 2))).wr (sram 64) 8 0x1122334455667788
def mg (op : HomeOp) (pa : Nat) (loc : Loc) : Msg := {sA.request 0 op 0x10000 pa none with id := 7, loc := loc}
def put (m : Msg) (s : State) : State := {s with flights := s.flights ++ [m], nextMsg := 20}
def mm (op : HomeOp) : Msg := {mg op (sram 64) .home with counted := true, dst := some (.g 3)}
def mmT (op : HomeOp) : Msg := {mm op with loc := .waiting}
def tt : Touch := ⟨8, true, true, true⟩
def sE := sA.setEmpty (sram 64)
def sS : State := put (mm (.store 8 1)) {sA with sealed := [sram 0 / 4096]}
def mV := {mm (.load 8) with part := 3}
def bk (op : HomeOp) (r : Reply) : Msg := {mm op with loc := .back r}
def sc (s : State) : State := (s.modCtx 0 fun c => {c with sub := [(3, 2)]}).cacheLine 0 (sram 64)
def cn : Msg := {mm (.cancel 7) with id := 9}
def pk (p : Park) (s : State) : State := s.modCtx 0 fun c => {c with park := p, waitFrom := ⟨3, 3, 0⟩}
def und (s : State) : State := s.modCtx 0 fun c => {c with undo := ⟨[], c.skip, none, false, none⟩}
def sErr : State := und (pk (.fence .sfence 5 .done) (sA.modCtx 0 fun c => {c with touched := 3, errAcks := [TrapRec.make 7 8 9 0, TrapRec.make 3 8 9 0], empt := [(3, .failed (TrapRec.make 7 8 9 0) 0), (4, .fill)]}))
def notR (s : State) : State := s.modCtx 0 fun c => {c with sub := [(2, 1)]}
def late (s : State) : State := {s with wall := 2^40, cores := s.cores.map fun (e : Nat × Core) => (e.1, {e.2 with cycle := 2^40})}
def amoM : Msg := {mm (.amo .add 8 1 0) with dst := some (.g 3)}
def arg0 : State := put (mm (.load 4)) sA
def arg1 : Msg := mm (.load 4)
def arg2 : Touch := ⟨4, false, true, false⟩
def arg3 : State := put (mm (.store 2 0xABCD)) sA
def arg4 : Msg := mm (.store 2 0xABCD)
def arg5 : Touch := ⟨2, true, false, true⟩
def arg6 : State := put (mm (.loadSync 8 true)) sA
def arg7 : Msg := mm (.loadSync 8 true)
def arg8 : Touch := ⟨8, true, true, true⟩
def arg9 : State := put (mm (.storeFill 8 77)) sE
def arg10 : Msg := mm (.storeFill 8 77)
def arg11 : Touch := ⟨8, true, false, true⟩
def arg12 : State := put (mm (.fe 1)) sA
def arg13 : Msg := mm (.fe 1)
def arg14 : Touch := ⟨8, false, false, true⟩
def arg15 : State := put (mm (.fe 2)) sA
def arg16 : Msg := mm (.fe 2)
def arg17 : Touch := ⟨8, true, false, true⟩
def arg18 : State := put (mm (.fe 3)) sE
def arg19 : Msg := mm (.fe 3)
def arg20 : Touch := ⟨8, true, false, true⟩
def arg21 : State := put (mm .feq) sE
def arg22 : Touch := ⟨8, false, false, false⟩
def arg23 : State := put (mm (.amo .add 8 5 0)) sE
def arg24 : Msg := mm (.amo .add 8 5 0)
def arg25 : State := put (mm (.amo .ld 8 0 0)) sE
def arg26 : Msg := mm (.amo .ld 8 0 0)
def arg27 : State := put (mm (.loadSync 8 true)) sE
def arg28 : Msg := mm (.loadSync 8 true)
def arg29 : Touch := ⟨8, true, true, true⟩
def arg30 : Msg := mm (.store 8 1)
def arg31 : Touch := ⟨8, true, false, true⟩
def arg32 : TrapRec := TrapRec.make 0x03 0x10000 5 0
def arg33 : Touch := ⟨8, false, true, false⟩
def arg34 : State := put {bk (.store 8 5) .ack with dst := none} (sc sA)
def arg35 : Msg := {bk (.store 8 5) .ack with dst := none}
def arg36 : State := put {bk (.store 8 5) (.error (TrapRec.make 7 8 9 0)) with dst := none} (sc sA)
def arg37 : Msg := {bk (.store 8 5) (.error (TrapRec.make 7 8 9 0)) with dst := none}
def arg38 : TrapRec := TrapRec.make 7 8 9 0
def arg39 : State := put (mm (.probe 1)) sA
def arg40 : Msg := mm (.probe 1)
def arg41 : State := put {mm (.probe 1) with loc := .switch 0 0 1} sA
def arg42 : Msg := {mm (.probe 1) with loc := .switch 0 0 1}
def arg43 : State := put {bk (.load 8) (.value 99) with counted := false} sA
def arg44 : Msg := {bk (.load 8) (.value 99) with counted := false}
def arg45 : Reg := .g 3
def arg46 : State := put {bk (.loadSync 8 true) (.value 99) with counted := false} ((sc sA).modCtx 0 fun c => {c with park := .reply 7, limit := some 5})
def arg47 : Msg := {bk (.loadSync 8 true) (.value 99) with counted := false}
def arg48 : Reg := .g 3
def arg49 : State := put cn (put (mmT (.loadSync 8 true)) sE)
def arg50 : Msg := mmT (.loadSync 8 true)
def arg51 : State := put (mm (.probe 1)) sA
def arg52 : Msg := mm (.probe 1)
def arg53 : State := pk (.fence .fence 5 .done) (sA.modCtx 0 fun c => {c with touched := 3})
def arg54 : TrapRec := TrapRec.make 7 8 9 0
def arg55 : List TrapRec := [TrapRec.make 3 8 9 0]
def arg56 : State := pk (.fence .sfence 5 .done) (notR sA)
def arg57 : State := und (pk (.fence .sfence 5 .done) (late (notR sA)))
def arg58 : State := und (pk (.fence .sfence 5 (.send amoM true)) ((late (notR sA)).modCtx 0 fun c => {c with empt := [(3, .fill)]}))
def arg59 : State := put (mm (.load 8)) (late sA)
def arg60 : Msg := mm (.load 8)
def arg61 : State := sA.modCtx 0 fun c => {c with frozen := true}
def arg62 : State := put (mmT (.loadSync 8 true)) (pk (.reply 7) (sA.modCtx 0 fun c => {c with limit := some 0}))
def arg63 : Msg := mmT (.loadSync 8 true)

theorem meets_HomeAgents :
    -- clause 0.0
    arg0.msg arg1.id = some arg1 ∧ arg1.loc = Loc.home ∧ arg1.hit = none ∧ arg1.leaf = none ∧ arg0.mustWait arg1 = false ∧
    arg0.waitBufs = [] ∧ (∀ y ∈ arg0.flights, y.loc ≠ Loc.waiting) ∧ arg0.target arg1.pa = some (Target.sram 0 64) ∧
    arg0.isCell arg1.pa = false ∧ arg1.op.touch = some arg2 ∧ arg0.passes arg1 arg2 ∧ arg1.op = HomeOp.load 4 ∧
    -- clause 0.1
    arg3.msg arg4.id = some arg4 ∧ arg4.loc = Loc.home ∧ arg4.hit = none ∧ arg4.leaf = none ∧ arg3.mustWait arg4 = false ∧
    arg3.waitBufs = [] ∧ (∀ y ∈ arg3.flights, y.loc ≠ Loc.waiting) ∧ arg3.target arg4.pa = some (Target.sram 0 64) ∧
    arg3.isCell arg4.pa = false ∧ arg4.op.touch = some arg5 ∧ arg3.passes arg4 arg5 ∧
    arg4.op = HomeOp.store 2 (43981 : Word) := by
  constructorm* _ ∧ _ <;> (
    first
      | decide +kernel
      | (unfold State.passes; decide +kernel))

theorem meets_HomeAgents_2 :
    -- clause 0.2
    arg6.msg arg7.id = some arg7 ∧ arg7.loc = Loc.home ∧ arg7.hit = none ∧ arg7.leaf = none ∧ arg6.mustWait arg7 = false ∧
    arg6.waitBufs = [] ∧ (∀ y ∈ arg6.flights, y.loc ≠ Loc.waiting) ∧ arg6.target arg7.pa = some (Target.sram 0 64) ∧
    arg6.isCell arg7.pa = false ∧ arg7.op.touch = some arg8 ∧ arg6.passes arg7 arg8 ∧ arg7.op = HomeOp.loadSync 8 true ∧
    arg6.isFull arg7.pa = true := by
  constructorm* _ ∧ _ <;> (
    first
      | decide +kernel
      | (unfold State.passes; decide +kernel))

theorem meets_HomeAgents_3 :
    -- clause 0.3
    arg9.msg arg10.id = some arg10 ∧ arg10.loc = Loc.home ∧ arg10.hit = none ∧ arg10.leaf = none ∧
    arg9.mustWait arg10 = false ∧ arg9.waitBufs = [] ∧ (∀ y ∈ arg9.flights, y.loc ≠ Loc.waiting) ∧
    arg9.target arg10.pa = some (Target.sram 0 64) ∧ arg9.isCell arg10.pa = false ∧ arg10.op.touch = some arg11 ∧
    arg9.passes arg10 arg11 ∧ arg10.op = HomeOp.storeFill 8 (77 : Word) ∧ arg9.isFull arg10.pa = false := by
  constructorm* _ ∧ _ <;> (
    first
      | decide +kernel
      | (unfold State.passes; decide +kernel))

theorem meets_HomeAgents_4 :
    -- clause 0.4
    arg12.msg arg13.id = some arg13 ∧ arg13.loc = Loc.home ∧ arg13.hit = none ∧ arg13.leaf = none ∧
    arg12.mustWait arg13 = false ∧ arg12.waitBufs = [] ∧ (∀ y ∈ arg12.flights, y.loc ≠ Loc.waiting) ∧
    arg12.target arg13.pa = some (Target.sram 0 64) ∧ arg12.isCell arg13.pa = false ∧ arg13.op.touch = some arg14 ∧
    arg12.passes arg13 arg14 ∧ arg13.op = HomeOp.fe (1 : BitVec 2) ∧ arg12.isFull arg13.pa = true := by
  constructorm* _ ∧ _ <;> (
    first
      | decide +kernel
      | (unfold State.passes; decide +kernel))

theorem meets_HomeAgents_5 :
    -- clause 0.5
    arg15.msg arg16.id = some arg16 ∧ arg16.loc = Loc.home ∧ arg16.hit = none ∧ arg16.leaf = none ∧
    arg15.mustWait arg16 = false ∧ arg15.waitBufs = [] ∧ (∀ y ∈ arg15.flights, y.loc ≠ Loc.waiting) ∧
    arg15.target arg16.pa = some (Target.sram 0 64) ∧ arg15.isCell arg16.pa = false ∧ arg16.op.touch = some arg17 ∧
    arg15.passes arg16 arg17 ∧ arg16.op = HomeOp.fe (2 : BitVec 2) ∧ arg15.isFull arg16.pa = true := by
  constructorm* _ ∧ _ <;> (
    first
      | decide +kernel
      | (unfold State.passes; decide +kernel))

theorem meets_HomeAgents_6 :
    -- clause 0.6
    arg18.msg arg19.id = some arg19 ∧ arg19.loc = Loc.home ∧ arg19.hit = none ∧ arg19.leaf = none ∧
    arg18.mustWait arg19 = false ∧ arg18.waitBufs = [] ∧ (∀ y ∈ arg18.flights, y.loc ≠ Loc.waiting) ∧
    arg18.target arg19.pa = some (Target.sram 0 64) ∧ arg18.isCell arg19.pa = false ∧ arg19.op.touch = some arg20 ∧
    arg18.passes arg19 arg20 ∧ arg19.op = HomeOp.fe (3 : BitVec 2) ∧ arg18.isFull arg19.pa = false := by
  constructorm* _ ∧ _ <;> (
    first
      | decide +kernel
      | (unfold State.passes; decide +kernel))

theorem meets_HomeAgents_7 :
    -- clause 0.7
    arg21.msg (mm HomeOp.feq).id = some (mm HomeOp.feq) ∧ (mm HomeOp.feq).loc = Loc.home ∧ (mm HomeOp.feq).hit = none ∧
    (mm HomeOp.feq).leaf = none ∧ arg21.mustWait (mm HomeOp.feq) = false ∧ arg21.waitBufs = [] ∧
    (∀ y ∈ arg21.flights, y.loc ≠ Loc.waiting) ∧ arg21.target (mm HomeOp.feq).pa = some (Target.sram 0 64) ∧
    arg21.isCell (mm HomeOp.feq).pa = false ∧ (mm HomeOp.feq).op.touch = some arg22 ∧ arg21.passes (mm HomeOp.feq) arg22 ∧
    (mm HomeOp.feq).op = HomeOp.feq := by
  constructorm* _ ∧ _ <;> (
    first
      | decide +kernel
      | (unfold State.passes; decide +kernel))

theorem meets_HomeAgents_8 :
    -- clause 0.8
    arg23.msg arg24.id = some arg24 ∧ arg24.loc = Loc.home ∧ arg24.hit = none ∧ arg24.leaf = none ∧
    arg23.mustWait arg24 = false ∧ arg23.waitBufs = [] ∧ (∀ y ∈ arg23.flights, y.loc ≠ Loc.waiting) ∧
    arg23.target arg24.pa = some (Target.sram 0 64) ∧ arg23.isCell arg24.pa = false ∧ arg24.op.touch = some tt ∧
    arg23.passes arg24 tt ∧ arg24.op = HomeOp.amo AmoFn.add 8 (5 : Word) (0 : Word) ∧ AmoFn.add ≠ AmoFn.ld := by
  constructorm* _ ∧ _ <;> (
    first
      | decide +kernel
      | (unfold State.passes; decide +kernel))

theorem meets_HomeAgents_9 :
    -- clause 0.9
    arg25.msg arg26.id = some arg26 ∧ arg26.loc = Loc.home ∧ arg26.hit = none ∧ arg26.leaf = none ∧
    arg25.mustWait arg26 = false ∧ arg25.waitBufs = [] ∧ (∀ y ∈ arg25.flights, y.loc ≠ Loc.waiting) ∧
    arg25.target arg26.pa = some (Target.sram 0 64) ∧ arg25.isCell arg26.pa = false ∧ arg26.op.touch = some tt ∧
    arg25.passes arg26 tt ∧ arg26.op = HomeOp.amo AmoFn.ld 8 (0 : Word) (0 : Word) ∧
    -- clause 1.0
    arg27.msg arg28.id = some arg28 ∧ arg28.loc = Loc.home ∧ arg27.mustWait arg28 = false ∧ arg27.waitBufs = [] ∧
    (∀ y ∈ arg27.flights, y.loc ≠ Loc.waiting) ∧ arg27.isCell arg28.pa = false ∧ arg28.op.touch = some arg29 ∧
    arg27.refusal arg28 arg29 = (arg27, none) ∧ arg28.op.admits (arg27.isFull arg28.pa) = false := by
  constructorm* _ ∧ _ <;> (
    first
      | decide +kernel
      | (unfold State.passes; decide +kernel))

theorem meets_HomeAgents_10 :
    -- clause 1.1
    sS.msg arg30.id = some arg30 ∧ arg30.loc = Loc.home ∧ sS.mustWait arg30 = false ∧ sS.waitBufs = [] ∧
    (∀ y ∈ sS.flights, y.loc ≠ Loc.waiting) ∧ sS.isCell arg30.pa = false ∧ arg30.op.touch = some arg31 ∧
    sS.refusal arg30 arg31 = (sS, some arg32) ∧
    -- clause 1.2
    (put mV sA).msg mV.id = some mV ∧ mV.loc = Loc.home ∧ (put mV sA).mustWait mV = false ∧ (put mV sA).waitBufs = [] ∧
    (∀ y ∈ (put mV sA).flights, y.loc ≠ Loc.waiting) ∧ (put mV sA).isCell mV.pa = false ∧ mV.op.touch = some arg33 ∧
    (put mV sA).violation mV.accessor mV.pa arg33.n = 1 ∧ 1 ≠ 0 := by
  constructorm* _ ∧ _ <;> decide +kernel

theorem meets_RepliesAndAcknowledgements :
    -- clause 0
    arg34.msg arg35.id = some arg35 ∧ (arg34.ctxs.look arg35.tid).isSome = true ∧ arg35.hit = none ∧ arg35.ret = none ∧
    arg34.waitBufs = [] ∧ arg35.op = HomeOp.store 8 (5 : Word) ∧ arg35.loc = Loc.back Reply.ack ∧ arg35.counted = true ∧
    -- clause 1
    arg36.msg arg37.id = some arg37 ∧ (arg36.ctxs.look arg37.tid).isSome = true ∧ arg37.hit = none ∧ arg37.ret = none ∧
    arg36.waitBufs = [] ∧ arg37.op = HomeOp.store 8 (5 : Word) ∧ arg37.loc = Loc.back (Reply.error arg38) ∧
    arg37.counted = true ∧ arg37.dst = none ∧ (arg36.ctx arg37.tid).waitsFor arg37 = false := by
  constructorm* _ ∧ _ <;> decide +kernel

theorem meets_RepliesAndAcknowledgements_2 :
    -- clause 2
    arg39.msg arg40.id = some arg40 ∧ (arg39.ctxs.look arg40.tid).isSome = true ∧ arg40.hit = none ∧ arg40.ret = none ∧
    arg39.waitBufs = [] ∧ arg40.op = HomeOp.probe 1 ∧ arg40.loc = Loc.home ∧
    (∀ y ∈ arg39.flights, y.id ≠ arg40.id → y.op.touch = none ∧ y.op.translated = false) ∧
    -- clause 3
    arg41.msg arg42.id = some arg42 ∧ (arg41.ctxs.look arg42.tid).isSome = true ∧ arg42.hit = none ∧ arg42.ret = none ∧
    arg41.waitBufs = [] ∧ arg42.op = HomeOp.probe 1 ∧ arg42.loc ≠ Loc.home := by
  constructorm* _ ∧ _ <;> decide +kernel

theorem meets_RepliesAndAcknowledgements_3 :
    -- clause 4
    arg43.msg arg44.id = some arg44 ∧ (arg43.ctxs.look arg44.tid).isSome = true ∧ arg44.hit = none ∧ arg44.ret = none ∧
    arg43.waitBufs = [] ∧ arg44.op = HomeOp.load 8 ∧ arg44.loc = Loc.back (Reply.value (99 : Word)) ∧ arg44.counted = false ∧
    arg44.dst = some arg45 ∧ arg45 ≠ Reg.g (61 : BitVec 6) ∧ (arg43.ctx arg44.tid).waitsFor arg44 = false ∧
    -- clause 5
    arg46.msg arg47.id = some arg47 ∧ (arg46.ctxs.look arg47.tid).isSome = true ∧ arg47.hit = none ∧ arg47.ret = none ∧
    arg46.waitBufs = [] ∧ arg47.op = HomeOp.loadSync 8 true ∧ arg47.loc = Loc.back (Reply.value (99 : Word)) ∧
    arg47.counted = false ∧ arg47.dst = some arg48 ∧ arg48 ≠ Reg.g (61 : BitVec 6) ∧
    (arg46.ctx arg47.tid).waitsFor arg47 = true := by
  constructorm* _ ∧ _ <;> decide +kernel

theorem meets_RepliesAndAcknowledgements_4 :
    -- clause 6
    arg49.msg arg50.id = some arg50 ∧ (arg49.ctxs.look arg50.tid).isSome = true ∧ arg50.hit = none ∧ arg50.ret = none ∧
    arg49.waitBufs = [] ∧ cn.op = HomeOp.cancel arg50.id ∧ arg49.msg cn.id = some cn ∧ cn.id ≠ arg50.id ∧ cn.loc = Loc.home ∧
    arg49.mustWait cn = false ∧ arg50.op = HomeOp.loadSync 8 true ∧ arg50.loc = Loc.waiting ∧
    -- clause 7
    arg51.msg arg52.id = some arg52 ∧ (arg51.ctxs.look arg52.tid).isSome = true ∧ arg52.hit = none ∧ arg52.ret = none ∧
    arg51.waitBufs = [] := by
  constructorm* _ ∧ _ <;> decide +kernel

theorem meets_FencesWaitsAndWalks :
    -- clause 0
    (arg53.ctx 0).park = Park.fence FenceForm.fence 5 After.done ∧ arg53.fenceReady 0 FenceForm.fence 5 = true ∧
    (arg53.ctx 0).errAcks = [] ∧
    -- clause 1
    (sErr.ctx 0).park = Park.fence FenceForm.sfence 5 After.done ∧ sErr.fenceReady 0 FenceForm.sfence 5 = true ∧
    (sErr.ctx 0).errAcks = arg54 :: arg55 ∧ FenceForm.sfence ≠ FenceForm.lfence ∧
    (sErr.ctx 0).undo = ({ regs := [], skip := (sErr.ctx 0).skip, link := none, pushed := false, entry := none } : Undo) ∧
      (sErr.ctx 0).also = none ∧
    -- clause 2
    (arg56.ctx 0).park = Park.fence FenceForm.sfence 5 After.done ∧ arg56.fenceReady 0 FenceForm.sfence 5 = false ∧
    -- clause 3
    (arg57.ctx 0).park = Park.fence FenceForm.sfence 5 After.done ∧ arg57.storesDone 0 5 = false ∧
    ((arg57.ctx 0).frozen && (arg57.ctx 0).stepLeft.isNone) = false ∧
    arg57.timedOut 0 (arg57.ctx 0).core (arg57.ctx 0).waitFrom = true ∧ (∀ m ∈ arg57.flights, m.tid ≠ 0) ∧
    (arg57.ctx 0).undo = ({ regs := [], skip := (arg57.ctx 0).skip, link := none, pushed := false, entry := none } : Undo) ∧
      (arg57.ctx 0).also = none := by
  constructorm* _ ∧ _ <;> decide +kernel

theorem meets_FencesWaitsAndWalks_2 :
    -- clause 4
    (arg58.ctx 0).park = Park.fence FenceForm.sfence 5 (After.send amoM true) ∧ amoM.dst = some (Reg.g (3 : BitVec 6)) ∧
    FenceForm.sfence ≠ FenceForm.lfence ∧ arg58.storesDone 0 5 = false ∧
    ((arg58.ctx 0).frozen && (arg58.ctx 0).stepLeft.isNone) = false ∧
    arg58.timedOut 0 (arg58.ctx 0).core (arg58.ctx 0).waitFrom = true ∧ (arg58.ctxs.look 0).isSome = true ∧
    (arg58.ctx 0).undo.regs = [] ∧ amoM.op ≠ HomeOp.claim true ∧
    -- clause 5
    (∀ (form : FenceForm) (sc : ℕ) (after : After), (arg59.ctx 0).park ≠ Park.fence form sc after) ∧
    ((arg59.ctx 0).frozen && (arg59.ctx 0).stepLeft.isNone) = false ∧ arg59.lateRequest 0 = some arg60 ∧
    -- clause 6
    ((arg61.ctx 0).frozen && (arg61.ctx 0).stepLeft.isNone) = true ∧
    -- clause 7
    ((arg62.ctx 0).frozen && (arg62.ctx 0).stepLeft.isNone) = false ∧ (arg62.ctx 0).park = Park.reply arg63.id ∧
    (arg62.ctx 0).limit = some 0 ∧ 0 ≤ arg62.ctlTime 0 - (arg62.ctx 0).limitFrom ∧ arg62.msg arg63.id = some arg63 ∧
    arg63.tid = 0 := by
  constructorm* _ ∧ _ <;> (
    first
      | decide +kernel
      | exact notFence_of (by decide +kernel))

end Banks

namespace Cells

def sA := (at_ base (.add (.g 3) (.g 1) (.g 2))).wr (sram 64) 8 0x1122334455667788
def mg (op : HomeOp) (pa : Nat) (loc : Loc) : Msg := {sA.request 0 op 0x10000 pa none with id := 7, loc := loc}
def put (m : Msg) (s : State) : State := {s with flights := s.flights ++ [m], nextMsg := 20}
def mm (op : HomeOp) : Msg := {mg op (sram 64) .home with counted := true, dst := some (.g 3)}
def mmT (op : HomeOp) : Msg := {mm op with loc := .waiting}
def wk : Walk := ⟨11, 0, 0xFFFFFF0000040000, some 0x40000, [(0, 0)]⟩
def cl0 : Cluster := {Cluster.reset with walks := [wk]}
def sW : State := {((sA.wr64 (sram 0x8000) (word (sram 0x9000) ||| 1)).wr64 (sram 0x9000) (word (sram 0) ||| 0x87)) with
  asids := [(0, 0x8000000000000000 ||| word (sram 0x8000))], clusters := [(0, cl0)]}.modCtx 0 fun c => {c with park := .walk 11}
def ent : TlbEntry := match sW.walk 0 0xFFFFFF0000040000 (some 0x40000) with | .ok e => e | .error _ => entry 0 0
def cell (w0 w1 w2 w3 : Word) (s : State) : State :=
  let b := sram 64
  ((((s.wr64 b w0).wr64 (b+8) w1).wr64 (b+16) w2).wr64 (b+24) w3)
def lock (w1 w2 : Word) : State := {cell 0x0800000000000000 w1 w2 0 sA with marks := [sram 64], holders := [(sram 64, 0)]}
def ww : Msg := {mmT .acq with id := 9, tid := 4}
def cellK (k : Nat) (w0 w1 w2 w3 : Word) : State := {cell (w0 ||| (word k <<< 62) ||| 0x0800000000000000) w1 w2 w3 sA with marks := [sram 64]}
def dg : Delegate := ⟨9, 0, 0, .u, 0, 0x100000, 1, 2, 3, 4, 5, []⟩
def sSec (m : Msg) : State := put m ((cellK 2 0 0x77 0 (0x2020 + (word 4 <<< 47) + (word 2 <<< 51))).modCore 2 fun c => {c with sections := [7], delegates := [(4, dg)]})
def mcall : Msg := {mm (.call 0xAB) with aux := 1}
def tr : TrapRec := TrapRec.make 0x0B 5 6 2
def sMb : State := (sA.modPart 0 fun p => {p with mail := [⟨1,2,3,4,5,6,7,8⟩, ⟨9,2,3,4,5,6,7,8⟩], mboxV := true, mboxLog := 4, mboxBase := sram 0x1000, mboxIdx := 15}).setEmpty (sram (0x1000+15*64))
def sSl : State := {sMb with sealed := [sram 0x1000 / 4096]}
def cFz : Ctx := {Ctx.cleared (.slot 0 2) with park := .halted, pc := 0x40, issued := 5}
def st (tid : Nat) : StopCast := ⟨7, 0, 0x100, 0x108, 0x5, tid, 3, 2, [(3, 1)]⟩
def clS (x : StopCast) : Cluster := {Cluster.reset with stops := [x]}
def sStp (c : Ctx) (x : StopCast) : State := {sA with ctxs := [(3, c)], clusters := [(0, clS x)]}
def arg0 : State := sA.modCtx 0 fun c => {c with pend2 := some tr}
def arg1 : ℕ := sram (0x1000+15*64)
def arg2 : Mail := ⟨1,2,3,4,5,6,7,8⟩
def arg3 : List Mail := [⟨9,2,3,4,5,6,7,8⟩]
def arg4 : Word := 0x8400000000000000 + word (sram 0x1000)
def arg5 : Word := 0x8300000000000000 + word (sram 0x1000)
def arg6 : ℕ := sram (0x1000+15*64)
def arg7 : Mail := ⟨1,2,3,4,5,6,7,8⟩
def arg8 : List Mail := [⟨9,2,3,4,5,6,7,8⟩]
def arg9 : State := put (mm (.arrive 0)) (cellK 1 0 0x0003000100000005 0 0)
def arg10 : Msg := mm (.arrive 0)
def arg11 : State := put (mm (.arrive 0)) (cellK 1 0 0x00030002FFFFFFFF 0 0)
def arg12 : Msg := mm (.arrive 0)
def arg13 : State := put (mm (.arrive 5)) (cellK 2 0 0xFFFFFFFFFFFFFFFE 0 0)
def arg14 : Msg := mm (.arrive 5)
def arg15 : State := put (mm .arriveWait) (cellK 2 0 1 0 0)
def arg16 : State := put (mm (.expect 64)) (cellK 3 0 0x0003000100000005 0 0)
def arg17 : Msg := mm (.expect 64)
def arg18 : State := put (mm (.deliver 32)) (cellK 3 0 0x0003000300000005 (64*2^24) 0)
def arg19 : Msg := mm (.deliver 32)
def arg20 : State := put (mm (.deliver 64)) (cellK 3 0 0x0003000300000005 (64*2^24) 0)
def arg21 : Msg := mm (.deliver 64)
def arg22 : State := put (mm .acq) (lock 0 0)
def arg23 : State := put (mm .acq) (lock 0 0x8000000000000000)
def arg24 : State := put (mm .tryacq) (lock 0 0x8000000000000000)
def arg25 : State := put (mm .rel) (lock 0 0x8000000000000000)
def arg26 : State := put (mm .rel) (put ww (lock 0 0x8000000000000000))
def arg27 : State := put {mm .rel with tid := 3} (put ww (lock 0 0x8000000000000000))
def arg28 : Msg := {mm .rel with tid := 3}
def arg29 : State := sStp cFz (st 3)
def arg30 : Cluster := clS (st 3)
def arg31 : StopCast := st 3

theorem meets_TrapsAndMail :
    -- clause 0
    (arg0.ctx 0).sectionDead = false ∧ (arg0.ctx 0).pending = some tr ∧ arg0.mayTake 0 = true ∧
    -- clause 1.1
    arg1 = (sMb.partition 0).mailPa ∧ Memory.wf sMb.mem = true ∧ sMb.marks = [] ∧ (∀ y ∈ sMb.flights, y.loc ≠ Loc.waiting) ∧
    arg1 % 64 = 0 ∧ (sMb.partition 0).mail = arg2 :: arg3 ∧ (sMb.partition 0).mboxV = true ∧ sMb.isFull arg1 = false ∧
    sMb.sealedAt arg1 64 = false ∧ sMb.zeroingAt arg1 64 = false ∧
    -- clause 2
    BitVec.getLsbD arg4 63 = true ∧ sA.mboxOk 0 arg4 = true ∧ (sA.partition 0).mboxV = false ∧
    -- clause 3
    BitVec.getLsbD arg5 63 = true ∧ sA.mboxOk 0 arg5 = false := by
  constructorm* _ ∧ _ <;> decide +kernel

theorem meets_TrapsAndMail_2 :
    -- clause 1.0
    arg6 = (sSl.partition 0).mailPa ∧ Memory.wf sSl.mem = true ∧ sSl.marks = [] ∧ (∀ y ∈ sSl.flights, y.loc ≠ Loc.waiting) ∧
    arg6 % 64 = 0 ∧ (sSl.partition 0).mail = arg7 :: arg8 ∧ (sSl.partition 0).mboxV = true ∧ sSl.isFull arg6 = false ∧
    sSl.sealedAt arg6 64 = true := by
  constructorm* _ ∧ _ <;> decide +kernel

theorem meets_FencesWaitsAndWalks_3 :
    -- clause 8
    sW.clusters = [(0, cl0)] ∧ cl0.walks = [wk] ∧ wk.tids = [(0, 0)] ∧
    sW.walk wk.asid (BitVec.toNat wk.va) wk.ia = Except.ok ent ∧ (sW.ctx 0).park = Park.walk wk.id := by
  constructorm* _ ∧ _ <;> decide +kernel

theorem meets_ArrivalsAndSections :
    -- clause 0.0
    (∀ y ∈ arg9.flights, y.loc ≠ Loc.waiting) ∧ arg9.cPin arg10.pa = true ∧ arg9.atCell arg10 1 ∧
    arg10.op = HomeOp.arrive (0 : Word) ∧ arg9.cArrived arg10.pa + 1 < arg9.cParties arg10.pa ∧
    -- clause 0.1
    (∀ y ∈ arg11.flights, y.loc ≠ Loc.waiting) ∧ arg11.cPin arg12.pa = true ∧ arg11.atCell arg12 1 ∧
    arg12.op = HomeOp.arrive (0 : Word) ∧ arg11.cArrived arg12.pa + 1 = arg11.cParties arg12.pa ∧
    -- clause 0.2
    (∀ y ∈ arg13.flights, y.loc ≠ Loc.waiting) ∧ arg13.cPin arg14.pa = true ∧ arg13.atCell arg14 2 ∧
    arg14.op = HomeOp.arrive (5 : Word) ∧ arg13.cBusy arg14.pa = false ∧
    -- clause 0.3
    (∀ y ∈ arg15.flights, y.loc ≠ Loc.waiting) ∧ arg15.cPin (mm HomeOp.arriveWait).pa = true ∧
    arg15.atCell (mm HomeOp.arriveWait) 2 ∧ (mm HomeOp.arriveWait).op = HomeOp.arriveWait ∧
    arg15.cw (mm HomeOp.arriveWait).pa 1 ≠ (0 : Word) := by
  constructorm* _ ∧ _ <;> (
    first
      | decide +kernel
      | (unfold State.atCell; decide +kernel))

theorem meets_ArrivalsAndSections_2 :
    -- clause 0.4
    (∀ y ∈ arg16.flights, y.loc ≠ Loc.waiting) ∧ arg16.cPin arg17.pa = true ∧ arg16.atCell arg17 3 ∧
    arg17.op = HomeOp.expect (64 : Word) ∧ (64 : Word) ≠ (0 : Word) ∧
    arg16.cf arg17.pa 2 24 40 + BitVec.toNat (64 : Word) < 2 ^ 40 ∧ arg16.cArrived arg17.pa + 1 < 2 ^ 16 ∧
    -- clause 0.5
    (∀ y ∈ arg18.flights, y.loc ≠ Loc.waiting) ∧ arg18.cPin arg19.pa = true ∧ arg18.atCell arg19 3 ∧
    arg19.op = HomeOp.deliver 32 ∧ 32 < arg18.cf arg19.pa 2 24 40 ∧
    -- clause 0.6
    (∀ y ∈ arg20.flights, y.loc ≠ Loc.waiting) ∧ arg20.cPin arg21.pa = true ∧ arg20.atCell arg21 3 ∧
    arg21.op = HomeOp.deliver 64 ∧ 64 = arg20.cf arg21.pa 2 24 40 ∧ arg20.cArrived arg21.pa = arg20.cParties arg21.pa ∧
    -- clause 1
    (sSec mcall).msg mcall.id = some mcall ∧ mcall.op = HomeOp.call (171 : Word) ∧ mcall.aux = (1 : Word) ∧
    ((sSec mcall).core ((sSec mcall).cf mcall.pa 3 51 12)).sections = [mcall.id] ∧
    ((sSec mcall).core ((sSec mcall).cf mcall.pa 3 51 12)).delegates.look ((sSec mcall).cf mcall.pa 3 47 4) = some dg ∧
    (sSec mcall).inSlot ((sSec mcall).cf mcall.pa 3 51 12) ((sSec mcall).cf mcall.pa 3 47 4) = none := by
  constructorm* _ ∧ _ <;> (
    first
      | decide +kernel
      | (unfold State.atCell; decide +kernel))

theorem meets_LocksAtTheirBank :
    -- clause 0
    arg22.atCell (mm HomeOp.acq) 0 ∧ arg22.cMode (mm HomeOp.acq).pa = 0 ∧ (mm HomeOp.acq).op = HomeOp.acq ∧
    arg22.cHeld (mm HomeOp.acq).pa = false ∧
    -- clause 1
    arg23.atCell (mm HomeOp.acq) 0 ∧ arg23.cMode (mm HomeOp.acq).pa = 0 ∧ arg23.cHeld (mm HomeOp.acq).pa = true ∧
    -- clause 2
    arg24.atCell (mm HomeOp.tryacq) 0 ∧ arg24.cMode (mm HomeOp.tryacq).pa = 0 ∧ (mm HomeOp.tryacq).op = HomeOp.tryacq ∧
    arg24.cHeld (mm HomeOp.tryacq).pa = true ∧
    -- clause 3
    arg25.atCell (mm HomeOp.rel) 0 ∧ arg25.cMode (mm HomeOp.rel).pa = 0 ∧ (mm HomeOp.rel).op = HomeOp.rel ∧
    arg25.cHeld (mm HomeOp.rel).pa = true ∧ bit (arg25.cw (mm HomeOp.rel).pa 2) 62 = false ∧ arg25.holders.look (mm
      HomeOp.rel).pa = some (mm HomeOp.rel).tid ∧ arg25.cPin (mm HomeOp.rel).pa = true ∧ arg25.pins = [] ∧
    arg25.lockWaiters (mm HomeOp.rel).pa = [] := by
  constructorm* _ ∧ _ <;> (
    first
      | decide +kernel
      | (unfold State.atCell; decide +kernel))

theorem meets_LocksAtTheirBank_2 :
    -- clause 4
    arg26.atCell (mm HomeOp.rel) 0 ∧ arg26.cMode (mm HomeOp.rel).pa = 0 ∧ (mm HomeOp.rel).op = HomeOp.rel ∧
    arg26.cHeld (mm HomeOp.rel).pa = true ∧ bit (arg26.cw (mm HomeOp.rel).pa 2) 62 = false ∧ arg26.holders.look (mm
      HomeOp.rel).pa = some (mm HomeOp.rel).tid ∧ arg26.cPin (mm HomeOp.rel).pa = true ∧ arg26.pins = [] ∧
    arg26.lockWaiters (mm HomeOp.rel).pa = [ww] ∧ ww.op = HomeOp.acq ∧ ww.ticket = none ∧ arg26.msg ww.id = some ww ∧
    -- clause 5
    arg27.atCell arg28 0 ∧ arg27.cMode arg28.pa = 0 ∧ arg28.op = HomeOp.rel ∧
    arg27.holders.look arg28.pa ≠ some arg28.tid := by
  constructorm* _ ∧ _ <;> (
    first
      | decide +kernel
      | (unfold State.atCell; decide +kernel))

theorem meets_StopsFreeze :
    -- clause 0
    arg29.clusters = [(arg29.clusterOf 0, arg30)] ∧ arg30.stops = [arg31] ∧ arg31.core = 0 ∧ arg29.ctxs = [(3, cFz)] ∧
    cFz.place.resident = true ∧ cFz.core = 0 ∧ cFz.park = Park.halted ∧ cFz.freezeDue = [] ∧ cFz.stepLeft = none ∧
    cFz.told.contains arg31.num = false := by
  constructorm* _ ∧ _ <;> decide +kernel

end Cells

namespace Engines

def sA0 := (at_ base (.add (.g 3) (.g 1) (.g 2))).wr (sram 64) 8 0x1122334455667788
def sA : State := {((sA0.wr64 (sram 0x8000) (word (sram 0x9000) ||| 1)).wr64 (sram 0x9000) (word (sram 0) ||| 0x87)) with asids := [(0, 0x8000000000000000 ||| word (sram 0x8000))], grants := sA0.grants ++ [⟨sA0.corePa 1 0 0, 2^20, .fn 0⟩]}
def mg (op : HomeOp) (pa : Nat) (loc : Loc) : Msg := {sA.request 0 op 0x10000 pa none with id := 7, loc := loc}
def put (m : Msg) (s : State) : State := {s with flights := s.flights ++ [m], nextMsg := 20}
def claimed (k : Nat) (s : State) : State := (s.modCtx 0 fun c => {c with claim := some (.bound k)}).modEng 0 k fun e => {e with owner := some 0}
def qe (i : Instr) (vs x : Word) : QEntry := ⟨1, i, 0, 0, 0, 0, 0, 0, 0, 0, x, vs, [0,0,0,0], 0, 0⟩
def eg : Eng := {Eng.reset with owner := some 0, v := [(1, 0x0102030405060708090A0B0C0D0E0F), (2, 0x010203040506070F0E0D0C0B0A)]}
def ve := qe (.vand 3 1 2) 0x2008 0
def sQ (e : QEntry) : State := (claimed 0 sA).modCore 0 fun c => {c with vq := [e, {e with seq := 2}], eng0 := eg}
def runOf (s : State) (e : QEntry) : EngOut := s.engineRun e ((s.core 0).eng e.ctx)
def okOf (s : State) (e : QEntry) : EngRes := match (runOf s e).2 with | .ok r => r | .error _ => ⟨eg, none⟩
def erOf (s : State) (e : QEntry) : TrapRec := match (runOf s e).2 with | .ok _ => TrapRec.make 0 0 0 0 | .error f => f
def vl := qe (.vld 3 1) 0x2008 0x7000000000
def me := {qe (.mma .i8 0 1 2 3 4 1) 0 0x808 with steps := 0}
def sM : State := (claimed 0 sA).modCore 0 fun c => {c with mq := [me], eng0 := eg, stepping := some 0}
def sSp : State := ({claimed 0 sA with save := [(0, 0x8000_0000_0000_0000)]}).modCore 0 fun c => {c with eng0 := {eg with spillTo := some 3}}
def sf : Msg := {mg (.sfu 1 0x40000000) 0 .home with core := 0}
def eye : BitVec 16384 := BitVec.ofNat 16384 (0x05FE03 + 2^24 * 0x7F8001)
def t23 : Word := word (2 * 2^16 + 1 * 2^22 + 3)
def egM : Eng := {Eng.reset with owner := some 0, t := [(1, eye), (2, eye)], td := [(1, t23), (2, t23)]}
def eMM := qe (.mma .i8 0 0 1 1 2 0) 0 0
def crec : CopyRec := ⟨0x40, 0x100, 100, 1, 0, 0, [], 0, 0⟩
def cmd0 : CopyCmd := ⟨.d1, 0, 0, 3, 0x200, none, some crec, 0, 0, none, none⟩
def lf (s : State) (va : Word) (k : Kind) : Option Nat := match s.threadReach 0 va k with | .ok (_, d) => d | .error _ => some 77
def sC (x : CopyCmd) : State := (claimed 0 sA).modCore 0 fun c => {c with cq := [x, {x with tag := 4}]}
def cmd2 : CopyCmd := {cmd0 with kind := .d2, record := none}
def rec2 : State := (((((sC cmd2).wr64 (sram 0x200) 0x10040).wr64 (sram 0x208) 0x10100).wr64 (sram 0x210) (0x4 + (2 <<< 32))).wr64 (sram 0x218) 0x40).wr64 (sram 0x220) 0x40
def bsOf : List Byte := rec2.rdBytes (sram 0x200) 64
def sE0 := sC {cmd0 with stat := some 0x55, tid := 99}
def sLk : State := {sA with asids := [(0, 0x8000000000000001 ||| word (sram 0x8000))], vfmap := [(1, 0x8000000000000000)]}
def sLk2 : State := sLk.modCore 0 fun c => {c with cq := [cmd2]}
def sLk3 : State := match sLk2.agentReach 0 0x70 1 .write with | .ok (_, s) => s | .error _ => sLk2
def cmdE : CopyCmd := {cmd0 with stat := some 0x55}
def inExit (s : State) : State := s.modCtx 0 fun c => {c with park := .copies 0 77}
def pipe0 : Pipe := ⟨1, 0, 0, 0, 0, 2, 1, [5], sram 0x1000, 3, sram 0x1000, 0x11000, 3, 0, .bound, 0, [], false, 1⟩
def inst0 : Inst := ⟨.live, ⟨0,0,0,0,0,1,1,1,false,0,0⟩, 1, none, 0, 0, 0, false, sram 0x1000, 3, sram 0x2000, 0, 0, 0, none, 0, false⟩
def withPipe (x : Pipe) (y : Inst) (s : State) : State := s.modPart 0 fun p => {p with pipes := [(0, x)], insts := [(5, y)]}
def bd (va : Word) : Msg := {mg (.bind va none) 0 .home with va := va}
def sDr (p : Pipe) (y : Inst) : State := (((withPipe p y sA).wr64 (sram 0x1000) 9).wr (sram (0x1000+24+12)) 4 6).wr (sram 0x103F) 1 8
def drain : Pipe := {pipe0 with st := .draining 5}
def over_ : Inst := {inst0 with st := .over 2, owner := 9}
def evp : Pipe := {pipe0 with event := 0x80, held := [5, 6], ovf := true}
def sEv : State := (sDr evp inst0).setEmpty (sram 0x80)
def fnPipe : State := {sEv.modPart 0 fun p => {p with pipes := [(0, {evp with fn := 1})]} with asids := sLk.asids, vfmap := sLk.vfmap}
def words (a : Nat) (l : List Word) (s : State) : State := (l.foldl (fun (x : Nat × State) w => (x.1 + 8, x.2.wr64 x.1 w)) (a, s)).2
def sBd : State := words (sram 0x400) [0x1000, word (7 + 2^32 + 3 * 2^40 + 2^48), 0, 0x2000] (words (sram 0x480) [0x100, 0, 0, word (1 + 2^16 + 2^24), 0x106, 0x3000] sA)
def lnB := (sBd.readRecord (bd 0x400) 0x400).1
def bdB : Msg := {bd 0x400 with op := .bind 0x400 lnB}
def sB2 := put bdB sBd
def rB : BindRec := (lnB.bind (sB2.bindRec bdB)).getD ⟨0,0,0,0,0,0,0,0,[]⟩
def aB := match sB2.bindAt bdB rB rB.nstg with | .ok (a, _) => some a | .error _ => none
def sB3 := match sB2.bindAt bdB rB rB.nstg with | .ok (_, s) => s | .error _ => sA
def aB0 := aB.getD ⟨none,0,0,0⟩
def sBf : State := sB2.modPart 0 fun p => {p with pipes := (List.range 256).map fun k => (k, pipe0)}
def sBj0 : State := sBd.wr64 (sram 0x410) (word (2^40))
def lnJ := (sBj0.readRecord (bd 0x400) 0x400).1
def bdJ : Msg := {bd 0x400 with op := .bind 0x400 lnJ}
def sBj : State := put bdJ sBj0
def rBj : BindRec := (lnJ.bind (sBj.bindRec bdJ)).getD ⟨0,0,0,0,0,0,0,0,[]⟩
def sB0 := put (bd 0x10) sBd
def arg0 : List CopyCmd := [{cmd0 with tag := 4}]
def arg1 : ℕ := sram 64
def arg2 : ℕ := sram 0x100
def arg3 : Option ℕ := lf (sC cmd0) 0x10040 .read
def arg4 : Option ℕ := lf (sC cmd0) 0x10100 .write
def arg5 : List CopyCmd := [{cmd2 with tag := 4}]
def arg6 : State := (rec2.copyRead cmd2 cmd2.recVa 64).1
def arg7 : State := sC {cmd2 with recVa := 0x8}
def arg8 : CopyCmd := {cmd2 with recVa := 0x8}
def arg9 : List CopyCmd := [{cmd2 with tag := 4,recVa := 0x8}]
def arg10 : CopyCmd := {cmd0 with stat := some 0x55, tid := 99}
def arg11 : List CopyCmd := [{cmd0 with stat := some 0x55, tid := 99, tag := 4}]
def arg12 : ℕ := sram 0x70
def arg13 : List Byte := [1,2,3,4]
def arg14 : List CopyCmd := [{cmdE with tag := 4}]
def arg15 : State := sDr {pipe0 with st := .ending 4} inst0
def arg16 : Pipe := {pipe0 with st := .ending 4}
def arg17 : Pipe := {evp with fn := 1}
def arg18 : List Word := [6]
def arg19 : ℕ := sram 0x80
def arg20 : Msg := bd 0x10
def arg21 : State := (runOf (sQ ve) ve).1
def arg22 : State := (runOf (sQ vl) vl).1

theorem meets_CopyEngine :
    -- clause 0
    ((sC cmd0).core 0).cq = cmd0 :: arg0 ∧ cmd0.record = some crec ∧ cmd0.stat = none ∧ cmd0.kind ≠ CopyKind.link ∧
    cmd0.cell = none ∧ Memory.wf (sC cmd0).mem = true ∧ (sC cmd0).marks = [] ∧
    (∀ y ∈ (sC cmd0).flights, y.loc ≠ Loc.waiting) ∧
    0 < min (crec.len - cmd0.off) (64 - BitVec.toNat ((crec.rowAt cmd0.kind cmd0.row).2 + word cmd0.off) % 64) ∧
    BitVec.toNat ((crec.rowAt cmd0.kind cmd0.row).1 + word cmd0.off) % 64 + min (crec.len - cmd0.off) (64 - BitVec.toNat
      ((crec.rowAt cmd0.kind cmd0.row).2 + word cmd0.off) % 64) ≤ 64 ∧
    (arg1 + min (crec.len - cmd0.off) (64 - BitVec.toNat ((crec.rowAt cmd0.kind cmd0.row).2 + word cmd0.off) % 64) ≤ arg2 ∨
      arg2 + min (crec.len - cmd0.off) (64 - BitVec.toNat ((crec.rowAt cmd0.kind cmd0.row).2 + word cmd0.off) % 64) ≤ arg1) ∧
    (sC cmd0).threadReach cmd0.tid ((crec.rowAt cmd0.kind cmd0.row).1 + word cmd0.off) Kind.read = Except.ok (arg1, arg3) ∧
    (sC cmd0).threadReach cmd0.tid ((crec.rowAt cmd0.kind cmd0.row).2 + word cmd0.off) Kind.write = Except.ok (arg2, arg4) ∧
    (sC cmd0).dirty ((sC cmd0).copyMsg cmd0 ((crec.rowAt cmd0.kind cmd0.row).2 + word cmd0.off) arg2).core arg4 = sC cmd0 ∧
    (∀ (o : ℕ), (sC cmd0).target arg1 ≠ some (Target.host o)) ∧ (∀ (o : ℕ), (sC cmd0).target arg2 ≠ some (Target.host o)) ∧
    (sC cmd0).refusal ((sC cmd0).copyMsg cmd0 ((crec.rowAt cmd0.kind cmd0.row).1 + word cmd0.off) arg1)
      ({ n := min (crec.len - cmd0.off) (64 - BitVec.toNat ((crec.rowAt cmd0.kind cmd0.row).2 + word cmd0.off) % 64), writes := false, reads := true, sync := false }
      : Touch) = (sC cmd0, none) ∧
    (sC cmd0).lineRefused ((sC cmd0).copyMsg cmd0 ((crec.rowAt cmd0.kind cmd0.row).2 + word cmd0.off) arg2) (min (crec.len -
      cmd0.off) (64 - BitVec.toNat ((crec.rowAt cmd0.kind cmd0.row).2 + word cmd0.off) % 64)) = (sC cmd0, none) := by
  constructorm* _ ∧ _ <;> (
    first
      | decide +kernel
      | exact notHost_of (by decide +kernel))

theorem meets_CopyEngine_2 :
    -- clause 1.0
    (rec2.core 0).cq = cmd2 :: arg5 ∧ cmd2.record = none ∧ cmd2.stat = none ∧ cmd2.kind = CopyKind.d2 ∧ cmd2.cell = none ∧
    rec2.copyHeld 0 cmd2 = false ∧ BitVec.toNat cmd2.recVa % 64 = 0 ∧
    rec2.copyRead cmd2 cmd2.recVa 64 = (arg6, Except.ok bsOf) ∧
    (copyRecBad CopyKind.d2 (List.foldr (fun (b : Byte) (a : ℕ) => BitVec.toNat b + 256 * a) 0 bsOf) = false) ∧
    -- clause 1.1
    (arg7.core 0).cq = arg8 :: arg9 ∧ arg8.record = none ∧ arg8.stat = none ∧ arg7.copyHeld 0 arg8 = false ∧
    BitVec.toNat arg8.recVa % 64 ≠ 0 ∧
    -- clause 1.2
    (sE0.core 0).cq = arg10 :: arg11 ∧ arg10.stat = some (85 : Word) ∧
    (∀ (j v : Word), (sE0.ctx arg10.tid).park ≠ Park.copies j v) := by
  constructorm* _ ∧ _ <;> (
    first
      | exact notCopies_of (by decide +kernel)
      | decide +kernel)

theorem meets_CopyEngine_3 :
    -- clause 1.4
    (sLk2.core 0).cq = [cmd2] ∧ Memory.wf sLk3.mem = true ∧ sLk3.marks = [] ∧ (∀ y ∈ sLk3.flights, y.loc ≠ Loc.waiting) ∧
    sLk2.agentReach 0 (112 : Word) 1 Kind.write = Except.ok (arg12, sLk3) ∧ sLk3.target arg12 = some (Target.sram 0 112) ∧
    arg12 % 64 + arg13.length ≤ 64 ∧
    sLk3.lineRefused (sLk3.agentMsg (sLk2.asidOwner 0).1 (sLk2.asidOwner 0).2 0 HomeOp.none (112 : Word) arg12) arg13.length =
      (sLk3, none) ∧
    -- clause 1.3
    ((inExit (sC cmdE)).core 0).cq = cmdE :: arg14 ∧ cmdE.stat = some (85 : Word) ∧
    ((inExit (sC cmdE)).ctxs.look cmdE.tid).isSome = true ∧ ((inExit (sC cmdE)).ctx cmdE.tid).core = 0 ∧
    ((inExit (sC cmdE)).ctx cmdE.tid).park = Park.copies (0 : Word) (77 : Word) ∧
    ((inExit (sC cmdE)).ctx cmdE.tid).pending = none := by
  constructorm* _ ∧ _ <;> decide +kernel

theorem meets_MandrelSteps :
    -- clauses 0.3.0, 0.3.1
    sB2.msg bdB.id = some bdB ∧ bdB.op = HomeOp.bind (1024 : Word) lnB ∧ bdB.loc = Loc.home ∧
    (sB2.partition bdB.part).busyEnding = false ∧ sB2.resetting.contains bdB.fn = false ∧
    lnB.bind (sB2.bindRec bdB) = some rB ∧ List.length (sB2.partition bdB.part).pipes < 256 ∧
    sB2.bindAt bdB rB rB.nstg = Except.ok (aB0, sB3) ∧
    (List.find? (fun (k : ℕ) => ((sB3.partition bdB.part).pipes.look k).isNone) (List.range 256) = some 0) ∧
    -- clause 1.0
    ((sDr drain inst0).partition 0).pipes.look 0 = some drain ∧ drain.chain = [5] ∧ drain.event = (0 : Word) ∧
    drain.held = [] ∧ ((sDr drain inst0).partition 0).insts.look 5 = some inst0 ∧ inst0.task = none ∧
    (List.filter (fun (e : ℕ × Pipe) => e.2.chain.contains 5 && decide (e.1 ≠ 0)) ((sDr drain inst0).partition 0).pipes = [])
      ∧ (sDr drain inst0).flights = [] ∧ drain.st = PipeState.draining (5 : Word) ∧
    (sDr drain inst0).ringCval drain.readRing drain.readCur = true ∧
    ↑(BitVec.toNat (5 : Word)) ≤ (sDr drain inst0).ringCur drain.readRing drain.readCur := by
  constructorm* _ ∧ _ <;> decide +kernel

theorem meets_MandrelSteps_2 :
    -- clause 1.1
    (arg15.partition 0).pipes.look 0 = some arg16 ∧ arg16.chain = [5] ∧ arg16.event = (0 : Word) ∧ arg16.held = [] ∧
    (arg15.partition 0).insts.look 5 = some inst0 ∧ inst0.task = none ∧
    (List.filter (fun (e : ℕ × Pipe) => e.2.chain.contains 5 && decide (e.1 ≠ 0)) (arg15.partition 0).pipes = []) ∧
    arg15.flights = [] ∧ arg16.st = PipeState.ending 4 ∧
    -- clause 2
    Memory.wf (sDr drain over_).mem = true ∧ (sDr drain over_).flights = [] ∧
    ((sDr drain over_).partition 0).insts.look 5 = some over_ ∧ over_.st = InstState.over 2 ∧
    ((sDr drain over_).partition 0).pipes.look over_.owner = none ∧ over_.inCur < 8 ∧
    (sDr drain over_).sealedAt over_.inRing 64 = false ∧
    (sDr drain over_).dirtyVa over_.asid (((sDr drain over_).partition 0).inputVa over_) = sDr drain over_ := by
  constructorm* _ ∧ _ <;> decide +kernel

theorem meets_MandrelSteps_3 :
    -- clause 3
    (fnPipe.partition 0).pipes.look 0 = some arg17 ∧ arg17.held = (5 : Word) :: arg18 ∧
    fnPipe.agentReach arg17.asid arg17.event 8 Kind.write = Except.ok (arg19, fnPipe) ∧
    fnPipe.target arg19 = some (Target.sram 0 128) ∧ fnPipe.isCell arg19 = false ∧ fnPipe.isFull arg19 = false ∧
    (∀ z ∈ fnPipe.flights, z.loc ≠ Loc.waiting) ∧
    (fnPipe.refusal (fnPipe.agentMsg arg17.fn 0 arg17.asid (HomeOp.storeFill 8 (if arg17.ovf = true then (5 : Word) |||
      BitVec.ofNat 64 36028797018963968 else (5 : Word))) arg17.event arg19)
      ({ n := 8, writes := true, reads := false, sync := true } : Touch) = (fnPipe, none)) ∧
    -- clause 0.1
    sBf.msg bdB.id = some bdB ∧ bdB.op = HomeOp.bind (1024 : Word) lnB ∧ bdB.loc = Loc.home ∧
    (sBf.partition bdB.part).busyEnding = false ∧ sBf.resetting.contains bdB.fn = false ∧
    lnB.bind (sBf.bindRec bdB) = some rB ∧ 256 ≤ List.length (sBf.partition bdB.part).pipes ∧
    -- clause 0.2
    sBj.msg bdJ.id = some bdJ ∧ bdJ.op = HomeOp.bind (1024 : Word) lnJ ∧ bdJ.loc = Loc.home ∧
    (sBj.partition bdJ.part).busyEnding = false ∧ sBj.resetting.contains bdJ.fn = false ∧
    lnJ.bind (sBj.bindRec bdJ) = some rBj ∧ List.length (sBj.partition bdJ.part).pipes < 256 ∧
    sBj.bindAt bdJ rBj rBj.nstg = Except.error 2 := by
  constructorm* _ ∧ _ <;> decide +kernel

theorem meets_MandrelSteps_4 :
    -- clause 0.0
    sB0.msg arg20.id = some arg20 ∧ arg20.op = HomeOp.bind (16 : Word) none ∧ arg20.loc = Loc.home ∧
    (sB0.partition arg20.part).busyEnding = false ∧ sB0.resetting.contains arg20.fn = false ∧
    none.bind (sB0.bindRec arg20) = none := by
  constructorm* _ ∧ _ <;> decide +kernel

theorem meets_EngineSteps :
    -- clauses 1.0, 1.1, 1.2, 1.3
    eMM.instr = Instr.mma MmaTy.i8 (0 : BitVec 2) (0 : BitVec 2) (1 : BitVec 2) (1 : BitVec 3) (2 : BitVec 3) (0 : BitVec 6) ∧
    tdescOk (egM.tdesc (1 : BitVec 3)) = true ∧ tdescOk (egM.tdesc (2 : BitVec 3)) = true ∧
    (Tdesc.of (egM.tdesc (1 : BitVec 3))).ew = 1 ∧ (Tdesc.of (egM.tdesc (2 : BitVec 3))).ew = 1 ∧
    (Tdesc.of (egM.tdesc (1 : BitVec 3))).cols = (Tdesc.of (egM.tdesc (2 : BitVec 3))).cols ∧
    (Tdesc.of (egM.tdesc (1 : BitVec 3))).cols ≤ 32 ∧ (2 : BitVec 2) ≠ (1 : BitVec 2) ∧
    1 < (Tdesc.of (egM.tdesc (1 : BitVec 3))).rows ∧ 0 < (Tdesc.of (egM.tdesc (2 : BitVec 3))).rows ∧
    fld (egM.acc (1 : BitVec 2)) ((1 * 32 + 0) * 32) 32 = 0 ∧
    -- clause 0.0
    (sQ ve).endable 0 1 = some ve ∧
    (sQ ve).engineRun ve (((sQ ve).core 0).eng ve.ctx) = (arg21, Except.ok (okOf (sQ ve) ve)) ∧
    -- clause 0.1
    (sQ vl).endable 0 1 = some vl ∧
    (sQ vl).engineRun vl (((sQ vl).core 0).eng vl.ctx) = (arg22, Except.error (erOf (sQ vl) vl)) ∧
    (arg22.ctxs.look vl.tid).isSome = true ∧ (arg22.ctx vl.tid).pend2 = none ∧ engineDst vl.instr = none ∧
    -- clause 0.2
    (sM.core 0).stepping = some 0 ∧ (Option.map (fun (x : QEntry) => x.seq) (headOf (sM.core 0).mq 0) = some me.seq) := by
  constructorm* _ ∧ _ <;> decide +kernel

theorem meets_EngineSteps_2 :
    -- clause 0.3
    (sSp.core 0).eng0.spillTo = some 3 ∧ (sSp.core 0).eng0.owner = some 0 ∧ (sSp.core 0).eng0.next = none ∧
    (sSp.core 0).engineWork 0 = false ∧ (((sSp.core 0).cq.any fun (x : CopyCmd) => decide (x.tid = 0)) = false) ∧
    sSp.saveOk (sSp.ctx 0).fn 0 = true ∧
    -- clause 1.4
    eMM.instr = Instr.mma MmaTy.i8 (0 : BitVec 2) (0 : BitVec 2) (1 : BitVec 2) (1 : BitVec 3) (2 : BitVec 3) (0 : BitVec 6) ∧
    tdescOk (egM.tdesc (1 : BitVec 3)) = true ∧ tdescOk (egM.tdesc (2 : BitVec 3)) = true ∧
    (Tdesc.of (egM.tdesc (1 : BitVec 3))).ew = 1 ∧ (Tdesc.of (egM.tdesc (2 : BitVec 3))).ew = 1 ∧
    (Tdesc.of (egM.tdesc (1 : BitVec 3))).cols = (Tdesc.of (egM.tdesc (2 : BitVec 3))).cols ∧
    (Tdesc.of (egM.tdesc (1 : BitVec 3))).cols ≤ 32 ∧ 1 < 32 ∧ 2 < 32 ∧
    ¬(1 < (Tdesc.of (egM.tdesc (1 : BitVec 3))).rows ∧ 2 < (Tdesc.of (egM.tdesc (2 : BitVec 3))).rows) ∧
    -- clause 0.4
    (List.find? (fun (m : Msg) => decide (m.loc = Loc.home) && decide ((put sf sA).clusterOf m.core = 0) && match m.op with | HomeOp.sfu fn x => true | x => false) (put sf sA).flights = some sf) ∧
    sf.op = HomeOp.sfu 1 (1073741824 : BitVec 32) := by
  constructorm* _ ∧ _ <;> decide +kernel

end Engines

namespace Partitions

def sA := (at_ base (.add (.g 3) (.g 1) (.g 2))).wr (sram 64) 8 0x1122334455667788
def vr (p len log : Nat) : Word := word (2^63 + p * 2^16 + len * 2^32 + log * 2^8)
def sAu : State := {sA with parts := sA.parts.put 1 {Partition.reset with audbase := word (2^48 + 2^27*7)}}
def sP1 : State := sA.modPart 0 fun p => {p with audlog := 10}
def sTd : State := {(sP1.modPart 0 fun p => {p with st := 2, en := false, audbase := word (sram 0x1000), seals := [⟨0, 4096, 5, [sram 0x9000 / 4096]⟩]}).wr (sram 0x9008) 8 77 with sealed := [sram 0x9000 / 4096, 4]}
def sF : State := {sA with vfmap := [(5, 0x8000000000000000)], fns := [(5, {Fn.reset 5 with ready := true, queues := [(3, {QPair.reset with en := true})]})]}
def sR : State := {sF with resetting := [5], grants := ⟨sram 0x2000, 4096, .fn 5⟩ :: sF.grants, mem := [(sram 0x2008, 3), (sram 0x3008, 4)], empt := [sram 0x2010], nextTid := 3}
def iv : Inval := ⟨3, [], []⟩
def sGr : State := {(sA.wr (sram 0x1008) 8 55).setEmpty (sram 0x1010) with fgbase := word (sram 0x1000), fglen := 8192}
def ivm : Inval := ⟨3, [7], [(0, .wb 3 {sA.request 0 (.load 8) 0x100 0 none with id := 9})]⟩
def mIv : Msg := {sA.request 0 (.load 8) 0x10000 (sram 64) none with id := 7, loc := .home}
def arg0 : State := {sA with inval := some iv}
def arg1 : State := {sGr with fglen := 5}
def arg2 : ℕ := sram 0x1000/4096
def arg3 : State := {sGr with zeroing := [sram 0x1000/4096, 9], asids := []}
def arg4 : State := {sA with inval := some ivm, flights := [mIv]}
def arg5 : State := sF.modCtx 0 fun c => {c with fn := 5, lvl := .u}
def arg6 : Word := vr 60 64 10
def arg7 : Word := word (0 + 64*2^32 + 10*2^8)
def arg8 : State := {sTd with resetting := [2], vfmap := [(2, 0)]}
def arg9 : Word := word (0 + 64*2^32 + 10*2^8)

theorem meets_InvalidationsGrantsAndTurns :
    -- clause 0
    BitVec.getLsbD (4611686018427387904 : Word) 62 = true ∧ sA.inval = none ∧
    -- clause 1
    BitVec.getLsbD (131075 : Word) 62 = false ∧
    -- clause 2
    arg0.inval = some iv ∧ arg0.passing iv.msgs iv.tcm = false ∧
    -- clause 5
    arg1.grantOk (BitVec.toNat arg1.fgbase) (BitVec.toNat arg1.fglen) = false ∧
    -- clause 6
    arg2 ∈ arg3.zeroing ∧ (∀ e ∈ arg3.asids, BitVec.getLsbD e.2 63 = false) ∧
    -- clause 3
    arg4.inval = some ivm ∧
    ((∃ m ∈ arg4.flights, m.id ∈ ivm.msgs ∧ m.loc = Loc.home) ∨ (∃ m ∈ arg4.unsent, m.id ∈ ivm.msgs) ∨ ∃ e ∈ ivm.tcm, e.2 ∈
      (arg4.core e.1).delayed) := by
  constructorm* _ ∧ _ <;> decide +kernel

theorem meets_RegistersByOffset :
    -- clauses 3, 4, 5, 6, 9, 10
    3 < 12 ∧ 3 < 16 ∧ 1 ≤ 3 ∧ 3 ≤ 1024 ∧ 3 < 1024 ∧ 3 < sA.part.cores ∧ 5 < 32 ∧ 5 < 64 ∧
    -- clause 11
    33824 ≤ 49152 ∧ 49152 < 65536 := by
  constructorm* _ ∧ _ <;> decide +kernel

theorem meets_FunctionsAndAsids :
    -- clause 0
    BitVec.getLsbD (9223372036854775808 : Word) 63 = true ∧ 1 ≤ 5 ∧ 5 ≤ 1024 ∧
    BitVec.getLsbD ((sA.vfmap.look 5).getD (0 : Word)) 63 = false ∧
    (sA.partition (BitVec.extractLsb' 0 4 (9223372036854775808 : Word)).toNat).st = 1 ∧
    -- clause 1
    BitVec.getLsbD (9223372036854775809 : Word) 63 = true ∧
    (sA.partition (BitVec.extractLsb' 0 4 (9223372036854775809 : Word)).toNat).st ≠ 1 ∧
    -- clause 2
    BitVec.getLsbD (0 : Word) 63 = false ∧ BitVec.getLsbD ((sF.vfmap.look 5).getD (0 : Word)) 63 = true ∧
    BitVec.toNat ((sF.vfmap.look 5).getD (0 : Word)) % 16 = (BitVec.extractLsb' 0 4 (0 : Word)).toNat ∧
    (∀ e ∈ sF.ctxs, e.2.fn ≠ 5) ∧ (∀ e ∈ sF.parts, e.2.pipes = []) ∧
    -- clause 3
    BitVec.getLsbD (18446744073709549573 : Word) 63 = true ∧ sF.asidLive 9 = false ∧
    (BitVec.extractLsb' 0 11 (18446744073709549573 : Word)).toNat ≤ 1024 ∧
    (BitVec.extractLsb' 0 11 (18446744073709549573 : Word) = (0 : BitVec 11) ∨ vfmapEn ((sF.vfmap.look (BitVec.extractLsb' 0
      11 (18446744073709549573 : Word)).toNat).getD (0 : Word)) = true) ∧
    -- clause 4
    BitVec.getLsbD (5 : Word) 63 = false ∧ sF.asidLive 0 = true ∧ (BitVec.extractLsb' 0 11 (5 : Word)).toNat ≤ 1024 := by
  constructorm* _ ∧ _ <;> decide +kernel

theorem meets_FunctionsAndAsids_2 :
    -- clause 5
    5 ∈ sR.resetting ∧ sR.tenantGone 5 = true ∧ (∀ e ∈ sR.tasks, e.2.fn ≠ 5) ∧ (∀ e ∈ sR.parts, ∀ y ∈ e.2.pipes, y.2.fn ≠ 5) ∧
    -- clause 6
    arg5.tenantGone 5 = false := by
  constructorm* _ ∧ _ <;> decide +kernel

theorem meets_PartitionsStartAndStop :
    -- clause 1
    BitVec.getLsbD arg6 63 = true ∧ BitVec.getLsbD arg6 62 = false ∧ (sAu.partition 1).en = false ∧
    ((BitVec.extractLsb' 32 13 arg6).toNat = 0 ∨ sAu.part.cores < (BitVec.extractLsb' 16 12 arg6).toNat + (BitVec.extractLsb'
      32 13 arg6).toNat ∨ (BitVec.extractLsb' 8 5 arg6).toNat < 10 ∨ 24 < (BitVec.extractLsb' 8 5 arg6).toNat ∨
      sAu.partOverlap 1 (BitVec.extractLsb' 16 12 arg6).toNat (BitVec.extractLsb' 32 13 arg6).toNat = true ∨ (sAu.partition
      1).st = 2 ∨ sAu.auditOk 1 (BitVec.extractLsb' 8 5 arg6).toNat = false ∨ (sAu.partition 1).slotsOk = false) ∧
    -- clause 2
    BitVec.getLsbD arg7 63 = false ∧ BitVec.getLsbD arg7 62 = false ∧ (sP1.partition 0).en = true ∧
    (BitVec.extractLsb' 16 12 arg7).toNat = (sP1.partition 0).base ∧
    (BitVec.extractLsb' 32 13 arg7).toNat = (sP1.partition 0).len ∧
    (BitVec.extractLsb' 8 5 arg7).toNat = (sP1.partition 0).audlog ∧ (∀ f ≤ 1024, sP1.fnPart f ≠ some 0) ∧
    -- clause 3
    (sTd.partition 0).st = 2 ∧ sTd.partBusy 0 = false ∧
    -- clause 5
    arg8.partBusy 0 = true ∧
    -- clause 4
    (sTd.partition 0).en = false ∧ BitVec.getLsbD arg9 63 = false ∧ BitVec.getLsbD arg9 62 = false := by
  constructorm* _ ∧ _ <;> decide +kernel

end Partitions

namespace Device

def sA := (at_ base (.add (.g 3) (.g 1) (.g 2))).wr (sram 64) 8 0x1122334455667788
def sGr : State := {(sA.wr (sram 0x1008) 8 55).setEmpty (sram 0x1010) with fgbase := word (sram 0x1000), fglen := 8192}
def sSg : State := sA.modPart 0 fun p => {p with audlog := 10, audbase := word (sram 0x10000), audN := 3, audHeads := 17}
def im (k : BitVec 256) (v : BitVec 32) (b : Bool) : FwImage := ⟨k, v, 0, b⟩
def su (n : BitVec 8) : StartUp := ⟨n, 5, 0x8001⟩
def sOff : State := {sA with power := .off, fuseMin := 3}
def arg0 : Owner := (fgOwner 0x105).getD .pm
def arg1 : State := {sA with links := [(3, ⟨2,15⟩)]}
def arg2 : State := {sA with links := [(3, ⟨2,14⟩)], parts := [], ptpcfg := 3}
def arg3 : State := {sSg with wall := 100000000}
def arg4 : State := {sA with links := [(3, ⟨2,14⟩)], parts := []}
def arg5 : State := {sA with links := [(3, ⟨1,0⟩)], parts := [], ptpcfg := 4}
def arg6 : State := {(sSg.modPart 0 fun p => {p with audN := 0}) with wall := 100000000}
def arg7 : State := {sOff with image := im 0 4 true}
def arg8 : StartUp := su 3
def arg9 : FwImage := im 4 7 true
def arg10 : State := {sOff with image := im 0 4 true}
def arg11 : StartUp := su 0
def arg12 : State := {sOff with image := im 1 4 true}
def arg13 : State := {sOff with image := im 0 4 false}
def arg14 : State := {sOff with image := im 0 2 true}
def arg15 : State := {sOff with updateLost := true}
def arg16 : FwImage := im 0 7 true
def arg17 : StartUp := su 0

theorem meets_InvalidationsGrantsAndTurns_2 :
    -- clause 4
    fgOwner (261 : Word) = some arg0 ∧ sGr.grantOk (BitVec.toNat sGr.fgbase) (BitVec.toNat sGr.fglen) = true := by
  constructorm* _ ∧ _ <;> decide +kernel

theorem meets_TimeLinksPowerAndHeat :
    -- clauses 0.0, 0.4, 0.8, 0.9, 0.11
    arg1.ptpcfg.getLsbD 4 = true ∧ BitVec.toNat (100 : Word) < arg1.wall + 1000000 ∧ arg1.ptpcfg.toNat % 16 ≠ 3 ∧
    (arg1.link 3).st = 2 ∧ 15 ≤ (arg1.link 3).fails ∧ BitVec.getLsbD (100 : Word) 2 = true ∧ 3 < arg1.part.ports ∧
    (arg1.link 3).st ≠ 1 ∧
    -- clauses 0.2, 0.3, 0.7
    arg2.ptpcfg.getLsbD 4 = false ∧ arg2.ptpcfg.toNat % 16 = 3 ∧ (arg2.link 3).st = 2 ∧ 50 < arg2.wall + 1000000 ∧
    (arg2.link 3).fails < 15 ∧
    -- clauses 1.2, 1.4, 1.8
    sA.part.limit ≤ arg3.part.limit ∧ arg3.part.limit * 95 ≤ sA.part.limit * 100 ∧ arg3.partOf 0 = some 0 ∧
    (95 : ℤ) ≤ ↑(arg3.partition 0).thot ∧ ↑(arg3.partition 0).thot - (5 : ℤ) ≤ (95 : ℤ) ∧ (arg3.partition 0).st = 1 ∧
    (arg3.partition 0).audPeriodFrom + arg3.audsig * 1000000 ≤ arg3.wall ∧
    (arg3.partition 0).audSigned < (arg3.partition 0).audN ∧ Memory.wf arg3.mem = true ∧ arg3.marks = [] := by
  constructorm* _ ∧ _ <;> decide +kernel

theorem meets_TimeLinksPowerAndHeat_2 :
    -- clause 0.1
    arg4.ptpcfg.getLsbD 4 = true ∧ arg4.wall + 1000000 ≤ BitVec.toNat (1000004 : Word) ∧ arg4.parts = [] ∧
    -- clause 0.10
    (arg5.link 3).st = 1 ∧
    -- clause 1.0
    sA.part.limit < 20000000 ∧ 1100 ≤ (sA.cluster 2).mhz ∧
    -- clause 1.9
    (arg6.partition 0).st = 1 ∧ (arg6.partition 0).audN ≤ (arg6.partition 0).audSigned ∧
    (arg6.partition 0).audPeriodFrom + arg6.audsig * 1000000 ≤ arg6.wall ∧
    -- clause 1.3
    sA.partOf 0 = some 0 ∧ ↑(sA.partition 0).thot < (96 : ℤ) ∧ (sA.hotSlots 0).getLast? = some 0 := by
  constructorm* _ ∧ _ <;> decide +kernel

theorem meets_StartUpAndFirmware :
    -- clauses 0.1, 6
    arg7.power = Power.off ∧ arg7.updateLost = false ∧
    sha256 (beBytes arg7.image.key.toNat 32) = arg7.fuseKey ∧ arg7.image.sigVerifies = true ∧ arg7.fuseMin.toNat ≤
      arg7.image.version.toNat ∧ arg8.failStep ≠ (0 : BitVec 8) ∧ 114 < 115 ∧
    -- clauses 3, 5
    sA.awake = true ∧
    ¬(sha256 (beBytes arg9.key.toNat 32) = sA.fuseKey ∧ arg9.sigVerifies = true ∧ sA.fuseMin.toNat ≤ arg9.version.toNat) ∧
    115 ≤ 116 ∧
    -- clause 0.0
    arg10.power = Power.off ∧ arg10.updateLost = false ∧
    sha256 (beBytes arg10.image.key.toNat 32) = arg10.fuseKey ∧ arg10.image.sigVerifies = true ∧ arg10.fuseMin.toNat ≤
      arg10.image.version.toNat ∧ arg11.failStep = (0 : BitVec 8) ∧
    -- clause 0.2
    arg12.power = Power.off ∧ arg12.updateLost = false ∧ ¬sha256 (beBytes arg12.image.key.toNat 32) = arg12.fuseKey ∧
    -- clause 0.3
    arg13.power = Power.off ∧ arg13.updateLost = false ∧ sha256 (beBytes arg13.image.key.toNat 32) = arg13.fuseKey ∧
    arg13.image.sigVerifies = false ∧
    -- clause 0.4
    arg14.power = Power.off ∧ arg14.updateLost = false ∧ sha256 (beBytes arg14.image.key.toNat 32) = arg14.fuseKey ∧
    arg14.image.sigVerifies = true ∧ arg14.image.version.toNat < arg14.fuseMin.toNat := by
  constructorm* _ ∧ _ <;> decide +kernel

theorem meets_StartUpAndFirmware_2 :
    -- clause 1
    arg15.power = Power.off ∧ arg15.updateLost = true ∧
    -- clause 2
    sA.awake = true ∧
    sha256 (beBytes arg16.key.toNat 32) = sA.fuseKey ∧ arg16.sigVerifies = true ∧ sA.fuseMin.toNat ≤ arg16.version.toNat ∧
    arg17.failStep = (0 : BitVec 8) := by
  constructorm* _ ∧ _ <;> decide +kernel

end Device

namespace Queues

def sA := (at_ base (.add (.g 3) (.g 1) (.g 2))).wr (sram 64) 8 0x1122334455667788
def vr (p len log : Nat) : Word := word (2^63 + p * 2^16 + len * 2^32 + log * 2^8)
def sl0 : Word := word (63 * 2^20 + 63 * 2^8 + 1 * 2^32)
def sAu : State := {sA with parts := sA.parts.put 1 {Partition.reset with audbase := word (sram 0x200000), slcnt := 1, slots := [(0, sl0)]}, grants := ⟨sram 0x200000, 0x100000, .part 1⟩ :: sA.grants}
def sLo : State := {sA with clusters := [(2, {Cluster.reset with mhz := 1900})]}
def sqq (f : QPair → QPair) : State := {sA with fns := [(0, {Fn.reset 0 with queues := [(3, f {QPair.reset with sqbase := 0x1000, cqbase := 0x2000, sqlog := 4, cqlog := 4, ien := true})]})]}
def hp (o : Nat) : Nat := 8*2^48 + o
def rcd (seq : Nat) (s : State) : State := s.wr64 (hp 0x1040) (word (seq * 2^16 + 1))
def recd (opc hi : Nat) (q1 q2 q3 : Nat) : BitVec 512 := BitVec.ofNat 512 (opc + 0x70000 + hi*2^32 + q1 * 2^64 + q2 * 2^128 + q3 * 2^192)
def c_ (fn opc hi q1 q2 q3 : Nat) (st : CmdState := .pending) : Cmd := ⟨4, fn, 3, recd opc hi q1 q2 q3, st⟩
def sc (c : Cmd) (s : State) : State := {s with cmds := [c]}
def cf := c_ 0 1 0 1 2 3 (.finished 3 0x44 0x55 0x66)
def arg0 : State := sqq fun x => {x with stopped := true, sqhead := 5, expseq := 7}
def arg1 : State := sqq fun x => {x with en := true, mismatch := true, sqhead := 5}
def arg2 : State := rcd 5 ({sqq fun x => {x with en := true, sqtail := 2, expseq := 5, sqhead := 1} with power := .running})
def arg3 : State := rcd 5 {({sqq fun x => {x with en := true, sqtail := 2, expseq := 5, sqhead := 1, mismatch := true, retries := 63} with power := .running}) with wall := 1000}
def arg4 : State := sqq fun x => {x with en := true, sqtail := 2, expseq := 0, sqhead := 1}
def arg5 : State := sqq fun x => {x with en := true, sqtail := 2, expseq := 5, sqhead := 1}
def arg6 : State := sqq fun x => {x with en := true}
def arg7 : State := {sqq fun x => {x with en := true, sqtail := 2, expseq := 0, sqhead := 1, mismatch := true, retries := 7} with wall := 1000}
def arg8 : State := {sqq fun x => {x with en := true, sqtail := 2, expseq := 4, sqhead := 1, mismatch := true, retries := 63} with wall := 1000}
def arg9 : State := sc cf (sqq fun x => {x with en := true, cqtail := 15})
def arg10 : State := sc cf (sqq fun x => {x with en := true, cqtail := 5, cqused := 16, phase := true})
def arg11 : State := {sA with hostOut := [(hp 8, 4, 0x1FFFFFFFF), (3, 4, 5)]}
def arg12 : ℕ := hp 8
def arg13 : List (ℕ × ℕ × ℕ) := [(3,4,5)]
def arg14 : Word := vr 64 64 10

theorem meets_QueuePairSteps :
    -- clause 0
    0 ≤ 1024 ∧ 3 < 64 ∧
    -- clause 2
    BitVec.getLsbD (3139 : Word) 0 = true ∧ (arg0.qpair 0 3).en = false ∧ 4 ≤ (BitVec.extractLsb' 4 4 (3139 : Word)).toNat ∧
    (BitVec.extractLsb' 4 4 (3139 : Word)).toNat ≤ 12 ∧ 4 ≤ (BitVec.extractLsb' 8 4 (3139 : Word)).toNat ∧
    (BitVec.extractLsb' 8 4 (3139 : Word)).toNat ≤ 12 ∧
    -- clause 3
    BitVec.getLsbD (1090 : Word) 0 = false ∧
    ((arg1.qpair 0 3).en = false ∨ (BitVec.extractLsb' 4 4 (1090 : Word)).toNat = (arg1.qpair 0 3).sqlog ∧ (BitVec.extractLsb'
      8 4 (1090 : Word)).toNat = (arg1.qpair 0 3).cqlog) := by
  constructorm* _ ∧ _ <;> decide +kernel

theorem meets_QueuePairSteps_2 :
    -- clause 5
    0 ≤ 1024 ∧ 3 < 64 ∧ ((arg2.qpair 0 3).en = true ∧ arg2.power = Power.running ∧ (arg2.function 0).ready = true) ∧
    (arg2.qpair 0 3).stopped = false ∧ ((arg2.qpair 0 3).mismatch = false) ∧
    (arg2.qpair 0 3).sqhead ≠ (arg2.qpair 0 3).sqtail ∧
    BitVec.extractLsb' 16 16 (arg2.sqRecord (arg2.qpair 0 3)) = (arg2.qpair 0 3).expseq ∧
    -- clause 6
    ((arg3.qpair 0 3).en = true ∧ arg3.power = Power.running ∧ (arg3.function 0).ready = true) ∧
    ((arg3.qpair 0 3).mismatch = true) ∧ (arg3.qpair 0 3).readAt + 1000 ≤ arg3.wall ∧
    BitVec.extractLsb' 16 16 (arg3.sqRecord (arg3.qpair 0 3)) = (arg3.qpair 0 3).expseq := by
  constructorm* _ ∧ _ <;> decide +kernel

theorem meets_HostQueues :
    -- clauses 0, 9, 12
    BitVec.getLsbD (1091 : Word) 0 = true ∧
    4 ≤ (BitVec.extractLsb' 4 4 (1091 : Word)).toNat ∧ (BitVec.extractLsb' 4 4 (1091 : Word)).toNat ≤ 12 ∧ 4 ≤
      (BitVec.extractLsb' 8 4 (1091 : Word)).toNat ∧ (BitVec.extractLsb' 8 4 (1091 : Word)).toNat ≤ 12 ∧
    ((sqq id).qpair 0 3).en = false ∧
    (((sqq id).qpair 0 3).sqhead = ((sqq id).qpair 0 3).sqtail ∨ ((sqq id).qpair 0 3).stopped = true) ∧
    (sqq id).wall < ((sqq id).qpair 0 3).readAt + 1000 ∧
    -- clauses 1, 7
    BitVec.getLsbD (15 : Word) 0 = true ∧
    ¬(4 ≤ (BitVec.extractLsb' 4 4 (15 : Word)).toNat ∧ (BitVec.extractLsb' 4 4 (15 : Word)).toNat ≤ 12 ∧ 4 ≤
      (BitVec.extractLsb' 8 4 (15 : Word)).toNat ∧ (BitVec.extractLsb' 8 4 (15 : Word)).toNat ≤ 12) ∧
    ((arg4.qpair 0 3).en = true ∧ arg4.power = Power.running ∧ (arg4.function 0).ready = true) ∧
    (arg4.qpair 0 3).stopped = false ∧ ((arg4.qpair 0 3).mismatch = false) ∧
    (arg4.qpair 0 3).sqhead ≠ (arg4.qpair 0 3).sqtail ∧
    BitVec.extractLsb' 16 16 (arg4.sqRecord (arg4.qpair 0 3)) = (arg4.qpair 0 3).expseq ∧
    -- clauses 2, 8
    (arg5.qpair 0 3).en = true ∧
    ((BitVec.extractLsb' 4 4 (16 : Word)).toNat ≠ (arg5.qpair 0 3).sqlog ∨ (BitVec.extractLsb' 8 4 (16 : Word)).toNat ≠
      (arg5.qpair 0 3).cqlog) ∧ BitVec.getLsbD (16 : Word) 0 = false ∧
    ((arg5.qpair 0 3).en = true ∧ arg5.power = Power.running ∧ (arg5.function 0).ready = true) ∧
    (arg5.qpair 0 3).stopped = false ∧ ((arg5.qpair 0 3).mismatch = false) ∧
    (arg5.qpair 0 3).sqhead ≠ (arg5.qpair 0 3).sqtail ∧
    BitVec.extractLsb' 16 16 (arg5.sqRecord (arg5.qpair 0 3)) ≠ (arg5.qpair 0 3).expseq ∧ (arg5.qpair 0 3).retries < 63 ∧
    -- clause 3
    (BitVec.extractLsb' 4 4 (1090 : Word)).toNat = (arg6.qpair 0 3).sqlog ∧
    (BitVec.extractLsb' 8 4 (1090 : Word)).toNat = (arg6.qpair 0 3).cqlog ∧ BitVec.getLsbD (1090 : Word) 0 = false := by
  constructorm* _ ∧ _ <;> decide +kernel

theorem meets_HostQueues_2 :
    -- clause 10
    ((arg7.qpair 0 3).en = true ∧ arg7.power = Power.running ∧ (arg7.function 0).ready = true) ∧
    ((arg7.qpair 0 3).mismatch = true) ∧ (arg7.qpair 0 3).readAt + 1000 ≤ arg7.wall ∧
    BitVec.extractLsb' 16 16 (arg7.sqRecord (arg7.qpair 0 3)) = (arg7.qpair 0 3).expseq ∧
    -- clause 11
    ((arg8.qpair 0 3).en = true ∧ arg8.power = Power.running ∧ (arg8.function 0).ready = true) ∧
    ((arg8.qpair 0 3).mismatch = true) ∧ (arg8.qpair 0 3).readAt + 1000 ≤ arg8.wall ∧
    BitVec.extractLsb' 16 16 (arg8.sqRecord (arg8.qpair 0 3)) ≠ (arg8.qpair 0 3).expseq ∧ (arg8.qpair 0 3).retries = 63 := by
  constructorm* _ ∧ _ <;> decide +kernel

theorem meets_CompletionsAndHostWrites :
    -- clause 0.0
    arg9.cmd cf.id = some cf ∧ cf.st = CmdState.finished (3 : BitVec 8) (68 : Word) (85 : Word) (102 : Word) ∧
    (arg9.qpair cf.fn cf.q).cqused < 2 ^ (arg9.qpair cf.fn cf.q).cqlog ∧ arg9.hostOut = [] ∧ Memory.wf arg9.mem = true ∧
    -- clause 0.1
    arg10.cmd cf.id = some cf ∧ 2 ^ (arg10.qpair cf.fn cf.q).cqlog ≤ (arg10.qpair cf.fn cf.q).cqused ∧
    -- clause 1.0
    arg11.hostOut = (arg12, 4, 8589934591) :: arg13 ∧ Memory.wf arg11.mem = true ∧
    -- clause 1.1
    sA.hostOut = [] := by
  constructorm* _ ∧ _ <;> decide +kernel

theorem meets_TimeLinksPowerAndHeat_3 :
    -- clause 1.1
    100 * 100 < sLo.part.limit * 95 ∧ (sLo.cluster 2).mhz ≤ 1900 := by
  constructorm* _ ∧ _ <;> decide +kernel

theorem meets_PartitionsStartAndStop_2 :
    -- clause 0
    BitVec.getLsbD arg14 63 = true ∧ BitVec.getLsbD arg14 62 = false ∧ (sAu.partition 1).en = false ∧
    (¬((BitVec.extractLsb' 32 13 arg14).toNat = 0 ∨ sAu.part.cores < (BitVec.extractLsb' 16 12 arg14).toNat +
      (BitVec.extractLsb' 32 13 arg14).toNat ∨ (BitVec.extractLsb' 8 5 arg14).toNat < 10 ∨ 24 < (BitVec.extractLsb' 8 5
      arg14).toNat ∨ sAu.partOverlap 1 (BitVec.extractLsb' 16 12 arg14).toNat (BitVec.extractLsb' 32 13 arg14).toNat = true ∨
      (sAu.partition 1).st = 2 ∨ sAu.auditOk 1 (BitVec.extractLsb' 8 5 arg14).toNat = false ∨ (sAu.partition 1).slotsOk =
      false)) := by
  constructorm* _ ∧ _ <;> decide +kernel

end Queues

namespace Commands

def hp (o : Nat) : Nat := 8*2^48 + o
def recd (opc hi : Nat) (q1 q2 q3 : Nat) : BitVec 512 := BitVec.ofNat 512 (opc + 0x70000 + hi*2^32 + q1 * 2^64 + q2 * 2^128 + q3 * 2^192)
def c_ (fn opc hi q1 q2 q3 : Nat) (st : CmdState := .pending) : Cmd := ⟨4, fn, 3, recd opc hi q1 q2 q3, st⟩
def sc (c : Cmd) (s : State) : State := {s with cmds := [c]}
def sA0 := (at_ base (.add (.g 3) (.g 1) (.g 2))).wr (sram 64) 8 0x1122334455667788
def sT : State := {((sA0.wr64 (sram 0x8000) (word (sram 0x9000) ||| 1)).wr64 (sram 0x9000) (word (sram 0) ||| 0x87)) with asids := [(0, 0x8000000000000001 ||| word (sram 0x8000))], vfmap := [(1, 0x8000000000000000)], grants := sA0.grants ++ [⟨sA0.corePa 1 0 0, 2^20, .fn 0⟩], power := .running, fns := [(1, {Fn.reset 1 with ready := true, queues := [(3, {QPair.reset with en := true, sqbase := 0x1000, cqbase := 0x2000})]})]}
def cSeal := c_ 1 2 0 0 4096 0
def wdl := 0 + 0*2^16 + 8*2^32
def cDl := c_ 0 3 0 wdl 5 0
def cHv := c_ 0 4 0 (sram 0x1000) 0x10000 0x3008
def cCi := c_ 1 5 0 0x5000 0x70 5
def sCi := (sc cCi (sT.wr64 (hp 0x5000) 0xAABBCCDDEEFF))
def cCo := c_ 1 6 0 0x70 0x5000 5
def sCo := (sc cCo (sT.wr64 (sram 0x70) 0xAABBCCDDEEFF))
def cRf := c_ 0 7 0 4 0 0
def cL := (c_ 1 1 0 0x40 1 0)
def pkr (crews : Nat) : Nat := (1 <<< 56) + (1 <<< 77) + (1 <<< 82) + (crews <<< 86)
def sL (n : Nat) : State := sc cL {sT with mem := sT.mem ++ [(hp 0x47, 1), (hp 0x49, 0x20), (hp 0x4A, BitVec.ofNat 8 (4 + 64 * n)), (hp 0x4B, BitVec.ofNat 8 (n / 4))].filter (·.2 ≠ 0)}
def cP := c_ 0 5 2 0x5000 (6*2^48+0x160008) 8
def sPp := sc cP (sT.wr64 (hp 0x5000) 0x12345)
def cAt := c_ 1 8 0 0x4000 0 0
def cAu := c_ 1 6 2 0x70 0x5000 5
def arg0 : State := {sc (c_ 1 1 0 0x40 1 0) sT with power := .recovery}
def arg1 : Cmd := c_ 1 1 0 0x40 1 0
def arg2 : State := sc (c_ 3 1 0 0x40 1 0) sT
def arg3 : Cmd := c_ 3 1 0 0x40 1 0
def arg4 : List ℕ := [3*2^36]
def arg5 : State := {sc cHv sT with asids := []}
def arg6 : State := (sCi.cmdWrite cCi 0x70 (sCi.rdBytes (hp 0x5000) 5)).1
def arg7 : State := (sCo.cmdRead cCo 0x70 5).1
def arg8 : List Byte := match (sCo.cmdRead cCo 0x70 5).2 with | .ok b => b | .error _ => []
def arg9 : State := sc (c_ 3 7 0 4 0 0) sT
def arg10 : Cmd := c_ 3 7 0 4 0 0
def arg11 : State := sL 1
def arg12 : State := sc (c_ 1 1 0 0x40 1 5) sT
def arg13 : Cmd := c_ 1 1 0 0x40 1 5

theorem meets_HostCommands :
    -- clause 0
    arg0.cmd arg1.id = some arg1 ∧ arg0.mayStart arg1 = true ∧ arg0.hostOut = [] ∧ arg1.opc = 1 ∧
    arg0.power = Power.recovery ∧
    -- clause 3
    arg2.cmd arg3.id = some arg3 ∧ arg2.mayStart arg3 = true ∧ arg2.hostOut = [] ∧
    arg3.opc = 1 ∧ arg2.power = Power.running ∧ arg3.wellFormed = true ∧
    (¬(arg2.asidLive arg3.asid = true ∧ (arg3.fn = 0 ∨ fld (arg2.asidEntry arg3.asid) 0 11 = arg3.fn))) := by
  constructorm* _ ∧ _ <;> decide +kernel

theorem meets_HostCommands_2 :
    -- clause 4
    (sc cSeal sT).cmd cSeal.id = some cSeal ∧ (sc cSeal sT).mayStart cSeal = true ∧ (sc cSeal sT).hostOut = [] ∧
    cSeal.opc = 2 ∧ (sc cSeal sT).power = Power.running ∧ cSeal.wellFormed = true ∧ BitVec.toNat (cSeal.q_ 1) % 4096 = 0 ∧
    BitVec.toNat (cSeal.q_ 2) % 4096 = 0 ∧ 0 < BitVec.toNat (cSeal.q_ 2) ∧ BitVec.toNat (cSeal.q_ 2) ≤ 2 ^ 40 ∧
    (cSeal.phys = false ∧ (sc cSeal sT).asidLive cSeal.asid = true ∧ (cSeal.fn = 0 ∨ fld ((sc cSeal sT).asidEntry cSeal.asid)
      0 11 = cSeal.fn) ∨ cSeal.phys = true ∧ cSeal.fn = 0) ∧ ((sc cSeal sT).actor cSeal).part = some 0 ∧
    ((sc cSeal sT).partition 0).st = 1 ∧
    (sc cSeal sT).sealFrames cSeal (BitVec.toNat (cSeal.q_ 2) / 4096) (cSeal.q_ 1) = (sc cSeal sT, Except.ok arg4) ∧
    ((sc cSeal sT).partition 0).seals.length < 64 ∧ (∀ e ∈ ((sc cSeal sT).partition 0).seals, ∀ g ∈ arg4, g ∉ e.frames) ∧
    (∀ g ∈ arg4, (sc cSeal sT).hasBank g = true) := by
  constructorm* _ ∧ _ <;> decide +kernel

theorem meets_HostCommands_3 :
    -- clause 5
    (sc cDl sT).cmd cDl.id = some cDl ∧ (sc cDl sT).mayStart cDl = true ∧ (sc cDl sT).hostOut = [] ∧
    cDl.opc = 3 ∧ (sc cDl sT).power = Power.running ∧ cDl.wellFormed = true ∧ cDl.fn = 0 ∧
    BitVec.extractLsb' 4 12 (cDl.q_ 1) = (0 : BitVec 12) ∧ BitVec.extractLsb' 28 4 (cDl.q_ 1) = (0 : BitVec 4) ∧
    BitVec.extractLsb' 45 19 (cDl.q_ 1) = (0 : BitVec 19) ∧
    ((sc cDl sT).partition (BitVec.extractLsb' 0 4 (cDl.q_ 1)).toNat).st = 1 ∧
    (sc cDl sT).intervalOk (BitVec.extractLsb' 0 4 (cDl.q_ 1)).toNat (BitVec.extractLsb' 16 12 (cDl.q_ 1)).toNat
      (BitVec.extractLsb' 32 13 (cDl.q_ 1)).toNat = true ∧
    (sc cDl sT).freeEntry (BitVec.extractLsb' 0 4 (cDl.q_ 1)).toNat (BitVec.extractLsb' 16 12 (cDl.q_ 1)).toNat
      (BitVec.extractLsb' 32 13 (cDl.q_ 1)).toNat = some 0 ∧ (sc cDl sT).tasks = [] := by
  constructorm* _ ∧ _ <;> decide +kernel

theorem meets_HostCommands_4 :
    -- clause 6
    arg5.cmd cHv.id = some cHv ∧ arg5.mayStart cHv = true ∧ arg5.hostOut = [] ∧
    cHv.opc = 4 ∧ arg5.power = Power.running ∧ cHv.wellFormed = true ∧ cHv.fn = 0 ∧ BitVec.toNat (cHv.q_ 1) % 4096 = 0 ∧
    BitVec.toNat (cHv.q_ 2) % 4096 = 0 ∧ 0 < BitVec.toNat (cHv.q_ 2) ∧ BitVec.toNat (cHv.q_ 2) ≤ 2 ^ 36 ∧
    (BitVec.toNat (cHv.q_ 1) + BitVec.toNat (cHv.q_ 2) ≤ 6 * 2 ^ 48 ∨ 7 * 2 ^ 48 ≤ BitVec.toNat (cHv.q_ 1)) ∧
    BitVec.toNat (cHv.q_ 1) < 2 ^ 52 ∧ (∀ e ∈ arg5.asids, BitVec.getLsbD e.2 63 = false) ∧ Memory.wf arg5.mem = true ∧
    -- clause 7
    sCi.cmd cCi.id = some cCi ∧ sCi.mayStart cCi = true ∧ sCi.hostOut = [] ∧
    cCi.opc = 5 ∧ sCi.power = Power.running ∧ cCi.wellFormed = true ∧ 0 < BitVec.toNat (cCi.q_ 3) ∧
    BitVec.toNat (cCi.q_ 2) % 64 + BitVec.toNat (cCi.q_ 3) ≤ 64 ∧
    (cCi.phys = false ∧ sCi.asidLive cCi.asid = true ∧ (cCi.fn = 0 ∨ fld (sCi.asidEntry cCi.asid) 0 11 = cCi.fn) ∨ cCi.phys =
      true ∧ cCi.fn = 0 ∧ BitVec.toNat (cCi.q_ 2) / 2 ^ 48 ≠ 6) ∧
    sCi.cmdWrite cCi (cCi.q_ 2) (sCi.rdBytes (8 * 2 ^ 48 + BitVec.toNat (cCi.q_ 1) % 2 ^ 48) (BitVec.toNat (cCi.q_ 3))) =
      (arg6, none) := by
  constructorm* _ ∧ _ <;> decide +kernel

theorem meets_HostCommands_5 :
    -- clause 9
    sCo.cmd cCo.id = some cCo ∧ sCo.mayStart cCo = true ∧ sCo.hostOut = [] ∧
    cCo.opc = 6 ∧ sCo.power = Power.running ∧ cCo.wellFormed = true ∧ 0 < BitVec.toNat (cCo.q_ 3) ∧
    BitVec.toNat (cCo.q_ 1) % 64 + BitVec.toNat (cCo.q_ 3) ≤ 64 ∧
    (cCo.phys = false ∧ sCo.asidLive cCo.asid = true ∧ (cCo.fn = 0 ∨ fld (sCo.asidEntry cCo.asid) 0 11 = cCo.fn) ∨ cCo.phys =
      true ∧ cCo.fn = 0 ∧ BitVec.toNat (cCo.q_ 1) / 2 ^ 48 ≠ 6) ∧ arg7.hostOut = [] ∧ arg8.length = BitVec.toNat (cCo.q_ 3) ∧
    Memory.wf arg7.mem = true ∧ sCo.cmdRead cCo (cCo.q_ 1) (BitVec.toNat (cCo.q_ 3)) = (arg7, Except.ok arg8) ∧
    arg7.cmds = sCo.cmds ∧
    -- clause 11.0
    (sc cRf sT).cmd cRf.id = some cRf ∧ (sc cRf sT).mayStart cRf = true ∧ (sc cRf sT).hostOut = [] ∧
    cRf.opc = 7 ∧ (sc cRf sT).power = Power.running ∧ cRf.wellFormed = true ∧ cRf.fn = 0 ∧
    1 ≤ (BitVec.extractLsb' 0 11 (cRf.q_ 1)).toNat ∧ (BitVec.extractLsb' 0 11 (cRf.q_ 1)).toNat ≤ 1024 ∧
    BitVec.extractLsb' 11 53 (cRf.q_ 1) = (0 : BitVec 53) ∧
    (∀ e ∈ (sc cRf sT).ctxs, e.2.fn ≠ (BitVec.extractLsb' 0 11 (cRf.q_ 1)).toNat) ∧
    (∀ e ∈ (sc cRf sT).parts, e.2.pipes = []) := by
  constructorm* _ ∧ _ <;> decide +kernel

theorem meets_HostCommands_6 :
    -- clause 11.1
    arg9.cmd arg10.id = some arg10 ∧ arg9.mayStart arg10 = true ∧ arg9.hostOut = [] ∧
    arg10.opc = 7 ∧ arg9.power = Power.running ∧ arg10.wellFormed = true ∧ 1 ≤ (BitVec.extractLsb' 0 11 (arg10.q_ 1)).toNat ∧
    (BitVec.extractLsb' 0 11 (arg10.q_ 1)).toNat ≤ 1024 ∧ BitVec.extractLsb' 11 53 (arg10.q_ 1) = (0 : BitVec 53) ∧
    arg10.fn ≠ 0 ∧ arg10.fn ≠ (BitVec.extractLsb' 0 11 (arg10.q_ 1)).toNat ∧
    -- clause 2
    arg11.cmd cL.id = some cL ∧ arg11.mayStart cL = true ∧ arg11.hostOut = [] ∧
    cL.opc = 1 ∧ arg11.power = Power.running ∧ cL.wellFormed = true ∧
    (arg11.asidLive cL.asid = true ∧ (cL.fn = 0 ∨ fld (arg11.asidEntry cL.asid) 0 11 = cL.fn)) ∧
    (arg11.actor cL).part = some 0 ∧ BitVec.toNat (cL.q_ 1) % 64 = 0 ∧ 1 ≤ (BitVec.extractLsb' 0 13 (cL.q_ 2)).toNat ∧
    (BitVec.extractLsb' 0 13 (cL.q_ 2)).toNat ≤ 4096 ∧ BitVec.extractLsb' 13 3 (cL.q_ 2) = (0 : BitVec 3) ∧
    BitVec.extractLsb' 22 42 (cL.q_ 2) = (0 : BitVec 42) ∧
    arg11.packetsAt (BitVec.toNat (cL.q_ 1)) (BitVec.extractLsb' 0 13 (cL.q_ 2)).toNat = [BitVec.ofNat 512 (pkr 1)] ∧
      packetBad (BitVec.ofNat 512 (pkr 1)) (arg11.clustersOf 0).length = false := by
  constructorm* _ ∧ _ <;> decide +kernel

theorem meets_HostCommands_7 :
    -- clause 1
    arg12.cmd arg13.id = some arg13 ∧ arg12.mayStart arg13 = true ∧ arg12.hostOut = [] ∧ arg13.opc = 1 ∧
    arg12.power = Power.running ∧ arg13.wellFormed = false ∧
    -- clause 8
    sPp.cmd cP.id = some cP ∧ sPp.mayStart cP = true ∧ sPp.hostOut = [] ∧
    cP.opc = 5 ∧ sPp.power = Power.running ∧ cP.wellFormed = true ∧ cP.phys = true ∧ cP.fn = 0 ∧
    BitVec.toNat (cP.q_ 2) / 2 ^ 48 = 6 ∧ BitVec.toNat (cP.q_ 2) % 8 = 0 ∧ BitVec.toNat (cP.q_ 3) = 8 ∧
    -- clause 12
    (sc cAt sT).cmd cAt.id = some cAt ∧ (sc cAt sT).mayStart cAt = true ∧ (sc cAt sT).hostOut = [] ∧
    cAt.opc = 8 ∧ (sc cAt sT).power = Power.running ∧ cAt.wellFormed = true ∧ cAt.fn ≠ 0 ∧
    (sc cAt sT).fnPart cAt.fn = some 0 ∧ BitVec.toNat (cAt.q_ 1) % 4096 = 0 ∧ Memory.wf (sc cAt sT).mem = true := by
  constructorm* _ ∧ _ <;> decide +kernel

theorem meets_HostCommands_8 :
    -- clause 10
    (sc cAu sT).cmd cAu.id = some cAu ∧ (sc cAu sT).mayStart cAu = true ∧ (sc cAu sT).hostOut = [] ∧
    cAu.opc = 6 ∧ (sc cAu sT).power = Power.running ∧ cAu.wellFormed = true ∧ 0 < BitVec.toNat (cAu.q_ 3) ∧
    BitVec.toNat (cAu.q_ 3) ≤ 2 ^ 32 ∧ cAu.phys = true ∧ cAu.fn ≠ 0 ∧
    (sc cAu sT).ownAudit cAu (cAu.q_ 1) (BitVec.toNat (cAu.q_ 3)) = false := by
  constructorm* _ ∧ _ <;> decide +kernel

end Commands

namespace Parting

def sA := (at_ base (.add (.g 3) (.g 1) (.g 2))).wr (sram 64) 8 0x1122334455667788
def pk0 : Packet := ⟨0,0,0,0,0x77,0x10000,20,1,1,1,1,false⟩
def tk0 : Task := ⟨pk0, 0, 3, 0, 0, 0, [[0]], none, 0, 4, true, false, 0, 0, [], false⟩
def un (st : UnitState) : DUnit := ⟨0, 3, none, [9], st, false, 0⟩
def dl : Deadline := {Deadline.reset with v := true, base := 0, len := 8, time := 1000000, units := [un .run], cmd := some 5, lastTick := some 10}
def withD (d : Deadline) (w : Nat) (s : State := sA) : State := {(s.modPart 0 fun p => {p with dls := [(2, d), (3, {dl with vacant := true})]}) with wall := w, tasks := [(9, tk0)]}
def cmd5 : Cmd := ⟨5, 0, 3, 3, .running⟩
def dlR : Deadline := {dl with units := [un .ran, un .saved]}
def dlS : Deadline := {dl with units := [un .saving], cmd := none}
def sS : State := (withD dlS 999968).modCore 0 fun c => {c with reserved := [(3, 9), (4, 8)], tcm := [(9,1,2),(8,3,4)]}
def arg0 : State := withD dl 5009
def arg1 : State := withD dl 999967
def arg2 : State := {withD dlR 999968 with cmds := [cmd5]}
def arg3 : State := withD dl 6000
def arg4 : Deadline := {dl with vacant := true}
def arg5 : State := withD dl 6000

theorem meets_PartingSteps :
    -- clause 1
    arg0.deadlineOf 0 2 = dl ∧ dl.v = true ∧ dl.vacant = false ∧ dl.lastTick = some 10 ∧ arg0.wall < 10 + 5000 ∧
    -- clause 2
    arg1.deadlineOf 0 2 = dl ∧ arg1.wall < dl.time - 32 ∧
    -- clause 3
    arg2.deadlineOf 0 2 = dlR ∧ dlR.v = true ∧ dlR.vacant = false ∧ dlR.cut = false ∧ dlR.time - 32 ≤ arg2.wall ∧
    (∀ x ∈ dlR.units, x.st ≠ UnitState.run ∧ x.st ≠ UnitState.saving) ∧ dlR.cmd = some 5 := by
  constructorm* _ ∧ _ <;> decide +kernel

theorem meets_PartingSteps_2 :
    -- clause 4
    sS.deadlineOf 0 2 = dlS ∧ dlS.v = true ∧ dlS.vacant = false ∧ dlS.units = [un UnitState.saving] ∧
    (un UnitState.saving).st = UnitState.saving ∧ (un UnitState.saving).cursorForm = false ∧
    (un UnitState.saving).shared = none ∧ (un UnitState.saving).tasks = [9] ∧ sS.tasks.look 9 = some tk0 ∧ 9 ≠ 0 ∧
    (∀ x ∈ sS.ctxs, x.2.task ≠ 9) ∧ tk0.inst = none ∧ dlS.cmd = none ∧ (∀ (c : ℕ), (sS.core c).delayed = []) ∧
    -- clause 5
    arg3.deadlineOf 0 2 = dl ∧ dl.v = true ∧ dl.vacant = false ∧ arg3.deadlineOf 0 3 = arg4 ∧ arg4.v = true ∧
    arg4.vacant = true ∧ BitVec.getLsbD (1152921504606846976 : Word) 60 = true := by
  constructorm* _ ∧ _ <;> (
    first
      | decide +kernel
      | exact fun d => List.isEmpty_iff.1 (cores_all (·.delayed.isEmpty) (by decide +kernel) (by decide +kernel) d))

theorem meets_PartingSteps_3 :
    -- clause 6
    arg5.deadlineOf 0 2 = dl ∧ dl.v = true ∧ dl.vacant = false ∧ BitVec.getLsbD (1152921504606846976 : Word) 60 = true := by
  constructorm* _ ∧ _ <;> decide +kernel

end Parting

namespace Dispatch

def sA := (at_ base (.add (.g 3) (.g 1) (.g 2))).wr (sram 64) 8 0x1122334455667788
def pk0 : Packet := ⟨0,0,0,0,0x77,0x10000,20,1,1,1,1,false⟩
def tk0 : Task := ⟨pk0, 0, 3, 0, 0, 0, [[0]], none, 0, 4, true, false, 0, 0, [], false⟩
def un (st : UnitState) : DUnit := ⟨0, 3, none, [9], st, false, 0⟩
def dl : Deadline := {Deadline.reset with v := true, base := 0, len := 8, time := 1000000, units := [un .run], cmd := some 5, lastTick := some 10}
def withD (d : Deadline) (w : Nat) (s : State := sA) : State := {(s.modPart 0 fun p => {p with dls := [(2, d), (3, {dl with vacant := true})]}) with wall := w, tasks := [(9, tk0)]}
def kd0 : Kernel := ⟨64, false, true, 0xFFFFFF⟩
def arg0 : State := withD dl 6000

theorem meets_DispatchAndPlacement :
    -- clauses 0.0, 0.1, 0.2, 0.3, 0.4, 0.5, 0.6, 0.7, 0.8, 0.9, 0.10, 0.11, 0.12, 0.13, 0.14, 0.15, 0.16, 0.17, 0.19, 0.20, 0.21, 0.22, 0.23, 0.24
    0 < 512 ∧ 0 < 8 ∧ 0 < 16 ∧ 63 < 64 ∧ kd0.tcmsz ≤ 64 ∧
    -- clause 0.18
    10 ≠ 1 ∧ 10 ≠ 2 ∧ 10 ≠ 3 ∧ 10 ≠ 4 ∧ 10 ≠ 63 := by
  constructorm* _ ∧ _ <;> decide +kernel

theorem meets_PartingSteps_4 :
    -- clause 0
    arg0.deadlineOf 0 2 = dl ∧ dl.v = true ∧ dl.vacant = false ∧ dl.cut = false ∧ dl.lastTick = some 10 ∧
    10 + 5000 ≤ arg0.wall ∧ dl.units = [un UnitState.run] ∧ (un UnitState.run).st = UnitState.run ∧
    arg0.estUnit (un UnitState.run) = some 14000000 ∧
    arg0.wall * 1000 + 14000000 + (BitVec.extractLsb' 32 10 (arg0.partition 0).ptcfg).toNat * 1000000 ≤ (dl.time - 32) * 1000
      := by
  constructorm* _ ∧ _ <;> decide +kernel

end Dispatch

namespace Placing

def sA := (at_ base (.add (.g 3) (.g 1) (.g 2))).wr (sram 64) 8 0x1122334455667788
def pk0 : Packet := ⟨0,0,0,0,0x77,0x10000,20,1,1,1,1,false⟩
def tk0 : Task := ⟨pk0, 0, 3, 0, 0, 0, [[0]], none, 0, 4, true, false, 0, 0, [], false⟩
def qk (k : Packet) : QPkt := ⟨k, 1000, .waiting, none, none, none, false⟩
def sT : State := {((sA.wr64 (sram 0x8000) (word (sram 0x9000) ||| 1)).wr64 (sram 0x9000) (word (sram 0) ||| 0x87)) with asids := [(0, 0x8000000000000001 ||| word (sram 0x8000))], vfmap := [(1, 0x8000000000000000)], power := .running}
def pk1 : Packet := {pk0 with entry := 0x140}
def x0 : QPkt := {qk pk1 with asid := 0}
def tq (l : List QPkt) (w : Int := 0) : TaskQueue := {TaskQueue.reset with pkts := l, wrr := w, inQ := true}
def sQq (l : List QPkt) : State := {(sT.modPart 0 fun p => {p with slcnt := 1, slotNow := some 0, slots := [(0, word (1 * 2^52 + 2^32 + 63 * 2^20))]}) with queues := [(64 + 3, tq l), (64 + 4, tq [] 7)]}
def wrr0 (s : State) := chooseWrr ((s.readyQueues 0).map fun e => (⟨e.1, e.2.weight, if e.2.inQ then e.2.wrr else 0⟩ : Wrr))
def csOf (s : State) := ((wrr0 s).map (·.2)).getD []
def keyOf (s : State) := ((wrr0 s).map (·.1)).getD 0
def s1Of (s : State) := { s with queues := s.queues.map (s.keepWrr 0 (csOf s)) }
def s2O (s : State) := ((s1Of s).candidates ((s1Of s).tqueue (keyOf s / 64) (keyOf s % 64))).findSome? fun e => (s1Of s).tryPlace 0 (keyOf s / 64) (keyOf s % 64) e.1 e.2
def xr (n : Nat) : QPkt := {x0 with st := .ready n}
def xj : QPkt := {x0 with pkt := {pk1 with job := true}}
def sR := sQq [xr 5]
def sR2 := sQq [{xr 5 with pkt := {pk1 with cores := 9}}]
def sPl : State := (s2O sR).getD sR
def idd : Nat := (sPl.tasks.head?.map (·.1)).getD 0
def tkk : Task := (sPl.tasks.look idd).getD tk0
def sEnd : State := {sPl with ctxs := sPl.ctxs.filter fun e => e.2.task ≠ idd, tasks := [(idd, {tkk with pkt := {tkk.pkt with done := 0}})]}
def arg0 : State := sQq [x0]
def arg1 : State := (s2O sR).getD sR
def arg2 : State := sQq [x0, {x0 with st := .retired}, xj]
def arg3 : QPkt := xr 5
def arg4 : State := {sR with wall := 1000005}
def arg5 : Machine.Task := (sEnd.tasks.look idd).getD tkk

theorem meets_DispatchAndPlacement_2 :
    -- clauses 1.0.0, 1.1.0
    arg0.packet 1 3 0 = some x0 ∧ x0.st = PktState.waiting ∧ x0.pkt.depa = (0 : Word) ∧ arg0.depaMsg 1 3 0 = none ∧
    x0.pkt.job = false ∧ arg0.readyQueues 0 = [] ∧
    -- clauses 1.1.1, 1.1.2.1
    (chooseWrr (List.map (fun (e : ℕ × TaskQueue) =>
      ({ key := e.1, w := ↑e.2.weight, c := if e.2.inQ = true then e.2.wrr else (0 : ℤ) } : Wrr)) (sR.readyQueues 0)) = some
      (keyOf sR, csOf sR)) ∧ (sR.partition 0).st = 1 ∧ (sR.partition 0).tried = [] ∧
    s1Of sR = ({ sR with queues := List.map (sR.keepWrr 0 (csOf sR)) sR.queues } : State) ∧
    (List.findSome? (fun (e : ℕ × QPkt) => (s1Of sR).tryPlace 0 (keyOf sR / 64) (keyOf sR % 64) e.1 e.2) ((s1Of sR).candidates
      ((s1Of sR).tqueue (keyOf sR / 64) (keyOf sR % 64))) = some arg1) ∧
    -- clause 1.0.1
    arg2.packet 1 3 2 = some xj ∧ xj.st = PktState.waiting ∧ xj.pkt.depa = (0 : Word) ∧ arg2.depaMsg 1 3 2 = none ∧
    x0 ∈ List.take 2 (arg2.tqueue 1 3).pkts ∧ xj.pkt.job = true ∧ x0.st ≠ PktState.retired ∧
    -- clause 1.1.2.0
    (sR2.partition 0).st = 1 ∧ (sR2.partition 0).tried = [] ∧
    (chooseWrr (List.map (fun (e : ℕ × TaskQueue) =>
      ({ key := e.1, w := ↑e.2.weight, c := if e.2.inQ = true then e.2.wrr else (0 : ℤ) } : Wrr)) (sR2.readyQueues 0)) = some
      (keyOf sR2, csOf sR2)) ∧ s1Of sR2 = ({ sR2 with queues := List.map (sR2.keepWrr 0 (csOf sR2)) sR2.queues } : State) ∧
    (List.findSome? (fun (e : ℕ × QPkt) => (s1Of sR2).tryPlace 0 (keyOf sR2 / 64) (keyOf sR2 % 64) e.1 e.2) ((s1Of
      sR2).candidates ((s1Of sR2).tqueue (keyOf sR2 / 64) (keyOf sR2 % 64))) = none) := by
  constructorm* _ ∧ _ <;> decide +kernel

theorem meets_DispatchAndPlacement_3 :
    -- clause 1.2
    arg3 ∈ (arg4.tqueue 1 3).pkts ∧ arg3.st = PktState.ready 5 ∧ 5 + 1000000 ≤ arg4.wall ∧
    -- clause 1.3
    sPl.tasks.look idd = some tkk ∧ (∃ e ∈ sPl.ctxs, e.2.task = idd ∧ e.2.caller = none) ∧
    -- clause 1.4
    sEnd.tasks.look idd = some arg5 ∧ (∀ e ∈ sEnd.ctxs, e.2.task ≠ idd) ∧ arg5.pkt.done = (0 : Word) ∧
    (∀ e ∈ sEnd.cores, e.2.delegates = []) ∧ (sEnd.partition arg5.part).dls = [] := by
  constructorm* _ ∧ _ <;> decide +kernel

end Placing

namespace Turns

def sA := (at_ base (.add (.g 3) (.g 1) (.g 2))).wr (sram 64) 8 0x1122334455667788
def cyc (n : Nat) (s : State := sA) : State := s.modCore 0 fun c => {c with cycle := n}
def own (s : State) (n : Nat) (k : Nat) (o : Bool) : State := s.modCore 0 fun c => {c with turns := c.turns.modify n fun t => {t with ov := o, tslot := k}}
def rdy : State := {(own ((sA.modCtx 0 fun c => {c with park := .none}).modCore 0 fun c => {c with cycle := 65}) 1 0 true) with focus := 0}
def slw (fn len : Nat) : Word := word (fn * 2^52 + len * 2^32 + 63 * 2^20)
def sSl (f2 : Nat) : State := {(sA.modPart 0 fun p => {p with slcnt := 2, slots := [(0, slw 1 5), (1, slw f2 5)], slotNow := some 0, tried := [4]}) with wall := 7000}
def ho (l : List Nat) (a : Nat) : Handover := ⟨1, 2, a, l, []⟩
def sH (l : List Nat) (a : Nat) : State := (own ((cyc 65).modCore 0 fun c => {c with handover := some (ho l a)}) 1 0 true)
def nc (s : State) : State := {s with ctxs := []}
def out1 (s : State) : State := {s.modCtx 0 fun c => {c with fn := 1, lvl := .u} with save := [(1, 0x8000000000000000)], grants := [⟨sA.corePa 1 0 0, 2^20, .fn 1⟩]}
def fullCh (s : State) : State := s.modCore 0 fun c => {c with chuck := (List.range 32).map (· + 100)}
def arg0 : State := {sA with ctxs := []}
def arg1 : State := nc (sH [3] 60)
def arg2 : Handover := ho [3] 60
def arg3 : State := own (nc (sH [3] 33)) 1 0 false
def arg4 : Handover := ho [3] 33
def arg5 : State := (cyc 64).modCore 0 fun c => {c with turnWrites := [(0, 0x13), (3, 0x20)]}
def arg6 : State := sSl 1
def arg7 : State := sSl 2
def arg8 : State := (sH [3] 60)
def arg9 : Handover := ho [3] 60
def arg10 : State := out1 (sH [3] 60)
def arg11 : Handover := ho [3] 60
def arg12 : State := (out1 (sH [3] 60)).modCtx 0 fun c => {c with touched := 5}
def arg13 : Handover := ho [3] 60
def arg14 : State := own (nc (sH (List.range 16) 34)) 1 0 false
def arg15 : Handover := ho (List.range 16) 34
def arg16 : State := fullCh (out1 (sH [3] 60))
def arg17 : Handover := ho [3] 60

theorem meets_TurnsAndHandovers :
    -- clauses 0.0, 0.2, 0.4
    (arg0.core 0).cycle % 32 ≠ 0 ∧ arg0.settle 0 = arg0 ∧ (arg0.cluster (arg0.clusterOf 0)).stops = [] ∧
    (arg0.core 0).handover = none ∧ arg0.ctxs = [] ∧ arg0.slotPos 0 = none ∧
    -- clauses 1.0, 1.7, 1.8
    0 < 16 ∧ (arg1.core 0).handover = some arg2 ∧ 0 ∉ arg2.done ∧
    ((arg1.core 0).turn ((arg1.core 0).cycle % 32)).ov = true ∧ ((arg1.core 0).turn ((arg1.core 0).cycle % 32)).tslot = 0 ∧
    arg1.handing 0 0 = none ∧ arg1.inSlot 0 0 = none ∧ (arg1.core 0).cycle < arg2.at_ + 32 ∧ arg2.stopped = [] ∧
    (∀ (j : ℕ), arg1.handing 0 j = none) ∧
    -- clauses 1.5, 1.6
    (arg3.core 0).handover = some arg4 ∧
    ¬(((arg3.core 0).turn ((arg3.core 0).cycle % 32)).ov = true ∧ ((arg3.core 0).turn ((arg3.core 0).cycle % 32)).tslot = 0) ∧
    0 ∉ arg4.done ∧ (∀ y ∈ (arg3.core 0).turns, y.ov = false ∨ y.tslot ≠ 0) ∧ arg4.at_ + 32 ≤ (arg3.core 0).cycle ∧
    arg3.handing 0 0 = none ∧ arg3.inSlot 0 0 = none := by
  constructorm* _ ∧ _ <;> (
    first
      | decide +kernel
      | exact noneHanding_of (by decide +kernel))

theorem meets_TurnsAndHandovers_2 :
    -- clause 0.1
    (arg5.core 0).cycle % 32 = 0 ∧ (arg5.core 0).disabled = [] ∧ (arg5.core 0).disableNext = [] ∧
    -- clause 0.3
    (rdy.core 0).cycle % 32 ≠ 0 ∧ rdy.settle 0 = rdy ∧ (rdy.cluster (rdy.clusterOf 0)).stops = [] ∧
    (rdy.core 0).handover = none ∧ ((rdy.core 0).turn ((rdy.core 0).cycle % 32)).ov = true ∧
    rdy.inSlot 0 ((rdy.core 0).turn ((rdy.core 0).cycle % 32)).tslot = some 0 ∧
    rdy.slotReady 0 ((rdy.core 0).turn ((rdy.core 0).cycle % 32)).tslot = true ∧
    8 ≤ (rdy.core 0).since ((rdy.core 0).turn ((rdy.core 0).cycle % 32)).tslot ∧ (rdy.ctx 0).stop = false ∧
    rdy.savingTask (rdy.ctx 0).task = false ∧ (rdy.ctx 0).freezeDue = [] ∧
    -- clause 0.5.0
    (arg6.partition 0).st = 1 ∧ arg6.slotPos 0 = some 1 ∧ (arg6.partition 0).slotNow = some 0 ∧ 0 ≠ 1 ∧
    (arg6.partition 0).slotFn 0 = (arg6.partition 0).slotFn 1 ∧
    -- clause 0.5.1
    (arg7.partition 0).st = 1 ∧ arg7.slotPos 0 = some 1 ∧ (arg7.partition 0).slotNow = some 0 ∧
    (arg7.partition 0).slotFn 0 ≠ (arg7.partition 0).slotFn 1 := by
  constructorm* _ ∧ _ <;> decide +kernel

theorem meets_TurnsAndHandovers_3 :
    -- clause 1.1
    0 < 16 ∧ (arg8.core 0).handover = some arg9 ∧ 0 ∉ arg9.done ∧
    ((arg8.core 0).turn ((arg8.core 0).cycle % 32)).ov = true ∧ ((arg8.core 0).turn ((arg8.core 0).cycle % 32)).tslot = 0 ∧
    arg8.handing 0 0 = none ∧ arg8.inSlot 0 0 = some 0 ∧ arg9.outgoing (arg8.ctx 0) = false ∧
    -- clause 1.3
    (arg10.core 0).handover = some arg11 ∧ 0 ∉ arg11.done ∧
    ((arg10.core 0).turn ((arg10.core 0).cycle % 32)).ov = true ∧ ((arg10.core 0).turn ((arg10.core 0).cycle % 32)).tslot = 0
      ∧ arg10.inSlot 0 0 = some 0 ∧ (arg10.ctx 0).place = Place.slot 0 0 ∧ arg11.outgoing (arg10.ctx 0) = true ∧
    arg10.saveOk (arg10.ctx 0).fn 0 = true ∧ arg10.chuckUsed 0 < 32 ∧ (arg10.toChuck 0).settled 0 = true ∧
    (arg10.toChuck 0).saveUsed (arg10.ctx 0).fn 0 < 64 ∧ (arg10.ctx 0).errAcks = [] ∧ 0 ∉ (arg10.core 0).chuck := by
  constructorm* _ ∧ _ <;> decide +kernel

theorem meets_TurnsAndHandovers_4 :
    -- clause 1.2
    0 < 16 ∧ (arg12.core 0).handover = some arg13 ∧ 0 ∉ arg13.done ∧ 0 ∉ arg13.stopped ∧
    ((arg12.core 0).turn ((arg12.core 0).cycle % 32)).ov = true ∧ ((arg12.core 0).turn ((arg12.core 0).cycle % 32)).tslot = 0
      ∧ arg12.inSlot 0 0 = some 0 ∧ (arg12.ctx 0).place = Place.slot 0 0 ∧ arg13.outgoing (arg12.ctx 0) = true ∧
    arg12.saveOk (arg12.ctx 0).fn 0 = true ∧ arg12.chuckUsed 0 < 32 ∧ (arg12.ctx 0).touched ≠ (0 : BitVec 128) ∧
    -- clause 1.9
    (arg14.core 0).handover = some arg15 ∧ (∀ j < 16, j ∈ arg15.done) ∧ (arg14.core 0).chuck = [] ∧
    (arg14.core 0).eng0.owner = none ∧ (arg14.core 0).eng1.owner = none := by
  constructorm* _ ∧ _ <;> decide +kernel

theorem meets_TurnsAndHandovers_5 :
    -- clause 1.4
    0 < 16 ∧ (arg16.core 0).handover = some arg17 ∧ 0 ∉ arg17.done ∧
    ((arg16.core 0).turn ((arg16.core 0).cycle % 32)).ov = true ∧ ((arg16.core 0).turn ((arg16.core 0).cycle % 32)).tslot = 0
      ∧ arg16.inSlot 0 0 = some 0 ∧ arg17.outgoing (arg16.ctx 0) = true ∧ arg16.saveOk (arg16.ctx 0).fn 0 = true ∧
    32 ≤ arg16.chuckUsed 0 := by
  constructorm* _ ∧ _ <;> decide +kernel

end Turns

namespace Slots

def sA := (at_ base (.add (.g 3) (.g 1) (.g 2))).wr (sram 64) 8 0x1122334455667788
def own (s : State) (n : Nat) (k : Nat) (o : Bool) : State := s.modCore 0 fun c => {c with turns := c.turns.modify n fun t => {t with ov := o, tslot := k}}
def two : State := {(sA.setCtx 3 {sA.ctx 0 with place := .slot 0 2, task := 9}) with save := [(0, 0x8000000000000000)], grants := sA.grants ++ [⟨sA.corePa 1 0 0, 2^20, .fn 0⟩]}
def pl (p : Place) (s : State := two) : State := s.modCtx 3 fun c => {c with place := p}
def chuk (l : List Nat) (s : State) : State := s.modCore 0 fun c => {c with chuck := l}
def full : List Nat := (List.range 31).map (· + 10)
def cy (n : Nat) (s : State) : State := s.modCore 0 fun c => {c with cycle := n, reserved := [(5, 9)]}
def mg (op : HomeOp) (pa : Nat) (loc : Loc) : Msg := {sA.request 0 op 0x10000 pa none with id := 7, loc := loc}
def put (m : Msg) (s : State) : State := {s with flights := s.flights ++ [m], nextMsg := 20}
def pk0 : Packet := ⟨0,0,0,0,0x77,0x10000,20,1,1,1,1,false⟩
def tk0 : Task := ⟨pk0, 0, 3, 0, 0, 0, [[0, 1, 2]], none, 0, 4, true, false, 0, 0, [], false⟩
def dq (l : List Nat) (s : State) : State := {(s.modCore 0 fun c => {c with reserved := [(5, 9), (6,9)], deques := [(9, ⟨l, []⟩)]}) with tasks := [(9, tk0)]}
def tcm0 : Nat := sA.corePa 5 0 0
def sr (op : HomeOp) := {mg op tcm0 .home with slot := 5, core := 0, fn := 0}
def closed (s : State) : State := s.modPart 0 fun p => {p with dls := [(2, {Deadline.reset with v := true, base := 0, len := 8})]}
def rf (op : HomeOp) : Msg := {sr op with loc := .refused, ticket := some 6}
def ms (r : Nat) : Msg := {sr (.message r 4 0 2) with aux := 9}
def arm (s : State) : State := s.modCtx 3 fun c => {c with empt := [(8, .armed)], park := .halted, regs := [(8, 77), (5, 2)]}
def mb (n : Nat) (s : State) : State := s.modCore 0 fun c => {c with msgBuf := (List.range n).map (· + 50)}
def rdy2 : State := own ((sA.modCtx 0 fun c => {c with place := .slot 1 1}).setCtx 3 {sA.ctx 0 with park := .none}) 5 0 true
def arg0 : State := dq [6, 3] (pl (.deque 0))
def arg1 : List ℕ := [6]
def arg2 : State := dq [] (pl (.deque 0))
def arg3 : State := put (sr (.stealReq 9)) (dq [] two)
def arg4 : Msg := sr (.stealReq 9)
def arg5 : State := put (sr (.stealReq 9)) (dq [3, 6] (pl (.deque 0)))
def arg6 : Msg := sr (.stealReq 9)
def arg7 : List ℕ := [6]
def arg8 : State := closed (put (sr (.stealReq 9)) (dq [3, 6] (pl (.deque 0))))
def arg9 : Msg := sr (.stealReq 9)
def arg10 : State := put (sr (.stealRep none)) (dq [3, 6] (pl (.deque 0)))
def arg11 : Msg := sr (.stealRep none)
def arg12 : State := put (sr (.stealRep (some 3))) (dq [] (pl (.transit 0 0)))
def arg13 : Msg := sr (.stealRep (some 3))
def arg14 : State := two.modCore 0 fun c => {c with cycle := 1030, stealWaitFrom := some 6}
def arg15 : State := put (sr (.context 3)) (dq [] (pl (.transit 0 0)))
def arg16 : Msg := sr (.context 3)
def arg17 : State := closed (put (sr (.context 3)) (dq [] (pl (.transit 0 0))))
def arg18 : Msg := sr (.context 3)
def arg19 : State := put (rf (.context 3)) (cy 1030 two)
def arg20 : Msg := rf (.context 3)
def arg21 : State := put (rf (.message 3 4 0 2)) (cy 1030 two)
def arg22 : Msg := rf (.message 3 4 0 2)
def arg23 : State := put (ms 7) (arm two)
def arg24 : Msg := ms 7
def arg25 : State := put (ms 7) (two)
def arg26 : Msg := ms 7
def arg27 : State := put (ms 0) (mb 32 two)
def arg28 : Msg := ms 0
def arg29 : State := put {ms 0 with aux := 8} (mb 32 two)
def arg30 : Msg := {ms 0 with aux := 8}
def arg31 : State := chuk (3 :: full) (pl (.chuck 0 2))
def arg32 : State := cy 64 (pl (.save 0 2))
def arg33 : State := two.modCtx 3 fun c => {c with stop := true}

theorem meets_IdleSlotsTakeWork :
    -- clause 0
    arg0.slotTask 0 5 = some (0, 9) ∧ (arg0.core 0).inbound = [] ∧ ((arg0.core 0).deque 9).chip = arg1 ++ [3] ∧ 3 ∉ arg1 ∧
    (arg0.ctx 3).place = Place.deque 0 ∧
    -- clause 1
    arg2.slotTask 0 5 = some (0, 9) ∧ (arg2.core 0).inbound = [] ∧ ((arg2.core 0).deque 9).chip = [] ∧
    ((arg2.core 0).deque 9).spill = [] ∧ (arg2.core 0).stealBusy = false ∧ (arg2.core 0).stealWaitFrom = none ∧
    arg2.victim 0 9 = some 1 ∧
    -- clause 3
    arg3.msg arg4.id = some arg4 ∧ arg4.loc = Loc.home ∧ arg3.target arg4.pa = some (Target.tcm 0 0) ∧
    arg4.op = HomeOp.stealReq 9 ∧ arg3.closed 0 = false ∧ ((arg3.core 0).deque 9).chip = [] ∧
    ((arg3.core 0).deque 9).spill = [] := by
  constructorm* _ ∧ _ <;> decide +kernel

theorem meets_IdleSlotsTakeWork_2 :
    -- clause 4
    arg5.msg arg6.id = some arg6 ∧ arg6.loc = Loc.home ∧ arg5.target arg6.pa = some (Target.tcm 0 0) ∧
    arg6.op = HomeOp.stealReq 9 ∧ arg5.closed 0 = false ∧ ((arg5.core 0).deque 9).spill = [] ∧
    ((arg5.core 0).deque 9).chip = 3 :: arg7 ∧ 3 ∉ arg7 ∧ (arg5.ctx 3).place = Place.deque 0 ∧ arg5.settled 3 = true ∧
    -- clause 5
    arg8.msg arg9.id = some arg9 ∧ arg9.loc = Loc.home ∧ arg8.target arg9.pa = some (Target.tcm 0 0) ∧
    arg9.op = HomeOp.stealReq 9 ∧ arg8.closed 0 = true ∧
    -- clause 6
    arg10.msg arg11.id = some arg11 ∧ arg11.loc = Loc.home ∧ arg10.target arg11.pa = some (Target.tcm 0 0) ∧
    arg11.op = HomeOp.stealRep none ∧ (arg10.core 0).reserved.look (arg11.fn * 16 + arg11.slot) = some 9 ∧
    -- clause 7
    arg12.msg arg13.id = some arg13 ∧ arg13.loc = Loc.home ∧ arg12.target arg13.pa = some (Target.tcm 0 0) ∧
    arg13.op = HomeOp.stealRep (some 3) ∧ (arg12.ctxs.look 3).isSome = true ∧ (arg12.ctx 3).stop = false ∧
    arg12.closed 0 = false ∧ arg12.idleSlot (arg12.ctx 3).task (arg12.ctx 3).fn 0 = some 5 ∧
    -- clause 8
    (arg14.core 0).stealWaitFrom = some 6 ∧
    -- clause 2
    sA.slotTask 0 5 = none := by
  constructorm* _ ∧ _ <;> decide +kernel

theorem meets_MessagesArrive :
    -- clause 0.0
    arg15.msg arg16.id = some arg16 ∧ arg16.loc = Loc.home ∧ arg15.target arg16.pa = some (Target.tcm 0 0) ∧
    arg16.op = HomeOp.context 3 ∧ (arg15.ctxs.look 3).isSome = true ∧ (arg15.ctx 3).stop = false ∧ arg15.closed 0 = false ∧
    arg15.idleSlot (arg15.ctx 3).task (arg15.ctx 3).fn 0 = some 5 ∧
    -- clause 0.1
    arg17.msg arg18.id = some arg18 ∧ arg18.loc = Loc.home ∧ arg17.target arg18.pa = some (Target.tcm 0 0) ∧
    arg18.op = HomeOp.context 3 ∧ (arg17.ctxs.look 3).isSome = true ∧ (arg17.ctx 3).stop = false ∧ arg17.closed 0 = true ∧
    -- clause 1.0
    arg19.msg arg20.id = some arg20 ∧ arg20.loc = Loc.refused ∧ arg20.ticket = some 6 ∧
    (∃ (w : ℕ), arg20.op = HomeOp.context w ∨ arg20.op = HomeOp.stealReq w) ∧
    -- clause 1.1
    arg21.msg arg22.id = some arg22 ∧ arg22.loc = Loc.refused ∧ arg22.ticket = some 6 ∧
    arg22.op = HomeOp.message 3 (4 : Word) 0 2 := by
  constructorm* _ ∧ _ <;> (
    first
      | decide +kernel
      | exact ⟨_, .inl rfl⟩)

theorem meets_MessagesArrive_2 :
    -- clause 2.0
    arg23.msg arg24.id = some arg24 ∧ arg24.op = HomeOp.message 7 (4 : Word) 0 2 ∧ arg24.loc = Loc.home ∧ 7 < 8 ∧
    arg23.messageTarget arg24 0 2 = some 3 ∧ arg23.takesMessage 3 (Reg.g (BitVec.ofNat 6 (7 + 1))) = true ∧
    arg23.messageAhead arg24 0 3 7 = false ∧
    -- clause 2.1
    arg25.msg arg26.id = some arg26 ∧ arg26.op = HomeOp.message 7 (4 : Word) 0 2 ∧ arg26.loc = Loc.home ∧
    arg25.messageTarget arg26 0 2 = some 3 ∧ arg25.takesMessage 3 (Reg.g (BitVec.ofNat 6 (7 + 1))) = false ∧
    (arg25.core 0).msgBuf.length < 32 ∧
    -- clause 2.2
    arg27.msg arg28.id = some arg28 ∧ arg28.op = HomeOp.message 0 (4 : Word) 0 2 ∧ arg28.loc = Loc.home ∧ 0 < 8 ∧
    arg27.messageTarget arg28 0 2 = some 3 ∧ arg27.takesMessage 3 (Reg.g (BitVec.ofNat 6 (0 + 1))) = false ∧
    32 ≤ (arg27.core 0).msgBuf.length := by
  constructorm* _ ∧ _ <;> decide +kernel

theorem meets_MessagesArrive_3 :
    -- clause 2.3
    arg29.msg arg30.id = some arg30 ∧ arg30.op = HomeOp.message 0 (4 : Word) 0 2 ∧ arg30.loc = Loc.home ∧ 0 < 8 ∧
    arg29.messageTarget arg30 0 2 = none := by
  constructorm* _ ∧ _ <;> decide +kernel

theorem meets_ContextSteps :
    -- clauses 0, 4, 6, 8
    3 ≠ 0 ∧ two.inSlot 0 2 = some 3 ∧ (two.ctx 3).place = Place.slot 0 2 ∧ two.mayStop 3 = true ∧ two.chuckUsed 0 < 32 ∧
    (two.core 0).cycle % 32 ≠ 0 ∧ (two.ctx 3).stop = false ∧
    -- clauses 2, 3
    32 ≤ arg31.chuckUsed 0 ∧
    (arg31.leastRecent ((arg31.core 0).chuck ++ List.filter (fun (v : ℕ) => !(arg31.core 0).inboundSpill.contains v)
      (arg31.core 0).inbound ++ arg31.asideIn 0) = some 3) ∧ (arg31.ctx 3).place = Place.chuck 0 2 ∧ arg31.settled 3 = true ∧
    arg31.saveOk (arg31.ctx 3).fn 0 = true ∧ arg31.saveUsed (arg31.ctx 3).fn 0 < 64 ∧ (arg31.ctx 3).errAcks = [] ∧
    Memory.wf arg31.mem = true ∧
    -- clause 5
    ((arg32.ctx 3).place = Place.chuck 0 2 ∨ (arg32.ctx 3).place = Place.save 0 2) ∧ (arg32.core 0).cycle % 32 = 0 ∧
    arg32.slotFor 3 0 5 = true ∧ arg32.closed 0 = false := by
  constructorm* _ ∧ _ <;> decide +kernel

theorem meets_ContextSteps_2 :
    -- clause 7
    3 ≠ 0 ∧ (arg33.ctx 3).stop = true ∧ arg33.mayStop 3 = true ∧ (arg33.ctx 3).claim = none ∧ (arg33.ctx 3).nest = none ∧
    (∀ m ∈ arg33.flights, m.tid ≠ 3) ∧
    -- clause 1
    rdy2.inSlot 0 0 = some 3 ∧ rdy2.mayStop 3 = false := by
  constructorm* _ ∧ _ <;> decide +kernel

end Slots

namespace Traps

def sA := (at_ base (.add (.g 3) (.g 1) (.g 2))).wr (sram 64) 8 0x1122334455667788
def fill (k : Nat) (s : State) : State := s.modCtx 0 fun c => {c with empt := [(k, .fill)], tdeleg := 0xFFFFFFFF}
def sx (i : Instr) := at_ base i
def U (s : State) := s.modCtx 0 fun c => {c with lvl := .u, skip := 3}
def del (s : State) := s.modCtx 0 fun c => {c with tdeleg := 0x7FFFFFFE, skip := 2}
def eK (w : EmptyWhy) (k : Nat) : State := (at_ base (.add (.g 3) (.g 1) (.g 2))).modCtx 0 fun c => {c with empt := [(k, w)]}
def claimed (s : State) : State := (s.modCtx 0 fun c => {c with claim := some (.bound 0)}).modEng 0 0 fun e => {e with owner := some 0}
def eF (k : Nat) : State := eK .fill k
def eE (k : Nat) : State := claimed (eK .fill k)
def arg0 : Reg := .g 5
def arg1 : State := eF 5
def arg2 : Instr := .add (.g 3) (.g 5) (.g 2)
def arg3 : Reg := .g 3
def arg4 : Reg := .g 2
def arg5 : Reg := .g 5
def arg6 : State := eF 5
def arg7 : Instr := .clz (.g 3) (.g 5)
def arg8 : Reg := .g 3
def arg9 : Reg := .g 5
def arg10 : State := eF 5
def arg11 : Instr := .sk (.eq) (.one) (.g 5) (.g 2)
def arg12 : Reg := .g 2
def arg13 : Reg := .g 5
def arg14 : State := eF 5
def arg15 : Instr := .jr (.g 5)
def arg16 : Reg := .g 5
def arg17 : State := eF 5
def arg18 : Instr := .csel (.g 3) (.g 5) (.g 2)
def arg19 : Reg := .g 3
def arg20 : Reg := .g 2
def arg21 : Reg := .g 5
def arg22 : State := eF 5
def arg23 : Instr := .ringOpen (.q (2)) (.g 5) (.g 2)
def arg24 : Reg := .g 2
def arg25 : Reg := .g 5
def arg26 : State := eF 5
def arg27 : Instr := .ctlWr .seg (.g 5)
def arg28 : Reg := .g 2
def arg29 : Reg := .g 3
def arg30 : State := eF 5
def arg31 : Reg := .g 1
def arg32 : Reg := .g 5
def arg33 : Instr := .add (.g 3) (.g 1) (.g 5)
def arg34 : Reg := .g 3
def arg35 : State := eF 5
def arg36 : Reg := .g 1
def arg37 : Reg := .g 5
def arg38 : Instr := .sk (.eq) (.one) (.g 1) (.g 5)
def arg39 : State := eF 5
def arg40 : Reg := .g 1
def arg41 : Reg := .g 5
def arg42 : Instr := .csel (.g 3) (.g 1) (.g 5)
def arg43 : Reg := .g 3
def arg44 : State := eF 5
def arg45 : Reg := .g 1
def arg46 : Reg := .g 5
def arg47 : Instr := .ringOpen (.q (2)) (.g 1) (.g 5)
def arg48 : State := eF 82
def arg49 : Instr := .ringResv (.g 3) (.q (2)) (.g 2)
def arg50 : Reg := .g 3
def arg51 : Reg := .g 2
def arg52 : State := eF 82
def arg53 : Instr := .ringAdv (.q (2)) (.g 2)
def arg54 : Reg := .g 2
def arg55 : State := eF 5
def arg56 : Reg := .g 5
def arg57 : Instr := .ringResv (.g 3) (.q (2)) (.g 5)
def arg58 : Reg := .g 3
def arg59 : State := eF 5
def arg60 : Reg := .g 5
def arg61 : Instr := .ringAdv (.q (2)) (.g 5)
def arg62 : State := eF 5
def arg63 : Reg := .g 1
def arg64 : Reg := .g 2
def arg65 : Reg := .g 5
def arg66 : Instr := .csel (.g 5) (.g 1) (.g 2)
def arg67 : State := eF 5
def arg68 : Instr := .ld (.d) (9) (5) (3)
def arg69 : State := eF 5
def arg70 : Instr := .amoAdd (true) (.core) (9) (5) (7)
def arg71 : State := eF 5
def arg72 : Instr := .ldX (.d) (.g 3) (5) (3)
def arg73 : Reg := .g 3
def arg74 : State := eF 5
def arg75 : Instr := .shlImm (9) (5) (7)
def arg76 : State := eF 5
def arg77 : Instr := .ldWf (.d) (.g 3) (5) (7)
def arg78 : Reg := .g 3
def arg79 : State := eF 5
def arg80 : Instr := .amoLd (true) (.core) (9) (5)
def arg81 : Reg := .g 3
def arg82 : State := eF 5
def arg83 : Instr := .st (.d) (5) (1) (3)
def arg84 : State := eF 5
def arg85 : Instr := .amoAdd (true) (.core) (9) (1) (5)
def arg86 : State := eF 5
def arg87 : Instr := .ldWf (.d) (.g 3) (1) (5)
def arg88 : Reg := .g 3
def arg89 : State := eE 5
def arg90 : Instr := .vshl (1) (2) (5)
def arg91 : State := eF 82
def arg92 : Reg := .g 1
def arg93 : Reg := .g 2
def arg94 : Instr := .ringOpen (.q (2)) (.g 1) (.g 2)
def arg95 : State := eF 5
def arg96 : Reg := .g 2
def arg97 : Reg := .g 5
def arg98 : Instr := .ringResv (.g 5) (.q (2)) (.g 2)
def arg99 : State := eF 5
def arg100 : Reg := .g 1
def arg101 : Reg := .g 2
def arg102 : Reg := .g 5
def arg103 : Instr := .add (.g 5) (.g 1) (.g 2)
def arg104 : State := eF 5
def arg105 : Reg := .g 1
def arg106 : Reg := .g 5
def arg107 : Instr := .clz (.g 5) (.g 1)
def arg108 : Reg := .g 5
def arg109 : State := eF 5
def arg110 : Reg := .g 5
def arg111 : State := eF 5
def arg112 : Instr := .engClaim (.g 5)
def arg113 : State := eF 5
def arg114 : Instr := .ld (.d) (5) (1) (3)
def arg115 : State := eF 5
def arg116 : Instr := .shlImm (5) (1) (7)
def arg117 : State := eF 5
def arg118 : Instr := .amoLd (true) (.core) (5) (1)
def arg119 : State := eF 5
def arg120 : Reg := .g 5
def arg121 : Instr := .ldX (.d) (.g 5) (1) (3)
def arg122 : State := eE 5
def arg123 : Instr := .tdescRd (1) (5)
def arg124 : State := sA.wr (sram 8) 8 0x1234
def arg125 : State := at_ base (.fcset .un 5 (.g 6) (.g 1))
def arg126 : Reg := .g 6
def arg127 : Reg := .g 1
def arg128 : Reg := .h 3
def arg129 : State := sx (.brk 3)
def arg130 : State := U (sx (.brk 3))
def arg131 : State := U (del (sx (.brk 3)))

theorem meets_EmptyOperandsPark :
    -- clause 2.0
    (arg0 ≠ Reg.g (60 : BitVec 6) ∧ (arg1.srcEmpty arg0 = some EmptyWhy.fill ∨ arg1.srcEmpty arg0 = some EmptyWhy.armed ∨
      arg1.srcEmpty arg0 = some EmptyWhy.dead)) ∧
    arg2 ∈ [Instr.add arg3 arg0 arg4, Instr.sub arg3 arg0 arg4, Instr.and arg3 arg0 arg4, Instr.or arg3 arg0 arg4, Instr.xor
      arg3 arg0 arg4, Instr.shl arg3 arg0 arg4, Instr.shr arg3 arg0 arg4, Instr.sra arg3 arg0 arg4, Instr.mul arg3 arg0 arg4,
      Instr.mulh arg3 arg0 arg4, Instr.mulhu arg3 arg0 arg4, Instr.min arg3 arg0 arg4, Instr.max arg3 arg0 arg4, Instr.minu
      arg3 arg0 arg4, Instr.maxu arg3 arg0 arg4, Instr.adds arg3 arg0 arg4, Instr.subs arg3 arg0 arg4, Instr.div arg3 arg0
      arg4, Instr.divu arg3 arg0 arg4, Instr.rem arg3 arg0 arg4, Instr.remu arg3 arg0 arg4, Instr.syncInit arg3 arg0 arg4,
      Instr.syncCall arg3 arg0 arg4, Instr.arrive arg3 arg0 arg4, Instr.syncMode arg3 arg0 arg4, Instr.syncPol arg3 arg0 arg4,
      Instr.sbExpect arg3 arg0 arg4, Instr.sbWait arg3 arg0 arg4, Instr.spawn arg3 arg0 arg4, Instr.partQuery arg3 arg0 arg4,
      Instr.plQuery arg3 arg0 arg4] ∧
    -- clause 2.1
    (arg5 ≠ Reg.g (60 : BitVec 6) ∧ (arg6.srcEmpty arg5 = some EmptyWhy.fill ∨ arg6.srcEmpty arg5 = some EmptyWhy.armed ∨
      arg6.srcEmpty arg5 = some EmptyWhy.dead)) ∧
    arg7 ∈ [Instr.clz arg8 arg5, Instr.ctz arg8 arg5, Instr.popc arg8 arg5, Instr.sxb arg8 arg5, Instr.sxh arg8 arg5,
      Instr.sxw arg8 arg5, Instr.acq arg8 arg5, Instr.tryacq arg8 arg5, Instr.arriveWait arg8 arg5, Instr.plBind arg8 arg5,
      Instr.plDetach arg8 arg5, Instr.plEnd arg8 arg5, Instr.jlr arg8 arg5, Instr.nest arg8 arg5, Instr.sfRcp arg8 arg5,
      Instr.sfSqrt arg8 arg5, Instr.sfRsqrt arg8 arg5, Instr.sfExp2 arg8 arg5, Instr.sfLog2 arg8 arg5, Instr.sfSinpi arg8
      arg5, Instr.sfCospi arg8 arg5] ∧
    -- clause 2.2
    (arg9 ≠ Reg.g (60 : BitVec 6) ∧ (arg10.srcEmpty arg9 = some EmptyWhy.fill ∨ arg10.srcEmpty arg9 = some EmptyWhy.armed ∨
      arg10.srcEmpty arg9 = some EmptyWhy.dead)) ∧
    arg11 ∈ [Instr.sk ICond.eq SkipCount.one arg9 arg12, Instr.fsk FCond.lt SkipCount.one arg9 arg12, Instr.msgSend arg9
      arg12, Instr.exit arg9 arg12, Instr.tlbInv arg9 arg12, Instr.wpSet arg9 arg12, Instr.cset ICond.eq (9 : BitVec 6) arg9
      arg12, Instr.fcset FCond.lt (9 : BitVec 6) arg9 arg12, Instr.cmp (9 : BitVec 6) arg9 arg12] ∧
    -- clause 2.3
    (arg13 ≠ Reg.g (60 : BitVec 6) ∧ (arg14.srcEmpty arg13 = some EmptyWhy.fill ∨ arg14.srcEmpty arg13 = some EmptyWhy.armed ∨
      arg14.srcEmpty arg13 = some EmptyWhy.dead)) ∧
    arg15 ∈ [Instr.jr arg13, Instr.rel arg13, Instr.join arg13, Instr.go arg13, Instr.wpClr arg13, Instr.dgFold arg13,
      Instr.ctlWr CtlReg.tvec arg13, Instr.ctlWr CtlReg.tdeleg arg13, Instr.ctlWr CtlReg.tinfo arg13, Instr.ctlWr CtlReg.taddr
      arg13, Instr.ctlWr (CtlReg.fmt (1 : BitVec 2)) arg13, Instr.ctlWr CtlReg.scl arg13, Instr.ctlWr CtlReg.vshape arg13] ∧
    -- clause 2.4
    (arg16 ≠ Reg.g (60 : BitVec 6) ∧ (arg17.srcEmpty arg16 = some EmptyWhy.fill ∨ arg17.srcEmpty arg16 = some EmptyWhy.armed ∨
      arg17.srcEmpty arg16 = some EmptyWhy.dead)) ∧ arg18 ∈ [Instr.csel arg19 arg16 arg20] ∧
    -- clause 2.5
    (arg21 ≠ Reg.g (60 : BitVec 6) ∧ (arg22.srcEmpty arg21 = some EmptyWhy.fill ∨ arg22.srcEmpty arg21 = some EmptyWhy.armed ∨
      arg22.srcEmpty arg21 = some EmptyWhy.dead)) ∧ arg23 ∈ [Instr.ringOpen (Reg.q (2 : BitVec 4)) arg21 arg24] ∧
    -- clause 2.6
    (arg25 ≠ Reg.g (60 : BitVec 6) ∧ (arg26.srcEmpty arg25 = some EmptyWhy.fill ∨ arg26.srcEmpty arg25 = some EmptyWhy.armed ∨
      arg26.srcEmpty arg25 = some EmptyWhy.dead)) ∧ (arg26.ctx arg26.me).lvl = Level.s ∧
    arg27 ∈ [Instr.ctlWr CtlReg.seg arg25, Instr.ctlWrx CtlReg.tvec arg25 arg28, Instr.eretx arg29 arg25 arg28, Instr.step
      arg29 arg25 arg28] ∧
    -- clause 3.0
    arg30.issues [arg31] [] ∧
    (arg32 ≠ Reg.g (60 : BitVec 6) ∧ (arg30.srcEmpty arg32 = some EmptyWhy.fill ∨ arg30.srcEmpty arg32 = some EmptyWhy.armed ∨
      arg30.srcEmpty arg32 = some EmptyWhy.dead)) ∧
    arg33 ∈ [Instr.add arg34 arg31 arg32, Instr.sub arg34 arg31 arg32, Instr.and arg34 arg31 arg32, Instr.or arg34 arg31
      arg32, Instr.xor arg34 arg31 arg32, Instr.shl arg34 arg31 arg32, Instr.shr arg34 arg31 arg32, Instr.sra arg34 arg31
      arg32, Instr.mul arg34 arg31 arg32, Instr.mulh arg34 arg31 arg32, Instr.mulhu arg34 arg31 arg32, Instr.min arg34 arg31
      arg32, Instr.max arg34 arg31 arg32, Instr.minu arg34 arg31 arg32, Instr.maxu arg34 arg31 arg32, Instr.adds arg34 arg31
      arg32, Instr.subs arg34 arg31 arg32, Instr.div arg34 arg31 arg32, Instr.divu arg34 arg31 arg32, Instr.rem arg34 arg31
      arg32, Instr.remu arg34 arg31 arg32, Instr.syncInit arg34 arg31 arg32, Instr.syncCall arg34 arg31 arg32, Instr.arrive
      arg34 arg31 arg32, Instr.syncMode arg34 arg31 arg32, Instr.syncPol arg34 arg31 arg32, Instr.sbExpect arg34 arg31 arg32,
      Instr.sbWait arg34 arg31 arg32, Instr.spawn arg34 arg31 arg32, Instr.partQuery arg34 arg31 arg32, Instr.plQuery arg34
      arg31 arg32] ∧
    -- clause 3.1
    arg35.issues [arg36] [] ∧
    (arg37 ≠ Reg.g (60 : BitVec 6) ∧ (arg35.srcEmpty arg37 = some EmptyWhy.fill ∨ arg35.srcEmpty arg37 = some EmptyWhy.armed ∨
      arg35.srcEmpty arg37 = some EmptyWhy.dead)) ∧
    arg38 ∈ [Instr.sk ICond.eq SkipCount.one arg36 arg37, Instr.fsk FCond.lt SkipCount.one arg36 arg37, Instr.msgSend arg36
      arg37, Instr.exit arg36 arg37, Instr.tlbInv arg36 arg37, Instr.wpSet arg36 arg37, Instr.cset ICond.eq (9 : BitVec 6)
      arg36 arg37, Instr.fcset FCond.lt (9 : BitVec 6) arg36 arg37, Instr.cmp (9 : BitVec 6) arg36 arg37] ∧
    -- clause 3.2
    arg39.issues [arg40] [] ∧
    (arg41 ≠ Reg.g (60 : BitVec 6) ∧ (arg39.srcEmpty arg41 = some EmptyWhy.fill ∨ arg39.srcEmpty arg41 = some EmptyWhy.armed ∨
      arg39.srcEmpty arg41 = some EmptyWhy.dead)) ∧ arg42 ∈ [Instr.csel arg43 arg40 arg41] := by
  constructorm* _ ∧ _ <;> (
    first
      | decide +kernel
      | (unfold State.issues; decide +kernel))

theorem meets_EmptyOperandsPark_2 :
    -- clause 3.3
    arg44.issues [arg45] [] ∧
    (arg46 ≠ Reg.g (60 : BitVec 6) ∧ (arg44.srcEmpty arg46 = some EmptyWhy.fill ∨ arg44.srcEmpty arg46 = some EmptyWhy.armed ∨
      arg44.srcEmpty arg46 = some EmptyWhy.dead)) ∧ arg47 ∈ [Instr.ringOpen (Reg.q (2 : BitVec 4)) arg45 arg46] ∧
    -- clause 4.0
    (Reg.q (2 : BitVec 4) ≠ Reg.g (60 : BitVec 6) ∧ (arg48.srcEmpty (Reg.q (2 : BitVec 4)) = some EmptyWhy.fill ∨
      arg48.srcEmpty (Reg.q (2 : BitVec 4)) = some EmptyWhy.armed ∨ arg48.srcEmpty (Reg.q (2 : BitVec 4)) = some
      EmptyWhy.dead)) ∧
    arg49 ∈ [Instr.ringResv arg50 (Reg.q (2 : BitVec 4)) arg51, Instr.ringPub arg50 (Reg.q (2 : BitVec 4)) arg51,
      Instr.ringWait arg50 (Reg.q (2 : BitVec 4)) arg51, Instr.ringFree arg50 (Reg.q (2 : BitVec 4)) arg51] ∧
    -- clause 4.1
    (Reg.q (2 : BitVec 4) ≠ Reg.g (60 : BitVec 6) ∧ (arg52.srcEmpty (Reg.q (2 : BitVec 4)) = some EmptyWhy.fill ∨
      arg52.srcEmpty (Reg.q (2 : BitVec 4)) = some EmptyWhy.armed ∨ arg52.srcEmpty (Reg.q (2 : BitVec 4)) = some
      EmptyWhy.dead)) ∧ arg53 ∈ [Instr.ringAdv (Reg.q (2 : BitVec 4)) arg54] ∧
    -- clause 5.0
    arg55.issues [Reg.q (2 : BitVec 4)] [] ∧
    (arg56 ≠ Reg.g (60 : BitVec 6) ∧ (arg55.srcEmpty arg56 = some EmptyWhy.fill ∨ arg55.srcEmpty arg56 = some EmptyWhy.armed ∨
      arg55.srcEmpty arg56 = some EmptyWhy.dead)) ∧
    arg57 ∈ [Instr.ringResv arg58 (Reg.q (2 : BitVec 4)) arg56, Instr.ringPub arg58 (Reg.q (2 : BitVec 4)) arg56,
      Instr.ringWait arg58 (Reg.q (2 : BitVec 4)) arg56, Instr.ringFree arg58 (Reg.q (2 : BitVec 4)) arg56] ∧
    -- clause 5.1
    arg59.issues [Reg.q (2 : BitVec 4)] [] ∧
    (arg60 ≠ Reg.g (60 : BitVec 6) ∧ (arg59.srcEmpty arg60 = some EmptyWhy.fill ∨ arg59.srcEmpty arg60 = some EmptyWhy.armed ∨
      arg59.srcEmpty arg60 = some EmptyWhy.dead)) ∧ arg61 ∈ [Instr.ringAdv (Reg.q (2 : BitVec 4)) arg60] ∧
    -- clause 6
    arg62.issues [arg63, arg64] [] ∧
    (arg65 ≠ Reg.g (60 : BitVec 6) ∧ (arg62.srcEmpty arg65 = some EmptyWhy.fill ∨ arg62.srcEmpty arg65 = some EmptyWhy.armed ∨
      arg62.srcEmpty arg65 = some EmptyWhy.dead)) ∧ arg66 ∈ [Instr.csel arg65 arg63 arg64] ∧
    -- clause 12.0
    (Reg.g (5 : BitVec 6) ≠ Reg.g (60 : BitVec 6) ∧ (arg67.srcEmpty (Reg.g (5 : BitVec 6)) = some EmptyWhy.fill ∨
      arg67.srcEmpty (Reg.g (5 : BitVec 6)) = some EmptyWhy.armed ∨ arg67.srcEmpty (Reg.g (5 : BitVec 6)) = some
      EmptyWhy.dead)) ∧
    arg68 ∈ [Instr.ld Size.d (9 : BitVec 6) (5 : BitVec 6) (3 : BitVec 13), Instr.addImm (9 : BitVec 6) (5 : BitVec 6) (3 :
      BitVec 13), Instr.andImm (9 : BitVec 6) (5 : BitVec 6) (3 : BitVec 13), Instr.orImm (9 : BitVec 6) (5 : BitVec 6) (3 :
      BitVec 13), Instr.xorImm (9 : BitVec 6) (5 : BitVec 6) (3 : BitVec 13), Instr.mulImm (9 : BitVec 6) (5 : BitVec 6) (3 :
      BitVec 13)] ∧
    -- clause 12.1
    (Reg.g (5 : BitVec 6) ≠ Reg.g (60 : BitVec 6) ∧ (arg69.srcEmpty (Reg.g (5 : BitVec 6)) = some EmptyWhy.fill ∨
      arg69.srcEmpty (Reg.g (5 : BitVec 6)) = some EmptyWhy.armed ∨ arg69.srcEmpty (Reg.g (5 : BitVec 6)) = some
      EmptyWhy.dead)) ∧
    arg70 ∈ [Instr.amoAdd true Scope.core (9 : BitVec 6) (5 : BitVec 6) (7 : BitVec 6), Instr.amoAnd true Scope.core (9 :
      BitVec 6) (5 : BitVec 6) (7 : BitVec 6), Instr.amoOr true Scope.core (9 : BitVec 6) (5 : BitVec 6) (7 : BitVec 6),
      Instr.amoXor true Scope.core (9 : BitVec 6) (5 : BitVec 6) (7 : BitVec 6), Instr.amoSwap true Scope.core (9 : BitVec 6)
      (5 : BitVec 6) (7 : BitVec 6), Instr.amoCas true Scope.core (9 : BitVec 6) (5 : BitVec 6) (7 : BitVec 6), Instr.amoMin
      true Scope.core (9 : BitVec 6) (5 : BitVec 6) (7 : BitVec 6), Instr.amoMax true Scope.core (9 : BitVec 6) (5 : BitVec 6)
      (7 : BitVec 6), Instr.amoMinu true Scope.core (9 : BitVec 6) (5 : BitVec 6) (7 : BitVec 6), Instr.amoMaxu true
      Scope.core (9 : BitVec 6) (5 : BitVec 6) (7 : BitVec 6), Instr.amoFadd Scope.core (9 : BitVec 6) (5 : BitVec 6) (7 :
      BitVec 6)] ∧
    -- clause 12.2
    (Reg.g (5 : BitVec 6) ≠ Reg.g (60 : BitVec 6) ∧ (arg71.srcEmpty (Reg.g (5 : BitVec 6)) = some EmptyWhy.fill ∨
      arg71.srcEmpty (Reg.g (5 : BitVec 6)) = some EmptyWhy.armed ∨ arg71.srcEmpty (Reg.g (5 : BitVec 6)) = some
      EmptyWhy.dead)) ∧
    arg72 ∈ [Instr.ldX Size.d arg73 (5 : BitVec 6) (3 : BitVec 13), Instr.addImmX arg73 (5 : BitVec 6) (3 : BitVec 13),
      Instr.feq arg73 (5 : BitVec 6)] ∧
    -- clause 12.3
    (Reg.g (5 : BitVec 6) ≠ Reg.g (60 : BitVec 6) ∧ (arg74.srcEmpty (Reg.g (5 : BitVec 6)) = some EmptyWhy.fill ∨
      arg74.srcEmpty (Reg.g (5 : BitVec 6)) = some EmptyWhy.armed ∨ arg74.srcEmpty (Reg.g (5 : BitVec 6)) = some
      EmptyWhy.dead)) ∧
    arg75 ∈ [Instr.shlImm (9 : BitVec 6) (5 : BitVec 6) (7 : BitVec 6), Instr.shrImm (9 : BitVec 6) (5 : BitVec 6) (7 : BitVec
      6), Instr.sraImm (9 : BitVec 6) (5 : BitVec 6) (7 : BitVec 6)] := by
  constructorm* _ ∧ _ <;> (
    first
      | decide +kernel
      | (unfold State.issues; decide +kernel))

theorem meets_EmptyOperandsPark_3 :
    -- clause 12.4
    (Reg.g (5 : BitVec 6) ≠ Reg.g (60 : BitVec 6) ∧ (arg76.srcEmpty (Reg.g (5 : BitVec 6)) = some EmptyWhy.fill ∨
      arg76.srcEmpty (Reg.g (5 : BitVec 6)) = some EmptyWhy.armed ∨ arg76.srcEmpty (Reg.g (5 : BitVec 6)) = some
      EmptyWhy.dead)) ∧
    arg77 ∈ [Instr.ldWf Size.d arg78 (5 : BitVec 6) (7 : BitVec 6), Instr.ldTk Size.d arg78 (5 : BitVec 6) (7 : BitVec 6),
      Instr.feWf arg78 (5 : BitVec 6) (7 : BitVec 6), Instr.feTk arg78 (5 : BitVec 6) (7 : BitVec 6)] ∧
    -- clause 12.5
    (Reg.g (5 : BitVec 6) ≠ Reg.g (60 : BitVec 6) ∧ (arg79.srcEmpty (Reg.g (5 : BitVec 6)) = some EmptyWhy.fill ∨
      arg79.srcEmpty (Reg.g (5 : BitVec 6)) = some EmptyWhy.armed ∨ arg79.srcEmpty (Reg.g (5 : BitVec 6)) = some
      EmptyWhy.dead)) ∧
    arg80 ∈ [Instr.amoLd true Scope.core (9 : BitVec 6) (5 : BitVec 6), Instr.st Size.d (9 : BitVec 6) (5 : BitVec 6) (3 :
      BitVec 13), Instr.bz (5 : BitVec 6) (8 : BitVec 19), Instr.bnz (5 : BitVec 6) (8 : BitVec 19), Instr.skImm ICond.eq
      SkipCount.one (5 : BitVec 6) (3 : BitVec 13), Instr.setm (5 : BitVec 6) (8 : BitVec 19), Instr.seth (5 : BitVec 6) (8 :
      BitVec 19), Instr.stFl Size.d arg81 (5 : BitVec 6) (7 : BitVec 6), Instr.feFl arg81 (5 : BitVec 6) (7 : BitVec 6)] ∧
    -- clause 13
    arg82.issues [Reg.g (1 : BitVec 6)] [] ∧
    (Reg.g (5 : BitVec 6) ≠ Reg.g (60 : BitVec 6) ∧ (arg82.srcEmpty (Reg.g (5 : BitVec 6)) = some EmptyWhy.fill ∨
      arg82.srcEmpty (Reg.g (5 : BitVec 6)) = some EmptyWhy.armed ∨ arg82.srcEmpty (Reg.g (5 : BitVec 6)) = some
      EmptyWhy.dead)) ∧ arg83 ∈ [Instr.st Size.d (5 : BitVec 6) (1 : BitVec 6) (3 : BitVec 13)] ∧
    -- clause 14.0
    arg84.issues [Reg.g (1 : BitVec 6)] [] ∧
    (Reg.g (5 : BitVec 6) ≠ Reg.g (60 : BitVec 6) ∧ (arg84.srcEmpty (Reg.g (5 : BitVec 6)) = some EmptyWhy.fill ∨
      arg84.srcEmpty (Reg.g (5 : BitVec 6)) = some EmptyWhy.armed ∨ arg84.srcEmpty (Reg.g (5 : BitVec 6)) = some
      EmptyWhy.dead)) ∧
    arg85 ∈ [Instr.amoAdd true Scope.core (9 : BitVec 6) (1 : BitVec 6) (5 : BitVec 6), Instr.amoAnd true Scope.core (9 :
      BitVec 6) (1 : BitVec 6) (5 : BitVec 6), Instr.amoOr true Scope.core (9 : BitVec 6) (1 : BitVec 6) (5 : BitVec 6),
      Instr.amoXor true Scope.core (9 : BitVec 6) (1 : BitVec 6) (5 : BitVec 6), Instr.amoSwap true Scope.core (9 : BitVec 6)
      (1 : BitVec 6) (5 : BitVec 6), Instr.amoCas true Scope.core (9 : BitVec 6) (1 : BitVec 6) (5 : BitVec 6), Instr.amoMin
      true Scope.core (9 : BitVec 6) (1 : BitVec 6) (5 : BitVec 6), Instr.amoMax true Scope.core (9 : BitVec 6) (1 : BitVec 6)
      (5 : BitVec 6), Instr.amoMinu true Scope.core (9 : BitVec 6) (1 : BitVec 6) (5 : BitVec 6), Instr.amoMaxu true
      Scope.core (9 : BitVec 6) (1 : BitVec 6) (5 : BitVec 6), Instr.amoFadd Scope.core (9 : BitVec 6) (1 : BitVec 6) (5 :
      BitVec 6)] ∧
    -- clause 14.1
    arg86.issues [Reg.g (1 : BitVec 6)] [] ∧
    (Reg.g (5 : BitVec 6) ≠ Reg.g (60 : BitVec 6) ∧ (arg86.srcEmpty (Reg.g (5 : BitVec 6)) = some EmptyWhy.fill ∨
      arg86.srcEmpty (Reg.g (5 : BitVec 6)) = some EmptyWhy.armed ∨ arg86.srcEmpty (Reg.g (5 : BitVec 6)) = some
      EmptyWhy.dead)) ∧
    arg87 ∈ [Instr.ldWf Size.d arg88 (1 : BitVec 6) (5 : BitVec 6), Instr.ldTk Size.d arg88 (1 : BitVec 6) (5 : BitVec 6),
      Instr.feWf arg88 (1 : BitVec 6) (5 : BitVec 6), Instr.feTk arg88 (1 : BitVec 6) (5 : BitVec 6)] ∧
    -- clause 17
    (arg89.ctx arg89.me).claim = some (Claim.bound 0) ∧
    (Reg.g (5 : BitVec 6) ≠ Reg.g (60 : BitVec 6) ∧ (arg89.srcEmpty (Reg.g (5 : BitVec 6)) = some EmptyWhy.fill ∨
      arg89.srcEmpty (Reg.g (5 : BitVec 6)) = some EmptyWhy.armed ∨ arg89.srcEmpty (Reg.g (5 : BitVec 6)) = some
      EmptyWhy.dead)) ∧
    arg90 ∈ [Instr.vshl (1 : BitVec 4) (2 : BitVec 4) (5 : BitVec 6), Instr.vshr (1 : BitVec 4) (2 : BitVec 4) (5 : BitVec 6),
      Instr.vcvt Rm.rne (1 : BitVec 4) (2 : BitVec 4) (5 : BitVec 6), Instr.vcmp (1 : BitVec 4) (2 : BitVec 4) (3 : BitVec 4)
      (5 : BitVec 6), Instr.vbcast (1 : BitVec 4) (5 : BitVec 6), Instr.vld (1 : BitVec 4) (5 : BitVec 6), Instr.vst (2 :
      BitVec 4) (5 : BitVec 6), Instr.vunpack (1 : BitVec 4) (2 : BitVec 4) (5 : BitVec 6), Instr.viota (1 : BitVec 4) (5 :
      BitVec 6), Instr.mma MmaTy.i8 (1 : BitVec 2) (2 : BitVec 2) (1 : BitVec 2) (1 : BitVec 3) (2 : BitVec 3) (5 : BitVec 6),
      Instr.tld (1 : BitVec 3) (5 : BitVec 6), Instr.tst (1 : BitVec 3) (5 : BitVec 6), Instr.tdescWr (1 : BitVec 3) (5 :
      BitVec 6), Instr.accSt (1 : BitVec 2) (5 : BitVec 6), Instr.accLd (1 : BitVec 2) (5 : BitVec 6), Instr.accCvt CvtTy.f16
      (1 : BitVec 2) (1 : BitVec 2) (1 : BitVec 3) (5 : BitVec 6), Instr.srSeed (5 : BitVec 6), Instr.phRed (1 : BitVec 4) (2
      : BitVec 4) (5 : BitVec 6), Instr.qhist (1 : BitVec 4) (2 : BitVec 4) (5 : BitVec 6), Instr.qclip (1 : BitVec 4) (2 :
      BitVec 4) (5 : BitVec 6), Instr.qnt Rm.rne (1 : BitVec 4) (2 : BitVec 4) (3 : BitVec 4) (5 : BitVec 6), Instr.dq (1 :
      BitVec 4) (2 : BitVec 4) (5 : BitVec 6)] ∧
    -- clause 8
    arg91.issues [arg92, arg93] [] ∧
    (Reg.q (2 : BitVec 4) ≠ Reg.g (61 : BitVec 6) ∧ (arg91.srcEmpty (Reg.q (2 : BitVec 4)) = some EmptyWhy.fill ∨
      arg91.srcEmpty (Reg.q (2 : BitVec 4)) = some EmptyWhy.armed)) ∧
    arg94 ∈ [Instr.ringOpen (Reg.q (2 : BitVec 4)) arg92 arg93] ∧
    -- clause 9
    arg95.issues [Reg.q (2 : BitVec 4), arg96] [] ∧
    (arg97 ≠ Reg.g (61 : BitVec 6) ∧ (arg95.srcEmpty arg97 = some EmptyWhy.fill ∨ arg95.srcEmpty arg97 = some EmptyWhy.armed))
      ∧
    arg98 ∈ [Instr.ringResv arg97 (Reg.q (2 : BitVec 4)) arg96, Instr.ringPub arg97 (Reg.q (2 : BitVec 4)) arg96,
      Instr.ringWait arg97 (Reg.q (2 : BitVec 4)) arg96, Instr.ringFree arg97 (Reg.q (2 : BitVec 4)) arg96] := by
  constructorm* _ ∧ _ <;> (
    first
      | decide +kernel
      | (unfold State.issues; decide +kernel))

theorem meets_EmptyOperandsPark_4 :
    -- clause 7
    arg99.issues [arg100, arg101] [] ∧
    (arg102 ≠ Reg.g (61 : BitVec 6) ∧ (arg99.srcEmpty arg102 = some EmptyWhy.fill ∨ arg99.srcEmpty arg102 = some
      EmptyWhy.armed)) ∧
    arg103 ∈ [Instr.add arg102 arg100 arg101, Instr.sub arg102 arg100 arg101, Instr.and arg102 arg100 arg101, Instr.or arg102
      arg100 arg101, Instr.xor arg102 arg100 arg101, Instr.shl arg102 arg100 arg101, Instr.shr arg102 arg100 arg101, Instr.sra
      arg102 arg100 arg101, Instr.mul arg102 arg100 arg101, Instr.mulh arg102 arg100 arg101, Instr.mulhu arg102 arg100 arg101,
      Instr.min arg102 arg100 arg101, Instr.max arg102 arg100 arg101, Instr.minu arg102 arg100 arg101, Instr.maxu arg102
      arg100 arg101, Instr.adds arg102 arg100 arg101, Instr.subs arg102 arg100 arg101, Instr.div arg102 arg100 arg101,
      Instr.divu arg102 arg100 arg101, Instr.rem arg102 arg100 arg101, Instr.remu arg102 arg100 arg101, Instr.syncInit arg102
      arg100 arg101, Instr.syncCall arg102 arg100 arg101, Instr.arrive arg102 arg100 arg101, Instr.syncMode arg102 arg100
      arg101, Instr.syncPol arg102 arg100 arg101, Instr.sbExpect arg102 arg100 arg101, Instr.sbWait arg102 arg100 arg101,
      Instr.spawn arg102 arg100 arg101, Instr.partQuery arg102 arg100 arg101, Instr.plQuery arg102 arg100 arg101] ∧
    -- clause 10
    arg104.issues [arg105] [] ∧
    (arg106 ≠ Reg.g (61 : BitVec 6) ∧ (arg104.srcEmpty arg106 = some EmptyWhy.fill ∨ arg104.srcEmpty arg106 = some
      EmptyWhy.armed)) ∧
    arg107 ∈ [Instr.clz arg106 arg105, Instr.ctz arg106 arg105, Instr.popc arg106 arg105, Instr.sxb arg106 arg105, Instr.sxh
      arg106 arg105, Instr.sxw arg106 arg105, Instr.acq arg106 arg105, Instr.tryacq arg106 arg105, Instr.arriveWait arg106
      arg105, Instr.plBind arg106 arg105, Instr.plDetach arg106 arg105, Instr.plEnd arg106 arg105, Instr.jlr arg106 arg105,
      Instr.nest arg106 arg105, Instr.sfRcp arg106 arg105, Instr.sfSqrt arg106 arg105, Instr.sfRsqrt arg106 arg105,
      Instr.sfExp2 arg106 arg105, Instr.sfLog2 arg106 arg105, Instr.sfSinpi arg106 arg105, Instr.sfCospi arg106 arg105] ∧
    -- clause 11.0
    (arg108 ≠ Reg.g (61 : BitVec 6) ∧ (arg109.srcEmpty arg108 = some EmptyWhy.fill ∨ arg109.srcEmpty arg108 = some
      EmptyWhy.armed)) ∧
    -- clause 11.1
    (arg110 ≠ Reg.g (61 : BitVec 6) ∧ (arg111.srcEmpty arg110 = some EmptyWhy.fill ∨ arg111.srcEmpty arg110 = some
      EmptyWhy.armed)) ∧ arg112 ∈ [Instr.engClaim arg110, Instr.dgClose arg110] ∧
    -- clause 15.0
    arg113.issues [Reg.g (1 : BitVec 6)] [] ∧
    (Reg.g (5 : BitVec 6) ≠ Reg.g (61 : BitVec 6) ∧ (arg113.srcEmpty (Reg.g (5 : BitVec 6)) = some EmptyWhy.fill ∨
      arg113.srcEmpty (Reg.g (5 : BitVec 6)) = some EmptyWhy.armed)) ∧
    arg114 ∈ [Instr.ld Size.d (5 : BitVec 6) (1 : BitVec 6) (3 : BitVec 13), Instr.addImm (5 : BitVec 6) (1 : BitVec 6) (3 :
      BitVec 13), Instr.andImm (5 : BitVec 6) (1 : BitVec 6) (3 : BitVec 13), Instr.orImm (5 : BitVec 6) (1 : BitVec 6) (3 :
      BitVec 13), Instr.xorImm (5 : BitVec 6) (1 : BitVec 6) (3 : BitVec 13), Instr.mulImm (5 : BitVec 6) (1 : BitVec 6) (3 :
      BitVec 13)] ∧
    -- clause 15.1
    arg115.issues [Reg.g (1 : BitVec 6)] [] ∧
    (Reg.g (5 : BitVec 6) ≠ Reg.g (61 : BitVec 6) ∧ (arg115.srcEmpty (Reg.g (5 : BitVec 6)) = some EmptyWhy.fill ∨
      arg115.srcEmpty (Reg.g (5 : BitVec 6)) = some EmptyWhy.armed)) ∧
    arg116 ∈ [Instr.shlImm (5 : BitVec 6) (1 : BitVec 6) (7 : BitVec 6), Instr.shrImm (5 : BitVec 6) (1 : BitVec 6) (7 :
      BitVec 6), Instr.sraImm (5 : BitVec 6) (1 : BitVec 6) (7 : BitVec 6)] ∧
    -- clause 15.2
    arg117.issues [Reg.g (1 : BitVec 6)] [] ∧
    (Reg.g (5 : BitVec 6) ≠ Reg.g (61 : BitVec 6) ∧ (arg117.srcEmpty (Reg.g (5 : BitVec 6)) = some EmptyWhy.fill ∨
      arg117.srcEmpty (Reg.g (5 : BitVec 6)) = some EmptyWhy.armed)) ∧
    arg118 ∈ [Instr.amoLd true Scope.core (5 : BitVec 6) (1 : BitVec 6)] ∧
    -- clause 16
    arg119.issues [Reg.g (1 : BitVec 6)] [] ∧
    (arg120 ≠ Reg.g (61 : BitVec 6) ∧ (arg119.srcEmpty arg120 = some EmptyWhy.fill ∨ arg119.srcEmpty arg120 = some
      EmptyWhy.armed)) ∧
    arg121 ∈ [Instr.ldX Size.d arg120 (1 : BitVec 6) (3 : BitVec 13), Instr.addImmX arg120 (1 : BitVec 6) (3 : BitVec 13),
      Instr.feq arg120 (1 : BitVec 6)] ∧
    -- clause 18
    (arg122.ctx arg122.me).claim = some (Claim.bound 0) ∧
    (Reg.g (5 : BitVec 6) ≠ Reg.g (61 : BitVec 6) ∧ (arg122.srcEmpty (Reg.g (5 : BitVec 6)) = some EmptyWhy.fill ∨
      arg122.srcEmpty (Reg.g (5 : BitVec 6)) = some EmptyWhy.armed)) ∧
    arg123 ∈ [Instr.tdescRd (1 : BitVec 3) (5 : BitVec 6)] := by
  constructorm* _ ∧ _ <;> (
    first
      | decide +kernel
      | (unfold State.issues; decide +kernel))

theorem meets_LittleEndian :
    -- clauses 3, 5
    Memory.wf arg124.mem = true := by
  decide +kernel

theorem meets_BreakpointTraps :
    -- clause 2
    BitVec.getLsbD (4467570907660943370 : Word) 31 = false ∧
    (BitVec.extractLsb' 25 6 (4467570907660943370 : Word) = BitVec.ofNat 6 31 ∨ BitVec.extractLsb' 57 6 (4467570907660943370 :
      Word) = BitVec.ofNat 6 31) := by
  constructorm* _ ∧ _ <;> decide +kernel

theorem meets_Conditions :
    -- clauses 4.0, 4.1
    arg125.issues [arg126, arg127] [Reg.g (5 : BitVec 6)] ∧ arg125.leads ∧ arg125.issues [arg126, arg127] [] ∧
    -- clause 3
    arg128 ≠ Reg.g (60 : BitVec 6) ∧ arg128 ≠ Reg.g (61 : BitVec 6) := by
  constructorm* _ ∧ _ <;> (
    first
      | decide +kernel
      | (unfold State.issues; decide +kernel)
      | (unfold State.leads; decide +kernel))

theorem meets_TakingATrap :
    -- clause 2
    1 ≤ 20 ∧ 20 ≤ 22 ∧
    (¬((arg129.ctx arg129.me).intrap = false ∧ ((arg129.ctx arg129.me).lvl = Level.f ∨ delegable (TrapRec.make 20 (5 : Word)
      (6 : Word) 0) = true ∧ BitVec.getLsbD (arg129.ctx arg129.me).tdeleg 20 = true))) ∧
    (arg129.ctx arg129.me).lvl ≠ Level.u ∧
    -- clause 1
    (¬((arg130.ctx arg130.me).intrap = false ∧ ((arg130.ctx arg130.me).lvl = Level.f ∨ delegable (TrapRec.make 20 (5 : Word)
      (6 : Word) 0) = true ∧ BitVec.getLsbD (arg130.ctx arg130.me).tdeleg 20 = true))) ∧
    (arg130.ctx arg130.me).lvl = Level.u ∧ (arg130.ctx arg130.me).core < 4096 ∧ (arg130.ctx arg130.me).slotNo < 16 ∧
    -- clause 0
    1 ≤ 1 ∧ 1 ≤ 22 ∧
    ((arg131.ctx arg131.me).intrap = false ∧ ((arg131.ctx arg131.me).lvl = Level.f ∨ delegable (TrapRec.make 1 (5 : Word) (6 :
      Word) 0) = true ∧ BitVec.getLsbD (arg131.ctx arg131.me).tdeleg 1 = true)) := by
  constructorm* _ ∧ _ <;> decide +kernel

end Traps

namespace Steps

def sW (i : Instr) : State := (base.withFetchWord 32 ((encodeWord 1 i).getD 0).toNat)
def paOf (s : State) (t : Nat) : Nat := match s.translate t ((s.ctx t).pc &&& ~~~7#64) .fetch with | .ok p _ => p | _ => 0
def dOf (s : State) (t : Nat) : Option Nat := match s.translate t ((s.ctx t).pc &&& ~~~7#64) .fetch with | .ok _ d => d | _ => none
def sW1 := sW (.add (.g 3) (.g 1) (.g 2))
def dwP' : Word := ((encodeWord 0 (.add (.g 3) (.g 1) (.g 2))).getD 0) ++ ((encodeWord 0 (.ctlRd (.g 5) .tvec)).getD 0)
def sWp := sW1.wr64 (paOf sW1 0) dwP'
def iss (s : State) (w : BitVec 32) (nx : Nat): State := ((({ s with pick := none }).setIssue 0 (s.ctx 0).pc 0).startIssue 0 ((s.ctx 0).pc + word nx) w).countStep 0
def sW2 : State := iss sWp (dwP'.setWidth 32) 8
def sWi := sW1.wr64 (paOf sW1 0) 0xFFFFFFFF
def sRf : State := {sW1.modCtx 0 fun c => {c with pc := 0x10000} with grants := []}
def rfOf : State × Option TrapRec := let s0 := ({ sRf with pick := none }).setIssue 0 0x10000 0
  s0.refusal (s0.request 0 .none 0x10000 (paOf sRf 0) none) ⟨8, false, true, false⟩
def sA0 := sW1
def sHe : State := {sW1.modCtx 0 fun c => {c with park := .held {sA0.request 0 (.load 8) 0x10000 (sram 64) (some (.g 3)) with id := 5} 8 .load} with pick := none}
def later5 (s : State) : State := { s with agenda := [(6, .placerChoose 3)], wall := s.wall + 5 }
def arg0 : ℕ := paOf sW1 0
def arg1 : Option ℕ := dOf sW1 0
def arg2 : Instr := .add (.g 3) (.g 1) (.g 2)
def arg3 : BitVec 32 := (sW1.rd64 (paOf sW1 0)).setWidth 32
def arg4 : ℕ := paOf sW1 0
def arg5 : Option ℕ := dOf sW1 0
def arg6 : Instr := .ctlRd (.g 5) .tvec
def arg7 : Instr := .add (.g 3) (.g 1) (.g 2)
def arg8 : ℕ := paOf sW1 0
def arg9 : Option ℕ := dOf sW1 0
def arg10 : State := iss sWi 0xFFFFFFFF 4
def arg11 : ℕ := paOf sRf 0
def arg12 : Option ℕ := dOf sRf 0
def arg13 : State := rfOf.1
def arg14 : TrapRec := rfOf.2.getD (TrapRec.make 0 0 0 0)
def arg15 : State := {sW1 with pick := none, agenda := [(5,.placerChoose 0), (6, .placerChoose 3)]}
def arg16 : Instr := .placerChoose 0
def arg17 : List (ℕ × Instr) := [(6, .placerChoose 3)]
def arg18 : State := later5 {sW1 with pick := none}
def arg19 : State := {sW1 with pick := none, agenda := []}
def arg20 : State := {sW1 with pick := none, power := .off}

theorem meets_StepRunsTheDecodedUnit :
    -- clause 0.0
    sW1.pick = some 0 ∧ (sW1.ctx 0).regErr = none ∧ (sW1.ctx 0).pending = none ∧ (sW1.ctx 0).skip = (0 : BitVec 2) ∧
    ((({ sW1 with pick := none } : State).corrects 0 0).setIssue 0 (sW1.ctx 0).pc (0 : BitVec 32)).translate 0 ((sW1.ctx 0).pc
      &&& ~~~BitVec.ofNat 64 7) Kind.fetch = Xl.ok arg0 arg1 ∧
    (((({ sW1 with pick := none } : State).corrects 0 0).setIssue 0 (sW1.ctx 0).pc (0 : BitVec 32)).target arg0).isSome = true
      ∧
    ((({ sW1 with pick := none } : State).corrects 0 0).setIssue 0 (sW1.ctx 0).pc (0 : BitVec 32)).refusal
      (((({ sW1 with pick := none } : State).corrects 0 0).setIssue 0 (sW1.ctx 0).pc (0 : BitVec 32)).request 0 HomeOp.none
      (sW1.ctx 0).pc arg0 none) ({ n := 8, writes := false, reads := true, sync := false } : Touch) =
      ((({ sW1 with pick := none } : State).corrects 0 0).setIssue 0 (sW1.ctx 0).pc (0 : BitVec 32), none) ∧
    decodeUnit (sW1.rd64 arg0) (BitVec.getLsbD (sW1.ctx 0).pc 2) = IssueUnit.lone arg2 ∧
    (arg3 = if BitVec.getLsbD (sW1.ctx 0).pc 2 = true then BitVec.extractLsb' 32 32 (sW1.rd64 arg0) else BitVec.extractLsb' 0
      32 (sW1.rd64 arg0)) ∧
    -- clause 0.1
    sWp.pick = some 0 ∧ (sWp.ctx 0).regErr = none ∧ (sWp.ctx 0).pending = none ∧ (sWp.ctx 0).skip = (0 : BitVec 2) ∧
    ((({ sWp with pick := none } : State).corrects 0 0).setIssue 0 (sWp.ctx 0).pc (0 : BitVec 32)).translate 0 ((sWp.ctx 0).pc
      &&& ~~~BitVec.ofNat 64 7) Kind.fetch = Xl.ok arg4 arg5 ∧
    (((({ sWp with pick := none } : State).corrects 0 0).setIssue 0 (sWp.ctx 0).pc (0 : BitVec 32)).target arg4).isSome = true
      ∧
    ((({ sWp with pick := none } : State).corrects 0 0).setIssue 0 (sWp.ctx 0).pc (0 : BitVec 32)).refusal
      (((({ sWp with pick := none } : State).corrects 0 0).setIssue 0 (sWp.ctx 0).pc (0 : BitVec 32)).request 0 HomeOp.none
      (sWp.ctx 0).pc arg4 none) ({ n := 8, writes := false, reads := true, sync := false } : Touch) =
      ((({ sWp with pick := none } : State).corrects 0 0).setIssue 0 (sWp.ctx 0).pc (0 : BitVec 32), none) ∧
    decodeUnit (sWp.rd64 arg4) (BitVec.getLsbD (sWp.ctx 0).pc 2) = IssueUnit.pair arg6 arg7 ∧
    (sW2 = (((({ sWp with pick := none } : State).corrects 0 0).setIssue 0 (sWp.ctx 0).pc (0 : BitVec 32)).startIssue 0 (if
      BitVec.getLsbD (sWp.rd64 arg4) 31 = true ∧ BitVec.getLsbD (sWp.ctx 0).pc 2 = false then (sWp.ctx 0).pc + (4 : Word) else
      ((sWp.ctx 0).pc &&& ~~~BitVec.ofNat 64 7) + (8 : Word)) (BitVec.extractLsb' 0 32 (sWp.rd64 arg4))).countStep 0) := by
  constructorm* _ ∧ _ <;> decide +kernel

theorem meets_StepRunsTheDecodedUnit_2 :
    -- clause 0.2
    sWi.pick = some 0 ∧ (sWi.ctx 0).regErr = none ∧ (sWi.ctx 0).pending = none ∧ (sWi.ctx 0).skip = (0 : BitVec 2) ∧
    ((({ sWi with pick := none } : State).corrects 0 0).setIssue 0 (sWi.ctx 0).pc (0 : BitVec 32)).translate 0 ((sWi.ctx 0).pc
      &&& ~~~BitVec.ofNat 64 7) Kind.fetch = Xl.ok arg8 arg9 ∧
    (((({ sWi with pick := none } : State).corrects 0 0).setIssue 0 (sWi.ctx 0).pc (0 : BitVec 32)).target arg8).isSome = true
      ∧
    ((({ sWi with pick := none } : State).corrects 0 0).setIssue 0 (sWi.ctx 0).pc (0 : BitVec 32)).refusal
      (((({ sWi with pick := none } : State).corrects 0 0).setIssue 0 (sWi.ctx 0).pc (0 : BitVec 32)).request 0 HomeOp.none
      (sWi.ctx 0).pc arg8 none) ({ n := 8, writes := false, reads := true, sync := false } : Touch) =
      ((({ sWi with pick := none } : State).corrects 0 0).setIssue 0 (sWi.ctx 0).pc (0 : BitVec 32), none) ∧
    decodeUnit (sWi.rd64 arg8) (BitVec.getLsbD (sWi.ctx 0).pc 2) = IssueUnit.illegal false ∧
    (arg10 = (((({ sWi with pick := none } : State).corrects 0 0).setIssue 0 (sWi.ctx 0).pc (0 : BitVec 32)).startIssue 0 (if
      BitVec.getLsbD (sWi.rd64 arg8) 31 = true ∧ BitVec.getLsbD (sWi.ctx 0).pc 2 = false then (sWi.ctx 0).pc + (4 : Word) else
      ((sWi.ctx 0).pc &&& ~~~BitVec.ofNat 64 7) + (8 : Word)) (if false = true then BitVec.extractLsb' 32 32 (sWi.rd64 arg8)
      else BitVec.extractLsb' 0 32 (sWi.rd64 arg8))).countStep 0) ∧
    -- clause 1
    sRf.pick = some 0 ∧ (sRf.ctx 0).regErr = none ∧ (sRf.ctx 0).pending = none ∧ (sRf.ctx 0).skip = (0 : BitVec 2) ∧
    ((({ sRf with pick := none } : State).corrects 0 0).setIssue 0 (sRf.ctx 0).pc (0 : BitVec 32)).translate 0 ((sRf.ctx 0).pc
      &&& ~~~BitVec.ofNat 64 7) Kind.fetch = Xl.ok arg11 arg12 ∧
    (((({ sRf with pick := none } : State).corrects 0 0).setIssue 0 (sRf.ctx 0).pc (0 : BitVec 32)).target arg11).isSome =
      true ∧
    ((({ sRf with pick := none } : State).corrects 0 0).setIssue 0 (sRf.ctx 0).pc (0 : BitVec 32)).refusal
      (((({ sRf with pick := none } : State).corrects 0 0).setIssue 0 (sRf.ctx 0).pc (0 : BitVec 32)).request 0 HomeOp.none
      (sRf.ctx 0).pc arg11 none) ({ n := 8, writes := false, reads := true, sync := false } : Touch) = (arg13, some arg14) ∧
    -- clause 2
    sHe.pick = none ∧ sHe.awake = true ∧ sHe.movesOn = some 0 ∧
    -- clause 3
    arg15.pick = none ∧ (arg15.awake = true → arg15.movesOn = none) ∧ arg15.agenda = (5, arg16) :: arg17 ∧
    encodeWord (0 : BitVec 1) arg16 = none ∧
    arg18 =
      ({ arg15 with wall := (↑(arg15.wall + 5) + (arg15.slew - slewLeft arg15.slew 5)).toNat, slew := slewLeft arg15.slew 5, agenda := arg17 }
      : State) := by
  constructorm* _ ∧ _ <;> decide +kernel

theorem meets_StepRunsTheDecodedUnit_3 :
    -- clause 4
    arg19.pick = none ∧ arg19.movesOn = none ∧ arg19.agenda = [] ∧ arg19.awake = true ∧
    -- clause 5
    arg20.pick = none ∧ arg20.agenda = [] ∧ arg20.awake = false := by
  constructorm* _ ∧ _ <;> decide +kernel

end Steps

namespace Words

def sA := at_ base (.add (.g 3) (.g 1) (.g 2))
def claimed (k : Nat) (s : State) : State := (s.modCtx 0 fun c => {c with claim := some (.bound k)}).modEng 0 k fun e => {e with owner := some 0}
def r9 (v : Word) (s : State) : State := s.modCtx 0 fun c => {c with regs := [(5, v), (9, 3), (1, 3), (2, 5)]}
def sV := claimed 1 sA
def i1 (s : State) (w1 : BitVec 32) : Issue := { s.iss with
    w := s.iss.pc + 4
    word := w1
    wpos := true
    snap := some (s.ctx s.me, (s.core (s.ctx s.me).core).bank (s.ctx s.me).fn) }
def pv (s : State) (i : Instr) (rd : BitVec 6) (w1 : BitVec 32) : Word := match exec i { s with iss := i1 s w1 } with
  | .next t => t.peek s.me (.g rd)
  | _ => 0
def rv (s : State) (x : CtlReg) (rd : BitVec 6) : Word := match exec (.ctlRd (.g rd) x) s with
  | .next t => t.peek s.me (.g rd)
  | _ => 0
def w1a : BitVec 32 := (encodeWord 1 (.ld .d 63 62 0x1FFF)).getD 0
def arg0 : State := r9 0 sA
def arg1 : Reg := .g 9
def arg2 : Reg := .g 1
def arg3 : State := r9 0 sA
def arg4 : Reg := .g 1
def arg5 : Reg := .g 2
def arg6 : State := (r9 0 sA).modCtx 0 fun c => {c with regs := c.regs.put 6 1}
def arg7 : Reg := .g 9
def arg8 : Reg := .g 6
def arg9 : Instr × List Reg := (.add (.g (3)) (.g 5) (.g 2), [(.g 5), (.g 2)])
def arg10 : Reg := .g 5
def arg11 : Reg := .g 2
def arg12 : Word := pv (sA) (.add (.g (3)) (.g 5) (.g 2)) 3 77
def arg13 : Word := rv (sA) (.tvec) 5
def arg14 : Instr := .ld .d 63 62 0x1FFF
def arg15 : Instr := .ld .d 63 62 0x1FFF
def arg16 : State := r9 0x40002 sV

theorem meets_ResetState :
    -- clause 5
    1024 ≠ 0 ∧
    -- clause 13
    15 < 16 ∧
    -- clause 15
    31 < 32 := by
  constructorm* _ ∧ _ <;> decide +kernel

theorem meets_ImmediatesAndSets_2 :
    -- clauses 1.0, 1.3, 1.5, 1.6
    arg0.issues [arg1, arg2] [Reg.g (3 : BitVec 6)] ∧ arg0.src arg1 = arg0.src arg2 ∧ ¬arg0.src arg1 ≠ arg0.src arg2 ∧
    ¬BitVec.toInt (arg0.src arg1) < BitVec.toInt (arg0.src arg2) ∧
    BitVec.toInt (arg0.src arg2) ≤ BitVec.toInt (arg0.src arg1) ∧
    -- clauses 1.8, 1.11
    arg3.issues [arg4, arg5] [Reg.g (3 : BitVec 6)] ∧ BitVec.toNat (arg3.src arg4) < BitVec.toNat (arg3.src arg5) ∧
    ¬BitVec.toNat (arg3.src arg5) ≤ BitVec.toNat (arg3.src arg4) ∧
    -- clauses 1.12, 1.15
    arg6.issues [arg7, arg8] [Reg.g (3 : BitVec 6)] ∧
    BitVec.getLsbD (arg6.src arg7) (BitVec.toNat (arg6.src arg8) % 64) = true ∧
    ¬BitVec.getLsbD (arg6.src arg7) (BitVec.toNat (arg6.src arg8) % 64) = false := by
  constructorm* _ ∧ _ <;> (
    first
      | decide +kernel
      | (unfold State.issues; decide +kernel))

theorem meets_LittleEndian_2 :
    -- clause 0
    Memory.wf sA.mem = true ∧ 63 < 64 ∧
    -- clause 2
    8 < 9 ∧
    -- clause 4
    0 < 9 := by
  constructorm* _ ∧ _ <;> decide +kernel

theorem meets_EncodingRoundTrip :
    -- clause 0
    arg14.wellFormed = true ∧ encodeWord (1 : BitVec 1) arg14 = some w1a ∧
    -- clause 1
    decodeWord w1a = some arg15 := by
  constructorm* _ ∧ _ <;> decide +kernel

theorem meets_EngineInstructions_3 :
    -- clauses 2.0, 2.1, 2.2, 2.3, 2.4, 2.5, 2.6, 2.7, 2.8, 2.9, 2.10
    arg16.leads ∧ (arg16.ctx arg16.me).claim = some (Claim.bound 1) ∧ arg16.issues [Reg.g (5 : BitVec 6)] none.toList ∧
    engineOk (Instr.mma MmaTy.i8 (1 : BitVec 2) (2 : BitVec 2) (3 : BitVec 2) (4 : BitVec 3) (5 : BitVec 3) (5 : BitVec 6))
      arg16.opCtx.vshape (arg16.src (Reg.g (5 : BitVec 6))) = true ∧ arg16.issues [] none.toList ∧
    engineOk (Instr.pmm PmmTy.ph16 (3 : BitVec 2) (4 : BitVec 3) (5 : BitVec 3)) arg16.opCtx.vshape (0 : Word) = true ∧
    engineOk (Instr.tld (4 : BitVec 3) (5 : BitVec 6)) arg16.opCtx.vshape (arg16.src (Reg.g (5 : BitVec 6))) = true ∧
    engineOk (Instr.tst (4 : BitVec 3) (5 : BitVec 6)) arg16.opCtx.vshape (arg16.src (Reg.g (5 : BitVec 6))) = true ∧
    engineOk (Instr.tdescWr (4 : BitVec 3) (5 : BitVec 6)) arg16.opCtx.vshape (arg16.src (Reg.g (5 : BitVec 6))) = true ∧
    arg16.issues [] (some (Reg.g (5 : BitVec 6))).toList ∧
    engineOk (Instr.tdescRd (4 : BitVec 3) (5 : BitVec 6)) arg16.opCtx.vshape (0 : Word) = true ∧
    engineOk (Instr.accZero (3 : BitVec 2)) arg16.opCtx.vshape (0 : Word) = true ∧
    engineOk (Instr.accSt (3 : BitVec 2) (5 : BitVec 6)) arg16.opCtx.vshape (arg16.src (Reg.g (5 : BitVec 6))) = true ∧
    engineOk (Instr.accLd (3 : BitVec 2) (5 : BitVec 6)) arg16.opCtx.vshape (arg16.src (Reg.g (5 : BitVec 6))) = true ∧
    engineOk (Instr.accCvt CvtTy.f16 (1 : BitVec 2) (3 : BitVec 2) (4 : BitVec 3) (5 : BitVec 6)) arg16.opCtx.vshape
      (arg16.src (Reg.g (5 : BitVec 6))) = true ∧
    engineOk (Instr.srSeed (5 : BitVec 6)) arg16.opCtx.vshape (arg16.src (Reg.g (5 : BitVec 6))) = true := by
  constructorm* _ ∧ _ <;> (
    first
      | decide +kernel
      | (unfold State.issues; decide +kernel)
      | (unfold State.leads; decide +kernel))

end Words

namespace Elements

def qe (i : Instr) (vs : Word) : QEntry := ⟨1, i, 0, 0, 0, 0, 0, 0, 0, 0, 0x1FE, vs, [0,0,0,0], 0, 0⟩
def eg : Eng := {Eng.reset with v := [(1, 0x0102030405060708090A0B0C0D0E0F), (2, 0x010203040506070F0E0D0C0B0A), (3, 0xFFFFFFFFFFFFFFFFFFFFFFFFFFFFFFFFFFFFFFFFFFFFFF00FF)]}
def veL (v : Word) (i : Instr) := qe i v
def egn : Eng := {Eng.reset with gen := 5, v := [(1, 0x4000_7E01_C000_4100), (2, 0x8000_3C00_3C00_0000), (3, 0xFFFF_0001_0001_0001_0001)]}
def egh (n : Nat) : Eng := {Eng.reset with v := [(1, BitVec.ofNat 8192 n), (3, 0xFFFF_FFFF_0000_0005)]}
def arg0 : QEntry := {veL 0x8008 (.vshl 3 2 5) with rs := 3}
def arg1 : QEntry := {veL 0x4004 (.vmin 3 1 2) with rs := 0}
def arg2 : QEntry := {veL 0x2008 (.vand 3 1 2) with rs := 0x1FE}
def arg3 : QEntry := {veL 0x2008 (.vor 3 1 2) with rs := 0x1FE}
def arg4 : QEntry := {veL 0x2008 (.vxor 3 1 2) with rs := 0x1FE}
def arg5 : QEntry := {veL 0x2008 (.vsel 3 1 2) with rs := 0x1FE}
def arg6 : QEntry := {veL 0x8008 (.vbcast 3 1) with rs := 0x1FE}
def arg7 : QEntry := {veL 0x8008 (.vadd .rne 3 1 2) with rs := 0x1FE}
def arg8 : QEntry := {veL 0x8008 (.vsub .rne 3 1 2) with rs := 0x1FE}
def arg9 : QEntry := {veL 0x8008 (.vmul .rne 3 1 2) with rs := 0x1FE}
def arg10 : QEntry := {veL 0x8008 (.vmin 3 1 2) with rs := 0x1FE}
def arg11 : QEntry := {veL 0x8008 (.vmax 3 1 2) with rs := 0x1FE}
def arg12 : QEntry := {veL 0x8008 (.vabs 3 2) with rs := 0x1FE}
def arg13 : QEntry := {veL 0x8008 (.vneg 3 2) with rs := 0x1FE}
def arg14 : QEntry := {veL 0x8008 (.vshr 3 2 5) with rs := 3}
def arg15 : QEntry := {veL 0x8008 (.viota 3 5) with rs := 3}
def arg16 : QEntry := {veL 0x4004 (.vadd .rtz 3 1 2) with rs := 0}
def arg17 : QEntry := {veL 0x4004 (.vsub .rtz 3 1 2) with rs := 0}
def arg18 : QEntry := {veL 0x4004 (.vmul .rtz 3 1 2) with rs := 0}
def arg19 : QEntry := {veL 0x4004 (.vfma .rtz 3 1 2) with rs := 0}
def arg20 : QEntry := {veL 0x4004 (.vmin 3 1 2) with rs := 0}
def arg21 : QEntry := {veL 0x4004 (.vmin 3 1 2) with rs := 0}
def arg22 : QEntry := {veL 0x4004 (.vmax 3 1 2) with rs := 0}
def arg23 : QEntry := {veL 0x4004 (.vmax 3 1 2) with rs := 0}
def arg24 : QEntry := {veL 0x4004 (.vmax 3 1 2) with rs := 0}
def arg25 : QEntry := {veL 0x4004 (.vabs 3 1) with rs := 0}
def arg26 : QEntry := {veL 0x4004 (.vneg 3 1) with rs := 0}
def arg27 : QEntry := {veL 0x2004 (.vcvt .rne 3 1 5) with rs := 4}
def arg28 : QEntry := {veL 0x8004 (.vcvt .rne 3 1 5) with rs := 2}
def arg29 : QEntry := {veL 0x0004 (.vcvt .ru 3 1 5) with rs := 1}
def arg30 : QEntry := {veL 0x8004 (.vcvt .rne 3 1 5) with rs := 2}
def arg31 : QEntry := {veL 0x0001 (.qhist 3 1 5) with rs := 0}
def arg32 : Eng := egh 0x80000000
def arg33 : QEntry := {veL 0x8008 (.vcmp 3 1 2 5) with rs := 0}
def arg34 : QEntry := {veL 0x8008 (.vcmp 3 1 2 5) with rs := 1}
def arg35 : QEntry := {veL 0x8008 (.vcmp 3 1 2 5) with rs := 2}
def arg36 : QEntry := {veL 0x8008 (.vcmp 3 1 2 5) with rs := 4}
def arg37 : QEntry := {veL 0x8008 (.vcmp 3 1 2 5) with rs := 5}
def arg38 : QEntry := {veL 0x4004 (.vcmp 3 1 2 5) with rs := 1}
def arg39 : QEntry := {veL 0x4004 (.vcmp 3 1 2 5) with rs := 2}
def arg40 : QEntry := {veL 0x4004 (.vcmp 3 1 2 5) with rs := 2}
def arg41 : QEntry := {veL 0x4004 (.vcmp 3 1 2 5) with rs := 3}
def arg42 : QEntry := {veL 0x4004 (.vcmp 3 1 2 5) with rs := 3}
def arg43 : QEntry := {veL 0x4004 (.vcmp 3 1 2 5) with rs := 4}
def arg44 : QEntry := {veL 0x4004 (.vcmp 3 1 2 5) with rs := 4}
def arg45 : QEntry := {veL 0x4004 (.vcmp 3 1 2 5) with rs := 5}
def arg46 : QEntry := {veL 0x4004 (.vcmp 3 1 2 5) with rs := 5}
def arg47 : QEntry := {veL 0xA004 (.phMul 3 1 2) with rs := 0}
def arg48 : QEntry := {veL 0x0001 (.qhist 3 1 5) with rs := 0}
def arg49 : Eng := egh 0x7F800000
def arg50 : QEntry := {veL 0x4008 (.vcmp 3 1 2 5) with rs := 1}

theorem meets_VectorElements :
    -- clauses 0.5.5.0, 0.5.5.1, 0.5.5.2, 0.5.5.3, 0.5.5.4, 0.5.5.5, 0.5.8.3
    etAny (etOf arg0.vshape) = true ∧ arg0.len ≤ etCap (etOf arg0.vshape) ∧ etI arg0.et = true ∧
    arg0.instr = Instr.vshl (3 : BitVec 4) (2 : BitVec 4) (5 : BitVec 6) ∧ 3 < arg0.len ∧ (0 : BitVec 4) ≠ (3 : BitVec 4) ∧
    BitVec.toNat arg0.rs % 8 = 3 ∧
    -- clauses 0.6.2.1.0.0, 0.6.2.1.0.1, 0.6.2.1.0.2, 0.6.2.1.0.3, 0.6.2.1.0.4, 0.6.2.1.0.5, 0.6.5.0.1
    etAny (etOf arg1.vshape) = true ∧ arg1.len ≤ etCap (etOf arg1.vshape) ∧ etF arg1.et = true ∧
    (¬((etFmt arg1.et).nanCode (fld (eg.vec (1 : BitVec 4)) (1 * arg1.ew) arg1.ew) = true ∨ (etFmt arg1.et).nanCode (fld
      (eg.vec (2 : BitVec 4)) (1 * arg1.ew) arg1.ew) = true)) ∧
    (¬(fld (eg.vec (1 : BitVec 4)) (1 * arg1.ew) arg1.ew / 2 ^ (arg1.ew - 1) < fld (eg.vec (2 : BitVec 4)) (1 * arg1.ew)
      arg1.ew / 2 ^ (arg1.ew - 1) ∨ fld (eg.vec (2 : BitVec 4)) (1 * arg1.ew) arg1.ew / 2 ^ (arg1.ew - 1) = fld (eg.vec (1 :
      BitVec 4)) (1 * arg1.ew) arg1.ew / 2 ^ (arg1.ew - 1) ∧ if fld (eg.vec (2 : BitVec 4)) (1 * arg1.ew) arg1.ew / 2 ^
      (arg1.ew - 1) = 1 then fld (eg.vec (1 : BitVec 4)) (1 * arg1.ew) arg1.ew % 2 ^ (arg1.ew - 1) < fld (eg.vec (2 : BitVec
      4)) (1 * arg1.ew) arg1.ew % 2 ^ (arg1.ew - 1) else fld (eg.vec (2 : BitVec 4)) (1 * arg1.ew) arg1.ew % 2 ^ (arg1.ew - 1)
      < fld (eg.vec (1 : BitVec 4)) (1 * arg1.ew) arg1.ew % 2 ^ (arg1.ew - 1))) ∧
    arg1.instr = Instr.vmin (3 : BitVec 4) (1 : BitVec 4) (2 : BitVec 4) ∧ 1 < arg1.len ∧ BitVec.toNat arg1.rs % 8 = 0 ∧
    (¬(¬((etFmt arg1.et).nanCode (fld (eg.vec (1 : BitVec 4)) (1 * arg1.ew) arg1.ew) = true ∨ (etFmt arg1.et).nanCode (fld
      (eg.vec (2 : BitVec 4)) (1 * arg1.ew) arg1.ew) = true) ∧ (fld (eg.vec (1 : BitVec 4)) (1 * arg1.ew) arg1.ew = fld
      (eg.vec (2 : BitVec 4)) (1 * arg1.ew) arg1.ew ∨ fld (eg.vec (1 : BitVec 4)) (1 * arg1.ew) arg1.ew % 2 ^ (arg1.ew - 1) =
      0 ∧ fld (eg.vec (2 : BitVec 4)) (1 * arg1.ew) arg1.ew % 2 ^ (arg1.ew - 1) = 0))) ∧
    -- clauses 0.0.0, 0.0.1, 0.0.2, 0.0.3, 0.0.4, 0.0.5
    etAny (etOf arg2.vshape) = true ∧ arg2.len ≤ etCap (etOf arg2.vshape) ∧
    arg2.instr = Instr.vand (3 : BitVec 4) (1 : BitVec 4) (2 : BitVec 4) ∧ 7 < arg2.len := by
  constructorm* _ ∧ _ <;> decide +kernel

theorem meets_VectorElements_2 :
    -- clauses 0.1.0, 0.1.1, 0.1.2, 0.1.3, 0.1.4, 0.1.5
    etAny (etOf arg3.vshape) = true ∧ arg3.len ≤ etCap (etOf arg3.vshape) ∧
    arg3.instr = Instr.vor (3 : BitVec 4) (1 : BitVec 4) (2 : BitVec 4) ∧ 7 < arg3.len ∧ (0 : BitVec 4) ≠ (3 : BitVec 4) ∧
    -- clauses 0.2.0, 0.2.1, 0.2.2, 0.2.3, 0.2.4, 0.2.5
    etAny (etOf arg4.vshape) = true ∧ arg4.len ≤ etCap (etOf arg4.vshape) ∧
    arg4.instr = Instr.vxor (3 : BitVec 4) (1 : BitVec 4) (2 : BitVec 4) ∧ 7 < arg4.len ∧
    -- clauses 0.4.0, 0.4.1, 0.4.2, 0.4.3, 0.4.4, 0.4.5
    etAny (etOf arg5.vshape) = true ∧ arg5.len ≤ etCap (etOf arg5.vshape) ∧
    arg5.instr = Instr.vsel (3 : BitVec 4) (1 : BitVec 4) (2 : BitVec 4) ∧ 7 < arg5.len ∧
    -- clauses 0.3.0, 0.3.1, 0.3.2, 0.3.3, 0.3.4, 0.3.5
    etAny (etOf arg6.vshape) = true ∧ arg6.len ≤ etCap (etOf arg6.vshape) ∧
    arg6.instr = Instr.vbcast (3 : BitVec 4) (1 : BitVec 6) ∧ 7 < arg6.len := by
  constructorm* _ ∧ _ <;> decide +kernel

theorem meets_VectorElements_3 :
    -- clauses 0.5.0.0.0, 0.5.0.0.1, 0.5.0.0.2, 0.5.0.0.3, 0.5.0.0.4, 0.5.0.0.5
    etAny (etOf arg7.vshape) = true ∧ arg7.len ≤ etCap (etOf arg7.vshape) ∧ etI arg7.et = true ∧
    arg7.instr = Instr.vadd Rm.rne (3 : BitVec 4) (1 : BitVec 4) (2 : BitVec 4) ∧ 7 < arg7.len ∧
    (0 : BitVec 4) ≠ (3 : BitVec 4) ∧
    -- clauses 0.5.0.1.0, 0.5.0.1.1, 0.5.0.1.2, 0.5.0.1.3, 0.5.0.1.4, 0.5.0.1.5
    etAny (etOf arg8.vshape) = true ∧ arg8.len ≤ etCap (etOf arg8.vshape) ∧ etI arg8.et = true ∧
    arg8.instr = Instr.vsub Rm.rne (3 : BitVec 4) (1 : BitVec 4) (2 : BitVec 4) ∧ 7 < arg8.len ∧
    -- clauses 0.5.0.2.0, 0.5.0.2.1, 0.5.0.2.2, 0.5.0.2.3, 0.5.0.2.4, 0.5.0.2.5
    etAny (etOf arg9.vshape) = true ∧ arg9.len ≤ etCap (etOf arg9.vshape) ∧ etI arg9.et = true ∧
    arg9.instr = Instr.vmul Rm.rne (3 : BitVec 4) (1 : BitVec 4) (2 : BitVec 4) ∧ 7 < arg9.len ∧
    -- clauses 0.5.1.0, 0.5.1.1, 0.5.1.2, 0.5.1.3, 0.5.1.4, 0.5.1.5
    etAny (etOf arg10.vshape) = true ∧ arg10.len ≤ etCap (etOf arg10.vshape) ∧ etI arg10.et = true ∧
    arg10.instr = Instr.vmin (3 : BitVec 4) (1 : BitVec 4) (2 : BitVec 4) ∧ 3 < arg10.len := by
  constructorm* _ ∧ _ <;> decide +kernel

theorem meets_VectorElements_4 :
    -- clauses 0.5.2.0, 0.5.2.1, 0.5.2.2, 0.5.2.3, 0.5.2.4, 0.5.2.5
    etAny (etOf arg11.vshape) = true ∧ arg11.len ≤ etCap (etOf arg11.vshape) ∧ etI arg11.et = true ∧
    arg11.instr = Instr.vmax (3 : BitVec 4) (1 : BitVec 4) (2 : BitVec 4) ∧ 3 < arg11.len ∧ (0 : BitVec 4) ≠ (3 : BitVec 4) ∧
    -- clauses 0.5.3.0, 0.5.3.1, 0.5.3.2, 0.5.3.3, 0.5.3.4, 0.5.3.5
    etAny (etOf arg12.vshape) = true ∧ arg12.len ≤ etCap (etOf arg12.vshape) ∧ etI arg12.et = true ∧
    arg12.instr = Instr.vabs (3 : BitVec 4) (2 : BitVec 4) ∧ 3 < arg12.len ∧
    -- clauses 0.5.4.0, 0.5.4.1, 0.5.4.2, 0.5.4.3, 0.5.4.4, 0.5.4.5
    etAny (etOf arg13.vshape) = true ∧ arg13.len ≤ etCap (etOf arg13.vshape) ∧ etI arg13.et = true ∧
    arg13.instr = Instr.vneg (3 : BitVec 4) (2 : BitVec 4) ∧ 3 < arg13.len ∧
    -- clauses 0.5.6.0, 0.5.6.1, 0.5.6.2, 0.5.6.3, 0.5.6.4, 0.5.6.5
    etAny (etOf arg14.vshape) = true ∧ arg14.len ≤ etCap (etOf arg14.vshape) ∧ etI arg14.et = true ∧
    arg14.instr = Instr.vshr (3 : BitVec 4) (2 : BitVec 4) (5 : BitVec 6) ∧ 3 < arg14.len := by
  constructorm* _ ∧ _ <;> decide +kernel

theorem meets_VectorElements_5 :
    -- clauses 0.5.7.0, 0.5.7.1, 0.5.7.2, 0.5.7.3, 0.5.7.4, 0.5.7.5
    etAny (etOf arg15.vshape) = true ∧ arg15.len ≤ etCap (etOf arg15.vshape) ∧ etI arg15.et = true ∧
    arg15.instr = Instr.viota (3 : BitVec 4) (5 : BitVec 6) ∧ 3 < arg15.len ∧ (0 : BitVec 4) ≠ (3 : BitVec 4) ∧
    -- clauses 0.6.0.0.0, 0.6.0.0.1, 0.6.0.0.2, 0.6.0.0.3, 0.6.0.0.4, 0.6.0.0.5
    etAny (etOf arg16.vshape) = true ∧ arg16.len ≤ etCap (etOf arg16.vshape) ∧ etF arg16.et = true ∧
    arg16.instr = Instr.vadd Rm.rtz (3 : BitVec 4) (1 : BitVec 4) (2 : BitVec 4) ∧ 1 < arg16.len ∧
    -- clauses 0.6.0.1.0, 0.6.0.1.1, 0.6.0.1.2, 0.6.0.1.3, 0.6.0.1.4, 0.6.0.1.5
    etAny (etOf arg17.vshape) = true ∧ arg17.len ≤ etCap (etOf arg17.vshape) ∧ etF arg17.et = true ∧
    arg17.instr = Instr.vsub Rm.rtz (3 : BitVec 4) (1 : BitVec 4) (2 : BitVec 4) ∧ 1 < arg17.len ∧
    -- clauses 0.6.0.2.0, 0.6.0.2.1, 0.6.0.2.2, 0.6.0.2.3, 0.6.0.2.4, 0.6.0.2.5
    etAny (etOf arg18.vshape) = true ∧ arg18.len ≤ etCap (etOf arg18.vshape) ∧ etF arg18.et = true ∧
    arg18.instr = Instr.vmul Rm.rtz (3 : BitVec 4) (1 : BitVec 4) (2 : BitVec 4) ∧ 1 < arg18.len := by
  constructorm* _ ∧ _ <;> decide +kernel

theorem meets_VectorElements_6 :
    -- clauses 0.6.0.3.0, 0.6.0.3.1, 0.6.0.3.2, 0.6.0.3.3, 0.6.0.3.4, 0.6.0.3.5
    etAny (etOf arg19.vshape) = true ∧ arg19.len ≤ etCap (etOf arg19.vshape) ∧ etF arg19.et = true ∧
    arg19.instr = Instr.vfma Rm.rtz (3 : BitVec 4) (1 : BitVec 4) (2 : BitVec 4) ∧ 1 < arg19.len ∧
    (0 : BitVec 4) ≠ (3 : BitVec 4) ∧
    -- clauses 0.6.1.0.0, 0.6.1.0.1, 0.6.1.0.2, 0.6.1.0.3, 0.6.1.0.4, 0.6.1.0.5
    etAny (etOf arg20.vshape) = true ∧ arg20.len ≤ etCap (etOf arg20.vshape) ∧ etF arg20.et = true ∧
    ((etFmt arg20.et).nanCode (fld (egn.vec (1 : BitVec 4)) (2 * arg20.ew) arg20.ew) = true ∨ (etFmt arg20.et).nanCode (fld
      (egn.vec (2 : BitVec 4)) (2 * arg20.ew) arg20.ew) = true) ∧
    arg20.instr = Instr.vmin (3 : BitVec 4) (1 : BitVec 4) (2 : BitVec 4) ∧ 2 < arg20.len ∧
    -- clauses 0.6.2.0.0.0, 0.6.2.0.0.1, 0.6.2.0.0.2, 0.6.2.0.0.3, 0.6.2.0.0.4, 0.6.2.0.0.5
    etAny (etOf arg21.vshape) = true ∧ arg21.len ≤ etCap (etOf arg21.vshape) ∧ etF arg21.et = true ∧
    (¬((etFmt arg21.et).nanCode (fld (egn.vec (1 : BitVec 4)) (3 * arg21.ew) arg21.ew) = true ∨ (etFmt arg21.et).nanCode (fld
      (egn.vec (2 : BitVec 4)) (3 * arg21.ew) arg21.ew) = true)) ∧
    (fld (egn.vec (1 : BitVec 4)) (3 * arg21.ew) arg21.ew / 2 ^ (arg21.ew - 1) < fld (egn.vec (2 : BitVec 4)) (3 * arg21.ew)
      arg21.ew / 2 ^ (arg21.ew - 1) ∨ fld (egn.vec (2 : BitVec 4)) (3 * arg21.ew) arg21.ew / 2 ^ (arg21.ew - 1) = fld (egn.vec
      (1 : BitVec 4)) (3 * arg21.ew) arg21.ew / 2 ^ (arg21.ew - 1) ∧ if fld (egn.vec (2 : BitVec 4)) (3 * arg21.ew) arg21.ew /
      2 ^ (arg21.ew - 1) = 1 then fld (egn.vec (1 : BitVec 4)) (3 * arg21.ew) arg21.ew % 2 ^ (arg21.ew - 1) < fld (egn.vec (2
      : BitVec 4)) (3 * arg21.ew) arg21.ew % 2 ^ (arg21.ew - 1) else fld (egn.vec (2 : BitVec 4)) (3 * arg21.ew) arg21.ew % 2
      ^ (arg21.ew - 1) < fld (egn.vec (1 : BitVec 4)) (3 * arg21.ew) arg21.ew % 2 ^ (arg21.ew - 1)) ∧
    arg21.instr = Instr.vmin (3 : BitVec 4) (1 : BitVec 4) (2 : BitVec 4) ∧ 3 < arg21.len := by
  constructorm* _ ∧ _ <;> decide +kernel

theorem meets_VectorElements_7 :
    -- clauses 0.6.2.1.1.0, 0.6.2.1.1.1, 0.6.2.1.1.2, 0.6.2.1.1.3, 0.6.2.1.1.4, 0.6.2.1.1.5
    etAny (etOf arg22.vshape) = true ∧ arg22.len ≤ etCap (etOf arg22.vshape) ∧ etF arg22.et = true ∧
    (¬((etFmt arg22.et).nanCode (fld (eg.vec (1 : BitVec 4)) (1 * arg22.ew) arg22.ew) = true ∨ (etFmt arg22.et).nanCode (fld
      (eg.vec (2 : BitVec 4)) (1 * arg22.ew) arg22.ew) = true)) ∧
    (¬(fld (eg.vec (1 : BitVec 4)) (1 * arg22.ew) arg22.ew / 2 ^ (arg22.ew - 1) < fld (eg.vec (2 : BitVec 4)) (1 * arg22.ew)
      arg22.ew / 2 ^ (arg22.ew - 1) ∨ fld (eg.vec (2 : BitVec 4)) (1 * arg22.ew) arg22.ew / 2 ^ (arg22.ew - 1) = fld (eg.vec
      (1 : BitVec 4)) (1 * arg22.ew) arg22.ew / 2 ^ (arg22.ew - 1) ∧ if fld (eg.vec (2 : BitVec 4)) (1 * arg22.ew) arg22.ew /
      2 ^ (arg22.ew - 1) = 1 then fld (eg.vec (1 : BitVec 4)) (1 * arg22.ew) arg22.ew % 2 ^ (arg22.ew - 1) < fld (eg.vec (2 :
      BitVec 4)) (1 * arg22.ew) arg22.ew % 2 ^ (arg22.ew - 1) else fld (eg.vec (2 : BitVec 4)) (1 * arg22.ew) arg22.ew % 2 ^
      (arg22.ew - 1) < fld (eg.vec (1 : BitVec 4)) (1 * arg22.ew) arg22.ew % 2 ^ (arg22.ew - 1))) ∧
    arg22.instr = Instr.vmax (3 : BitVec 4) (1 : BitVec 4) (2 : BitVec 4) ∧ 1 < arg22.len ∧ (0 : BitVec 4) ≠ (3 : BitVec 4) ∧
    -- clauses 0.6.1.1.0, 0.6.1.1.1, 0.6.1.1.2, 0.6.1.1.3, 0.6.1.1.4, 0.6.1.1.5
    etAny (etOf arg23.vshape) = true ∧ arg23.len ≤ etCap (etOf arg23.vshape) ∧ etF arg23.et = true ∧
    ((etFmt arg23.et).nanCode (fld (egn.vec (1 : BitVec 4)) (2 * arg23.ew) arg23.ew) = true ∨ (etFmt arg23.et).nanCode (fld
      (egn.vec (2 : BitVec 4)) (2 * arg23.ew) arg23.ew) = true) ∧
    arg23.instr = Instr.vmax (3 : BitVec 4) (1 : BitVec 4) (2 : BitVec 4) ∧ 2 < arg23.len ∧
    -- clauses 0.6.2.0.1.0, 0.6.2.0.1.1, 0.6.2.0.1.2, 0.6.2.0.1.3, 0.6.2.0.1.4, 0.6.2.0.1.5
    etAny (etOf arg24.vshape) = true ∧ arg24.len ≤ etCap (etOf arg24.vshape) ∧ etF arg24.et = true ∧
    (¬((etFmt arg24.et).nanCode (fld (egn.vec (1 : BitVec 4)) (3 * arg24.ew) arg24.ew) = true ∨ (etFmt arg24.et).nanCode (fld
      (egn.vec (2 : BitVec 4)) (3 * arg24.ew) arg24.ew) = true)) ∧
    (fld (egn.vec (1 : BitVec 4)) (3 * arg24.ew) arg24.ew / 2 ^ (arg24.ew - 1) < fld (egn.vec (2 : BitVec 4)) (3 * arg24.ew)
      arg24.ew / 2 ^ (arg24.ew - 1) ∨ fld (egn.vec (2 : BitVec 4)) (3 * arg24.ew) arg24.ew / 2 ^ (arg24.ew - 1) = fld (egn.vec
      (1 : BitVec 4)) (3 * arg24.ew) arg24.ew / 2 ^ (arg24.ew - 1) ∧ if fld (egn.vec (2 : BitVec 4)) (3 * arg24.ew) arg24.ew /
      2 ^ (arg24.ew - 1) = 1 then fld (egn.vec (1 : BitVec 4)) (3 * arg24.ew) arg24.ew % 2 ^ (arg24.ew - 1) < fld (egn.vec (2
      : BitVec 4)) (3 * arg24.ew) arg24.ew % 2 ^ (arg24.ew - 1) else fld (egn.vec (2 : BitVec 4)) (3 * arg24.ew) arg24.ew % 2
      ^ (arg24.ew - 1) < fld (egn.vec (1 : BitVec 4)) (3 * arg24.ew) arg24.ew % 2 ^ (arg24.ew - 1)) ∧
    arg24.instr = Instr.vmax (3 : BitVec 4) (1 : BitVec 4) (2 : BitVec 4) ∧ 3 < arg24.len := by
  constructorm* _ ∧ _ <;> decide +kernel

theorem meets_VectorElements_8 :
    -- clauses 0.6.3.0, 0.6.3.1, 0.6.3.2, 0.6.3.3, 0.6.3.4, 0.6.3.5
    etAny (etOf arg25.vshape) = true ∧ arg25.len ≤ etCap (etOf arg25.vshape) ∧ etF arg25.et = true ∧
    arg25.instr = Instr.vabs (3 : BitVec 4) (1 : BitVec 4) ∧ 1 < arg25.len ∧ (0 : BitVec 4) ≠ (3 : BitVec 4) ∧
    -- clauses 0.6.4.0, 0.6.4.1, 0.6.4.2, 0.6.4.3, 0.6.4.4, 0.6.4.5
    etAny (etOf arg26.vshape) = true ∧ arg26.len ≤ etCap (etOf arg26.vshape) ∧ etF arg26.et = true ∧
    arg26.instr = Instr.vneg (3 : BitVec 4) (1 : BitVec 4) ∧ 1 < arg26.len ∧
    -- clauses 0.7.0.0, 0.7.0.1, 0.7.0.2, 0.7.0.3, 0.7.0.4, 0.7.0.5
    etAny (etOf arg27.vshape) = true ∧ arg27.len ≤ etCap (etOf arg27.vshape) ∧
    shapeLen arg27.vshape (min (etCap arg27.et) (etCap (BitVec.toNat arg27.rs % 8))) ≤ min (etCap arg27.et) (etCap
      (BitVec.toNat arg27.rs % 8)) ∧ BitVec.toNat arg27.rs % 8 ≤ 4 ∧ etI arg27.et = true ∧
    etI (BitVec.toNat arg27.rs % 8) = true ∧ arg27.instr = Instr.vcvt Rm.rne (3 : BitVec 4) (1 : BitVec 4) (5 : BitVec 6) ∧
    1 < shapeLen arg27.vshape (min (etCap arg27.et) (etCap (BitVec.toNat arg27.rs % 8))) := by
  constructorm* _ ∧ _ <;> decide +kernel

theorem meets_VectorElements_9 :
    -- clauses 0.7.1.1.0, 0.7.1.1.1, 0.7.1.1.2, 0.7.1.1.3, 0.7.1.1.4, 0.7.1.1.5
    etAny (etOf arg28.vshape) = true ∧ arg28.len ≤ etCap (etOf arg28.vshape) ∧
    shapeLen arg28.vshape (min (etCap arg28.et) (etCap (BitVec.toNat arg28.rs % 8))) ≤ min (etCap arg28.et) (etCap
      (BitVec.toNat arg28.rs % 8)) ∧ BitVec.toNat arg28.rs % 8 ≤ 4 ∧ etI arg28.et = true ∧
    etF (BitVec.toNat arg28.rs % 8) = true ∧
    (etFmt (BitVec.toNat arg28.rs % 8)).finite (fld (egn.vec (1 : BitVec 4)) (0 * etWidth (BitVec.toNat arg28.rs % 8))
      (etWidth (BitVec.toNat arg28.rs % 8))) = true ∧
    (|↑(2 : ℤ) - (etFmt (BitVec.toNat arg28.rs % 8)).value (fld (egn.vec (1 : BitVec 4)) (0 * etWidth (BitVec.toNat arg28.rs %
      8)) (etWidth (BitVec.toNat arg28.rs % 8)))| < (1 / 2 : ℚ) ∨ |↑(2 : ℤ) - (etFmt (BitVec.toNat arg28.rs % 8)).value (fld
      (egn.vec (1 : BitVec 4)) (0 * etWidth (BitVec.toNat arg28.rs % 8)) (etWidth (BitVec.toNat arg28.rs % 8)))| = (1 / 2 : ℚ)
      ∧ (2 : ℤ) % (2 : ℤ) = (0 : ℤ)) ∧ arg28.instr = Instr.vcvt Rm.rne (3 : BitVec 4) (1 : BitVec 4) (5 : BitVec 6) ∧
    0 < shapeLen arg28.vshape (min (etCap arg28.et) (etCap (BitVec.toNat arg28.rs % 8))) ∧ (0 : BitVec 4) ≠ (3 : BitVec 4) ∧
    -- clauses 0.7.2.0, 0.7.2.1, 0.7.2.2, 0.7.2.3, 0.7.2.4, 0.7.2.5
    etAny (etOf arg29.vshape) = true ∧ arg29.len ≤ etCap (etOf arg29.vshape) ∧
    shapeLen arg29.vshape (min (etCap arg29.et) (etCap (BitVec.toNat arg29.rs % 8))) ≤ min (etCap arg29.et) (etCap
      (BitVec.toNat arg29.rs % 8)) ∧ BitVec.toNat arg29.rs % 8 ≤ 4 ∧ etF arg29.et = true ∧
    arg29.instr = Instr.vcvt Rm.ru (3 : BitVec 4) (1 : BitVec 4) (5 : BitVec 6) ∧
    0 < shapeLen arg29.vshape (min (etCap arg29.et) (etCap (BitVec.toNat arg29.rs % 8))) := by
  constructorm* _ ∧ _ <;> decide +kernel

theorem meets_VectorElements_10 :
    -- clauses 0.7.1.0.0, 0.7.1.0.1, 0.7.1.0.2, 0.7.1.0.3, 0.7.1.0.4, 0.7.1.0.5
    etAny (etOf arg30.vshape) = true ∧ arg30.len ≤ etCap (etOf arg30.vshape) ∧
    shapeLen arg30.vshape (min (etCap arg30.et) (etCap (BitVec.toNat arg30.rs % 8))) ≤ min (etCap arg30.et) (etCap
      (BitVec.toNat arg30.rs % 8)) ∧ BitVec.toNat arg30.rs % 8 ≤ 4 ∧ etI arg30.et = true ∧
    etF (BitVec.toNat arg30.rs % 8) = true ∧
    (etFmt (BitVec.toNat arg30.rs % 8)).nanCode (fld (egn.vec (1 : BitVec 4)) (2 * etWidth (BitVec.toNat arg30.rs % 8))
      (etWidth (BitVec.toNat arg30.rs % 8))) = true ∧
    arg30.instr = Instr.vcvt Rm.rne (3 : BitVec 4) (1 : BitVec 4) (5 : BitVec 6) ∧
    2 < shapeLen arg30.vshape (min (etCap arg30.et) (etCap (BitVec.toNat arg30.rs % 8))) ∧ (0 : BitVec 4) ≠ (3 : BitVec 4) ∧
    -- clauses 0.6.5.0.0, 0.9.1
    etAny (etOf arg31.vshape) = true ∧ arg31.len ≤ etCap (etOf arg31.vshape) ∧ etF arg31.et = true ∧
    BitVec.toNat arg31.rs % 8 = 0 ∧
    (¬((etFmt arg31.et).nanCode (fld (arg32.vec (1 : BitVec 4)) (0 * arg31.ew) arg31.ew) = true ∨ (etFmt arg31.et).nanCode
      (fld (arg32.vec (2 : BitVec 4)) (0 * arg31.ew) arg31.ew) = true) ∧ (fld (arg32.vec (1 : BitVec 4)) (0 * arg31.ew)
      arg31.ew = fld (arg32.vec (2 : BitVec 4)) (0 * arg31.ew) arg31.ew ∨ fld (arg32.vec (1 : BitVec 4)) (0 * arg31.ew)
      arg31.ew % 2 ^ (arg31.ew - 1) = 0 ∧ fld (arg32.vec (2 : BitVec 4)) (0 * arg31.ew) arg31.ew % 2 ^ (arg31.ew - 1) = 0)) ∧
    arg31.et = 0 ∧ arg31.len = 1 ∧ arg31.instr = Instr.qhist (3 : BitVec 4) (1 : BitVec 4) (5 : BitVec 6) ∧
    (fld (arg32.vec (1 : BitVec 4)) 0 32 % 2 ^ 31 = 0 ∨ IFmt.f32.nanCode (fld (arg32.vec (1 : BitVec 4)) 0 32) = true) ∧
    -- clause 0.5.8.0
    etAny (etOf arg33.vshape) = true ∧ arg33.len ≤ etCap (etOf arg33.vshape) ∧ etI arg33.et = true ∧
    BitVec.toNat arg33.rs % 8 = 0 := by
  constructorm* _ ∧ _ <;> decide +kernel

theorem meets_VectorElements_11 :
    -- clause 0.5.8.1
    etAny (etOf arg34.vshape) = true ∧ arg34.len ≤ etCap (etOf arg34.vshape) ∧ etI arg34.et = true ∧
    BitVec.toNat arg34.rs % 8 = 1 ∧
    -- clause 0.5.8.2
    etAny (etOf arg35.vshape) = true ∧ arg35.len ≤ etCap (etOf arg35.vshape) ∧ etI arg35.et = true ∧
    BitVec.toNat arg35.rs % 8 = 2 ∧
    -- clause 0.5.8.4
    etAny (etOf arg36.vshape) = true ∧ arg36.len ≤ etCap (etOf arg36.vshape) ∧ etI arg36.et = true ∧
    BitVec.toNat arg36.rs % 8 = 4 ∧
    -- clause 0.5.8.5
    etAny (etOf arg37.vshape) = true ∧ arg37.len ≤ etCap (etOf arg37.vshape) ∧ etI arg37.et = true ∧
    BitVec.toNat arg37.rs % 8 = 5 ∧
    -- clause 0.6.5.1.0
    etAny (etOf arg38.vshape) = true ∧ arg38.len ≤ etCap (etOf arg38.vshape) ∧ etF arg38.et = true ∧
    BitVec.toNat arg38.rs % 8 = 1 ∧
    (((etFmt arg38.et).nanCode (fld (egn.vec (1 : BitVec 4)) (1 * arg38.ew) arg38.ew) = true ∨ (etFmt arg38.et).nanCode (fld
      (egn.vec (2 : BitVec 4)) (1 * arg38.ew) arg38.ew) = true) ∨ ¬(fld (egn.vec (1 : BitVec 4)) (1 * arg38.ew) arg38.ew = fld
      (egn.vec (2 : BitVec 4)) (1 * arg38.ew) arg38.ew ∨ fld (egn.vec (1 : BitVec 4)) (1 * arg38.ew) arg38.ew % 2 ^ (arg38.ew
      - 1) = 0 ∧ fld (egn.vec (2 : BitVec 4)) (1 * arg38.ew) arg38.ew % 2 ^ (arg38.ew - 1) = 0)) := by
  constructorm* _ ∧ _ <;> decide +kernel

theorem meets_VectorElements_12 :
    -- clause 0.6.5.2.0
    etAny (etOf arg39.vshape) = true ∧ arg39.len ≤ etCap (etOf arg39.vshape) ∧ etF arg39.et = true ∧
    BitVec.toNat arg39.rs % 8 = 2 ∧
    (¬((etFmt arg39.et).nanCode (fld (egn.vec (1 : BitVec 4)) (1 * arg39.ew) arg39.ew) = true ∨ (etFmt arg39.et).nanCode (fld
      (egn.vec (2 : BitVec 4)) (1 * arg39.ew) arg39.ew) = true) ∧ (fld (egn.vec (2 : BitVec 4)) (1 * arg39.ew) arg39.ew / 2 ^
      (arg39.ew - 1) < fld (egn.vec (1 : BitVec 4)) (1 * arg39.ew) arg39.ew / 2 ^ (arg39.ew - 1) ∨ fld (egn.vec (1 : BitVec
      4)) (1 * arg39.ew) arg39.ew / 2 ^ (arg39.ew - 1) = fld (egn.vec (2 : BitVec 4)) (1 * arg39.ew) arg39.ew / 2 ^ (arg39.ew
      - 1) ∧ if fld (egn.vec (1 : BitVec 4)) (1 * arg39.ew) arg39.ew / 2 ^ (arg39.ew - 1) = 1 then fld (egn.vec (2 : BitVec
      4)) (1 * arg39.ew) arg39.ew % 2 ^ (arg39.ew - 1) < fld (egn.vec (1 : BitVec 4)) (1 * arg39.ew) arg39.ew % 2 ^ (arg39.ew
      - 1) else fld (egn.vec (1 : BitVec 4)) (1 * arg39.ew) arg39.ew % 2 ^ (arg39.ew - 1) < fld (egn.vec (2 : BitVec 4)) (1 *
      arg39.ew) arg39.ew % 2 ^ (arg39.ew - 1)) ∧ ¬(fld (egn.vec (1 : BitVec 4)) (1 * arg39.ew) arg39.ew % 2 ^ (arg39.ew - 1) =
      0 ∧ fld (egn.vec (2 : BitVec 4)) (1 * arg39.ew) arg39.ew % 2 ^ (arg39.ew - 1) = 0)) ∧
    -- clause 0.6.5.2.1
    etAny (etOf arg40.vshape) = true ∧ arg40.len ≤ etCap (etOf arg40.vshape) ∧ etF arg40.et = true ∧
    BitVec.toNat arg40.rs % 8 = 2 ∧
    (¬(¬((etFmt arg40.et).nanCode (fld (egn.vec (1 : BitVec 4)) (2 * arg40.ew) arg40.ew) = true ∨ (etFmt arg40.et).nanCode
      (fld (egn.vec (2 : BitVec 4)) (2 * arg40.ew) arg40.ew) = true) ∧ (fld (egn.vec (2 : BitVec 4)) (2 * arg40.ew) arg40.ew /
      2 ^ (arg40.ew - 1) < fld (egn.vec (1 : BitVec 4)) (2 * arg40.ew) arg40.ew / 2 ^ (arg40.ew - 1) ∨ fld (egn.vec (1 :
      BitVec 4)) (2 * arg40.ew) arg40.ew / 2 ^ (arg40.ew - 1) = fld (egn.vec (2 : BitVec 4)) (2 * arg40.ew) arg40.ew / 2 ^
      (arg40.ew - 1) ∧ if fld (egn.vec (1 : BitVec 4)) (2 * arg40.ew) arg40.ew / 2 ^ (arg40.ew - 1) = 1 then fld (egn.vec (2 :
      BitVec 4)) (2 * arg40.ew) arg40.ew % 2 ^ (arg40.ew - 1) < fld (egn.vec (1 : BitVec 4)) (2 * arg40.ew) arg40.ew % 2 ^
      (arg40.ew - 1) else fld (egn.vec (1 : BitVec 4)) (2 * arg40.ew) arg40.ew % 2 ^ (arg40.ew - 1) < fld (egn.vec (2 : BitVec
      4)) (2 * arg40.ew) arg40.ew % 2 ^ (arg40.ew - 1)) ∧ ¬(fld (egn.vec (1 : BitVec 4)) (2 * arg40.ew) arg40.ew % 2 ^
      (arg40.ew - 1) = 0 ∧ fld (egn.vec (2 : BitVec 4)) (2 * arg40.ew) arg40.ew % 2 ^ (arg40.ew - 1) = 0))) ∧
    -- clause 0.6.5.3.1
    etAny (etOf arg41.vshape) = true ∧ arg41.len ≤ etCap (etOf arg41.vshape) ∧ etF arg41.et = true ∧
    BitVec.toNat arg41.rs % 8 = 3 ∧
    (¬(¬((etFmt arg41.et).nanCode (fld (egn.vec (1 : BitVec 4)) (1 * arg41.ew) arg41.ew) = true ∨ (etFmt arg41.et).nanCode
      (fld (egn.vec (2 : BitVec 4)) (1 * arg41.ew) arg41.ew) = true) ∧ ¬((fld (egn.vec (2 : BitVec 4)) (1 * arg41.ew) arg41.ew
      / 2 ^ (arg41.ew - 1) < fld (egn.vec (1 : BitVec 4)) (1 * arg41.ew) arg41.ew / 2 ^ (arg41.ew - 1) ∨ fld (egn.vec (1 :
      BitVec 4)) (1 * arg41.ew) arg41.ew / 2 ^ (arg41.ew - 1) = fld (egn.vec (2 : BitVec 4)) (1 * arg41.ew) arg41.ew / 2 ^
      (arg41.ew - 1) ∧ if fld (egn.vec (1 : BitVec 4)) (1 * arg41.ew) arg41.ew / 2 ^ (arg41.ew - 1) = 1 then fld (egn.vec (2 :
      BitVec 4)) (1 * arg41.ew) arg41.ew % 2 ^ (arg41.ew - 1) < fld (egn.vec (1 : BitVec 4)) (1 * arg41.ew) arg41.ew % 2 ^
      (arg41.ew - 1) else fld (egn.vec (1 : BitVec 4)) (1 * arg41.ew) arg41.ew % 2 ^ (arg41.ew - 1) < fld (egn.vec (2 : BitVec
      4)) (1 * arg41.ew) arg41.ew % 2 ^ (arg41.ew - 1)) ∧ ¬(fld (egn.vec (1 : BitVec 4)) (1 * arg41.ew) arg41.ew % 2 ^
      (arg41.ew - 1) = 0 ∧ fld (egn.vec (2 : BitVec 4)) (1 * arg41.ew) arg41.ew % 2 ^ (arg41.ew - 1) = 0)))) ∧
    -- clause 0.6.5.3.0
    etAny (etOf arg42.vshape) = true ∧ arg42.len ≤ etCap (etOf arg42.vshape) ∧ etF arg42.et = true ∧
    BitVec.toNat arg42.rs % 8 = 3 ∧
    (¬((etFmt arg42.et).nanCode (fld (egn.vec (1 : BitVec 4)) (3 * arg42.ew) arg42.ew) = true ∨ (etFmt arg42.et).nanCode (fld
      (egn.vec (2 : BitVec 4)) (3 * arg42.ew) arg42.ew) = true) ∧ ¬((fld (egn.vec (2 : BitVec 4)) (3 * arg42.ew) arg42.ew / 2
      ^ (arg42.ew - 1) < fld (egn.vec (1 : BitVec 4)) (3 * arg42.ew) arg42.ew / 2 ^ (arg42.ew - 1) ∨ fld (egn.vec (1 : BitVec
      4)) (3 * arg42.ew) arg42.ew / 2 ^ (arg42.ew - 1) = fld (egn.vec (2 : BitVec 4)) (3 * arg42.ew) arg42.ew / 2 ^ (arg42.ew
      - 1) ∧ if fld (egn.vec (1 : BitVec 4)) (3 * arg42.ew) arg42.ew / 2 ^ (arg42.ew - 1) = 1 then fld (egn.vec (2 : BitVec
      4)) (3 * arg42.ew) arg42.ew % 2 ^ (arg42.ew - 1) < fld (egn.vec (1 : BitVec 4)) (3 * arg42.ew) arg42.ew % 2 ^ (arg42.ew
      - 1) else fld (egn.vec (1 : BitVec 4)) (3 * arg42.ew) arg42.ew % 2 ^ (arg42.ew - 1) < fld (egn.vec (2 : BitVec 4)) (3 *
      arg42.ew) arg42.ew % 2 ^ (arg42.ew - 1)) ∧ ¬(fld (egn.vec (1 : BitVec 4)) (3 * arg42.ew) arg42.ew % 2 ^ (arg42.ew - 1) =
      0 ∧ fld (egn.vec (2 : BitVec 4)) (3 * arg42.ew) arg42.ew % 2 ^ (arg42.ew - 1) = 0))) := by
  constructorm* _ ∧ _ <;> decide +kernel

theorem meets_VectorElements_13 :
    -- clause 0.6.5.4.1
    etAny (etOf arg43.vshape) = true ∧ arg43.len ≤ etCap (etOf arg43.vshape) ∧ etF arg43.et = true ∧
    BitVec.toNat arg43.rs % 8 = 4 ∧
    (¬((etFmt arg43.et).nanCode (fld (egn.vec (1 : BitVec 4)) (1 * arg43.ew) arg43.ew) = true ∨ (etFmt arg43.et).nanCode (fld
      (egn.vec (2 : BitVec 4)) (1 * arg43.ew) arg43.ew) = true)) ∧
    -- clause 0.6.5.4.0
    etAny (etOf arg44.vshape) = true ∧ arg44.len ≤ etCap (etOf arg44.vshape) ∧ etF arg44.et = true ∧
    BitVec.toNat arg44.rs % 8 = 4 ∧
    ((etFmt arg44.et).nanCode (fld (egn.vec (1 : BitVec 4)) (2 * arg44.ew) arg44.ew) = true ∨ (etFmt arg44.et).nanCode (fld
      (egn.vec (2 : BitVec 4)) (2 * arg44.ew) arg44.ew) = true) ∧
    -- clause 0.6.5.5.0
    etAny (etOf arg45.vshape) = true ∧ arg45.len ≤ etCap (etOf arg45.vshape) ∧ etF arg45.et = true ∧
    BitVec.toNat arg45.rs % 8 = 5 ∧
    (¬((etFmt arg45.et).nanCode (fld (egn.vec (1 : BitVec 4)) (1 * arg45.ew) arg45.ew) = true ∨ (etFmt arg45.et).nanCode (fld
      (egn.vec (2 : BitVec 4)) (1 * arg45.ew) arg45.ew) = true)) ∧
    -- clause 0.6.5.5.1
    etAny (etOf arg46.vshape) = true ∧ arg46.len ≤ etCap (etOf arg46.vshape) ∧ etF arg46.et = true ∧
    BitVec.toNat arg46.rs % 8 = 5 ∧
    (¬¬((etFmt arg46.et).nanCode (fld (egn.vec (1 : BitVec 4)) (2 * arg46.ew) arg46.ew) = true ∨ (etFmt arg46.et).nanCode (fld
      (egn.vec (2 : BitVec 4)) (2 * arg46.ew) arg46.ew) = true)) ∧
    -- clause 0.8
    etAny (etOf arg47.vshape) = true ∧ arg47.len ≤ etCap (etOf arg47.vshape) ∧ etPh arg47.et = true := by
  constructorm* _ ∧ _ <;> decide +kernel

theorem meets_VectorElements_14 :
    -- clause 0.9.0
    etAny (etOf arg48.vshape) = true ∧ arg48.len ≤ etCap (etOf arg48.vshape) ∧ arg48.et = 0 ∧ arg48.len = 1 ∧
    arg48.instr = Instr.qhist (3 : BitVec 4) (1 : BitVec 4) (5 : BitVec 6) ∧
    (fld (arg49.vec (1 : BitVec 4)) 0 32 = 2139095040 ∨ fld (arg49.vec (1 : BitVec 4)) 0 32 = 4286578688) ∧
    -- clause 1.1
    (IFmt.f32 = IFmt.f32 ∨ IFmt.f32 = IFmt.f16 ∨ IFmt.f32 = IFmt.bf16) ∧ IFmt.f32.nanCode 2143289345 = true ∧
    -- clause 1.2
    (IFmt.bf16 = IFmt.f32 ∨ IFmt.bf16 = IFmt.f16 ∨ IFmt.bf16 = IFmt.bf16) ∧
    -- clause 0.6.5.1.1
    etAny (etOf arg50.vshape) = true ∧ arg50.len ≤ etCap (etOf arg50.vshape) ∧ etF arg50.et = true ∧
    BitVec.toNat arg50.rs % 8 = 1 ∧
    (¬(((etFmt arg50.et).nanCode (fld (egn.vec (1 : BitVec 4)) (5 * arg50.ew) arg50.ew) = true ∨ (etFmt arg50.et).nanCode (fld
      (egn.vec (2 : BitVec 4)) (5 * arg50.ew) arg50.ew) = true) ∨ ¬(fld (egn.vec (1 : BitVec 4)) (5 * arg50.ew) arg50.ew = fld
      (egn.vec (2 : BitVec 4)) (5 * arg50.ew) arg50.ew ∨ fld (egn.vec (1 : BitVec 4)) (5 * arg50.ew) arg50.ew % 2 ^ (arg50.ew
      - 1) = 0 ∧ fld (egn.vec (2 : BitVec 4)) (5 * arg50.ew) arg50.ew % 2 ^ (arg50.ew - 1) = 0))) := by
  constructorm* _ ∧ _ <;> decide +kernel

end Elements

end Sys2Proof.Tests
end

section
/-! R4 in the model: a field of a word as arithmetic on its number, and the bytes of a multi-byte value, written
and read, at rising addresses from the least significant on. -/

namespace Sys2Proof.Machine

/-- A field by division: its bits from the lowest on (R4). -/
theorem fld_eq_div_mod {n : Nat} (x : BitVec n) (lo len : Nat) : fld x lo len = x.toNat / 2 ^ lo % 2 ^ len := by
  rw [fld, Nat.shiftRight_eq_div_pow]

/-- Byte `k` of a value is byte `k - 1` of what is left after its lowest byte: the step of `writeN` and `readN`. -/
theorem div_256_pow_succ (v k : Nat) : v / 256 ^ (k + 1) = v / 256 / 256 ^ k := by
  rw [pow_succ', Nat.div_div_eq_div_mul]

/-- Byte `k` of a value written stands `k` addresses above the lowest (R4). -/
theorem readCell_writeN_at {m : List Host.Cell} (h : Memory.wf m = true) (pa n v : Nat) {k : Nat} (hk : k < n) :
    readCell (writeN m pa n v) (pa + k) = BitVec.ofNat 8 (v / 256 ^ k) := by
  induction n generalizing m pa v k with
  | zero => omega
  | succ n ih =>
    have hw := wf_writeCell h pa (BitVec.ofNat 8 v)
    cases k with
    | zero =>
      -- the bytes that follow stand above, and leave the lowest alone
      rw [writeN, readCell_writeN_off n hw _ _ (by omega), Nat.add_zero, readCell_written h, pow_zero, Nat.div_one]
    | succ k =>
      have hpa : pa + (k + 1) = pa + 1 + k := by omega
      rw [writeN, hpa, ih hw (pa + 1) (v / 256) (by omega), div_256_pow_succ]

/-- The lowest byte of a value read is the byte at its address. -/
theorem readN_succ_mod (m : List Host.Cell) (pa n : Nat) : readN m pa (n + 1) % 256 = (readCell m pa).toNat := by
  rw [readN, Nat.add_mul_mod_self_left, Nat.mod_eq_of_lt (readCell m pa).isLt]

/-- What stands above the lowest byte of a value read is the value at the next address. -/
theorem readN_succ_div (m : List Host.Cell) (pa n : Nat) : readN m pa (n + 1) / 256 = readN m (pa + 1) n := by
  rw [readN, Nat.add_mul_div_left _ _ (by omega), Nat.div_eq_of_lt (readCell m pa).isLt, Nat.zero_add]

/-- Byte `k` of a value read is the byte `k` addresses above the lowest (R4). -/
theorem readN_div_mod (m : List Host.Cell) (pa n : Nat) {k : Nat} (hk : k < n) :
    readN m pa n / 256 ^ k % 256 = (readCell m (pa + k)).toNat := by
  induction n generalizing pa k with
  | zero => omega
  | succ n ih =>
    cases k with
    | zero => rw [pow_zero, Nat.div_one, readN_succ_mod, Nat.add_zero]
    | succ k =>
      have hpa : pa + (k + 1) = pa + 1 + k := by omega
      rw [div_256_pow_succ, readN_succ_div, ih (pa + 1) (by omega), hpa]

/-- `n` bytes read are a value of `n` bytes. -/
theorem readN_lt (m : List Host.Cell) (pa n : Nat) : readN m pa n < 256 ^ n := by
  induction n generalizing pa with
  | zero => simp [readN]
  | succ n ih =>
    have hrest : readN m pa (n + 1) / 256 < 256 ^ n := by
      rw [readN_succ_div]
      exact ih (pa + 1)
    rw [pow_succ]
    exact (Nat.div_lt_iff_lt_mul (by omega)).1 hrest

theorem State.wr_byte_at {s : State} (h : Memory.wf s.mem = true) (pa n v : Nat) {k : Nat} (hk : k < n) :
    (s.wr pa n v).byte (pa + k) = BitVec.ofNat 8 (v / 256 ^ k) :=
  readCell_writeN_at h pa n v hk

theorem sameOutside_wr {s : State} (h : Memory.wf s.mem = true) (pa n v : Nat) : sameOutside s (s.wr pa n v) pa n :=
  fun _ hb => readCell_writeN_off n h pa v hb

theorem State.rd_div_mod (s : State) (pa n : Nat) {k : Nat} (hk : k < n) :
    s.rd pa n / 256 ^ k % 256 = (s.byte (pa + k)).toNat :=
  readN_div_mod s.mem pa n hk

theorem State.rd_lt (s : State) (pa n : Nat) : s.rd pa n < 256 ^ n := readN_lt s.mem pa n

/-- Settles O50: bits and fields by division on the word's number, the bytes of a value written and read by
induction on their number. -/
theorem littleEndian : Obligations.LittleEndian := by
  intro s pa n v w hwf
  exact ⟨fun _ _ => Nat.testBit_eq_decide_div_mod_eq, fld_eq_div_mod w, fun _ hk => State.wr_byte_at hwf pa n v hk,
    sameOutside_wr hwf pa n v, fun _ hk => s.rd_div_mod pa n hk, s.rd_lt pa n⟩

end Sys2Proof.Machine
end

section
/-! The conditions of the compares (R242, R256): what each value of COND decodes to, the FP32 patterns ordered as the
numbers they stand for, and the compares on the low halves of their operands. -/

namespace Sys2Proof

/-! ### The fields of formats FS and FC -/

section Fields

variable (l : BitVec 1) (n : BitVec 3) (k fn2 : BitVec 2) (rd : BitVec 6) (ra rb : BitVec 7) (fn4 : BitVec 4)

/-- Format FS read back field by field (R243). -/
theorem fs_fields :
    (fs l n k ra rb fn4).field 25 6 = 0x05 ∧ (fs l n k ra rb fn4).field 22 3 = n ∧
    (fs l n k ra rb fn4).field 20 2 = k ∧ (fs l n k ra rb fn4).field 13 7 = ra ∧
    (fs l n k ra rb fn4).field 6 7 = rb ∧ (fs l n k ra rb fn4).field 4 2 = 0 ∧
    (fs l n k ra rb fn4).field 0 4 = fn4 := by
  simp (disch := decide) only [BitVec.field, fs, BitVec.extractLsb'_append_eq_of_le,
    BitVec.extractLsb'_append_eq_of_add_le]
  simp

/-- Format FC read back field by field (R245). -/
theorem fc_fields :
    (fc l rd ra rb n fn2).field 25 6 = 0x2B ∧ (fc l rd ra rb n fn2).field 19 6 = rd ∧
    (fc l rd ra rb n fn2).field 12 7 = ra ∧ (fc l rd ra rb n fn2).field 5 7 = rb ∧
    (fc l rd ra rb n fn2).field 2 3 = n ∧ (fc l rd ra rb n fn2).field 0 2 = fn2 := by
  simp (disch := decide) only [BitVec.field, fc, BitVec.extractLsb'_append_eq_of_le,
    BitVec.extractLsb'_append_eq_of_add_le]
  simp

end Fields

/-! ### The values of COND (R242) -/

theorem icond_ofCode_eq (n : BitVec 3) :
    ICond.ofCode n = [ICond.eq, .ne, .lt, .ge, .ltu, .geu, .bs, .bc][n.toNat]? := by
  revert n
  decide

theorem fcond_ofCode_eq (n : BitVec 3) : FCond.ofCode n = [FCond.eq, .ne, .lt, .ge, .un, .or][n.toNat]? := by
  revert n
  decide

theorem feCond_ofCode_eq (n : BitVec 3) : FeCond.ofCode n = [FeCond.full, .empty][n.toNat]? := by
  revert n
  decide

section Decoding

variable (l : BitVec 1) (n : BitVec 3) (k : SkipCount) (rd : BitVec 6) (ra rb : Reg)

/-- In format FS with a legal SK and first register, FN says how COND and the second register are read (R243). -/
theorem decodeWord_fs (rb : BitVec 7) (fn : BitVec 4) : decodeWord (fs l n k.code ra.code rb fn) =
    match fn.toNat with
    | 0 => (ICond.ofCode n).bind fun c => (Reg.ofCode rb).bind fun rb => some (.sk c k ra rb)
    | 1 => (FCond.ofCode n).bind fun c => (Reg.ofCode rb).bind fun rb => some (.fsk c k ra rb)
    | 2 => guarded (rb = 0) ((FeCond.ofCode n).bind fun c => some (.skf c k ra))
    | _ => none := by
  obtain ⟨hop, hn, hk, ha, hb, hz, hf⟩ := fs_fields l n k.code ra.code rb fn
  rw [decodeWord, hop]
  change decodeOp05 _ = _
  rw [decodeOp05, hz, hk, wordReg, wordReg, ha, hb, hn, hf, skipCount_ofCode_code, ofCode_code]
  rfl

/-- In format FC with legal registers, FN says how COND is read (R245). -/
theorem decodeWord_fc (fn : BitVec 2) : decodeWord (fc l rd ra.code rb.code n fn) =
    match fn.toNat with
    | 0 => (ICond.ofCode n).bind fun c => some (.cset c rd ra rb)
    | 1 => (FCond.ofCode n).bind fun c => some (.fcset c rd ra rb)
    | 2 => guarded (n = 0) (some (.cmp rd ra rb))
    | _ => none := by
  obtain ⟨hop, hd, ha, hb, hn, hf⟩ := fc_fields l n fn rd ra.code rb.code
  rw [decodeWord, hop]
  change decodeOp2B _ = _
  rw [decodeOp2B, wordReg, wordReg, ha, hb, hn, hd, hf, ofCode_code, ofCode_code]
  rfl

theorem decodeWord_sk :
    decodeWord (fs l n k.code ra.code rb.code 0) = (ICond.ofCode n).map fun c => .sk c k ra rb := by
  rw [decodeWord_fs, ofCode_code, Option.map_eq_bind]
  rfl

theorem decodeWord_fsk :
    decodeWord (fs l n k.code ra.code rb.code 1) = (FCond.ofCode n).map fun c => .fsk c k ra rb := by
  rw [decodeWord_fs, ofCode_code, Option.map_eq_bind]
  rfl

theorem decodeWord_skf :
    decodeWord (fs l n k.code ra.code 0 2) = (FeCond.ofCode n).map fun c => .skf c k ra := by
  rw [decodeWord_fs, Option.map_eq_bind]
  rfl

theorem decodeWord_cset :
    decodeWord (fc l rd ra.code rb.code n 0) = (ICond.ofCode n).map fun c => .cset c rd ra rb := by
  rw [decodeWord_fc, Option.map_eq_bind]
  rfl

theorem decodeWord_fcset :
    decodeWord (fc l rd ra.code rb.code n 1) = (FCond.ofCode n).map fun c => .fcset c rd ra rb := by
  rw [decodeWord_fc, Option.map_eq_bind]
  rfl

end Decoding

end Sys2Proof

namespace Sys2Proof.Machine

/-! ### The integer conditions (R256) -/

/-- The integer column of R256. -/
theorem icond_iff (a b : Word) : (icond .eq a b = true ↔ a = b) ∧ (icond .ne a b = true ↔ a ≠ b) ∧
    (icond .lt a b = true ↔ a.toInt < b.toInt) ∧ (icond .ge a b = true ↔ b.toInt ≤ a.toInt) ∧
    (icond .ltu a b = true ↔ a.toNat < b.toNat) ∧ (icond .geu a b = true ↔ b.toNat ≤ a.toNat) ∧
    (icond .bs a b = true ↔ a.getLsbD (b.toNat % 64) = true) ∧
    (icond .bc a b = true ↔ a.getLsbD (b.toNat % 64) = false) := by
  have signedLt : a.slt b = true ↔ a.toInt < b.toInt := BitVec.slt_iff_toInt_lt
  have unsignedLt : a.ult b = true ↔ a.toNat < b.toNat := BitVec.ult_iff_lt.trans BitVec.lt_def
  have bitNumber : fld b 0 6 = b.toNat % 64 := rfl
  simp [icond, bit, signedLt, unsignedLt, bitNumber]

/-! ### FP32 patterns in the order of their values (R186, R256) -/

/-- The magnitude, times 2^149, of the FP32 patterns whose bits [30:0] are `k`: exponent above fraction, infinity beyond
every finite one. -/
def fp32Mag (k : Nat) : Nat :=
  if k / 2 ^ 23 = 0 then k % 2 ^ 23 else if k / 2 ^ 23 = 255 then 2 ^ 300
  else (2 ^ 23 + k % 2 ^ 23) * 2 ^ (k / 2 ^ 23 - 1)

theorem f32Order_eq (x : BitVec 32) : f32Order x = signed (bit x 31) (fld x 0 31) := rfl

theorem fp32Value_eq (x : BitVec 32) :
    fp32Value x = if f32IsNaN x then none else some (signed (bit x 31) (fp32Mag (fld x 0 31))) := by
  have hx := x.isLt
  have hk : fld x 0 31 = x.toNat % 2 ^ 31 := by rw [fld_eq_div_mod, pow_zero, Nat.div_one]
  have he : x.toNat / 2 ^ 23 % 2 ^ 8 = fld x 0 31 / 2 ^ 23 := by omega
  have hf : x.toNat % 2 ^ 23 = fld x 0 31 % 2 ^ 23 := by omega
  have hs : x.toNat / 2 ^ 31 = 1 ↔ bit x 31 = true := by
    rw [bit, BitVec.getLsbD, Nat.testBit_eq_decide_div_mod_eq, decide_eq_true_eq]
    omega
  have hnan : f32IsNaN x = true ↔ fld x 0 31 / 2 ^ 23 = 255 ∧ fld x 0 31 % 2 ^ 23 ≠ 0 := by
    rw [f32IsNaN, fld_eq_div_mod x 23, fld_eq_div_mod x 0 23, pow_zero, Nat.div_one, he, hf]
    simp
  simp only [fp32Value, he, hf, hs, hnan]
  rfl

/-- A finite pattern's magnitude is below those of the next exponent. -/
theorem fp32Mag_lt {k : Nat} (he : k / 2 ^ 23 < 255) : fp32Mag k < 2 ^ 23 * 2 ^ (k / 2 ^ 23) := by
  have hf : k % 2 ^ 23 < 2 ^ 23 := Nat.mod_lt _ (by decide)
  unfold fp32Mag
  split
  · rename_i h0
    rwa [h0, pow_zero, Nat.mul_one]
  · rename_i h0
    obtain ⟨e, hk⟩ := Nat.exists_eq_succ_of_ne_zero h0
    rw [if_neg he.ne, hk, Nat.succ_sub_one, pow_succ' 2 e, ← Nat.mul_assoc]
    exact Nat.mul_lt_mul_of_pos_right (by omega) (by positivity)

/-- The magnitude of a pattern that is no subnormal is at least that of its exponent with fraction 0. -/
theorem fp32Mag_ge {k : Nat} (h0 : k / 2 ^ 23 ≠ 0) : 2 ^ 23 * 2 ^ (k / 2 ^ 23 - 1) ≤ fp32Mag k := by
  unfold fp32Mag
  rw [if_neg h0]
  split
  · rename_i h
    rw [← pow_add, Nat.pow_le_pow_iff_right (by decide)]
    omega
  · exact Nat.mul_le_mul_right _ (Nat.le_add_right _ _)

/-- Within one exponent below infinity's, the magnitude grows with the fraction. -/
theorem fp32Mag_lt_of_same_exponent {j k : Nat} (he : j / 2 ^ 23 = k / 2 ^ 23) (h255 : j / 2 ^ 23 ≠ 255)
    (hf : j % 2 ^ 23 < k % 2 ^ 23) : fp32Mag j < fp32Mag k := by
  unfold fp32Mag
  rw [← he, if_neg h255, if_neg h255]
  split
  · exact hf
  · exact Nat.mul_lt_mul_of_pos_right (by omega) (by positivity)

/-- Up to infinity, the bits [30:0] of a pattern are in the order of the magnitude they stand for. -/
theorem fp32Mag_strictMonoOn : StrictMonoOn fp32Mag (Set.Iic (255 * 2 ^ 23)) := by
  intro j _ k hk hjk
  rw [Set.mem_Iic] at hk
  rcases (Nat.div_le_div_right (c := 2 ^ 23) hjk.le).lt_or_eq with he | he
  · calc fp32Mag j < 2 ^ 23 * 2 ^ (j / 2 ^ 23) := fp32Mag_lt (by omega)
      _ ≤ 2 ^ 23 * 2 ^ (k / 2 ^ 23 - 1) := Nat.mul_le_mul_left _ (Nat.pow_le_pow_right (by decide) (by omega))
      _ ≤ fp32Mag k := fp32Mag_ge (by omega)
  · exact fp32Mag_lt_of_same_exponent he (by omega) (by omega)

/-- What is not a NaN stands at or below infinity. -/
theorem fld_le_of_not_nan {x : BitVec 32} (h : f32IsNaN x = false) : fld x 0 31 ≤ 255 * 2 ^ 23 := by
  have hx := x.isLt
  simp only [f32IsNaN, fld_eq_div_mod, Bool.and_eq_false_iff, decide_eq_false_iff_not, ne_eq] at h ⊢
  omega

/-- Numbers with signs are in the order of others whose magnitudes are in the same order, zero standing for zero:
−0 and +0 are one number. -/
theorem signed_order_congr {j k mj mk : Nat} (hlt : mj < mk ↔ j < k) (hgt : mk < mj ↔ k < j) (hj : mj = 0 ↔ j = 0)
    (hk : mk = 0 ↔ k = 0) (sj sk : Bool) :
    (signed sj mj < signed sk mk ↔ signed sj j < signed sk k) ∧
    (signed sj mj = signed sk mk ↔ signed sj j = signed sk k) := by
  cases sj <;> cases sk <;> simp only [signed, if_true, if_false, Bool.false_eq_true] <;> omega

/-- The order that `fcond` compares by is the order of the values (R256). -/
theorem fp32Value_order {x y : BitVec 32} (hx : f32IsNaN x = false) (hy : f32IsNaN y = false) :
    ∃ u v, fp32Value x = some u ∧ fp32Value y = some v ∧
      (u < v ↔ f32Order x < f32Order y) ∧ (u = v ↔ f32Order x = f32Order y) := by
  have hj := fld_le_of_not_nan hx
  have hk := fld_le_of_not_nan hy
  have mono := fp32Mag_strictMonoOn
  have hzero {k : Nat} (h : k ≤ 255 * 2 ^ 23) : fp32Mag k = 0 ↔ k = 0 := mono.injOn.eq_iff h (Nat.zero_le _)
  refine ⟨_, _, by rw [fp32Value_eq, hx]; rfl, by rw [fp32Value_eq, hy]; rfl, ?_⟩
  rw [f32Order_eq, f32Order_eq]
  exact signed_order_congr (mono.lt_iff_lt hj hk) (mono.lt_iff_lt hk hj) (hzero hj) (hzero hk) _ _

theorem fp32Value_eq_none_iff (x : BitVec 32) : fp32Value x = none ↔ f32IsNaN x = true := by
  rw [fp32Value_eq]
  split <;> simp [*]

/-- The FP32 column of R256, by the values of the two patterns. -/
theorem fcond_iff (x y : BitVec 32) :
    let nan : Prop := fp32Value x = none ∨ fp32Value y = none
    let both (p : Int → Int → Prop) : Prop := ∃ u v, fp32Value x = some u ∧ fp32Value y = some v ∧ p u v
    (fcond .eq x y = true ↔ both (· = ·)) ∧ (fcond .ne x y = true ↔ nan ∨ both (· ≠ ·)) ∧
    (fcond .lt x y = true ↔ both (· < ·)) ∧ (fcond .ge x y = true ↔ both (· ≥ ·)) ∧
    (fcond .un x y = true ↔ nan) ∧ (fcond .or x y = true ↔ ¬ nan) := by
  rcases hun : f32IsNaN x || f32IsNaN y with _ | _
  · -- both are numbers
    obtain ⟨hx, hy⟩ := Bool.or_eq_false_iff.1 hun
    obtain ⟨u, v, hu, hv, hlt, heq⟩ := fp32Value_order hx hy
    have hle : v ≤ u ↔ f32Order y ≤ f32Order x := by rw [← not_lt, hlt, not_lt]
    simp [fcond, hx, hy, hu, hv, hlt, heq, hle]
  · -- a NaN: no ordered condition holds
    have hnan : fp32Value x = none ∨ fp32Value y = none := by
      rwa [fp32Value_eq_none_iff, fp32Value_eq_none_iff, ← Bool.or_eq_true]
    have hboth (p : Int → Int → Prop) : (∃ u v, fp32Value x = some u ∧ fp32Value y = some v ∧ p u v) ↔ False := by
      refine iff_false_intro ?_
      rintro ⟨u, v, hu, hv, -⟩
      simp [hu, hv] at hnan
    simp only [hboth]
    simp [fcond, hun, hnan]

/-! ### What the compares do -/

/-- But for the chain registers, skf tests what stage OP would find (R257). -/
theorem State.skfFull_iff (s : State) {ra : Reg} (h60 : ra ≠ .g 60) (h61 : ra ≠ .g 61) :
    s.skfFull ra = true ↔ s.srcEmpty ra = none := by
  rw [State.skfFull, if_neg h60, if_neg h61, Option.isNone_iff_eq_none]

theorem skipValue_eq_code (k : SkipCount) : skipValue k = BitVec.ofNat 2 k.code.toNat := by cases k <;> rfl

/-- Setting Skip commutes with the read of the link. -/
theorem popped_skip (c : Ctx) (s : State) (srcs : List Reg) (v : BitVec 2) :
    Ctx.popped { c with pc := s.iss.next, park := .none, skip := v } srcs = { c.passed s srcs with skip := v } := by
  unfold Ctx.passed Ctx.popped
  split <;> rfl

theorem passed_skip (c : Ctx) (s : State) (srcs : List Reg) : (c.passed s srcs).skip = c.skip := by
  unfold Ctx.passed Ctx.popped
  split <;> rfl

/-- A skip compare moves on, with Skip := SK when its condition holds (R257). -/
theorem skipIf_changed {s : State} {srcs : List Reg} (hl : s.leads) (hi : s.issues srcs []) (t : Bool) (k : SkipCount) :
    Changed s (s.skipIf srcs t k) fun c =>
      { c.passed s srcs with skip := if t then BitVec.ofNat 2 k.code.toNat else c.skip } := by
  rw [← skipValue_eq_code]
  cases t with
  | true =>
    have h := operands_modCtx hl hi fun c => { c with skip := skipValue k }
    simp only [popped_skip] at h
    exact h
  | false =>
    have h := operands_moves hl hi
    have hskip : (fun c : Ctx => c.passed s srcs) = fun c => { c.passed s srcs with skip := c.skip } := by
      funext c
      rw [← passed_skip c s srcs]
    rw [hskip] at h
    exact h

/-- fcset compares the low halves of its operands (R256, R259). -/
theorem fcset_writes {s : State} {ra rb : Reg} {rd : BitVec 6} (c : FCond) (h : s.issues [ra, rb] [.g rd]) :
    writes (.fcset c rd ra rb) s [ra, rb] (.g rd)
      (if fcond c ((s.src ra).setWidth 32) ((s.src rb).setWidth 32) then 1 else 0) :=
  ⟨_, rfl, compute_wrote h _⟩

/-- fsk compares the low halves of its operands (R256, R257). -/
theorem fsk_changes {s : State} {ra rb : Reg} (c : FCond) (k : SkipCount) (hl : s.leads) (h : s.issues [ra, rb] []) :
    changes (.fsk c k ra rb) s fun x => { x.passed s [ra, rb] with
      skip := if fcond c ((s.src ra).setWidth 32) ((s.src rb).setWidth 32) then BitVec.ofNat 2 k.code.toNat else x.skip } :=
  ⟨_, rfl, skipIf_changed hl h _ k⟩

/-- Settles O51: the decoder on formats FS and FC, the integer conditions by `toInt` and `toNat`, the FP32 conditions
because the patterns that are no NaN stand in the order of their values, and the compares' results. -/
theorem conditions : Obligations.Conditions := by
  refine ⟨fun n k ra rb rd => ?_, icond_iff, fcond_iff, fun s _ h60 h61 => s.skfFull_iff h60 h61,
    fun s c k rd ra rb => ⟨fcset_writes c, fsk_changes c k⟩⟩
  simp only [← icond_ofCode_eq, ← fcond_ofCode_eq, ← feCond_ofCode_eq]
  exact ⟨decodeWord_sk 0 n k ra rb, decodeWord_fsk 0 n k ra rb, decodeWord_skf 0 n k ra, decodeWord_cset 0 n rd ra rb,
    decodeWord_fcset 0 n rd ra rb⟩

end Sys2Proof.Machine
end

section
/-! The breakpoint (R275): format FI read back, the two ways in which a word that is lone only or of the C class makes a
pair illegal (R238), and the effect of a unit with no operands. -/

namespace Sys2Proof

/-! ### The encoding -/

theorem append_eq_zero_iff {m n : Nat} (x : BitVec m) (y : BitVec n) : x ++ y = 0 ↔ x = 0 ∧ y = 0 := by
  simp only [BitVec.toNat_eq, BitVec.toNat_append, BitVec.ofNat_eq_ofNat, BitVec.toNat_ofNat, Nat.zero_mod,
    Nat.or_eq_zero_iff, Nat.shiftLeft_eq_zero_iff]

/-- Format FI read back, RD and RA as the one field that brk leaves zero (R245). -/
theorem fi_fields (l : BitVec 1) (op rd ra : BitVec 6) (imm : BitVec 13) :
    (fi l op rd ra imm).field 25 6 = op ∧ (fi l op rd ra imm).field 13 12 = rd ++ ra ∧
    (fi l op rd ra imm).field 0 13 = imm := by
  have hregs : l ++ op ++ rd ++ ra = l ++ op ++ (rd ++ ra) := by rw [BitVec.append_assoc]; rfl
  rw [fi, hregs]
  simp (disch := decide) only [BitVec.field, BitVec.extractLsb'_append_eq_of_le,
    BitVec.extractLsb'_append_eq_of_add_le]
  simp

theorem decodeWord_op1F {w : BitVec 32} (h : w.field 25 6 = 0x1F) :
    decodeWord w = guarded (w.field 13 12 = 0) (some (.brk (w.field 0 13))) := by
  rw [decodeWord, h]
  rfl

theorem decodeWord_fi_op1F (l : BitVec 1) (rd ra : BitVec 6) (imm : BitVec 13) :
    decodeWord (fi l 0x1F rd ra imm) = if rd = 0 ∧ ra = 0 then some (.brk imm) else none := by
  obtain ⟨hop, hregs, himm⟩ := fi_fields l 0x1F rd ra imm
  rw [decodeWord_op1F hop, hregs, himm, guarded]
  exact if_congr (append_eq_zero_iff rd ra) rfl rfl

/-! ### What a pair may not hold (R238) -/

theorem isCClass_op1F {w : BitVec 32} (h : w.field 25 6 = 0x1F) : isCClass w = true := by
  rw [isCClass, h]
  rfl

theorem loneOnly_op1F {w : BitVec 32} (h : w.field 25 6 = 0x1F) : loneOnly w = true := by
  simp [loneOnly, h]

/-- A field of one word of a doubleword, as a field of the doubleword (R237). -/
theorem field_extractLsb' (dw : Word) (start : Nat) {lo len : Nat} (h : lo + len ≤ 32) :
    (dw.extractLsb' start 32).field lo len = dw.extractLsb' (start + lo) len := by
  ext i hi
  have hlo : lo + i < 32 := by omega
  simp [BitVec.field, hlo, Nat.add_assoc]

theorem field_31_ne_one {w : BitVec 32} (h : w.getLsbD 31 = false) : w.field 31 1 ≠ 1 := by
  intro h1
  have hbit : (w.field 31 1).getLsbD 0 = w.getLsbD 31 := by simp [BitVec.field]
  rw [h1, h] at hbit
  exact absurd hbit (by decide)

/-- With L of word 0 clear the doubleword is a pair, and word 0 that is lone only makes it illegal. -/
theorem decodeUnit_loneOnly_first {dw : Word} (hl : (dw.extractLsb' 0 32).field 31 1 ≠ 1)
    (h : loneOnly (dw.extractLsb' 0 32) = true) : decodeUnit dw false = .illegal false := by
  simp only [decodeUnit, Bool.false_eq_true, if_false, if_neg hl]
  cases decodeWord (dw.extractLsb' 0 32) with
  | none => rfl
  | some c => exact if_pos (.inr h)

/-- With L of word 0 clear the doubleword is a pair, and word 1 of the C class makes it illegal. -/
theorem decodeUnit_cClass_second {dw : Word} (hl : (dw.extractLsb' 0 32).field 31 1 ≠ 1)
    (h : isCClass (dw.extractLsb' 32 32) = true) : ∃ b, decodeUnit dw false = .illegal b := by
  simp only [decodeUnit, Bool.false_eq_true, if_false, if_neg hl]
  cases decodeWord (dw.extractLsb' 0 32) with
  | none => exact ⟨false, rfl⟩
  | some c =>
    by_cases hfirst : ¬ isCClass (dw.extractLsb' 0 32) ∨ loneOnly (dw.extractLsb' 0 32)
    · exact ⟨false, if_pos hfirst⟩
    · exact ⟨true, (if_neg hfirst).trans (if_pos (.inr h))⟩

/-- A pair with OP 0x1F in either word is illegal, whatever its other fields. -/
theorem decodeUnit_op1F {dw : Word} (hl : dw.getLsbD 31 = false)
    (hop : dw.extractLsb' 25 6 = 0x1F#6 ∨ dw.extractLsb' 57 6 = 0x1F#6) : ∃ b, decodeUnit dw false = .illegal b := by
  have hl0 : (dw.extractLsb' 0 32).field 31 1 ≠ 1 := field_31_ne_one (by simpa using hl)
  obtain h0 | h1 := hop
  · have hop0 : (dw.extractLsb' 0 32).field 25 6 = 0x1F := (field_extractLsb' dw 0 (by decide)).trans h0
    exact ⟨false, decodeUnit_loneOnly_first hl0 (loneOnly_op1F hop0)⟩
  · have hop1 : (dw.extractLsb' 32 32).field 25 6 = 0x1F := (field_extractLsb' dw 32 (by decide)).trans h1
    exact decodeUnit_cClass_second hl0 (isCClass_op1F hop1)

end Sys2Proof

namespace Sys2Proof.Machine

/-! ### The effect -/

/-- A unit with no register operands always issues, and reads no link. -/
theorem operands_nil (s : State) (f : State → State) : s.operands [] [] f = f s.advance := by
  have hi : s.issues [] [] := rfl
  rw [operands_issues hi, takeLink_none _ rfl]

theorem exec_brk (s : State) (imm : BitVec 13) :
    exec (.brk imm) s = .next (s.advance.raise 0x14 s.iss.w (imm.setWidth 64)) := by
  change execBrk imm s = _
  rw [execBrk, operands_nil, advance_iss, zext]

/-- Settles O52: format FI with OP 0x1F, the example word as an instance of it, the pairs that hold a brk, and the trap. -/
theorem breakpointTraps : Obligations.BreakpointTraps :=
  ⟨decodeWord_fi_op1F, decodeWord_fi_op1F 0 0 0 0x12, fun _ hl hop => decodeUnit_op1F hl hop, exec_brk⟩

end Sys2Proof.Machine
end
